-- ==== Sys2Proof/Word.lean ====
section
/-! DEFINITION. Words and fixed-length tables: the plain data every other file is written with. -/

namespace Sys2Proof

/-- One byte of the host link. -/
abbrev Byte := BitVec 8

/-- A handset tag, 28 bits (00_scope.md, Indices and identities). -/
abbrev Tag := BitVec 28

/-- A credential, 21 bits (00_scope.md, Indices and identities). -/
abbrev Credential := BitVec 21

/-- A value of the tick counter, 32 bits (R9). -/
abbrev Tick := BitVec 32

/-- A base index 0..31: port × 8 + position. -/
abbrev BaseIx := Fin 32

/-- A channel of a base, 0..7. -/
abbrev ChanIx := Fin 8

/-- A call index 0..95. -/
abbrev CallIx := Fin 96

/-- A handset slot 0..511. -/
abbrev SlotIx := Fin 512

/-- A capture slot 0..3. -/
abbrev CapIx := Fin 4

/-- A port 0..3. -/
abbrev PortIx := Fin 4

/-- A zone 0..3. -/
abbrev ZoneIx := Fin 4

/-- A table of exactly `n` entries: the list carries its own length once, so that every index is in range. -/
structure Table (α : Type) (n : Nat) where
  list : List α
  size : list.length = n
  deriving DecidableEq, Repr

/-- Entry `i` of a table. -/
def Table.get {α : Type} {n : Nat} (t : Table α n) (i : Fin n) : α :=
  t.list[i.val]'(by rw [t.size]; exact i.isLt)

/-- The table with entry `i` replaced. -/
def Table.set {α : Type} {n : Nat} (t : Table α n) (i : Fin n) (a : α) : Table α n :=
  ⟨t.list.set i.val a, by rw [List.length_set]; exact t.size⟩

/-- The table with `f` applied to every entry. -/
def Table.map {α β : Type} {n : Nat} (f : α → β) (t : Table α n) : Table β n :=
  ⟨t.list.map f, by rw [List.length_map]; exact t.size⟩

/-- Two tables combined entry by entry. -/
def Table.zip {α β γ : Type} {n : Nat} (f : α → β → γ) (t : Table α n) (u : Table β n) : Table γ n :=
  ⟨List.zipWith f t.list u.list, by rw [List.length_zipWith, t.size, u.size, Nat.min_self]⟩

/-- The table with `a` in every place. -/
def Table.fill {α : Type} (n : Nat) (a : α) : Table α n :=
  ⟨List.replicate n a, List.length_replicate⟩

/-- The lowest index whose entry passes the test. -/
def Table.lowest {α : Type} {n : Nat} (p : α → Bool) (t : Table α n) : Option (Fin n) :=
  (t.list.findFinIdx? p).map (Fin.cast t.size)

/-- Every index `0..n-1`, ascending. -/
def indices (n : Nat) : List (Fin n) := List.finRange n

/-- `n` as a `Fin m` when it is in range: how a request's index byte becomes an index. -/
def toIndex (m n : Nat) : Option (Fin m) :=
  if h : n < m then some ⟨n, h⟩ else none

end Sys2Proof
end

