-- ==== Sys2Proof/Syntax.lean ====
section
/-! DEFINITION. The commands of the block: one constructor of `Instr` per row of spec/opcode_table.json. -/

namespace Sys2Proof

/-- The health a STATUS frame carries (R18). -/
inductive Health where
  | ok
  | degraded
  | failed
  deriving DecidableEq, Repr

/-- A target: a base of the part's own zone, or a base of another zone (00_scope.md, Indices and identities). -/
inductive Target where
  | localBase (base : BaseIx)
  | foreignBase (zone : ZoneIx) (base : BaseIx)
  deriving DecidableEq, Repr

/-- Where a base frame comes from, and whether it passes the framing check of its port (R18). -/
structure Origin where
  port : PortIx
  position : Fin 8
  framed : Bool
  deriving DecidableEq, Repr

/-- An uplink reading: seven bits and a check bit (R90). -/
structure UplinkReading where
  value : BitVec 7
  check : Bool
  deriving DecidableEq, Repr

/-- The contents of a REPORT frame (R90). -/
structure ReportFrame where
  call : BitVec 7
  channel : ChanIx
  readingA : UplinkReading
  readingB : UplinkReading
  downlink : BitVec 7
  count : BitVec 3
  neighbours : List (Fin 8 × BitVec 7)
  deriving DecidableEq, Repr

/-- A request of the catalogue with its parameters as the frame carries them, or what R181 answers without an owner. -/
inductive Request where
  | go
  | stop (option : Byte)
  | halt
  | reset
  | identify
  | setPart (zone parity : Byte)
  | setBase (base enabled channels : Byte)
  | setNeighbours (base : Byte) (entries : List (Byte × Byte))
  | setTimers (pairs : List (Byte × BitVec 16))
  | setEvaluator (pairs : List (Byte × BitVec 16))
  | readSettings (group base : Byte)
  | enrol (tag credential : BitVec 32) (cls : Byte)
  | remove (selector : Byte) (value : BitVec 32)
  | bar (selector : Byte) (value : BitVec 32)
  | unbar (selector : Byte) (value : BitVec 32)
  | queryHandset (selector : Byte) (value : BitVec 32)
  | holdAdmission (base : Byte)
  | openAdmission (base : Byte)
  | restoreBase (base : Byte)
  | queryBase (base option : Byte)
  | openCall (tag : BitVec 32) (direction : Byte)
  | closeCall (call : Byte)
  | queryCall (call : Byte)
  | admitCall (tag : BitVec 32) (base zone : Byte)
  | zoneGo (call channel : Byte)
  | zoneFail (call : Byte)
  | zoneComplete (call : Byte)
  | fetchNotice
  | maskNotices (mask : Byte)
  | queryConditions
  | clearConditions (scope conditions : Byte)
  | capture (slot call count mode : Byte) (sample : BitVec 32)
  | cancelCapture (slot : Byte)
  | readCapture (slot first : Byte)
  | mark
  /-- a code that is not in the catalogue (R181) -/
  | unknown (code : Byte)
  /-- a code of the catalogue with fewer or more parameter bytes than it requires (R181) -/
  | badLength (code : Byte)
  deriving DecidableEq, Repr

/-- The commands of the block. `tag` is the tag byte of a request frame (R178). -/
inductive Instr where
  | go (tag : Byte)
  | stop (tag option : Byte)
  | halt (tag : Byte)
  | reset (tag : Byte)
  | identify (tag : Byte)
  | setPart (tag zone parity : Byte)
  | setBase (tag base enabled channels : Byte)
  | setNeighbours (tag base : Byte) (entries : List (Byte × Byte))
  | setTimers (tag : Byte) (pairs : List (Byte × BitVec 16))
  | setEvaluator (tag : Byte) (pairs : List (Byte × BitVec 16))
  | readSettings (tag group base : Byte)
  | enrol (tag : Byte) (handset credential : BitVec 32) (cls : Byte)
  | remove (tag selector : Byte) (value : BitVec 32)
  | bar (tag selector : Byte) (value : BitVec 32)
  | unbar (tag selector : Byte) (value : BitVec 32)
  | queryHandset (tag selector : Byte) (value : BitVec 32)
  | holdAdmission (tag base : Byte)
  | openAdmission (tag base : Byte)
  | restoreBase (tag base : Byte)
  | queryBase (tag base option : Byte)
  | openCall (tag : Byte) (handset : BitVec 32) (direction : Byte)
  | closeCall (tag call : Byte)
  | queryCall (tag call : Byte)
  | admitCall (tag : Byte) (handset : BitVec 32) (base zone : Byte)
  | zoneGo (tag call channel : Byte)
  | zoneFail (tag call : Byte)
  | zoneComplete (tag call : Byte)
  | fetchNotice (tag : Byte)
  | maskNotices (tag mask : Byte)
  | queryConditions (tag : Byte)
  | clearConditions (tag scope conditions : Byte)
  | capture (tag slot call count mode : Byte) (sample : BitVec 32)
  | cancelCapture (tag slot : Byte)
  | readCapture (tag slot first : Byte)
  | mark (tag : Byte)
  | unknownRequest (tag code : Byte) (params : List Byte)
  | requestFrame (bytes : List Byte)
  | gapCountExpiry
  | replySent
  | warmReset
  | coldReset
  | resetRelease (straps : Fin 8)
  | carrierLost (port : PortIx)
  | carrierRegained (port : PortIx)
  | markEdge
  | tick
  | status (origin : Origin) (health : Health)
  | echo (origin : Origin) (serial : Byte)
  | fragFirst (origin : Origin) (fragment : Byte)
  | fragNext (origin : Origin) (fragment : Byte)
  | fragClose (origin : Origin) (fragment : Byte)
  | report (origin : Origin) (frame : ReportFrame)
  | arrival (origin : Origin) (channel : ChanIx) (handset : Tag)
  | loss (origin : Origin) (channel : ChanIx) (handset : Tag)
  | settleExpiry (base : BaseIx)
  | heartbeatExpiry (base : BaseIx)
  | echoDeadlineExpiry (base : BaseIx) (serial : Byte)
  | gapDeadlineExpiry (base : BaseIx)
  | lifetimeExpiry (slot : SlotIx)
  | originationExpiry (slot : SlotIx)
  | setupDeadlineExpiry (call : CallIx)
  | switchDeadlineExpiry (call : CallIx)
  | zoneDeadlineExpiry (call : CallIx)
  | guardExpiry (call : CallIx)
  | penaltyExpiry (call : CallIx) (target : Target)
  | markDriveEnd
  | hrxByte (byte : Byte) (stop : Bool)
  deriving DecidableEq, Repr

end Sys2Proof
end

