-- ==== Sys2Proof/Decode.lean ====
section
/-! DEFINITION. What a word spells (no row of the table gives bits), and the request frames of the host link: parsing the
code and parameter bytes of a good frame (R181, the catalogue of 12_the_host_link.md section 12.4) and writing them. -/

namespace Sys2Proof

/-- The table gives no row any bits, so no word spells a command. -/
def decodeTableWord (_nbits _w : Nat) : Option Instr :=
  none

/-- Two bytes, most significant first (R183), as one number. -/
def join16 (a b : Byte) : BitVec 16 :=
  a ++ b

/-- Four bytes, most significant first (R183), as one number. -/
def join32 (a b c d : Byte) : BitVec 32 :=
  (a ++ b) ++ (c ++ d)

/-- The two bytes of a number, most significant first (R183). -/
def split16 (x : BitVec 16) : List Byte :=
  [x.extractLsb' 8 8, x.extractLsb' 0 8]

/-- The four bytes of a number, most significant first (R183). -/
def split32 (x : BitVec 32) : List Byte :=
  [x.extractLsb' 24 8, x.extractLsb' 16 8, x.extractLsb' 8 8, x.extractLsb' 0 8]

/-- `n` entries of a target byte and an offset byte: `none` when the bytes are fewer or more. -/
def parseEntries : Nat → List Byte → Option (List (Byte × Byte))
  | 0, [] => some []
  | n + 1, t :: o :: rest => (parseEntries n rest).map ((t, o) :: ·)
  | _, _ => none

/-- `n` pairs of a setting number and a 2-byte value: `none` when the bytes are fewer or more. -/
def parsePairs : Nat → List Byte → Option (List (Byte × BitVec 16))
  | 0, [] => some []
  | n + 1, k :: hi :: lo :: rest => (parsePairs n rest).map ((k, join16 hi lo) :: ·)
  | _, _ => none

/-- The bytes of a neighbour list. -/
def entryBytes : List (Byte × Byte) → List Byte
  | [] => []
  | (t, o) :: rest => t :: o :: entryBytes rest

/-- The bytes of a list of setting pairs. -/
def pairBytes : List (Byte × BitVec 16) → List Byte
  | [] => []
  | (k, v) :: rest => k :: split16 v ++ pairBytes rest

/-- The request codes of the catalogue (section 12.4). -/
def catalogue : List Byte :=
  [0x01, 0x02, 0x03, 0x04, 0x05, 0x10, 0x11, 0x12, 0x13, 0x14, 0x15, 0x20, 0x21, 0x22, 0x23, 0x24, 0x30, 0x31, 0x32,
   0x33, 0x40, 0x41, 0x42, 0x50, 0x51, 0x52, 0x53, 0x60, 0x61, 0x62, 0x63, 0x70, 0x71, 0x72, 0x73]

/-- The parameters of a request whose code requires a fixed number of bytes (section 12.4); `none` when they are fewer
or more, or the code requires a list or is not in the catalogue. That the access class of ENROL takes one byte, and so its
parameters nine in all, and that an enumerated value takes one byte is the model's choice: R183's list of widths names
neither (log entry 34). -/
def parseFixed (code : Byte) (params : List Byte) : Option Request :=
  match code.toNat, params with
  | 0x01, [] => some .go
  | 0x02, [o] => some (.stop o)
  | 0x03, [] => some .halt
  | 0x04, [] => some .reset
  | 0x05, [] => some .identify
  | 0x10, [z, p] => some (.setPart z p)
  | 0x11, [b, e, c] => some (.setBase b e c)
  | 0x15, [g, b] => some (.readSettings g b)
  | 0x20, [a, b, c, d, e, f, g, h, k] => some (.enrol (join32 a b c d) (join32 e f g h) k)
  | 0x21, [k, a, b, c, d] => some (.remove k (join32 a b c d))
  | 0x22, [k, a, b, c, d] => some (.bar k (join32 a b c d))
  | 0x23, [k, a, b, c, d] => some (.unbar k (join32 a b c d))
  | 0x24, [k, a, b, c, d] => some (.queryHandset k (join32 a b c d))
  | 0x30, [b] => some (.holdAdmission b)
  | 0x31, [b] => some (.openAdmission b)
  | 0x32, [b] => some (.restoreBase b)
  | 0x33, [b, o] => some (.queryBase b o)
  | 0x40, [a, b, c, d, k] => some (.openCall (join32 a b c d) k)
  | 0x41, [c] => some (.closeCall c)
  | 0x42, [c] => some (.queryCall c)
  | 0x50, [a, b, c, d, e, z] => some (.admitCall (join32 a b c d) e z)
  | 0x51, [c, h] => some (.zoneGo c h)
  | 0x52, [c] => some (.zoneFail c)
  | 0x53, [c] => some (.zoneComplete c)
  | 0x60, [] => some .fetchNotice
  | 0x61, [m] => some (.maskNotices m)
  | 0x62, [] => some .queryConditions
  | 0x63, [k, c] => some (.clearConditions k c)
  | 0x70, [k, c, n, m, a, b, d, e] => some (.capture k c n m (join32 a b d e))
  | 0x71, [k] => some (.cancelCapture k)
  | 0x72, [k, f] => some (.readCapture k f)
  | 0x73, [] => some .mark
  | _, _ => none

/-- The request of a good frame (R181): a code outside the catalogue is unknown, and a code of the catalogue with fewer
or more parameter bytes than it requires is a bad length. The three list requests carry a count byte. -/
def parseRequest (code : Byte) (params : List Byte) : Request :=
  if code ∈ catalogue then
    let parsed :=
      match code.toNat, params with
      | 0x12, b :: n :: rest => (parseEntries n.toNat rest).map (Request.setNeighbours b)
      | 0x13, n :: rest => (parsePairs n.toNat rest).map Request.setTimers
      | 0x14, n :: rest => (parsePairs n.toNat rest).map Request.setEvaluator
      | _, _ => parseFixed code params
    parsed.getD (.badLength code)
  else .unknown code

/-- The request code that names a request in its frame and in its reply (section 12.4). -/
def Request.code : Request → Byte
  | .go => 0x01
  | .stop _ => 0x02
  | .halt => 0x03
  | .reset => 0x04
  | .identify => 0x05
  | .setPart _ _ => 0x10
  | .setBase _ _ _ => 0x11
  | .setNeighbours _ _ => 0x12
  | .setTimers _ => 0x13
  | .setEvaluator _ => 0x14
  | .readSettings _ _ => 0x15
  | .enrol _ _ _ => 0x20
  | .remove _ _ => 0x21
  | .bar _ _ => 0x22
  | .unbar _ _ => 0x23
  | .queryHandset _ _ => 0x24
  | .holdAdmission _ => 0x30
  | .openAdmission _ => 0x31
  | .restoreBase _ => 0x32
  | .queryBase _ _ => 0x33
  | .openCall _ _ => 0x40
  | .closeCall _ => 0x41
  | .queryCall _ => 0x42
  | .admitCall _ _ _ => 0x50
  | .zoneGo _ _ => 0x51
  | .zoneFail _ => 0x52
  | .zoneComplete _ => 0x53
  | .fetchNotice => 0x60
  | .maskNotices _ => 0x61
  | .queryConditions => 0x62
  | .clearConditions _ _ => 0x63
  | .capture _ _ _ _ _ => 0x70
  | .cancelCapture _ => 0x71
  | .readCapture _ _ => 0x72
  | .mark => 0x73
  | .unknown c => c
  | .badLength c => c

/-- The parameter bytes of a request of the catalogue, in the order they occupy the frame (section 12.4, R183). -/
def Request.params : Request → List Byte
  | .stop o => [o]
  | .setPart z p => [z, p]
  | .setBase b e c => [b, e, c]
  | .setNeighbours b es => b :: BitVec.ofNat 8 es.length :: entryBytes es
  | .setTimers ps => BitVec.ofNat 8 ps.length :: pairBytes ps
  | .setEvaluator ps => BitVec.ofNat 8 ps.length :: pairBytes ps
  | .readSettings g b => [g, b]
  | .enrol t c k => split32 t ++ split32 c ++ [k]
  | .remove k v => k :: split32 v
  | .bar k v => k :: split32 v
  | .unbar k v => k :: split32 v
  | .queryHandset k v => k :: split32 v
  | .holdAdmission b => [b]
  | .openAdmission b => [b]
  | .restoreBase b => [b]
  | .queryBase b o => [b, o]
  | .openCall t d => split32 t ++ [d]
  | .closeCall c => [c]
  | .queryCall c => [c]
  | .admitCall t b z => split32 t ++ [b, z]
  | .zoneGo c h => [c, h]
  | .zoneFail c => [c]
  | .zoneComplete c => [c]
  | .maskNotices m => [m]
  | .clearConditions k c => [k, c]
  | .capture k c n m x => [k, c, n, m] ++ split32 x
  | .cancelCapture k => [k]
  | .readCapture k f => [k, f]
  | .go | .halt | .reset | .identify | .fetchNotice | .queryConditions | .mark => []
  | .unknown _ | .badLength _ => []

/-- The sum of bytes modulo 256 (R178). -/
def byteSum (bytes : List Byte) : Byte :=
  bytes.foldl (· + ·) 0

/-- The frame of a body: start byte, LENGTH, the body and the CHECK that makes the sum 0 modulo 256 (R178). -/
def frameOf (body : List Byte) : List Byte :=
  let length : Byte := BitVec.ofNat 8 body.length
  0xA5 :: length :: body ++ [-(byteSum (length :: body))]

/-- The request frame of a request with a tag byte (R178). -/
def Request.frame (r : Request) (tag : Byte) : List Byte :=
  frameOf (r.code :: tag :: r.params)

end Sys2Proof
end

