-- ==== Sys2Proof/Config.lean ====
section
/-! DEFINITION. What the spec leaves open and the machine goes on with: free values, constants without a body. -/

namespace Sys2Proof.Config

/-- FREE VALUE (log entry 7). The order in which the bases of a port are taken at a carrier loss, by position; positions
it does not name follow in ascending order. R137: "both are lost, one after the other", in either order. -/
opaque lossOrder : Nat → List (Fin 8)

/-- FREE VALUE (log entry 8). Whether the mark line is high when this part begins to drive it: only the other parts on
the line decide (R176, R177). -/
opaque markLineHigh : Nat → Bool

end Sys2Proof.Config
end

