-- ==== Sys2Proof/Machine/Data.lean ====
section
/-! DEFINITION. The records of the block: what each unit owns, as plain data. -/

namespace Sys2Proof.Machine

/-! ### Run Control (chapter 1) -/

/-- The run states, in the order R1 names them. -/
inductive RunState where
  | halted
  | standby
  | serving
  | draining
  deriving DecidableEq, Repr

/-- The causes of a RUN_STATE notice (R1). -/
inductive RunCause where
  | go
  | stop
  | stopForce
  | drainDone
  | halt
  deriving DecidableEq, Repr

/-- The fragment parity sense (R12). -/
inductive Parity where
  | odd
  | even
  deriving DecidableEq, Repr

/-- An entry of a neighbour list: a target and its offset in dB, −8..+7 (R13). -/
structure Neighbour where
  target : Target
  offset : Int
  deriving DecidableEq, Repr

/-- The structural settings of one base (R13). -/
structure BaseSettings where
  enabled : Bool
  channels : Nat
  neighbours : List Neighbour
  deriving DecidableEq, Repr

/-- The timer settings, in the order of the table of R14. -/
structure TimerSettings where
  echo : Nat
  setup : Nat
  switch : Nat
  zone : Nat
  guard : Nat
  penalty : Nat
  gap : Nat
  heartbeat : Nat
  settleCold : Nat
  settleWarm : Nat
  hold : Nat
  spacing : Nat
  lifetime : Nat
  deriving DecidableEq, Repr

/-- The evaluator settings, in the order of the table of R15. -/
structure EvaluatorSettings where
  smoothing : Nat
  hysteresis : Nat
  dwell : Nat
  rescueFloor : Nat
  loadPenalty : Nat
  divergence : Nat
  diversity : Nat
  highClass : Nat
  divergeMasked : Bool
  saturateMasked : Bool
  markOnFailure : Bool
  deriving DecidableEq, Repr

/-- Every setting (R11 to R15). -/
structure Settings where
  zone : ZoneIx
  parity : Parity
  bases : Table BaseSettings 32
  timers : TimerSettings
  evaluator : EvaluatorSettings
  deriving DecidableEq, Repr

/-- The failing items of the configuration check, in the order R3 names them. -/
inductive CheckItem where
  | noBase
  | self
  | targetDisabled
  | zoneIsOwn
  | duplicateTarget
  deriving DecidableEq, Repr

/-! ### Base Link Controller (chapter 2) -/

/-- The states of a base record (R19). -/
inductive BaseState where
  | unused
  | down
  | probing
  | inService
  | fault
  deriving DecidableEq, Repr

/-- The causes of a BASE_STATE notice, in the order R19 gives. -/
inductive BaseCause where
  | contact
  | settled
  | settleFault
  | heartbeatLost
  | healthFailed
  | noEcho
  deriving DecidableEq, Repr

/-- The answer causes, in the order of the table of section 4.3. -/
inductive AnswerCause where
  | accept
  | unknown
  | malformed
  | closed
  | barred
  | denied
  | inCall
  | notAttached
  deriving DecidableEq, Repr

/-- The kinds of order (R27). -/
inductive OrderKind where
  | assign
  | release
  | move
  | answer
  | admission
  deriving DecidableEq, Repr

/-- An order with what it carries (R27). -/
inductive Order where
  | assign (channel : ChanIx) (call : CallIx) (tag : Tag)
  | release (channel : ChanIx)
  | move (serving : ChanIx) (target : Target) (channel : ChanIx)
  | answer (tag : Tag) (cause : AnswerCause)
  | admission (closed : Bool)
  deriving DecidableEq, Repr

/-- The blocks that place orders, in the order of R183. -/
inductive Placer where
  | callUnit
  | sequencer
  | registration
  | baseLink
  deriving DecidableEq, Repr

/-- The owner of an order (R27, R74, R131): a call with its use number and order number, a handset slot, or none. -/
inductive OrderOwner where
  | call (call : CallIx) (use orderNo : BitVec 8)
  | slot (slot : SlotIx)
  | none
  deriving DecidableEq, Repr

/-- An entry of an order window (R28). -/
structure WindowEntry where
  serial : BitVec 8
  kind : OrderKind
  placer : Placer
  owner : OrderOwner
  channel : Option ChanIx
  deadline : Nat
  deriving DecidableEq, Repr

/-- The record of one base (R19); its enabled flag is a setting. -/
structure BaseRecord where
  state : BaseState
  held : Bool
  degraded : Bool
  lastHealth : Option Health
  lastBeat : Option Tick
  seen : Bool
  settle : Option Nat
  heartbeat : Option Nat
  window : List WindowEntry
  nextSerial : BitVec 8
  noEcho : Nat
  owedReleases : Table Bool 8
  owedAdmission : Bool
  lateEchoes : Nat
  spoiled : Nat
  droppedAnswers : Nat
  packed : Nat
  deriving DecidableEq, Repr

/-- MODEL's own: an order as the base port of `base` transmitted it (R28). -/
structure SentOrder where
  base : BaseIx
  serial : BitVec 8
  order : Order
  deriving DecidableEq, Repr

/-! ### Train Assembler (chapter 3) -/

/-- A COLLECTING assembly context (R36); its fragment count is the length of its list. -/
structure Train where
  fragments : List Byte
  xor : Byte
  vertical : Bool
  overlong : Bool
  gap : Nat
  deriving DecidableEq, Repr

/-- How a closed train is judged (R41): the spoiling outcomes, or good. -/
inductive Judgement where
  | short
  | overlong
  | vertical
  | longitudinal
  | closeParity
  | good
  deriving DecidableEq, Repr

/-- The kinds of access request (R46). -/
inductive AccessKind where
  | attach
  | locate
  | renew
  | detach
  | originate
  | malformed
  deriving DecidableEq, Repr

/-- An access request (R46): the credential is carried by a well-formed ATTACH alone. -/
structure AccessRequest where
  kind : AccessKind
  tag : Tag
  credential : Option Credential
  base : BaseIx
  deriving DecidableEq, Repr

/-! ### Registration Unit (chapter 4) -/

/-- The states of a handset slot, in the order of R49. -/
inductive HandsetState where
  | vacant
  | enrolled
  | attached
  | engaged
  deriving DecidableEq, Repr

/-- The location of a record (R49). -/
inductive Location where
  | absent
  | base (base : BaseIx)
  | zone (zone : ZoneIx)
  deriving DecidableEq, Repr

/-- The fields of a record that its state decides (R49). -/
inductive HandsetStatus where
  | enrolled (zone : Option ZoneIx)
  | attached (base : BaseIx) (lifetime : Nat) (origination : Option Nat)
  | engaged (base : BaseIx) (call : CallIx) (detachPending : Bool)
  deriving DecidableEq, Repr

/-- A handset record that is not VACANT (R49). -/
structure Handset where
  tag : Tag
  credential : Credential
  cls : Fin 16
  barred : Bool
  failures : Nat
  lastAccess : Option Tick
  status : HandsetStatus
  deriving DecidableEq, Repr

/-! ### Call Unit (chapter 5) -/

/-- The owner of a channel: a call index with the context's use number at the claim (R70, R74). -/
structure Owner where
  call : CallIx
  use : BitVec 8
  deriving DecidableEq, Repr

/-- An entry of a channel map (R70). -/
inductive Channel where
  | free
  | reserved (owner : Owner) (expected : Tag)
  | busy (owner : Owner)
  | releasing (owner : Option Owner)
  | releaseOwed
  deriving DecidableEq, Repr

/-- A channel of a base. -/
structure ChanRef where
  base : BaseIx
  channel : ChanIx
  deriving DecidableEq, Repr

/-- The direction of a LOCAL call (R74). -/
inductive Direction where
  | terminating
  | originated
  deriving DecidableEq, Repr

/-- The setup kind with the field it brings: a direction, or the from zone (R74). -/
inductive SetupKind where
  | localCall (direction : Direction)
  | zoneIn (zone : ZoneIx)
  deriving DecidableEq, Repr

/-- Why a setup failed (R81). -/
inductive SetupReason where
  | noEcho
  | timeout
  | baseLost
  deriving DecidableEq, Repr

/-- The clear causes, in the order of R74; HANDED_OUT keeps the zone for the record's return (R68). -/
inductive ClearCause where
  | closed
  | lost
  | baseLost
  | detach
  | forced
  | handedOut (zone : ZoneIx)
  | setupFailed (reason : SetupReason)
  deriving DecidableEq, Repr

/-- The call states other than FREE, with the fields present in one of them alone (R74). -/
inductive Stage where
  | setup (deadline : Option Nat)
  | active
  | clearing (cause : ClearCause)
  deriving DecidableEq, Repr

/-- The Call Unit's fields of a context that is not FREE (R74). -/
structure CallInfo where
  stage : Stage
  kind : SetupKind
  slot : SlotIx
  tag : Tag
  cls : Fin 16
  serving : ChanRef
  reachedActive : Bool
  deriving DecidableEq, Repr

/-! ### Report Filter (chapter 6) -/

/-- A classed reading: a valid level 0..100, a range value 101..126, or absent (section 6.5). -/
inductive Reading where
  | valid (level : Nat)
  | range (raw : Nat)
  | absent
  deriving DecidableEq, Repr

/-- The source of a sample's uplink (R96). -/
inductive UplinkSource where
  | a
  | b
  | none
  deriving DecidableEq, Repr

/-- A neighbour entry of a sample (R99, R100). -/
structure NeighbourReading where
  position : Fin 8
  target : Target
  reading : Reading
  deriving DecidableEq, Repr

/-- The decision outcomes, in the order of R100. -/
inductive Decision where
  | none
  | trigger
  | rescue
  | guarded
  | held
  | doubtful
  | blocked
  deriving DecidableEq, Repr

/-- A sample (R100). -/
structure Sample where
  number : BitVec 32
  tick : Tick
  downlink : Reading
  uplink : Option Nat
  source : UplinkSource
  uplinkRange : Bool
  doubtful : Bool
  neighbours : List NeighbourReading
  decision : Decision
  best : Option (Target × Int)
  deriving DecidableEq, Repr

/-! ### Handover Evaluator (chapter 7) -/

/-- The results of a compare (R115). -/
inductive Compare where
  | better
  | equal
  | worse
  | unordered
  deriving DecidableEq, Repr

/-- A candidate entry (R107); averages and scores are in quarter units. -/
structure Candidate where
  target : Target
  position : Fin 8
  average : Nat
  dwell : Nat
  misses : Nat
  lastCompare : Compare
  lastScore : Option Int
  penalty : Option Nat
  deriving DecidableEq, Repr

/-! ### Handover Sequencer (chapters 8 and 9) -/

/-- The phases by name, in the order of R130. -/
inductive PhaseName where
  | none
  | preparing
  | switching
  | handingOut
  | switchingOut
  deriving DecidableEq, Repr

/-- The handover phase with the fields of the handover record that are present in it (R130). -/
inductive Phase where
  | none
  | preparing (target : ChanRef) (rescue : Bool)
  | switching (target : ChanRef) (rescue : Bool) (old : Option ChanRef) (strays : Nat) (deadline : Nat)
  | handingOut (zone : ZoneIx) (base : BaseIx) (rescue : Bool) (deadline : Nat)
  | switchingOut (zone : ZoneIx) (base : BaseIx) (channel : ChanIx) (rescue : Bool) (old : Option ChanRef)
      (strays : Nat) (deadline : Nat)
  deriving DecidableEq, Repr

/-- Why a handover attempt failed, in the order of R132. -/
inductive HandoverReason where
  | noChannel
  | orderWindowFull
  | noEchoTarget
  | noEchoServing
  | targetLost
  | reverted
  | zoneRefused
  | zoneTimeout
  deriving DecidableEq, Repr

/-- Why a switch ended lost in switch, in the order of R133. -/
inductive LostCase where
  | noStrays
  | oldLinkGone
  | targetLost
  deriving DecidableEq, Repr

/-! ### The call context -/

/-- A call context, all four units' parts (R74, R91, R107, R130, R168). -/
structure Context where
  use : BitVec 8
  call : Option CallInfo
  ring : List Sample
  nextSample : BitVec 32
  lastAccepted : Option Tick
  packed : Nat
  unlisted : Nat
  strays : Nat
  serving : Option Nat
  uplink : Option Nat
  candidates : List Candidate
  divergeSticky : Bool
  saturateSticky : Bool
  phase : Phase
  guard : Option Nat
  orderNo : BitVec 8
  attempts : Nat
  deriving DecidableEq, Repr

/-! ### Captures (chapter 11) -/

/-- The capture modes (R171). -/
inductive CaptureMode where
  | now
  | fromSample (number : BitVec 32)
  | next
  | mark
  deriving DecidableEq, Repr

/-- The completion statuses (R171). -/
inductive CaptureStatus where
  | ok
  | truncated
  | callEnded
  deriving DecidableEq, Repr

/-- What a slot that is not EMPTY holds (R171). -/
structure CaptureHeader where
  call : CallIx
  tag : Tag
  count : Nat
  mode : CaptureMode
  deriving DecidableEq, Repr

/-- A capture slot (R171); a COMPLETE slot keeps the own zone its sample records are formed with (R184). -/
inductive CaptureSlot where
  | empty
  | armedMark (header : CaptureHeader)
  | armedNext (header : CaptureHeader)
  | complete (header : CaptureHeader) (status : CaptureStatus) (samples : List Sample) (ownZone : ZoneIx)
  deriving DecidableEq, Repr

/-! ### Notices (chapter 10) -/

/-- The call a notice is about: its index, and its handset's slot and tag. -/
structure CallRef where
  call : CallIx
  slot : SlotIx
  tag : Tag
  deriving DecidableEq, Repr

/-- The subject of a DIVERGE notice (R112). -/
inductive DivergeSubject where
  | serving
  | uplink
  | candidate (target : Target)
  deriving DecidableEq, Repr

/-- The kinds of notice with their details, in the order of R164. -/
inductive NoticeBody where
  | port (port : PortIx) (up : Bool)
  | baseState (base : BaseIx) (old new : BaseState) (cause : BaseCause)
  | health (base : BaseIx) (degraded : Bool)
  | completed (call : CallRef) (old : Option ChanRef) (new : ChanRef) (rescue : Bool) (strays attempts : Nat)
  | failed (call : CallRef) (serving : ChanRef) (target : Target) (reason : HandoverReason) (phase : PhaseName)
      (rescue : Bool) (attempts : Nat)
  | lostInSwitch (call : CallRef) (old : Option ChanRef) (target : Target) (case_ : LostCase) (strays : Nat)
      (rescue : Bool) (attempts : Nat)
  | zoneOutRequest (call : CallRef) (serving : ChanRef) (zone : ZoneIx) (base : BaseIx) (candidateAverage : Nat)
      (servingAverage : Option Nat) (rescue : Bool) (attempts : Nat)
  | zoneOutDone (call : CallRef) (old : Option ChanRef) (zone : ZoneIx) (base : BaseIx) (channel : ChanIx)
      (strays : Nat) (rescue : Bool) (attempts : Nat)
  | zoneInPrepared (call : CallRef) (serving : ChanRef) (zone : ZoneIx)
  | zoneInArrived (call : CallRef) (serving : ChanRef) (zone : ZoneIx)
  | zoneInFailed (call : CallRef) (serving : ChanRef) (zone : ZoneIx) (reason : SetupReason)
  | connected (call : CallRef) (serving : ChanRef) (direction : Direction)
  | setupFailed (call : CallRef) (serving : ChanRef) (direction : Direction) (reason : SetupReason)
  | cleared (call : CallRef) (serving : ChanRef) (cause : ClearCause) (reachedActive : Bool)
  | diverge (call : CallIx) (sample : BitVec 32) (subject : DivergeSubject) (reading average : Nat)
  | saturate (call : CallIx) (sample : BitVec 32) (target : Target) (score : Int)
  | attached (slot : SlotIx) (tag : Tag) (base : BaseIx) (former : Location)
  | located (slot : SlotIx) (tag : Tag) (former new : BaseIx)
  | detached (slot : SlotIx) (tag : Tag) (base : BaseIx)
  | lapsed (slot : SlotIx) (tag : Tag) (base : BaseIx) (pending : Bool)
  | withdrawn (slot : SlotIx) (tag : Tag) (former : BaseIx) (pending : Bool)
  | refused (slot : SlotIx) (tag : Tag) (base : BaseIx) (kind : AccessKind) (cause : AnswerCause)
  | barredByFailures (slot : SlotIx) (tag : Tag) (base : BaseIx) (after : HandsetState)
  | originationRequest (slot : SlotIx) (tag : Tag) (base : BaseIx)
  | originationExpired (slot : SlotIx) (tag : Tag) (base : BaseIx)
  | captureDone (slot : CapIx) (call : CallIx) (status : CaptureStatus)
  | runState (old new : RunState) (cause : RunCause)
  | ready (warm : Bool)
  deriving DecidableEq, Repr

/-- A notice as a class holds it: what happened and when it was posted (R161). -/
structure Notice where
  tick : Tick
  body : NoticeBody
  deriving DecidableEq, Repr

/-- A notice class (R161). -/
structure NoticeClass where
  fifo : List Notice
  lost : Bool
  masked : Bool
  deriving DecidableEq, Repr

/-! ### Host Link Port (chapter 12) -/

/-- The reply statuses, in the order of their codes (R181). -/
inductive Status where
  | ok
  | okClamped
  | busy
  | unknownRequest
  | badArg
  | wrongState
  | noSuch
  | noRoom
  | duplicate
  | inCall
  | notAttached
  | barred
  | noChannel
  | baseUnavailable
  | orderWindowFull
  | checkFailed
  | notReady
  | none
  | slotArmed
  deriving DecidableEq, Repr

/-- What an owner produces for a request: a status and its results (R181). -/
structure Reply where
  status : Status
  results : List Byte
  deriving DecidableEq, Repr

/-- A good request waiting in the request buffer, with its tag byte (R180). -/
structure Buffered where
  tag : Byte
  request : Request
  deriving DecidableEq, Repr

/-- A BUSY reply in the refusal queue (R180). -/
structure Refused where
  code : Byte
  tag : Byte
  deriving DecidableEq, Repr

/-- The request being executed with its reply (R181). -/
structure Executing where
  code : Byte
  tag : Byte
  reply : Reply
  deriving DecidableEq, Repr

/-- What the transmitter is sending (R180): nothing, the oldest BUSY reply, or the executing request's reply. -/
inductive Sending where
  | idle
  | busy
  | reply
  deriving DecidableEq, Repr

/-- The receiver (R179): in BODY and CHECK with the kept length and body. -/
inductive Receiver where
  | hunt
  | length
  | body (length : Byte) (bytes : List Byte)
  | check (length : Byte) (bytes : List Byte)
  deriving DecidableEq, Repr

/-- The state of the Host Link Port (R179 to R182). -/
structure Link where
  receiver : Receiver
  gap : Option Nat
  errors : Nat
  buffer : List Buffered
  refusals : List Refused
  executing : Option Executing
  sending : Sending
  resetting : Bool
  deriving DecidableEq, Repr

end Sys2Proof.Machine
end

