-- ==== Sys2Proof/Machine/Cold.lean ====
section
/-! DEFINITION. The cold reset value of every record (R8, and the reset tables of each chapter). -/

namespace Sys2Proof.Machine

/-- The default structural settings of a base (R13). -/
def BaseSettings.cold : BaseSettings :=
  { enabled := false, channels := 6, neighbours := [] }

/-- The default timer settings (R14). -/
def TimerSettings.cold : TimerSettings :=
  { echo := 3, setup := 200, switch := 30, zone := 60, guard := 100, penalty := 500, gap := 5, heartbeat := 50,
    settleCold := 200, settleWarm := 50, hold := 200, spacing := 4, lifetime := 30 }

/-- The default evaluator settings (R15). -/
def EvaluatorSettings.cold : EvaluatorSettings :=
  { smoothing := 2, hysteresis := 4, dwell := 3, rescueFloor := 15, loadPenalty := 6, divergence := 30, diversity := 6,
    highClass := 12, divergeMasked := true, saturateMasked := true, markOnFailure := false }

/-- The default settings (R12 to R15). -/
def Settings.cold : Settings :=
  { zone := 0, parity := .odd, bases := Table.fill 32 BaseSettings.cold, timers := TimerSettings.cold,
    evaluator := EvaluatorSettings.cold }

/-- A base record after cold reset (R35). -/
def BaseRecord.cold : BaseRecord :=
  { state := .unused, held := false, degraded := false, lastHealth := none, lastBeat := none, seen := false,
    settle := none, heartbeat := none, window := [], nextSerial := 0, noEcho := 0, owedReleases := Table.fill 8 false,
    owedAdmission := false, lateEchoes := 0, spoiled := 0, droppedAnswers := 0, packed := 0 }

/-- A call context after cold reset (R89, R106, R129, R148). -/
def Context.cold : Context :=
  { use := 0, call := none, ring := [], nextSample := 0, lastAccepted := none, packed := 0, unlisted := 0, strays := 0,
    serving := none, uplink := none, candidates := [], divergeSticky := false, saturateSticky := false, phase := .none,
    guard := none, orderNo := 0, attempts := 0 }

/-- An empty, unmasked notice class (R170). -/
def NoticeClass.cold : NoticeClass :=
  { fifo := [], lost := false, masked := false }

/-- The STATE class right after cold reset: READY (COLD), posted at tick 0 (R8, R170). -/
def NoticeClass.coldState : NoticeClass :=
  { fifo := [{ tick := 0, body := .ready false }], lost := false, masked := false }

/-- The host link after cold reset (R179, R180). -/
def Link.cold : Link :=
  { receiver := .hunt, gap := none, errors := 0, buffer := [], refusals := [], executing := none, sending := .idle,
    resetting := false }

end Sys2Proof.Machine
end

