-- ==== Sys2Proof/Machine/State.lean ====
section
/-! DEFINITION. The state of the block, its faults and refusals, and the block right after cold reset. -/

namespace Sys2Proof.Machine

/-- The block. Each field names the unit that owns it; `pending`, `ordersOut` and `freeCount` are the model's own. -/
structure State where
  /-- MODEL: the commands that wait, first in first out. -/
  pending : List Instr
  /-- RESET pin held low (R8). -/
  resetHeld : Bool
  /-- Host link rate straps as read at cold reset (R8, pin summary). -/
  straps : Fin 8
  /-- Run Control (R1). -/
  runState : RunState
  /-- Run Control (R9). -/
  tick : Tick
  /-- Run Control (R11 to R15). -/
  settings : Settings
  /-- Base Link Controller: the carrier of each port, true for UP (R17). -/
  carriers : Table Bool 4
  /-- Base Link Controller: the base records (R19). -/
  bases : Table BaseRecord 32
  /-- Train Assembler: the assembly contexts, none for IDLE (R36). -/
  trains : Table (Option Train) 32
  /-- Registration Unit: the handset table, none for VACANT (R49). -/
  handsets : Table (Option Handset) 512
  /-- Call Unit: the channel maps (R70). -/
  channels : Table (Table Channel 8) 32
  /-- The call contexts (R74, R91, R107, R130). -/
  contexts : Table Context 96
  /-- Handover Evaluator: part-wide DIVERGE sticky (R168). -/
  divergeSticky : Bool
  /-- Handover Evaluator: part-wide SATURATE sticky (R168). -/
  saturateSticky : Bool
  /-- Notice Unit: the notice classes (R161). -/
  classes : Table NoticeClass 8
  /-- Capture Unit: the capture slots (R171). -/
  slots : Table CaptureSlot 4
  /-- Capture Unit: the ticks left of the part's own drive of the mark line (R177). -/
  markDrive : Option Nat
  /-- Host Link Port (R179 to R182). -/
  link : Link
  /-- MODEL: the orders the base ports transmitted during the last command (R28). -/
  ordersOut : List SentOrder
  /-- MODEL: which free value of Config the next open choice takes. -/
  freeCount : Nat
  deriving DecidableEq, Repr

/-- The spec names nothing that stops the machine, so there is no fault. -/
inductive Fault where
  deriving DecidableEq, Repr

/-- Why a command has no meaning. -/
inductive Refusal where
  /-- Raised by an arm of `exec` whose command has no meaning yet; safe: the machine stops where the block goes on. -/
  | notModelled (mnemonic : String)
  deriving DecidableEq, Repr

/-- The block right after cold reset, the RESET pin released (R8): every value of the cold reset columns, and READY
(COLD) in the STATE class. Carriers UP and straps 0 are DESIGN CHOICE (log entries 5 and 6). -/
def State.reset : State :=
  { pending := [], resetHeld := false, straps := 0, runState := .halted, tick := 0, settings := Settings.cold,
    carriers := Table.fill 4 true, bases := Table.fill 32 BaseRecord.cold, trains := Table.fill 32 none,
    handsets := Table.fill 512 none, channels := Table.fill 32 (Table.fill 8 Channel.free),
    contexts := Table.fill 96 Context.cold, divergeSticky := false, saturateSticky := false,
    classes := (Table.fill 8 NoticeClass.cold).set 7 NoticeClass.coldState,
    slots := Table.fill 4 CaptureSlot.empty, markDrive := none, link := Link.cold, ordersOut := [], freeCount := 0 }

end Sys2Proof.Machine
end

