-- ==== Sys2Proof/Machine/Flags.lean ====
section
/-! DEFINITION. The flags, lines and checks that are computed from the state or from a frame and held nowhere else. -/

namespace Sys2Proof.Machine

/-- The number of 1 bits of a value. -/
def ones {w : Nat} (x : BitVec w) : Nat :=
  (List.range w).countP (fun i => x.getLsbD i)

/-- The parity test of a data fragment (R37): the count of 1 bits among all eight bits agrees with the sense. -/
def Parity.passes (sense : Parity) (x : Byte) : Bool :=
  match sense with
  | .odd => ones x % 2 == 1
  | .even => ones x % 2 == 0

/-- The sense the closing fragment must have (R42): ODD only for an odd fragment count under ODD sense. -/
def Parity.closing (sense : Parity) (count : Nat) : Parity :=
  match sense with
  | .odd => if count % 2 = 1 then .odd else .even
  | .even => .even

/-- The check of an uplink reading (R96): reading and check bit together hold an odd number of 1 bits. -/
def uplinkPasses (r : UplinkReading) : Bool :=
  (ones r.value + (if r.check then 1 else 0)) % 2 == 1

/-- The port of a base: b div 8 (chapter 2). -/
def portOf (b : BaseIx) : PortIx :=
  ⟨b.val / 8, by omega⟩

/-- The base at a position of a port (chapter 2). -/
def baseAt (p : PortIx) (i : Fin 8) : BaseIx :=
  ⟨p.val * 8 + i.val, by omega⟩

/-- Whether a port is driven (R17): the run state is not HALTED and a base on the port is enabled. -/
def State.driven (s : State) (p : PortIx) : Bool :=
  decide (s.runState ≠ .halted) && (indices 8).any (fun i => (s.settings.bases.get (baseAt p i)).enabled)

/-- Whether ATTN is asserted (R167, R8): an unmasked class holds a notice, and the RESET pin is not held low. -/
def State.attn (s : State) : Bool :=
  !s.resetHeld && s.classes.list.any (fun c => !c.masked && !c.fifo.isEmpty)

/-- Whether a base takes no new attachment or call for its admission held or degraded flag (R21, R26). -/
def BaseRecord.closed (r : BaseRecord) : Bool :=
  r.held || r.degraded

/-- The "Closed" of chapter 4: a run state other than SERVING, or a base held or degraded. -/
def State.closedAt (s : State) (b : BaseIx) : Bool :=
  decide (s.runState ≠ .serving) || (s.bases.get b).closed

/-- Every context is FREE (R4, R5). -/
def State.allFree (s : State) : Bool :=
  s.contexts.list.all (fun x => x.call.isNone)

/-- The owner a claim of context `c` records now (R70, R74). -/
def State.ownerOf (s : State) (c : CallIx) : Owner :=
  ⟨c, (s.contexts.get c).use⟩

/-- Whether a channel is RESERVED, BUSY or RELEASING with the owner (R70). -/
def Channel.ownedBy (o : Owner) : Channel → Bool
  | .reserved p _ => p == o
  | .busy p => p == o
  | .releasing (some p) => p == o
  | _ => false

/-- Whether a channel is RESERVED or BUSY with the owner: what a clearing offers a release for (R83). -/
def Channel.heldBy (o : Owner) : Channel → Bool
  | .reserved p _ => p == o
  | .busy p => p == o
  | _ => false

end Sys2Proof.Machine
end

