-- ==== Sys2Proof/Machine/Ops.lean ====
section
/-! DEFINITION. The shared operations of the units: notices, orders, channels, clearing, the endings of a handover, base
loss. Every meaning is written over these. -/

namespace Sys2Proof.Machine

/-- What a command answers. -/
abbrev Result := Host.Outcome State Fault Refusal

/-- What an owner answers when it takes a request: its reply and the state after (R181). -/
abbrev Taken := Reply × State

/-- The start of a command: the ports have transmitted nothing for it yet. -/
def State.fresh (s : State) : State :=
  { s with ordersOut := [] }

/-- A counter that holds at its limit. -/
def sat (limit n : Nat) : Nat :=
  min limit (n + 1)

/-! ### Access -/

/-- The record of a base. -/
def State.base (s : State) (b : BaseIx) : BaseRecord :=
  s.bases.get b

/-- The state with a base record replaced. -/
def State.setBase (s : State) (b : BaseIx) (r : BaseRecord) : State :=
  { s with bases := s.bases.set b r }

/-- The structural settings of a base. -/
def State.cfg (s : State) (b : BaseIx) : BaseSettings :=
  s.settings.bases.get b

/-- A call context. -/
def State.ctx (s : State) (c : CallIx) : Context :=
  s.contexts.get c

/-- The state with a call context replaced. -/
def State.setCtx (s : State) (c : CallIx) (x : Context) : State :=
  { s with contexts := s.contexts.set c x }

/-- A channel. -/
def State.chan (s : State) (p : ChanRef) : Channel :=
  (s.channels.get p.base).get p.channel

/-- The state with a channel replaced. -/
def State.setChan (s : State) (p : ChanRef) (k : Channel) : State :=
  { s with channels := s.channels.set p.base ((s.channels.get p.base).set p.channel k) }

/-- A handset slot. -/
def State.handset (s : State) (i : SlotIx) : Option Handset :=
  s.handsets.get i

/-- The state with a handset slot replaced. -/
def State.setHandset (s : State) (i : SlotIx) (h : Option Handset) : State :=
  { s with handsets := s.handsets.set i h }

/-- The state with an assembly context replaced. -/
def State.setTrain (s : State) (b : BaseIx) (t : Option Train) : State :=
  { s with trains := s.trains.set b t }

/-- The state with a capture slot replaced. -/
def State.setSlot (s : State) (k : CapIx) (x : CaptureSlot) : State :=
  { s with slots := s.slots.set k x }

/-- The state with the host link replaced. -/
def State.setLink (s : State) (l : Link) : State :=
  { s with link := l }

/-- The record that holds a tag; R51 keeps it to one. -/
def State.findTag (s : State) (t : Tag) : Option SlotIx :=
  s.handsets.lowest fun h => match h with
    | some r => r.tag == t
    | none => false

/-! ### Notices (R161, R162) -/

/-- The class a notice is filed in (R164). -/
def NoticeBody.cls : NoticeBody → Fin 8
  | .port _ _ | .baseState _ _ _ _ | .health _ _ => 0
  | .completed _ _ _ _ _ _ | .failed _ _ _ _ _ _ _ | .lostInSwitch _ _ _ _ _ _ _ | .zoneOutRequest _ _ _ _ _ _ _ _
  | .zoneOutDone _ _ _ _ _ _ _ _ | .zoneInPrepared _ _ _ | .zoneInArrived _ _ _ | .zoneInFailed _ _ _ _ => 1
  | .connected _ _ _ | .setupFailed _ _ _ _ | .cleared _ _ _ _ => 2
  | .diverge _ _ _ _ _ | .saturate _ _ _ _ => 3
  | .attached _ _ _ _ | .located _ _ _ _ | .detached _ _ _ | .lapsed _ _ _ _ | .withdrawn _ _ _ _ | .refused _ _ _ _ _
  | .barredByFailures _ _ _ _ => 4
  | .originationRequest _ _ _ | .originationExpired _ _ _ => 5
  | .captureDone _ _ _ => 6
  | .runState _ _ _ | .ready _ => 7

/-- Filing in one class (R162): appended while fewer than 8 are held, otherwise dropped with the lost flag set. -/
def NoticeClass.file (c : NoticeClass) (n : Notice) : NoticeClass :=
  if c.fifo.length < 8 then { c with fifo := c.fifo ++ [n] } else { c with lost := true }

/-- Posting (R162): the notice is stamped with the current tick and filed in the class of its kind. -/
def State.post (s : State) (n : NoticeBody) : State :=
  { s with classes := s.classes.set n.cls ((s.classes.get n.cls).file { tick := s.tick, body := n }) }

/-- A change of run state with its notice (R1). -/
def State.enter (s : State) (r : RunState) (cause : RunCause) : State :=
  ({ s with runState := r }).post (.runState s.runState r cause)

/-! ### Orders (R27 to R32) -/

/-- The kind of an order. -/
def Order.kind : Order → OrderKind
  | .assign _ _ _ => .assign
  | .release _ => .release
  | .move _ _ _ => .move
  | .answer _ _ => .answer
  | .admission _ => .admission

/-- The channel an order's window entry records (R27). -/
def Order.channel : Order → Option ChanIx
  | .assign c _ _ => some c
  | .release c => some c
  | .move c _ _ => some c
  | .answer _ _ => none
  | .admission _ => none

/-- What the placing block is told when it offers an order (R27 to R29). -/
inductive Offered where
  | sent
  | full
  | unavailable
  deriving DecidableEq, Repr

/-- The window entry an order takes (R28). -/
def windowEntry (r : BaseRecord) (o : Order) (placer : Placer) (owner : OrderOwner) (deadline : Nat) : WindowEntry :=
  { serial := r.nextSerial, kind := o.kind, placer := placer, owner := owner, channel := o.channel, deadline := deadline }

/-- Sending (R28): the next serial, an entry at the end of the window with a fresh echo deadline, transmission. -/
def State.send (s : State) (b : BaseIx) (o : Order) (placer : Placer) (owner : OrderOwner) : State :=
  let r := s.base b
  { s.setBase b { r with
      window := r.window ++ [windowEntry r o placer owner s.settings.timers.echo]
      nextSerial := r.nextSerial + 1 } with
    ordersOut := s.ordersOut ++ [{ base := b, serial := r.nextSerial, order := o }] }

/-- What a full window makes of an order at the base (R29). -/
def BaseRecord.overflow (r : BaseRecord) : Order → BaseRecord
  | .answer _ _ => { r with droppedAnswers := sat 65535 r.droppedAnswers }
  | .release c => { r with owedReleases := r.owedReleases.set c true }
  | .admission _ => { r with owedAdmission := true }
  | .assign _ _ _ | .move _ _ _ => r

/-- Offering an order (R27 to R29): not sent outside IN_SERVICE, sent while the window holds fewer than 4 entries. -/
def State.offer (s : State) (b : BaseIx) (o : Order) (placer : Placer) (owner : OrderOwner) : Offered × State :=
  let r := s.base b
  if r.state ≠ .inService then (.unavailable, s)
  else if r.window.length < 4 then (.sent, s.send b o placer owner)
  else (.full, s.setBase b (r.overflow o))

/-- The owner of an order the Call Unit places for a context (R74); its order number is 0 (R183). -/
def State.callOwner (s : State) (c : CallIx) : OrderOwner :=
  .call c (s.ctx c).use 0

/-- Owed items sent when an entry leaves a window (R32): the owed admission first, then the lowest owed release; one
departure sends at most one. -/
def State.sendOwed (s : State) (b : BaseIx) : State :=
  let r := s.base b
  if 4 ≤ r.window.length then s
  else if r.owedAdmission then
    (s.setBase b { r with owedAdmission := false }).send b (.admission r.held) .baseLink .none
  else
    match r.owedReleases.lowest id with
    | none => s
    | some c =>
      ((s.setBase b { r with owedReleases := r.owedReleases.set c false }).send b (.release c) .callUnit .none).setChan
        ⟨b, c⟩ (.releasing none)

/-! ### Channels (R70 to R72) -/

/-- Every channel, in ascending base index and, within a base, ascending channel. -/
def allChannels : List ChanRef :=
  (indices 32).flatMap fun b => (indices 8).map fun c => ⟨b, c⟩

/-- The channels an owner owns (R70). -/
def State.owned (s : State) (o : Owner) : List ChanRef :=
  allChannels.filter fun p => (s.chan p).ownedBy o

/-- The RESERVED and BUSY channels of an owner (R83). -/
def State.heldBy (s : State) (o : Owner) : List ChanRef :=
  allChannels.filter fun p => (s.chan p).heldBy o

/-- Whether a channel exists: it lies below the channel count (R70). -/
def State.chanExists (s : State) (p : ChanRef) : Bool :=
  decide (p.channel.val < (s.cfg p.base).channels)

/-- The existing FREE channels of a base, ascending. -/
def State.freeChannels (s : State) (b : BaseIx) : List ChanIx :=
  (indices 8).filter fun c => s.chanExists ⟨b, c⟩ && (s.chan ⟨b, c⟩ == .free)

/-- The free count of a base (R71). -/
def State.freeChannelCount (s : State) (b : BaseIx) : Nat :=
  (s.freeChannels b).length

/-- A release (R72): sent, owed or, where the base is unavailable, FREE at once. `o` is the owner while RELEASING. -/
def State.release (s : State) (p : ChanRef) (o : Option Owner) : State :=
  let owner : OrderOwner := match o with
    | some k => .call k.call k.use 0
    | none => .none
  let r := s.offer p.base (.release p.channel) .callUnit owner
  match r.1 with
  | .sent => r.2.setChan p (.releasing o)
  | .full => r.2.setChan p .releaseOwed
  | .unavailable => r.2.setChan p .free

/-! ### The mark line (R176, R177) -/

/-- A mark edge at one slot (R173, R176). -/
def CaptureSlot.edge : CaptureSlot → CaptureSlot
  | .armedMark h => .armedNext h
  | k => k

/-- A mark edge (R176): every ARMED_MARK slot becomes ARMED_NEXT; ignored in HALTED. -/
def State.markEdge (s : State) : State :=
  if s.runState = .halted then s else { s with slots := s.slots.map CaptureSlot.edge }

/-- Driving the mark line (R177): the interval restarts at 2 ticks. A drive that begins on a high line makes an edge the
part's own slots see; whether the line was high is a free value (log entry 8). -/
def State.driveMark (s : State) : State :=
  let started := { s with markDrive := some 2 }
  match s.markDrive with
  | some _ => started
  | none =>
    let taken := { started with freeCount := s.freeCount + 1 }
    if Config.markLineHigh s.freeCount then taken.markEdge else taken

/-- The Sequencer's ask for a mark (R132, R133): only with mark on handover failure on. -/
def State.markFailure (s : State) : State :=
  if s.settings.evaluator.markOnFailure then s.driveMark else s

/-! ### Captures (R173, R174) -/

/-- The last `n` samples of a ring, or all of them when it holds fewer. -/
def lastSamples (n : Nat) (ring : List Sample) : List Sample :=
  ring.drop (ring.length - n)

/-- Completion of an armed slot with its DONE notice (R173, R174). -/
def State.completeSlot (s : State) (k : CapIx) (h : CaptureHeader) (status : CaptureStatus) : State :=
  (s.setSlot k (.complete h status (lastSamples h.count (s.ctx h.call).ring) s.settings.zone)).post
    (.captureDone k h.call status)

/-- One slot when its call leaves ACTIVE (R174). -/
def State.endCapture (c : CallIx) (s : State) (k : CapIx) : State :=
  match s.slots.get k with
  | .armedMark h => if h.call = c then s.completeSlot k h .callEnded else s
  | .armedNext h => if h.call = c then s.completeSlot k h .callEnded else s
  | _ => s

/-- The Capture Unit told that a call has left ACTIVE (R174): its armed slots complete, in ascending slot order. -/
def State.endCaptures (s : State) (c : CallIx) : State :=
  (indices 4).foldl (State.endCapture c) s

/-! ### Handset records in calls (R67, R68) -/

/-- The count a lifetime deadline is loaded with: minutes of 6000 ticks (R14). -/
def State.lifetimeTicks (s : State) : Nat :=
  s.settings.timers.lifetime * 6000

/-- The state with the status of a record replaced. -/
def State.setStatus (s : State) (i : SlotIx) (h : Handset) (status : HandsetStatus) : State :=
  s.setHandset i (some { h with status := status })

/-- Engaging a record (R67): location, call index, detach-pending clear; its deadlines go with its old status. -/
def State.engage (s : State) (i : SlotIx) (b : BaseIx) (c : CallIx) : State :=
  match s.handset i with
  | some h => s.setStatus i h (.engaged b c false)
  | none => s

/-- The location of an ENGAGED record after a completed move (R67, R87). -/
def State.relocate (s : State) (i : SlotIx) (b : BaseIx) : State :=
  match s.handset i with
  | some h =>
    match h.status with
    | .engaged _ c d => s.setStatus i h (.engaged b c d)
    | _ => s
  | none => s

/-- The zone a record returns to when its call was handed out, or never arrived from another zone (first two cases of
R68). -/
def CallInfo.returnZone (i : CallInfo) (cause : ClearCause) : Option ZoneIx :=
  match cause with
  | .handedOut z => some z
  | _ =>
    match i.kind with
    | .zoneIn z => if i.reachedActive then none else some z
    | .localCall _ => none

/-- The return of an ENGAGED record (R68): the first case of the table that applies. -/
def State.returnRecord (s : State) (i : CallInfo) (cause : ClearCause) : State :=
  match s.handset i.slot with
  | none => s
  | some h =>
    match h.status with
    | .engaged b _ detachPending =>
      match i.returnZone cause with
      | some z => s.setStatus i.slot h (.enrolled (some z))
      | none =>
        if detachPending then (s.setStatus i.slot h (.enrolled none)).post (.detached i.slot h.tag b)
        else if h.barred then (s.setStatus i.slot h (.enrolled none)).post (.withdrawn i.slot h.tag b false)
        else s.setStatus i.slot h (.attached b s.lifetimeTicks none)
    | _ => s

/-! ### Clearing (R83, R84) -/

/-- The call a notice is about. -/
def CallInfo.ref (i : CallInfo) (c : CallIx) : CallRef :=
  ⟨c, i.slot, i.tag⟩

/-- The notice at the end of a clearing (R81, R84, R158). -/
def CallInfo.endNotice (i : CallInfo) (c : CallIx) (cause : ClearCause) : NoticeBody :=
  match cause with
  | .setupFailed reason =>
    match i.kind with
    | .localCall d => .setupFailed (i.ref c) i.serving d reason
    | .zoneIn z => .zoneInFailed (i.ref c) i.serving z reason
  | _ => .cleared (i.ref c) i.serving cause i.reachedActive

/-- The end of a drain (R5), looked for whenever a context becomes FREE. -/
def State.endDrain (s : State) : State :=
  if s.runState = .draining ∧ s.allFree = true then s.enter .standby .drainDone else s

/-- A context as it becomes FREE (R75): the call's fields, averages, candidates and stickies go. -/
def Context.freed (x : Context) : Context :=
  { x with call := none, serving := none, uplink := none, candidates := [], divergeSticky := false,
           saturateSticky := false, phase := .none, guard := none }

/-- A CLEARING context becomes FREE (R84): context, record, notice, drain, in this order. -/
def State.freeContext (s : State) (c : CallIx) (i : CallInfo) (cause : ClearCause) : State :=
  (((s.setCtx c (s.ctx c).freed).returnRecord i cause).post (i.endNotice c cause)).endDrain

/-- A context told that it no longer owns a channel (R84): FREE if it is CLEARING and owns none. -/
def State.freeIfDone (s : State) (c : CallIx) : State :=
  match (s.ctx c).call with
  | none => s
  | some i =>
    match i.stage with
    | .clearing cause => if s.owned (s.ownerOf c) = [] then s.freeContext c i cause else s
    | _ => s

/-- The context of a call as its clearing starts (R83 steps 1 and 2, R146): the order number and attempt count stay. -/
def Context.clearing (x : Context) (i : CallInfo) (cause : ClearCause) : Context :=
  { x with call := some { i with stage := .clearing cause }, phase := .none, guard := none }

/-- The start of a clearing (R83). A context FREE or already CLEARING is left as it is. -/
def State.clearCall (s : State) (c : CallIx) (cause : ClearCause) : State :=
  match (s.ctx c).call with
  | none => s
  | some i =>
    match i.stage with
    | .clearing _ => s
    | stage =>
      let begun := s.setCtx c ((s.ctx c).clearing i cause)
      let told := if stage = .active then begun.endCaptures c else begun
      let owner := told.ownerOf c
      ((told.heldBy owner).foldl (fun t p => t.release p (some owner)) told).freeIfDone c

/-- A setup fails (R81). -/
def State.failSetup (s : State) (c : CallIx) (reason : SetupReason) : State :=
  s.clearCall c (.setupFailed reason)

/-! ### How a handover ends badly (R127, R132, R133) -/

/-- The name of a phase. -/
def Phase.name : Phase → PhaseName
  | .none => .none
  | .preparing _ _ => .preparing
  | .switching _ _ _ _ _ => .switching
  | .handingOut _ _ _ _ => .handingOut
  | .switchingOut _ _ _ _ _ _ _ => .switchingOut

/-- The target of a phase. -/
def Phase.target : Phase → Option Target
  | .none => Option.none
  | .preparing p _ => some (.localBase p.base)
  | .switching p _ _ _ _ => some (.localBase p.base)
  | .handingOut z b _ _ => some (.foreignBase z b)
  | .switchingOut z b _ _ _ _ _ => some (.foreignBase z b)

/-- The local target channel of a phase, claimed for the context. -/
def Phase.claimed : Phase → Option ChanRef
  | .preparing p _ => some p
  | .switching p _ _ _ _ => some p
  | _ => Option.none

/-- The rescue flag of a phase. -/
def Phase.rescue : Phase → Bool
  | .none => false
  | .preparing _ r => r
  | .switching _ r _ _ _ => r
  | .handingOut _ _ r _ => r
  | .switchingOut _ _ _ r _ _ _ => r

/-- The old serving base and channel of a phase. -/
def Phase.old : Phase → Option ChanRef
  | .switching _ _ o _ _ => o
  | .switchingOut _ _ _ _ o _ _ => o
  | _ => Option.none

/-- The stray count of a phase. -/
def Phase.strays : Phase → Nat
  | .switching _ _ _ n _ => n
  | .switchingOut _ _ _ _ _ n _ => n
  | _ => 0

/-- A deadline whose setting of 0 means that it is not loaded (R10, R14). -/
def loadUnlessZero (n : Nat) : Option Nat :=
  if n = 0 then none else some n

/-- Penalising a target (R127): the entry that holds it has its penalty deadline loaded or reloaded. -/
def penalise (ticks : Nat) (t : Target) (cs : List Candidate) : List Candidate :=
  if ticks = 0 then cs
  else cs.map fun e => if e.target = t then { e with penalty := some ticks } else e

/-- The failure of an attempt (R132), its target and the claimed channel given: release, phase, penalty, notice, mark. -/
def State.failAttemptOn (s : State) (c : CallIx) (i : CallInfo) (target : Target) (claimed : Option ChanRef)
    (phase : PhaseName) (rescue : Bool) (reason : HandoverReason) : State :=
  let owner := s.ownerOf c
  let released := match claimed with
    | some p => if (s.chan p).heldBy owner then s.release p (some owner) else s
    | none => s
  let x := released.ctx c
  let closed := released.setCtx c { x with
    phase := .none, candidates := penalise s.settings.timers.penalty target x.candidates }
  (closed.post (.failed (i.ref c) i.serving target reason phase rescue x.attempts)).markFailure

/-- The failure of the attempt a context's phase records (R132). -/
def State.failAttempt (s : State) (c : CallIx) (reason : HandoverReason) : State :=
  let x := s.ctx c
  match x.call, x.phase.target with
  | some i, some t => s.failAttemptOn c i t x.phase.claimed x.phase.name x.phase.rescue reason
  | _, _ => s

/-- A switch ends lost in switch (R133): notice, mark, clearing with cause LOST. -/
def State.loseSwitch (s : State) (c : CallIx) (why : LostCase) : State :=
  let x := s.ctx c
  match x.call, x.phase.target with
  | some i, some t =>
    ((s.post (.lostInSwitch (i.ref c) x.phase.old t why x.phase.strays x.phase.rescue x.attempts)).markFailure).clearCall
      c .lost
  | _, _ => s

/-! ### Base loss (R24, R73, R86, R137, R141, R150, R153) -/

/-- The loss of base `b` for a context ACTIVE in a handover phase (R137, R141, R150, R153). -/
def State.phaseLoss (s : State) (b : BaseIx) (c : CallIx) (i : CallInfo) : State :=
  let x := s.ctx c
  match x.phase with
  | .none => s
  | .preparing target _ =>
    if target.base = b then s.failAttempt c .targetLost
    else if i.serving.base = b then s.clearCall c .lost
    else s
  | .switching target rescue old strays deadline =>
    if target.base = b then s.loseSwitch c .targetLost
    else if old.map ChanRef.base = some b then
      s.setCtx c { x with phase := .switching target rescue none strays deadline }
    else s
  | .handingOut _ _ _ _ => if i.serving.base = b then s.clearCall c .lost else s
  | .switchingOut zone base channel rescue old strays deadline =>
    if old.map ChanRef.base = some b then
      s.setCtx c { x with phase := .switchingOut zone base channel rescue none strays deadline }
    else s

/-- The loss rule for one context that owned a channel of base `b` (R86). -/
def State.lossRule (b : BaseIx) (s : State) (c : CallIx) : State :=
  let x := s.ctx c
  match x.call with
  | none => s
  | some i =>
    match i.stage with
    | .setup _ => if i.serving.base = b then s.failSetup c .baseLost else s
    | .clearing _ => s.freeIfDone c
    | .active =>
      if x.phase ≠ .none then s.phaseLoss b c i
      else if i.serving.base = b then s.clearCall c .baseLost
      else s

/-- The contexts that own a channel of a base, in ascending call index (R86). -/
def State.ownersAt (s : State) (b : BaseIx) : List CallIx :=
  (indices 96).filter fun c => (s.channels.get b).list.any fun k => k.ownedBy (s.ownerOf c)

/-- A base record emptied by a base loss (R24 steps 1 to 3). -/
def BaseRecord.emptied (r : BaseRecord) : BaseRecord :=
  { r with window := [], owedReleases := Table.fill 8 false, owedAdmission := false, heartbeat := none, settle := none,
           degraded := false }

/-- The effects of a base loss (R24), the base's new state already set. -/
def State.baseLoss (s : State) (b : BaseIx) : State :=
  let owners := s.ownersAt b
  let emptied := (s.setBase b (s.base b).emptied).setTrain b none
  let freed := { emptied with channels := emptied.channels.set b (Table.fill 8 Channel.free) }
  owners.foldl (State.lossRule b) freed

/-- A base's state changed, nothing else. -/
def State.setBaseState (s : State) (b : BaseIx) (new : BaseState) : State :=
  s.setBase b { s.base b with state := new }

/-- A base leaves service with its LINK notice, handled as a base loss (R19, R24). -/
def State.leaveService (s : State) (b : BaseIx) (new : BaseState) (cause : BaseCause) : State :=
  ((s.setBaseState b new).post (.baseState b (s.base b).state new cause)).baseLoss b

/-- A base taken DOWN without a notice of its own, by carrier loss or HALT (R6, R17): from IN_SERVICE or PROBING it is a
base loss. -/
def State.dropBase (s : State) (b : BaseIx) : State :=
  match (s.base b).state with
  | .inService => (s.setBaseState b .down).baseLoss b
  | .probing => (s.setBaseState b .down).baseLoss b
  | .fault => s.setBaseState b .down
  | .down => s
  | .unused => s

/-! ### Claims (R71) and contexts leaving FREE (R75) -/

/-- The kinds of claim (R71); a setup claim is judged by the handset's class. -/
inductive ClaimKind where
  | setup (cls : Fin 16)
  | zoneIn
  | target (context : CallIx) (serving : BaseIx)
  deriving DecidableEq, Repr

/-- The answer to a claim (R71). -/
inductive ClaimAnswer where
  | granted (channel : ChanIx)
  | noChannel
  | baseUnavailable
  deriving DecidableEq, Repr

/-- Whether a context owns a channel on a base other than its serving base (R71, R122). -/
def State.ownsElsewhere (s : State) (c : CallIx) (serving : BaseIx) : Bool :=
  (s.owned (s.ownerOf c)).any fun p => p.base != serving

/-- A claim judged (R71): base, two-base limit, FREE channel, last-channel reserve, lowest FREE channel. -/
def State.judgeClaim (s : State) (b : BaseIx) (kind : ClaimKind) : ClaimAnswer :=
  let spread := match kind with
    | .target c serving => s.ownsElsewhere c serving
    | _ => false
  let reserve := match kind with
    | .setup cls => decide (s.freeChannelCount b = 1) && decide (cls.val < s.settings.evaluator.highClass)
    | _ => false
  if (s.base b).state ≠ .inService then .baseUnavailable
  else if spread then .noChannel
  else
    match s.freeChannels b with
    | [] => .noChannel
    | ch :: _ => if reserve then .noChannel else .granted ch

/-- The lowest FREE context (R75). -/
def State.lowestFree (s : State) : Option CallIx :=
  s.contexts.lowest fun x => x.call.isNone

/-- A context that leaves FREE (R75, R91, R107, R130): every unit sets up its part. -/
def Context.opened (x : Context) (i : CallInfo) : Context :=
  { x with
    use := x.use + 1, call := some i, ring := [], nextSample := 0, lastAccepted := none, packed := 0, unlisted := 0,
    strays := 0, serving := none, uplink := none, candidates := [], phase := .none, guard := none, attempts := 0 }

/-- A call taken into a context (R77, R157): the channel RESERVED, the context out of FREE, the record engaged, the ASSIGN
offered. -/
def State.openContext (s : State) (c : CallIx) (p : ChanRef) (i : CallInfo) : State :=
  let taken := s.setCtx c ((s.ctx c).opened i)
  let claimed := taken.setChan p (.reserved (taken.ownerOf c) i.tag)
  ((claimed.engage i.slot p.base c).offer p.base (.assign p.channel c i.tag) .callUnit (claimed.callOwner c)).2

end Sys2Proof.Machine
end

