-- ==== Sys2Proof/Machine/Coding.lean ====
section
/-! DEFINITION. The byte coding of replies, notices and samples (R183, R184). -/

namespace Sys2Proof.Machine

/-! ### Widths (R183) -/

/-- One byte. -/
def byte1 (n : Nat) : List Byte := [BitVec.ofNat 8 n]

/-- Two bytes, most significant first. -/
def byte2 (n : Nat) : List Byte := split16 (BitVec.ofNat 16 n)

/-- Four bytes, most significant first. -/
def byte4 (n : Nat) : List Byte := split32 (BitVec.ofNat 32 n)

/-- A signed value in one byte, two's complement. -/
def signed1 (n : Int) : List Byte := [BitVec.ofInt 8 n]

/-- A signed value in two bytes, two's complement. -/
def signed2 (n : Int) : List Byte := split16 (BitVec.ofInt 16 n)

/-- A flag: 1 for yes, 0 for no. -/
def flagByte (b : Bool) : List Byte := byte1 (if b then 1 else 0)

/-- A field that may be absent: every bit set when it is. -/
def orAbsent {α : Type} (width : Nat) (code : α → List Byte) : Option α → List Byte
  | some a => code a
  | none => List.replicate width 0xFF

/-- The ticks remaining on a deadline (four bytes). -/
def remaining (d : Option Nat) : List Byte := orAbsent 4 byte4 d

/-- A list with its count byte before it (log entry 10). -/
def counted {α : Type} (code : α → List Byte) (l : List α) : List Byte :=
  byte1 l.length ++ l.flatMap code

/-! ### Enumerations: the place in the list where the manual first gives the value (R183) -/

/-- Run states (R1, R183). -/
def RunState.code : RunState → Nat
  | .halted => 0
  | .standby => 1
  | .serving => 2
  | .draining => 3

/-- Causes of a change of run state (R1). -/
def RunCause.code : RunCause → Nat
  | .go => 0
  | .stop => 1
  | .stopForce => 2
  | .drainDone => 3
  | .halt => 4

/-- Parity senses (R12). -/
def Parity.code : Parity → Nat
  | .odd => 0
  | .even => 1

/-- Failing items of the configuration check (R3). -/
def CheckItem.code : CheckItem → Nat
  | .noBase => 0
  | .self => 1
  | .targetDisabled => 2
  | .zoneIsOwn => 3
  | .duplicateTarget => 4

/-- Base states (R19). -/
def BaseState.code : BaseState → Nat
  | .unused => 0
  | .down => 1
  | .probing => 2
  | .inService => 3
  | .fault => 4

/-- Causes of a change of base state (R19). -/
def BaseCause.code : BaseCause → Nat
  | .contact => 0
  | .settled => 1
  | .settleFault => 2
  | .heartbeatLost => 3
  | .healthFailed => 4
  | .noEcho => 5

/-- Health (R18). -/
def healthCode : Health → Nat
  | .ok => 0
  | .degraded => 1
  | .failed => 2

/-- Order kinds (R27). -/
def OrderKind.code : OrderKind → Nat
  | .assign => 0
  | .release => 1
  | .move => 2
  | .answer => 3
  | .admission => 4

/-- Placing blocks (R183). -/
def Placer.code : Placer → Nat
  | .callUnit => 0
  | .sequencer => 1
  | .registration => 2
  | .baseLink => 3

/-- Kinds of access request (R46). -/
def AccessKind.code : AccessKind → Nat
  | .attach => 0
  | .locate => 1
  | .renew => 2
  | .detach => 3
  | .originate => 4
  | .malformed => 5

/-- Answer causes (section 4.3). -/
def AnswerCause.code : AnswerCause → Nat
  | .accept => 0
  | .unknown => 1
  | .malformed => 2
  | .closed => 3
  | .barred => 4
  | .denied => 5
  | .inCall => 6
  | .notAttached => 7

/-- Record states (R49). -/
def HandsetState.code : HandsetState → Nat
  | .vacant => 0
  | .enrolled => 1
  | .attached => 2
  | .engaged => 3

/-- The state of a record's status. -/
def HandsetStatus.state : HandsetStatus → HandsetState
  | .enrolled _ => .enrolled
  | .attached _ _ _ => .attached
  | .engaged _ _ _ => .engaged

/-- Channel states (R70). -/
def Channel.code : Channel → Nat
  | .free => 0
  | .reserved _ _ => 1
  | .busy _ => 2
  | .releasing _ => 3
  | .releaseOwed => 4

/-- Call states (R74): FREE is 0. -/
def Stage.code : Stage → Nat
  | .setup _ => 1
  | .active => 2
  | .clearing _ => 3

/-- Directions (section 12.4). -/
def Direction.code : Direction → Nat
  | .terminating => 0
  | .originated => 1

/-- Setup failure reasons (R183). -/
def SetupReason.code : SetupReason → Nat
  | .noEcho => 0
  | .timeout => 1
  | .baseLost => 2

/-- Compare results (R107). -/
def Compare.code : Compare → Nat
  | .better => 0
  | .equal => 1
  | .worse => 2
  | .unordered => 3

/-- Handover phases (R130). -/
def PhaseName.code : PhaseName → Nat
  | .none => 0
  | .preparing => 1
  | .switching => 2
  | .handingOut => 3
  | .switchingOut => 4

/-- Handover failure reasons (R132). -/
def HandoverReason.code : HandoverReason → Nat
  | .noChannel => 0
  | .orderWindowFull => 1
  | .noEchoTarget => 2
  | .noEchoServing => 3
  | .targetLost => 4
  | .reverted => 5
  | .zoneRefused => 6
  | .zoneTimeout => 7

/-- Cases of a loss in switch (R133). -/
def LostCase.code : LostCase → Nat
  | .noStrays => 0
  | .oldLinkGone => 1
  | .targetLost => 2

/-- Decision outcomes (R100, R184). -/
def Decision.code : Decision → Nat
  | .none => 0
  | .trigger => 1
  | .rescue => 2
  | .guarded => 3
  | .held => 4
  | .doubtful => 5
  | .blocked => 6

/-- Capture modes (section 12.4). -/
def CaptureMode.code : CaptureMode → Nat
  | .now => 0
  | .fromSample _ => 1
  | .next => 2
  | .mark => 3

/-- Completion statuses, by the list of R171 and not by the words of section 10.3 (log entry 33). -/
def CaptureStatus.code : CaptureStatus → Nat
  | .ok => 0
  | .truncated => 1
  | .callEnded => 2

/-- Status codes of replies (R181). -/
def Status.code : Status → Byte
  | .ok => 0x00
  | .okClamped => 0x01
  | .busy => 0x02
  | .unknownRequest => 0x03
  | .badArg => 0x04
  | .wrongState => 0x05
  | .noSuch => 0x06
  | .noRoom => 0x07
  | .duplicate => 0x08
  | .inCall => 0x09
  | .notAttached => 0x0A
  | .barred => 0x0B
  | .noChannel => 0x0C
  | .baseUnavailable => 0x0D
  | .orderWindowFull => 0x0E
  | .checkFailed => 0x0F
  | .notReady => 0x10
  | .none => 0x11
  | .slotArmed => 0x12

/-! ### Composite fields (R183) -/

/-- A target: 80h + base, or zone × 32 + base. -/
def targetBytes : Target → List Byte
  | .localBase b => byte1 (128 + b.val)
  | .foreignBase z b => byte1 (z.val * 32 + b.val)

/-- A location: absent, a local base as a target (log entry 12), or A0h + zone. -/
def Location.bytes : Location → List Byte
  | .absent => [0xFF]
  | .base b => byte1 (128 + b.val)
  | .zone z => byte1 (160 + z.val)

/-- The location of a record (R49). -/
def HandsetStatus.location : HandsetStatus → Location
  | .enrolled none => .absent
  | .enrolled (some z) => .zone z
  | .attached b _ _ => .base b
  | .engaged b _ _ => .base b

/-- A base and a channel. -/
def ChanRef.bytes (p : ChanRef) : List Byte := byte1 p.base.val ++ byte1 p.channel.val

/-- A clear cause: its place in the list of R74, then the reason of SETUP_FAILED or FFh. -/
def ClearCause.bytes : ClearCause → List Byte
  | .closed => [0, 0xFF]
  | .lost => [1, 0xFF]
  | .baseLost => [2, 0xFF]
  | .detach => [3, 0xFF]
  | .forced => [4, 0xFF]
  | .handedOut _ => [5, 0xFF]
  | .setupFailed r => 6 :: byte1 r.code

/-- The owner of a window entry, four bytes. -/
def OrderOwner.bytes : OrderOwner → List Byte
  | .call c use orderNo => byte1 c.val ++ [use, orderNo, 0]
  | .slot i => byte2 i.val ++ [0, 0]
  | .none => [0xFF, 0xFF, 0xFF, 0xFF]

/-- A neighbour list entry: target and offset. -/
def Neighbour.bytes (n : Neighbour) : List Byte := targetBytes n.target ++ signed1 n.offset

/-- A window entry as QUERY BASE carries it (R34); the one byte of its serial and its kind is the model's choice (log entry
34). -/
def WindowEntry.bytes (e : WindowEntry) : List Byte :=
  [e.serial] ++ byte1 e.kind.code ++ byte1 e.placer.code ++ e.owner.bytes ++
    orAbsent 1 (fun c : ChanIx => byte1 c.val) e.channel ++ byte4 e.deadline

/-- A candidate entry as QUERY CALL carries it (R107, R128); the one byte of its compare is the model's choice (log entry
34). -/
def Candidate.bytes (e : Candidate) : List Byte :=
  targetBytes e.target ++ byte1 e.position.val ++ byte2 e.average ++ byte1 e.dwell ++ byte1 e.misses ++
    byte1 e.lastCompare.code ++ orAbsent 2 signed2 e.lastScore ++ remaining e.penalty

/-! ### The notice record (R183) -/

/-- The kind of a notice, numbered from 1 within its class (R164). -/
def NoticeBody.kind : NoticeBody → Nat
  | .port _ _ => 1
  | .baseState _ _ _ _ => 2
  | .health _ _ => 3
  | .completed _ _ _ _ _ _ => 1
  | .failed _ _ _ _ _ _ _ => 2
  | .lostInSwitch _ _ _ _ _ _ _ => 3
  | .zoneOutRequest _ _ _ _ _ _ _ _ => 4
  | .zoneOutDone _ _ _ _ _ _ _ _ => 5
  | .zoneInPrepared _ _ _ => 6
  | .zoneInArrived _ _ _ => 7
  | .zoneInFailed _ _ _ _ => 8
  | .connected _ _ _ => 1
  | .setupFailed _ _ _ _ => 2
  | .cleared _ _ _ _ => 3
  | .diverge _ _ _ _ _ => 1
  | .saturate _ _ _ _ => 2
  | .attached _ _ _ _ => 1
  | .located _ _ _ _ => 2
  | .detached _ _ _ => 3
  | .lapsed _ _ _ _ => 4
  | .withdrawn _ _ _ _ => 5
  | .refused _ _ _ _ _ => 6
  | .barredByFailures _ _ _ _ => 7
  | .originationRequest _ _ _ => 1
  | .originationExpired _ _ _ => 2
  | .captureDone _ _ _ => 1
  | .runState _ _ _ => 1
  | .ready _ => 2

/-- The subject type and number of a notice (R164, R183). -/
def NoticeBody.subject : NoticeBody → List Byte
  | .port p _ => byte1 1 ++ byte2 p.val
  | .baseState b _ _ _ => byte1 2 ++ byte2 b.val
  | .health b _ => byte1 2 ++ byte2 b.val
  | .completed c _ _ _ _ _ => byte1 3 ++ byte2 c.call.val
  | .failed c _ _ _ _ _ _ => byte1 3 ++ byte2 c.call.val
  | .lostInSwitch c _ _ _ _ _ _ => byte1 3 ++ byte2 c.call.val
  | .zoneOutRequest c _ _ _ _ _ _ _ => byte1 3 ++ byte2 c.call.val
  | .zoneOutDone c _ _ _ _ _ _ _ => byte1 3 ++ byte2 c.call.val
  | .zoneInPrepared c _ _ => byte1 3 ++ byte2 c.call.val
  | .zoneInArrived c _ _ => byte1 3 ++ byte2 c.call.val
  | .zoneInFailed c _ _ _ => byte1 3 ++ byte2 c.call.val
  | .connected c _ _ => byte1 3 ++ byte2 c.call.val
  | .setupFailed c _ _ _ => byte1 3 ++ byte2 c.call.val
  | .cleared c _ _ _ => byte1 3 ++ byte2 c.call.val
  | .diverge c _ _ _ _ => byte1 3 ++ byte2 c.val
  | .saturate c _ _ _ => byte1 3 ++ byte2 c.val
  | .attached i _ _ _ => byte1 4 ++ byte2 i.val
  | .located i _ _ _ => byte1 4 ++ byte2 i.val
  | .detached i _ _ => byte1 4 ++ byte2 i.val
  | .lapsed i _ _ _ => byte1 4 ++ byte2 i.val
  | .withdrawn i _ _ _ => byte1 4 ++ byte2 i.val
  | .refused i _ _ _ _ => byte1 4 ++ byte2 i.val
  | .barredByFailures i _ _ _ => byte1 4 ++ byte2 i.val
  | .originationRequest i _ _ => byte1 4 ++ byte2 i.val
  | .originationExpired i _ _ => byte1 4 ++ byte2 i.val
  | .captureDone k _ _ => byte1 5 ++ byte2 k.val
  | .runState _ _ _ => byte1 0 ++ byte2 0
  | .ready _ => byte1 0 ++ byte2 0

/-- The slot and tag of a call, after its index in the subject. -/
def CallRef.bytes (c : CallRef) : List Byte := byte2 c.slot.val ++ byte4 c.tag.toNat

/-- The tag of a handset subject, first in the details. -/
def tagBytes (t : Tag) : List Byte := byte4 t.toNat

/-- The subject of a DIVERGE notice: its place, and the candidate's target or FFh (log entry 11). -/
def DivergeSubject.bytes : DivergeSubject → List Byte
  | .serving => [0, 0xFF]
  | .uplink => [1, 0xFF]
  | .candidate t => 2 :: targetBytes t

/-- The details of a notice, in the order its posting rule names them after the subject. The reason of WITHDRAWN, BARRED, is
coded 0 (log entry 31), the status of DONE by `CaptureStatus.code` (log entry 33). R183's list of widths names no radio
reading and no enumerated value: that the reading L of DIVERGE and each enumerated value take one byte is the model's
choice (log entry 34). -/
def NoticeBody.details : NoticeBody → List Byte
  | .port _ up => byte1 (if up then 0 else 1)
  | .baseState _ old new cause => byte1 old.code ++ byte1 new.code ++ byte1 cause.code
  | .health _ degraded => flagByte degraded
  | .completed c old new rescue strays attempts =>
    c.bytes ++ orAbsent 2 ChanRef.bytes old ++ new.bytes ++ flagByte rescue ++ byte1 strays ++ byte1 attempts
  | .failed c serving target reason phase rescue attempts =>
    c.bytes ++ serving.bytes ++ targetBytes target ++ byte1 reason.code ++ byte1 phase.code ++ flagByte rescue ++
      byte1 attempts
  | .lostInSwitch c old target why strays rescue attempts =>
    c.bytes ++ orAbsent 2 ChanRef.bytes old ++ targetBytes target ++ byte1 why.code ++ byte1 strays ++ flagByte rescue ++
      byte1 attempts
  | .zoneOutRequest c serving z b candidateAverage servingAverage rescue attempts =>
    c.bytes ++ serving.bytes ++ targetBytes (.foreignBase z b) ++ byte2 candidateAverage ++
      orAbsent 2 byte2 servingAverage ++ flagByte rescue ++ byte1 attempts
  | .zoneOutDone c old z b channel strays rescue attempts =>
    c.bytes ++ orAbsent 2 ChanRef.bytes old ++ targetBytes (.foreignBase z b) ++ byte1 channel.val ++ byte1 strays ++
      flagByte rescue ++ byte1 attempts
  | .zoneInPrepared c serving z => c.bytes ++ serving.bytes ++ byte1 z.val
  | .zoneInArrived c serving z => c.bytes ++ serving.bytes ++ byte1 z.val
  | .zoneInFailed c serving z reason => c.bytes ++ serving.bytes ++ byte1 z.val ++ byte1 reason.code
  | .connected c serving direction => c.bytes ++ serving.bytes ++ byte1 direction.code
  | .setupFailed c serving direction reason => c.bytes ++ serving.bytes ++ byte1 direction.code ++ byte1 reason.code
  | .cleared c serving cause reached => c.bytes ++ serving.bytes ++ cause.bytes ++ flagByte reached
  | .diverge _ number subject reading average =>
    byte4 number.toNat ++ subject.bytes ++ byte1 reading ++ byte2 average
  | .saturate _ number target score => byte4 number.toNat ++ targetBytes target ++ signed2 score
  | .attached _ t b former => tagBytes t ++ byte1 b.val ++ former.bytes
  | .located _ t former new => tagBytes t ++ byte1 former.val ++ byte1 new.val
  | .detached _ t b => tagBytes t ++ byte1 b.val
  | .lapsed _ t b pending => tagBytes t ++ byte1 b.val ++ flagByte pending
  | .withdrawn _ t former pending => tagBytes t ++ (Location.base former).bytes ++ byte1 0 ++ flagByte pending
  | .refused _ t b kind cause => tagBytes t ++ byte1 b.val ++ byte1 kind.code ++ byte1 cause.code
  | .barredByFailures _ t b after => tagBytes t ++ byte1 b.val ++ byte1 after.code
  | .originationRequest _ t b => tagBytes t ++ byte1 b.val
  | .originationExpired _ t b => tagBytes t ++ (Location.base b).bytes
  | .captureDone _ c status => byte1 c.val ++ byte1 status.code
  | .runState old new cause => byte1 old.code ++ byte1 new.code ++ byte1 cause.code
  | .ready warm => byte1 (if warm then 1 else 0)

/-- The 24-byte notice record (R183): class and lost mark, kind, tick stamp, subject, 15 detail bytes. -/
def Notice.bytes (n : Notice) (lostMark : Bool) : List Byte :=
  byte1 (n.body.cls.val + if lostMark then 128 else 0) ++ byte1 n.body.kind ++ byte4 n.tick.toNat ++ n.body.subject ++
    (n.body.details ++ List.replicate 15 0).take 15

/-! ### The sample record (R184) -/

/-- A target in 7 bits: zone × 32 + base, a local base with the own zone. -/
def target7 (ownZone : ZoneIx) : Target → Nat
  | .localBase b => ownZone.val * 32 + b.val
  | .foreignBase z b => z.val * 32 + b.val

/-- A reading in 7 bits: level, range value or 127. -/
def Reading.code7 : Reading → Nat
  | .valid l => l
  | .range r => r
  | .absent => 127

/-- A byte of seven low bits and bit 7. -/
def byte7 (low : Nat) (high : Bool) : Byte := BitVec.ofNat 8 (low % 128 + if high then 128 else 0)

/-- The uplink source code of byte 8: A, A and doubtful, B, NONE. -/
def Sample.sourceCode (x : Sample) : Nat :=
  match x.source with
  | .a => if x.doubtful then 1 else 0
  | .b => 2
  | .none => 3

/-- The 20-byte sample record (R184). -/
def Sample.bytes (ownZone : ZoneIx) (x : Sample) : List Byte :=
  let score : BitVec 9 := match x.best with
    | some (_, n) => BitVec.ofInt 9 n
    | none => 0
  let best : Nat := match x.best with
    | some (t, _) => target7 ownZone t
    | none => 0
  let targetAt (k : Nat) : Nat := match x.neighbours[k]? with
    | some n => target7 ownZone n.target
    | none => 0
  let readingAt (k : Nat) : Nat := match x.neighbours[k]? with
    | some n => n.reading.code7
    | none => 0
  byte4 x.number.toNat ++ byte4 x.tick.toNat ++
    [BitVec.ofNat 8 (x.sourceCode + 4 * x.neighbours.length + 32 * x.decision.code),
     byte7 x.downlink.code7 x.uplinkRange,
     byte7 (x.uplink.getD 127) x.best.isSome,
     byte7 best (score.getLsbD 8),
     byte7 (targetAt 0) (score.getLsbD 7), byte7 (targetAt 1) (score.getLsbD 6),
     byte7 (targetAt 2) (score.getLsbD 5), byte7 (targetAt 3) (score.getLsbD 4),
     byte7 (readingAt 0) (score.getLsbD 3), byte7 (readingAt 1) (score.getLsbD 2),
     byte7 (readingAt 2) (score.getLsbD 1), byte7 (readingAt 3) (score.getLsbD 0)]

/-! ### Replies -/

/-- A refusal: a status without results (R181). -/
def refuse (s : Status) : Reply := { status := s, results := [] }

/-- An OK reply with its results. -/
def okay (results : List Byte) : Reply := { status := .ok, results := results }

/-- The frame of a reply (R178, R181). -/
def Reply.frame (r : Reply) (code tag : Byte) : List Byte :=
  frameOf (code :: tag :: r.status.code :: r.results)

end Sys2Proof.Machine
end

