-- ==== Sys2Proof/Machine/Operands.lean ====
section
/-! DEFINITION. The operand forms of requests and frames: indices, targets, handset selectors, tags, clamped quantities,
numbered settings, readings. -/

namespace Sys2Proof.Machine

/-- A base index byte: `none` above 31. -/
def asBase (x : Byte) : Option BaseIx := toIndex 32 x.toNat

/-- A call index byte: `none` above 95. -/
def asCall (x : Byte) : Option CallIx := toIndex 96 x.toNat

/-- A channel byte: `none` above 7. -/
def asChannel (x : Byte) : Option ChanIx := toIndex 8 x.toNat

/-- A zone byte: `none` above 3. -/
def asZone (x : Byte) : Option ZoneIx := toIndex 4 x.toNat

/-- A capture slot byte: `none` above 3. -/
def asCapture (x : Byte) : Option CapIx := toIndex 4 x.toNat

/-- A two-valued byte: 0 or 1, `none` outside. -/
def asFlag (x : Byte) : Option Bool :=
  if x = 0 then some false else if x = 1 then some true else none

/-- A target byte (R183): below 80h zone × 32 + base, 80h + base for a local base, `none` at A0h and above. -/
def asTarget (x : Byte) : Option Target :=
  if h : x.toNat < 128 then
    some (.foreignBase ⟨x.toNat / 32, by omega⟩ ⟨x.toNat % 32, Nat.mod_lt _ (by omega)⟩)
  else (toIndex 32 (x.toNat - 128)).map Target.localBase

/-- A tag in four bytes (R50, R51): `none` for 0, 268,435,455 and above. -/
def asTag (x : BitVec 32) : Option Tag :=
  if 0 < x.toNat ∧ x.toNat < 268435455 then some (x.setWidth 28) else none

/-- A credential in four bytes (R51): `none` above 2,097,151. -/
def asCredential (x : BitVec 32) : Option Credential :=
  if x.toNat ≤ 2097151 then some (x.setWidth 21) else none

/-- An access class byte (R51): `none` above 15. -/
def asClass (x : Byte) : Option (Fin 16) := toIndex 16 x.toNat

/-- A quantity clamped to the nearer end of its range (R11). -/
def clampNat (lo hi n : Nat) : Nat := max lo (min hi n)

/-- The offset byte of a neighbour entry, two's complement, clamped to −8..+7 (R11, R13). -/
def clampOffset (x : Byte) : Int := max (-8) (min 7 x.toInt)

/-- What a handset selector names (R50). -/
inductive Selected where
  | bad
  | missing
  | vacant (slot : SlotIx)
  | held (slot : SlotIx) (record : Handset)
  deriving DecidableEq, Repr

/-- The handset a host request names (R50): a bad selector, slot or tag, then a slot or tag that nothing holds. -/
def State.select (s : State) (selector : Byte) (value : BitVec 32) : Selected :=
  if selector = 0 then
    match asTag value with
    | none => .bad
    | some t =>
      match s.findTag t with
      | none => .missing
      | some i =>
        match s.handset i with
        | some h => .held i h
        | none => .missing
  else if selector = 1 then
    match toIndex 512 value.toNat with
    | none => .bad
    | some i =>
      match s.handset i with
      | some h => .held i h
      | none => .vacant i
  else .bad

/-! ### Numbered settings (R14, R15, section 12.4) -/

/-- The range of a timer setting by its number (R14). -/
def timerRange : Nat → Option (Nat × Nat)
  | 0 => some (1, 15)
  | 1 => some (20, 500)
  | 2 => some (5, 100)
  | 3 => some (10, 300)
  | 4 => some (0, 1000)
  | 5 => some (0, 3000)
  | 6 => some (1, 20)
  | 7 => some (20, 200)
  | 8 => some (50, 1000)
  | 9 => some (10, 500)
  | 10 => some (50, 500)
  | 11 => some (1, 9)
  | 12 => some (1, 255)
  | _ => none

/-- Storing a timer setting by its number (R14). -/
def TimerSettings.store (t : TimerSettings) (number value : Nat) : TimerSettings :=
  match number with
  | 0 => { t with echo := value }
  | 1 => { t with setup := value }
  | 2 => { t with switch := value }
  | 3 => { t with zone := value }
  | 4 => { t with guard := value }
  | 5 => { t with penalty := value }
  | 6 => { t with gap := value }
  | 7 => { t with heartbeat := value }
  | 8 => { t with settleCold := value }
  | 9 => { t with settleWarm := value }
  | 10 => { t with hold := value }
  | 11 => { t with spacing := value }
  | 12 => { t with lifetime := value }
  | _ => t

/-- The range of an evaluator setting by its number (R15); the last three are two-valued. -/
def evaluatorRange : Nat → Option (Nat × Nat)
  | 0 => some (0, 4)
  | 1 => some (0, 15)
  | 2 => some (1, 15)
  | 3 => some (0, 100)
  | 4 => some (0, 15)
  | 5 => some (10, 60)
  | 6 => some (0, 15)
  | 7 => some (0, 15)
  | 8 => some (0, 1)
  | 9 => some (0, 1)
  | 10 => some (0, 1)
  | _ => none

/-- Storing an evaluator setting by its number (R15). -/
def EvaluatorSettings.store (e : EvaluatorSettings) (number value : Nat) : EvaluatorSettings :=
  match number with
  | 0 => { e with smoothing := value }
  | 1 => { e with hysteresis := value }
  | 2 => { e with dwell := value }
  | 3 => { e with rescueFloor := value }
  | 4 => { e with loadPenalty := value }
  | 5 => { e with divergence := value }
  | 6 => { e with diversity := value }
  | 7 => { e with highClass := value }
  | 8 => { e with divergeMasked := decide (value = 1) }
  | 9 => { e with saturateMasked := decide (value = 1) }
  | 10 => { e with markOnFailure := decide (value = 1) }
  | _ => e

/-- Whether a list of setting pairs is refused BAD_ARG (R11): none named, an unknown number, a number named twice. -/
def pairsRefused (range : Nat → Option (Nat × Nat)) (pairs : List (Byte × BitVec 16)) : Bool :=
  pairs.isEmpty || pairs.any (fun p => (range p.1.toNat).isNone) || !decide ((pairs.map Prod.fst).Nodup)

/-- A pair's value as stored: clamped to the range of its setting (R11). -/
def storedValue (range : Nat → Option (Nat × Nat)) (p : Byte × BitVec 16) : Nat :=
  match range p.1.toNat with
  | some (lo, hi) => clampNat lo hi p.2.toNat
  | none => p.2.toNat

/-! ### Readings (section 6.5) -/

/-- A reading classed by value alone (R98). -/
def classed (x : BitVec 7) : Reading :=
  if x.toNat ≤ 100 then .valid x.toNat else if x.toNat ≤ 126 then .range x.toNat else .absent

/-- The level of a valid reading. -/
def Reading.level : Reading → Option Nat
  | .valid l => some l
  | _ => none

end Sys2Proof.Machine
end

