-- ==== Sys2Proof/Machine/Evaluator.lean ====
section
/-! DEFINITION. The Handover Evaluator (chapter 7): smoothing, divergence, score, compare, dwell, insertion, decision and
the rework at a completed handover. -/

namespace Sys2Proof.Machine

/-! ### Smoothing and divergence (R109 to R112) -/

/-- Smoothing of an average towards a term, both in quarter units (R109): the step |d| / 2^k rounded half away from
zero. -/
def smooth (k a term : Nat) : Nat :=
  if k = 0 then term
  else if a ≤ term then a + (term - a + 2 ^ (k - 1)) / 2 ^ k
  else a - (a - term + 2 ^ (k - 1)) / 2 ^ k

/-- An average after a reading: whether the reading met the DIVERGE condition, and whether it was set aside. -/
structure Averaged where
  average : Option Nat
  diverged : Bool
  aside : Bool
  deriving DecidableEq, Repr

/-- A reading that gives nothing to average (R110). -/
def Averaged.unchanged (a : Option Nat) : Averaged := { average := a, diverged := false, aside := false }

/-- Whether a reading lies beyond the divergence limit of an average (R111). -/
def diverges (limit a l : Nat) : Bool :=
  decide (a + 4 * limit < 4 * l) || decide (4 * l + 4 * limit < a)

/-- The term of a reading clamped to the divergence limit (R111). -/
def clampedTerm (limit a l : Nat) : Nat :=
  if a < 4 * l then a + 4 * limit else a - 4 * limit

/-- A valid reading taken into an average (R109, R111, R112). -/
def EvaluatorSettings.average (e : EvaluatorSettings) (a : Option Nat) (l : Nat) : Averaged :=
  match a with
  | none => { average := some (4 * l), diverged := false, aside := false }
  | some a =>
    if diverges e.divergence a l then
      if e.divergeMasked then
        { average := some (smooth e.smoothing a (clampedTerm e.divergence a l)), diverged := true, aside := false }
      else { average := some a, diverged := true, aside := true }
    else { average := some (smooth e.smoothing a (4 * l)), diverged := false, aside := false }

/-- A reading that may be absent taken into an average (R110). -/
def EvaluatorSettings.averageIf (e : EvaluatorSettings) (a : Option Nat) : Option Nat → Averaged
  | some l => e.average a l
  | none => Averaged.unchanged a

/-! ### Score, compare and dwell (R113 to R116) -/

/-- The offset stored at a position of a neighbour list. -/
def offsetAt (list : List Neighbour) (p : Fin 8) : Int :=
  match list[p.val]? with
  | some n => n.offset
  | none => 0

/-- The raw score of a candidate (R113); `low` says that its base's free count is below 2. -/
def EvaluatorSettings.rawScore (e : EvaluatorSettings) (average : Nat) (offset : Int) (serving : Nat) (low : Bool) : Int :=
  (average : Int) + 4 * offset - (serving : Int) - 4 * (e.hysteresis : Int) - (if low then 4 * (e.loadPenalty : Int) else 0)

/-- Whether a raw score meets the SATURATE condition (R114). -/
def saturates (raw : Int) : Bool := decide (raw < -256) || decide (255 < raw)

/-- The score stored for a raw score (R114): itself, clamped when masked, none when unmasked. -/
def EvaluatorSettings.storedScore (e : EvaluatorSettings) (raw : Int) : Option Int :=
  if saturates raw then (if e.saturateMasked then some (max (-256) (min 255 raw)) else none) else some raw

/-- The compare of a score, or of none (R115). -/
def compareOf : Option Int → Compare
  | none => .unordered
  | some s => if 0 < s then .better else if s = 0 then .equal else .worse

/-- The dwell after a compare (R116). -/
def dwellAfter (dwell : Nat) : Compare → Nat
  | .better => sat 15 dwell
  | .equal => sat 15 dwell
  | .worse => 0
  | .unordered => 0

/-- A candidate entry with what one sample did to it: whether the sample named it, its dwell before, the score stored in
this sample, the reading that met DIVERGE, the raw score that met SATURATE. -/
structure Weighed where
  entry : Candidate
  named : Bool
  before : Nat
  score : Option Int
  diverged : Option Nat
  saturated : Option Int
  deriving DecidableEq, Repr

/-- An entry the sample does not touch. -/
def Weighed.untouched (c : Candidate) : Weighed :=
  { entry := c, named := false, before := c.dwell, score := none, diverged := none, saturated := none }

/-- The neighbour entry of a sample that names a target (R117). -/
def Sample.names (x : Sample) (t : Target) : Option NeighbourReading :=
  x.neighbours.find? fun n => n.target == t

/-- Stage 3 for one entry (R119): average, score, compare, dwell and misses. `serving` is the serving average when every
score of the sample may be measured against it (R113). -/
def EvaluatorSettings.weigh (e : EvaluatorSettings) (list : List Neighbour) (low : Target → Bool) (serving : Option Nat)
    (x : Sample) (c : Candidate) : Weighed :=
  match x.names c.target with
  | none => Weighed.untouched c
  | some n =>
    let a := e.averageIf (some c.average) n.reading.level
    let average := a.average.getD c.average
    let raw : Option Int :=
      match n.reading.level, serving with
      | some _, some as =>
        if a.aside then none else some (e.rawScore average (offsetAt list c.position) as (low c.target))
      | _, _ => none
    let score := raw.bind e.storedScore
    let result := compareOf score
    { entry := { c with
        average := average, lastCompare := result, lastScore := score, dwell := dwellAfter c.dwell result, misses := 0 }
      named := true
      before := c.dwell
      score := score
      diverged := if a.diverged then n.reading.level else none
      saturated := raw.filter saturates }

/-- A doubtful sample for one entry (R118): its average and nothing else. -/
def EvaluatorSettings.weighDoubtful (e : EvaluatorSettings) (x : Sample) (c : Candidate) : Weighed :=
  match x.names c.target with
  | none => Weighed.untouched c
  | some n =>
    let a := e.averageIf (some c.average) n.reading.level
    { Weighed.untouched { c with average := a.average.getD c.average } with
      named := true, diverged := if a.diverged then n.reading.level else none }

/-! ### Misses and insertion (R120, R121) -/

/-- Stage 4 for one entry (R120): an unnamed entry counts a miss and leaves at its third. -/
def Weighed.missed (w : Weighed) : Option Weighed :=
  if w.named then some w
  else if w.entry.misses < 2 then some { w with entry := { w.entry with misses := w.entry.misses + 1 } }
  else none

/-- A new candidate entry (R121). -/
def Candidate.fresh (t : Target) (p : Fin 8) (average : Nat) : Candidate :=
  { target := t, position := p, average := average, dwell := 0, misses := 0, lastCompare := .unordered,
    lastScore := none, penalty := none }

/-- The place and average of the entry with the lowest average, the latest in place among equals (R121). -/
def lowestPlace {α : Type} (cand : α → Candidate) : List α → Option (Nat × Nat)
  | [] => none
  | e :: rest =>
    match lowestPlace cand rest with
    | none => some (0, (cand e).average)
    | some (k, a) => if (cand e).average < a then some (0, (cand e).average) else some (k + 1, a)

/-- The insertion rule (R121), over any list whose members carry a candidate entry. A target that an entry holds is not
offered. -/
def insertRule {α : Type} (cand : α → Candidate) (make : Candidate → α) (t : Target) (p : Fin 8) (average : Nat)
    (l : List α) : List α :=
  if l.any fun e => (cand e).target == t then l
  else if l.length < 6 then l ++ [make (Candidate.fresh t p average)]
  else
    match lowestPlace cand l with
    | none => l
    | some (k, a) => if a < average then l.eraseIdx k ++ [make (Candidate.fresh t p average)] else l

/-- Stage 5 for one neighbour reading (R121): a valid reading is offered. -/
def offerReading (l : List Weighed) (n : NeighbourReading) : List Weighed :=
  match n.reading with
  | .valid level => insertRule Weighed.entry Weighed.untouched n.target n.position (4 * level) l
  | _ => l

/-! ### The decision (R122 to R126) -/

/-- Whether one scored entry comes before another in a choice (R125): higher score, then greater dwell; an entry earlier
in place keeps a tie. -/
def beats (a b : Weighed × Int) : Bool :=
  decide (b.2 < a.2) || (decide (a.2 = b.2) && decide (b.1.entry.dwell < a.1.entry.dwell))

/-- The highest-scoring entry that passes a test, ties by R125. -/
def choose (p : Weighed → Bool) (l : List Weighed) : Option (Weighed × Int) :=
  l.foldl (init := none) fun best w =>
    match w.score with
    | none => best
    | some s =>
      if p w then
        match best with
        | none => some (w, s)
        | some b => if beats (w, s) b then some (w, s) else some b
      else best

/-- The rescue test (R124). -/
def EvaluatorSettings.rescueTest (e : EvaluatorSettings) (w : Weighed) : Bool :=
  match w.score with
  | some s => decide (0 < s + 4 * (e.hysteresis : Int)) && decide (1 ≤ w.before)
  | none => false

/-- The trigger test (R125). -/
def EvaluatorSettings.triggerTest (e : EvaluatorSettings) (w : Weighed) : Bool :=
  w.score.isSome && (w.entry.lastCompare == .better || w.entry.lastCompare == .equal) && decide (e.dwell ≤ w.entry.dwell)

/-- What stage 6 decides (R123, R126): the outcome, the best candidate, and the entry handed on. -/
structure Verdict where
  decision : Decision
  best : Option (Target × Int)
  chosen : Option (Candidate × Int)
  deriving DecidableEq, Repr

/-- The best candidate field of a choice. -/
def bestOf (b : Option (Weighed × Int)) : Option (Target × Int) := b.map fun w => (w.1.entry.target, w.2)

/-- An outcome that hands an entry on. -/
def Verdict.move (d : Decision) (w : Weighed × Int) : Verdict :=
  { decision := d, best := some (w.1.entry.target, w.2), chosen := some (w.1.entry, w.2) }

/-- Stage 6 (R123 to R126). `idle` says that the phase is NONE, `guarded` that the guard runs, `uplink` is U after
stage 2. -/
def EvaluatorSettings.judge (e : EvaluatorSettings) (eligible : Candidate → Bool) (idle guarded : Bool)
    (uplink : Option Nat) (l : List Weighed) : Verdict :=
  let rescueApplies := match uplink with
    | some u => decide (u < 4 * e.rescueFloor)
    | none => false
  let ok (w : Weighed) : Bool := eligible w.entry
  let anyScore := bestOf (choose (fun _ => true) l)
  let rescues := if rescueApplies then choose e.rescueTest l else none
  let rescue := if rescueApplies then choose (fun w => e.rescueTest w && ok w) l else none
  if !idle then { decision := .held, best := anyScore, chosen := none }
  else
    match rescue with
    | some w => Verdict.move .rescue w
    | none =>
      if guarded then { decision := .guarded, best := anyScore, chosen := none }
      else
        match choose (fun w => e.triggerTest w && ok w) l with
        | some w => Verdict.move .trigger w
        | none =>
          match rescues, choose e.triggerTest l with
          | some w, _ => { decision := .blocked, best := bestOf (some w), chosen := none }
          | none, some w => { decision := .blocked, best := bestOf (some w), chosen := none }
          | none, none => { decision := .none, best := anyScore, chosen := none }

/-! ### One evaluation (R117) -/

/-- What an evaluation reads beside the sample: settings, the serving base's list, free counts, eligibility, phase and
guard. -/
structure EvalContext where
  settings : EvaluatorSettings
  list : List Neighbour
  low : Target → Bool
  eligible : Candidate → Bool
  idle : Bool
  guarded : Bool

/-- What an evaluation leaves: averages, candidates, the verdict, the conditions met with their subjects in order. -/
structure Evaluation where
  serving : Option Nat
  uplink : Option Nat
  candidates : List Candidate
  verdict : Verdict
  diverged : List (DivergeSubject × Nat × Nat)
  saturated : List (Target × Int)
  deriving DecidableEq, Repr

/-- The DIVERGE conditions of an evaluation in the order serving, uplink, candidates in place order (R112), each with the
reading and the average as held before the sample. -/
def divergences (x : Sample) (held : Option Nat × Option Nat) (served up : Averaged) (old : List Candidate)
    (weighed : List Weighed) : List (DivergeSubject × Nat × Nat) :=
  (if served.diverged then [(DivergeSubject.serving, x.downlink.level.getD 0, held.1.getD 0)] else []) ++
    (if up.diverged then [(DivergeSubject.uplink, x.uplink.getD 0, held.2.getD 0)] else []) ++
    (old.zip weighed).filterMap fun p =>
      p.2.diverged.map fun l => (DivergeSubject.candidate p.1.target, l, p.1.average)

/-- The SATURATE conditions of an evaluation, in place order (R114). -/
def saturations (weighed : List Weighed) : List (Target × Int) :=
  weighed.filterMap fun w => w.saturated.map fun raw => (w.entry.target, raw)

/-- The evaluation of a sample (R117), R118 for a doubtful one. -/
def evaluate (k : EvalContext) (serving uplink : Option Nat) (candidates : List Candidate) (x : Sample) : Evaluation :=
  let e := k.settings
  let served := e.averageIf serving x.downlink.level
  let up := e.averageIf uplink x.uplink
  if x.doubtful then
    let weighed := candidates.map (e.weighDoubtful x)
    { serving := served.average, uplink := up.average, candidates := weighed.map Weighed.entry,
      verdict := { decision := .doubtful, best := none, chosen := none },
      diverged := divergences x (serving, uplink) served up candidates weighed, saturated := [] }
  else
    let measured := if x.downlink.level.isSome && !served.aside then served.average else none
    let weighed := candidates.map (e.weigh k.list k.low measured x)
    let kept := weighed.filterMap Weighed.missed
    let offered := x.neighbours.foldl offerReading kept
    { serving := served.average, uplink := up.average, candidates := offered.map Weighed.entry,
      verdict := e.judge k.eligible k.idle k.guarded up.average offered,
      diverged := divergences x (serving, uplink) served up candidates weighed, saturated := saturations weighed }

/-! ### The rework at a completed handover (R143) -/

/-- The position of a target in a neighbour list. -/
def positionOf (list : List Neighbour) (t : Target) : Option (Fin 8) :=
  (list.findIdx? fun n => n.target == t).bind (toIndex 8)

/-- An entry looked up in the new serving base's list (R143 step 4). -/
def Candidate.placedIn (list : List Neighbour) (c : Candidate) : Option Candidate :=
  (positionOf list c.target).map fun p => { c with position := p }

/-- An entry after the rework (R143 step 6). -/
def Candidate.reworked (c : Candidate) : Candidate :=
  { c with dwell := 0, misses := 0, lastCompare := .unordered, lastScore := none }

/-- The candidate list after a completed handover (R143 steps 2 to 6); `noted` is the old serving average. -/
def reworkList (noted : Option Nat) (old new : BaseIx) (list : List Neighbour) (l : List Candidate) : List Candidate :=
  let rest := l.filter fun c => c.target != .localBase new
  let placed := rest.filterMap (Candidate.placedIn list)
  let offered := match noted, positionOf list (.localBase old) with
    | some a, some p => insertRule id id (.localBase old) p a placed
    | _, _ => placed
  offered.map Candidate.reworked

/-- The rework of a context's averages and candidates (R143). -/
def Context.rework (x : Context) (old new : BaseIx) (list : List Neighbour) : Context :=
  { x with
    serving := (x.candidates.find? fun c => c.target == .localBase new).map Candidate.average
    uplink := none
    candidates := reworkList x.serving old new list x.candidates }

end Sys2Proof.Machine
end

