-- ==== Sys2Proof/Machine/Handover.lean ====
section
/-! DEFINITION. The Handover Sequencer (chapters 8 and 9): attempts, switches, completion, and the handover out of the
zone with its host requests. -/

namespace Sys2Proof.Machine

/-- The owner of an order the Sequencer places now (R131). -/
def Context.sequencerOwner (x : Context) (c : CallIx) : OrderOwner := .call c x.use x.orderNo

/-! ### Starting an attempt (R134, R149) -/

/-- A context whose next order number has been given to an order (R131). -/
def Context.nextOrder (x : Context) : Context := { x with orderNo := x.orderNo + 1 }

/-- The claimed target prepared (R134 steps 3 and 4). A target base told unavailable is TARGET_LOST (log entry 16). -/
def State.prepare (s : State) (c : CallIx) (i : CallInfo) (target : ChanRef) (rescue : Bool) : State :=
  let x := { (s.ctx c).nextOrder with phase := .preparing target rescue }
  let claimed := (s.setCtx c x).setChan target (.reserved (s.ownerOf c) i.tag)
  let r := claimed.offer target.base (.assign target.channel c i.tag) .sequencer (x.sequencerOwner c)
  match r.1 with
  | .sent => r.2
  | .full => r.2.failAttempt c .orderWindowFull
  | .unavailable => r.2.failAttempt c .targetLost

/-- A local attempt (R134). -/
def State.startLocal (s : State) (c : CallIx) (i : CallInfo) (base : BaseIx) (rescue : Bool) : State :=
  let x := s.ctx c
  let begun := s.setCtx c { x with attempts := sat 255 x.attempts }
  match begun.judgeClaim base (.target c i.serving.base) with
  | .noChannel => begun.failAttemptOn c i (.localBase base) none .preparing rescue .noChannel
  | .baseUnavailable => begun.failAttemptOn c i (.localBase base) none .preparing rescue .targetLost
  | .granted ch => begun.prepare c i ⟨base, ch⟩ rescue

/-- An attempt out of the zone (R149); `average` is the chosen entry's A_c. -/
def State.startZoneOut (s : State) (c : CallIx) (i : CallInfo) (zone : ZoneIx) (base : BaseIx) (average : Nat)
    (rescue : Bool) : State :=
  let x := s.ctx c
  let attempts := sat 255 x.attempts
  (s.setCtx c { x with attempts := attempts, phase := .handingOut zone base rescue s.settings.timers.zone }).post
    (.zoneOutRequest (i.ref c) i.serving zone base average x.serving rescue attempts)

/-- A TRIGGER or RESCUE handed on (R126, R134, R149). -/
def State.startHandover (s : State) (c : CallIx) (i : CallInfo) (entry : Candidate) (rescue : Bool) : State :=
  match entry.target with
  | .localBase b => s.startLocal c i b rescue
  | .foreignBase z b => s.startZoneOut c i z b entry.average rescue

/-! ### Order outcomes (R131, R135, R136, R139, R153) -/

/-- A MOVE offered to the serving base, the context already given its order number. -/
def State.offerMove (s : State) (c : CallIx) (i : CallInfo) (target : Target) (channel : ChanIx) : Offered × State :=
  s.offer i.serving.base (.move i.serving.channel target channel) .sequencer ((s.ctx c).sequencerOwner c)

/-- The target prepared: MOVE and SWITCHING (R135). A serving base told unavailable is NO_ECHO_SERVING (log entry 16). -/
def State.startSwitch (s : State) (c : CallIx) (i : CallInfo) (target : ChanRef) (rescue : Bool) : State :=
  let r := (s.setCtx c (s.ctx c).nextOrder).offerMove c i (.localBase target.base) target.channel
  match r.1 with
  | .sent => r.2.setCtx c { r.2.ctx c with
      phase := .switching target rescue (some i.serving) 0 s.settings.timers.switch }
  | .full => r.2.failAttempt c .orderWindowFull
  | .unavailable => r.2.failAttempt c .noEchoServing

/-- The outcome of an order the Sequencer placed (R131): it acts when the owner matches and the phase awaits the kind. -/
def State.sequencerOutcome (s : State) (c : CallIx) (use orderNo : BitVec 8) (kind : OrderKind) (echoed : Bool) : State :=
  let x := s.ctx c
  if x.use ≠ use ∨ x.orderNo ≠ orderNo then s
  else
    match x.call, x.phase, kind with
    | some i, .preparing target rescue, .assign =>
      if echoed then s.startSwitch c i target rescue else s.failAttempt c .noEchoTarget
    | some _, .switching _ _ _ _ _, .move => if echoed then s else s.failAttempt c .noEchoServing
    | some _, .switchingOut _ _ _ _ _ _ _, .move => if echoed then s else s.failAttempt c .noEchoServing
    | _, _, _ => s

/-! ### Completion (R142) -/

/-- The former serving channel released if the context still owns it (R87, R142 step 1). -/
def State.releaseFormer (s : State) (p : ChanRef) (o : Owner) : State :=
  if (s.chan p).heldBy o then s.release p (some o) else s

/-- The completion of a local handover (R142): move, rework, phase, guard, notice. `old` is what COMPLETED carries. -/
def State.completeMove (s : State) (c : CallIx) (i : CallInfo) (target : ChanRef) (rescue : Bool) (old : Option ChanRef)
    (strays : Nat) : State :=
  let owner := s.ownerOf c
  let moved := (s.setChan target (.busy owner)).setCtx c
    { s.ctx c with call := some { i with serving := target } }
  let left := (moved.relocate i.slot target.base).releaseFormer i.serving owner
  let x := (left.ctx c).rework i.serving.base target.base (s.cfg target.base).neighbours
  (left.setCtx c { x with phase := .none, guard := loadUnlessZero s.settings.timers.guard }).post
    (.completed (i.ref c) old target rescue strays x.attempts)

/-- An ARRIVAL passed to the Sequencer for a target channel (R137, R142); ignored in any other phase. -/
def State.targetArrival (s : State) (c : CallIx) (i : CallInfo) (p : ChanRef) : State :=
  match (s.ctx c).phase with
  | .preparing target rescue => if target = p then s.completeMove c i target rescue (some i.serving) 0 else s
  | .switching target rescue old strays _ => if target = p then s.completeMove c i target rescue old strays else s
  | _ => s

/-! ### Deadlines (R140, R144, R152, R154) -/

/-- How a switch ends at its deadline (R140, R154). -/
def State.endSwitch (s : State) (c : CallIx) (old : Option ChanRef) (strays : Nat) : State :=
  match old with
  | none => s.loseSwitch c .oldLinkGone
  | some _ => if strays = 0 then s.loseSwitch c .noStrays else s.failAttempt c .reverted

/-- The switch deadline's expiry, when it is due (R140, R154). -/
def takeSwitchExpiry (c : CallIx) (s : State) : State :=
  match (s.ctx c).phase with
  | .switching _ _ old strays 0 => s.endSwitch c old strays
  | .switchingOut _ _ _ _ old strays 0 => s.endSwitch c old strays
  | _ => s

/-- SWITCH_DEADLINE_EXPIRY (R140, R154). -/
def execSwitchDeadlineExpiry (c : CallIx) (s : State) : Result := .next (takeSwitchExpiry c s.fresh)

/-- The zone deadline's expiry, when it is due (R152). -/
def takeZoneExpiry (c : CallIx) (s : State) : State :=
  match (s.ctx c).phase with
  | .handingOut _ _ _ 0 => s.failAttempt c .zoneTimeout
  | _ => s

/-- ZONE_DEADLINE_EXPIRY (R152). -/
def execZoneDeadlineExpiry (c : CallIx) (s : State) : Result := .next (takeZoneExpiry c s.fresh)

/-- The guard's expiry, when it is due (R144). -/
def takeGuardExpiry (c : CallIx) (s : State) : State :=
  let x := s.ctx c
  if x.guard = some 0 then s.setCtx c { x with guard := none } else s

/-- GUARD_EXPIRY (R144). -/
def execGuardExpiry (c : CallIx) (s : State) : Result := .next (takeGuardExpiry c s.fresh)

/-- A candidate whose penalty deadline has expired (R127). -/
def Candidate.unpenalised (t : Target) (e : Candidate) : Candidate :=
  if e.target = t ∧ e.penalty = some 0 then { e with penalty := none } else e

/-- A penalty deadline's expiry, when it is due (R127). -/
def takePenaltyExpiry (c : CallIx) (t : Target) (s : State) : State :=
  let x := s.ctx c
  s.setCtx c { x with candidates := x.candidates.map (Candidate.unpenalised t) }

/-- PENALTY_EXPIRY (R127). -/
def execPenaltyExpiry (c : CallIx) (t : Target) (s : State) : Result := .next (takePenaltyExpiry c t s.fresh)

/-! ### Strays (R93, R138, R153) -/

/-- A stray counted in the switch under way (R138, R153). -/
def Phase.strayed : Phase → Phase
  | .switching p r o n d => .switching p r o (sat 255 n) d
  | .switchingOut z b c r o n d => .switchingOut z b c r o (sat 255 n) d
  | x => x

/-! ### Host requests (R151, R152, R155) -/

/-- The state of a call as CLOSE CALL and ZONE COMPLETE report it (R82, R155): FREE is 0. -/
def State.callCode (s : State) (c : CallIx) : Nat :=
  match (s.ctx c).call with
  | none => 0
  | some i => i.stage.code

/-- ZONE GO (R151). -/
def takeZoneGo (call channel : Byte) (s : State) : Taken :=
  match asCall call, asChannel channel with
  | some c, some ch =>
    let x := s.ctx c
    match x.call, x.phase with
    | some i, .handingOut zone base rescue deadline =>
      if i.stage = .active then
        let r := (s.setCtx c { x.nextOrder with phase := .handingOut zone base rescue deadline }).offerMove c i
          (.foreignBase zone base) ch
        match r.1 with
        | .sent =>
          (okay (byte1 PhaseName.switchingOut.code), r.2.setCtx c { r.2.ctx c with
            phase := .switchingOut zone base ch rescue (some i.serving) 0 s.settings.timers.switch })
        | .full => (refuse .orderWindowFull, r.2.failAttempt c .orderWindowFull)
        | .unavailable => (refuse .orderWindowFull, r.2.failAttempt c .noEchoServing)
      else (refuse .wrongState, s)
    | _, _ => (refuse .wrongState, s)
  | _, _ => (refuse .badArg, s)

/-- ZONE FAIL (R152). -/
def takeZoneFail (call : Byte) (s : State) : Taken :=
  match asCall call with
  | none => (refuse .badArg, s)
  | some c =>
    match (s.ctx c).call, (s.ctx c).phase with
    | some i, .handingOut _ _ _ _ =>
      if i.stage = .active then (okay [], s.failAttempt c .zoneRefused) else (refuse .wrongState, s)
    | _, _ => (refuse .wrongState, s)

/-- ZONE COMPLETE (R155). -/
def takeZoneComplete (call : Byte) (s : State) : Taken :=
  match asCall call with
  | none => (refuse .badArg, s)
  | some c =>
    let x := s.ctx c
    match x.call, x.phase with
    | some i, .switchingOut zone base channel rescue old strays _ =>
      if i.stage = .active then
        let t := (s.post (.zoneOutDone (i.ref c) old zone base channel strays rescue x.attempts)).clearCall c
          (.handedOut zone)
        (okay (byte1 (t.callCode c)), t)
      else (refuse .wrongState, s)
    | _, _ => (refuse .wrongState, s)

end Sys2Proof.Machine
end

