-- ==== Sys2Proof/Machine/Calls.lean ====
section
/-! DEFINITION. The Call Unit (chapter 5 and the receiving side of chapter 9): opening, admitting, connecting and closing
calls, order outcomes, ARRIVAL and LOSS. -/

namespace Sys2Proof.Machine

/-! ### Opening and admitting (R76, R77, R156, R157) -/

/-- A direction byte (section 12.4). -/
def asDirection (x : Byte) : Option Direction :=
  if x = 0 then some .terminating else if x = 1 then some .originated else none

/-- The fields of a call taken into a context (R74, R75). -/
def newCall (kind : SetupKind) (deadline : Option Nat) (slot : SlotIx) (h : Handset) (p : ChanRef) : CallInfo :=
  { stage := .setup deadline, kind := kind, slot := slot, tag := h.tag, cls := h.cls, serving := p,
    reachedActive := false }

/-- Whether a base can take a new call (R76 item 9, R156 item 7). -/
def State.baseTakesCall (s : State) (b : BaseIx) : Bool :=
  decide ((s.base b).state = .inService) && !(s.base b).closed

/-- The reply of an opened or admitted call (R77, R157): call index, base and channel. -/
def openedReply (c : CallIx) (p : ChanRef) : Reply := okay (byte1 c.val ++ p.bytes)

/-- The base at which an ATTACHED record stands with its pending origination (R76 items 5 and 6), or the refusal. -/
def HandsetStatus.callableAt : HandsetStatus → Except Status (BaseIx × Option Nat)
  | .engaged _ _ _ => .error .inCall
  | .enrolled _ => .error .notAttached
  | .attached b _ origination => .ok (b, origination)

/-- OPEN CALL (R76, R77): the refusals in their order, then the call. -/
def takeOpenCall (tag : BitVec 32) (direction : Byte) (s : State) : Taken :=
  if s.runState ≠ .serving then (refuse .wrongState, s)
  else
    match asTag tag, asDirection direction with
    | some t, some d =>
      match s.findTag t with
      | none => (refuse .noSuch, s)
      | some slot =>
        match s.handset slot with
        | none => (refuse .noSuch, s)
        | some h =>
          if h.barred then (refuse .barred, s)
          else
            match h.status.callableAt with
            | .error e => (refuse e, s)
            | .ok (b, origination) =>
              if d = .originated ∧ origination = none then (refuse .noSuch, s)
              else
                match s.lowestFree with
                | none => (refuse .noRoom, s)
                | some c =>
                  if !s.baseTakesCall b then (refuse .baseUnavailable, s)
                  else
                    match s.judgeClaim b (.setup h.cls) with
                    | .baseUnavailable => (refuse .baseUnavailable, s)
                    | .noChannel => (refuse .noChannel, s)
                    | .granted ch =>
                      if 4 ≤ (s.base b).window.length then (refuse .orderWindowFull, s)
                      else
                        (openedReply c ⟨b, ch⟩,
                          s.openContext c ⟨b, ch⟩
                            (newCall (.localCall d) (some s.settings.timers.setup) slot h ⟨b, ch⟩))
    | _, _ => (refuse .badArg, s)

/-- ADMIT CALL (R156, R157): the refusals in their order, then the call, without a setup deadline yet. -/
def takeAdmitCall (tag : BitVec 32) (base zone : Byte) (s : State) : Taken :=
  if s.runState ≠ .serving then (refuse .wrongState, s)
  else
    match asTag tag, asBase base, asZone zone with
    | some t, some b, some z =>
      if z = s.settings.zone then (refuse .badArg, s)
      else
        match s.findTag t with
        | none => (refuse .noSuch, s)
        | some slot =>
          match s.handset slot with
          | none => (refuse .noSuch, s)
          | some h =>
            if h.barred then (refuse .barred, s)
            else if h.status.state = .engaged then (refuse .inCall, s)
            else
              match s.lowestFree with
              | none => (refuse .noRoom, s)
              | some c =>
                if !s.baseTakesCall b then (refuse .baseUnavailable, s)
                else
                  match s.judgeClaim b .zoneIn with
                  | .baseUnavailable => (refuse .baseUnavailable, s)
                  | .noChannel => (refuse .noChannel, s)
                  | .granted ch =>
                    if 4 ≤ (s.base b).window.length then (refuse .orderWindowFull, s)
                    else
                      (openedReply c ⟨b, ch⟩,
                        s.openContext c ⟨b, ch⟩ (newCall (.zoneIn z) none slot h ⟨b, ch⟩))
    | _, _, _ => (refuse .badArg, s)

/-! ### Order outcomes (R72, R78, R158) -/

/-- The outcome of a setup ASSIGN for a context in SETUP (R78, R158). -/
def State.setupOutcome (s : State) (c : CallIx) (echoed : Bool) : State :=
  let x := s.ctx c
  match x.call with
  | none => s
  | some i =>
    match i.stage, i.kind with
    | .setup _, .localCall _ => if echoed then s else s.failSetup c .noEcho
    | .setup _, .zoneIn z =>
      if echoed then
        (s.setCtx c { x with call := some { i with stage := .setup (some s.settings.timers.setup) } }).post
          (.zoneInPrepared (i.ref c) i.serving z)
      else s.failSetup c .noEcho
    | _, _ => s

/-- The outcome of a RELEASE (R72): the channel becomes FREE either way, and a matching owner is told. -/
def State.releaseOutcome (s : State) (p : ChanRef) (owner : OrderOwner) : State :=
  let freed := s.setChan p .free
  match owner with
  | .call c use _ => if (freed.ctx c).use = use then freed.freeIfDone c else freed
  | _ => freed

/-- The outcome of an order the Call Unit placed (R72, R78). -/
def State.callUnitOutcome (s : State) (b : BaseIx) (e : WindowEntry) (echoed : Bool) : State :=
  match e.kind, e.channel with
  | .release, some ch => s.releaseOutcome ⟨b, ch⟩ e.owner
  | .assign, _ =>
    match e.owner with
    | .call c use _ => if (s.ctx c).use = use then s.setupOutcome c echoed else s
    | _ => s
  | _, _ => s

/-- The placing block told the outcome of a window entry (R30, R31, R64). -/
def State.outcome (s : State) (b : BaseIx) (e : WindowEntry) (echoed : Bool) : State :=
  match e.placer with
  | .callUnit => s.callUnitOutcome b e echoed
  | .sequencer =>
    match e.owner with
    | .call c use orderNo => s.sequencerOutcome c use orderNo e.kind echoed
    | _ => s
  | .registration => s
  | .baseLink => s

/-! ### ARRIVAL and LOSS (R79, R85, R158) -/

/-- The notice of a setup that connects (R79, R158). -/
def CallInfo.connectedNotice (i : CallInfo) (c : CallIx) : NoticeBody :=
  match i.kind with
  | .localCall d => .connected (i.ref c) i.serving d
  | .zoneIn z => .zoneInArrived (i.ref c) i.serving z

/-- A setup's call becomes ACTIVE (R79, R158). -/
def State.connect (s : State) (c : CallIx) (i : CallInfo) (p : ChanRef) (o : Owner) : State :=
  ((s.setChan p (.busy o)).setCtx c
    { s.ctx c with call := some { i with stage := .active, reachedActive := true } }).post (i.connectedNotice c)

/-- An ARRIVAL at a channel of an IN_SERVICE base, by the channel's state (R79). -/
def State.arrive (s : State) (p : ChanRef) (t : Tag) : State :=
  if !s.chanExists p then s
  else
    match s.chan p with
    | .free => s.release p none
    | .reserved o expected =>
      if expected ≠ t ∨ (s.ctx o.call).use ≠ o.use then s
      else
        match (s.ctx o.call).call with
        | none => s
        | some i =>
          match i.stage with
          | .setup _ => s.connect o.call i p o
          | .active => s.targetArrival o.call i p
          | .clearing _ => s
    | .busy _ => s
    | .releasing _ => s
    | .releaseOwed => s

/-- The ACTIVE context that a base, a channel and a tag name as its serving link (R85). -/
def State.servedBy (s : State) (p : ChanRef) (t : Tag) : Option CallIx :=
  s.contexts.lowest fun x => match x.call with
    | some i => i.stage == .active && i.serving == p && i.tag == t
    | none => false

/-- A LOSS at a channel of an IN_SERVICE base (R85): a switch takes it as the expected end of the old link. -/
def State.lose (s : State) (p : ChanRef) (t : Tag) : State :=
  if !s.chanExists p then s
  else
    match s.servedBy p t with
    | none => s
    | some c =>
      match (s.ctx c).phase with
      | .none => s.clearCall c .lost
      | .preparing _ _ => s.clearCall c .lost
      | .handingOut _ _ _ _ => s.clearCall c .lost
      | .switching _ _ _ _ _ => s
      | .switchingOut _ _ _ _ _ _ _ => s

/-! ### Deadlines and requests (R80, R82) -/

/-- The setup deadline's expiry, when it is due (R80). -/
def takeSetupExpiry (c : CallIx) (s : State) : State :=
  match (s.ctx c).call with
  | none => s
  | some i => if i.stage = .setup (some 0) then s.failSetup c .timeout else s

/-- SETUP_DEADLINE_EXPIRY (R80, R158). -/
def execSetupDeadlineExpiry (c : CallIx) (s : State) : Result := .next (takeSetupExpiry c s.fresh)

/-- CLOSE CALL (R82). -/
def takeCloseCall (call : Byte) (s : State) : Taken :=
  match asCall call with
  | none => (refuse .badArg, s)
  | some c =>
    if (s.ctx c).call = none then (refuse .noSuch, s)
    else
      let t := s.clearCall c .closed
      (okay (byte1 (t.callCode c)), t)

/-! ### QUERY CALL (R88) -/

/-- The channels a context owns, each with its base, channel and state (R88). -/
def State.ownedBytes (s : State) (c : CallIx) : List Byte :=
  counted (fun p : ChanRef => p.bytes ++ byte1 (s.chan p).code) (s.owned (s.ownerOf c))

/-- The target channel of a phase (R130): none in HANDING_OUT. -/
def Phase.targetChannel : Phase → Option ChanIx
  | .preparing p _ => some p.channel
  | .switching p _ _ _ _ => some p.channel
  | .switchingOut _ _ ch _ _ _ _ => some ch
  | _ => Option.none

/-- The deadline of a phase (R130). -/
def Phase.deadline : Phase → Option Nat
  | .switching _ _ _ _ d => some d
  | .handingOut _ _ _ d => some d
  | .switchingOut _ _ _ _ _ _ d => some d
  | _ => Option.none

/-- The stray count where the phase has one (R130). -/
def Phase.strayField : Phase → Option Nat
  | .switching _ _ _ n _ => some n
  | .switchingOut _ _ _ _ _ n _ => some n
  | _ => Option.none

/-- Phase and handover record in the order of R147; a CLEARING context has no phase (R130). -/
def Context.handoverBytes (x : Context) (clearing : Bool) : List Byte :=
  (if clearing then [0xFF] else byte1 x.phase.name.code) ++ orAbsent 1 targetBytes x.phase.target ++
    orAbsent 1 (fun c : ChanIx => byte1 c.val) x.phase.targetChannel ++
    (if x.phase = .none then [0xFF] else flagByte x.phase.rescue) ++ orAbsent 2 ChanRef.bytes x.phase.old ++
    orAbsent 1 byte1 x.phase.strayField ++ remaining x.phase.deadline ++ remaining x.guard ++ [x.orderNo] ++
    byte1 x.attempts

/-- The setup deadline and clear cause of a stage (R74). -/
def Stage.bytes : Stage → List Byte
  | .setup d => remaining d ++ [0xFF, 0xFF]
  | .active => remaining none ++ [0xFF, 0xFF]
  | .clearing cause => remaining none ++ cause.bytes

/-- Setup kind, and direction or from zone (R74). -/
def SetupKind.bytes : SetupKind → List Byte
  | .localCall d => byte1 0 ++ byte1 d.code
  | .zoneIn z => byte1 1 ++ byte1 z.val

/-- Whether a stage is CLEARING. -/
def Stage.isClearing : Stage → Bool
  | .clearing _ => true
  | _ => false

/-- A context not FREE as QUERY CALL returns it (R88). The one byte of the access class and of each enumerated value is the
model's choice (log entry 34). -/
def State.callBytes (s : State) (c : CallIx) (i : CallInfo) : List Byte :=
  let x := s.ctx c
  byte1 i.stage.code ++ [x.use] ++ i.kind.bytes ++ byte2 i.slot.val ++ byte4 i.tag.toNat ++ byte1 i.cls.val ++
    i.serving.bytes ++ flagByte i.reachedActive ++ i.stage.bytes ++ s.ownedBytes c ++
    x.handoverBytes i.stage.isClearing ++ orAbsent 2 byte2 x.serving ++ orAbsent 2 byte2 x.uplink ++
    counted Candidate.bytes x.candidates ++ byte1 x.ring.length ++ byte4 x.nextSample.toNat ++
    flagByte x.divergeSticky ++ flagByte x.saturateSticky ++ byte1 x.packed ++ byte1 x.unlisted ++ byte1 x.strays ++
    byte1 x.attempts

/-- QUERY CALL (R88): for a FREE context the state and the use number alone. -/
def takeQueryCall (call : Byte) (s : State) : Taken :=
  match asCall call with
  | none => (refuse .badArg, s)
  | some c =>
    match (s.ctx c).call with
    | none => (okay (byte1 0 ++ [(s.ctx c).use]), s)
    | some i => (okay (s.callBytes c i), s)

end Sys2Proof.Machine
end

