-- ==== Sys2Proof/Machine/Reports.lean ====
section
/-! DEFINITION. The Report Filter (chapter 6): which reports are taken, how a sample is built, the ring, and the event in
which a sample is evaluated, acted on and captured. -/

namespace Sys2Proof.Machine

/-! ### Building a sample (R96 to R100) -/

/-- The selected uplink reading and its source (R96). -/
def selectUplink (a b : UplinkReading) : Option (BitVec 7) × UplinkSource :=
  if uplinkPasses a then (some a.value, .a)
  else if uplinkPasses b then (some b.value, .b)
  else (none, .none)

/-- A valid level of a reading that passes its check. -/
def usableLevel (r : UplinkReading) : Option Nat :=
  if uplinkPasses r then (classed r.value).level else none

/-- Whether a sample is doubtful (R97): both readings usable and further apart than the diversity tolerance. -/
def doubtfulPair (tolerance : Nat) (a b : UplinkReading) : Bool :=
  match usableLevel a, usableLevel b with
  | some x, some y => decide (tolerance < x - y) || decide (tolerance < y - x)
  | _, _ => false

/-- The neighbour readings of a report against a list (R99): the entries of the sample and the number unlisted. A position
named before in the report is dropped whatever it was (log entry 13). -/
def readNeighbours (list : List Neighbour) :
    List (Fin 8) → List (Fin 8 × BitVec 7) → List NeighbourReading × Nat
  | _, [] => ([], 0)
  | seen, (p, x) :: rest =>
    let more := readNeighbours list (p :: seen) rest
    if seen.contains p then more
    else
      match list[p.val]? with
      | none => (more.1, more.2 + 1)
      | some n => ({ position := p, target := n.target, reading := classed x } :: more.1, more.2)

/-- The sample of an accepted report, its decision still open (R100). -/
def buildSample (number : BitVec 32) (tick : Tick) (tolerance : Nat) (list : List Neighbour) (f : ReportFrame) : Sample :=
  let chosen := selectUplink f.readingA f.readingB
  let uplink := chosen.1.map classed
  { number := number, tick := tick, downlink := classed f.downlink
    uplink := uplink.bind Reading.level
    source := chosen.2
    uplinkRange := match uplink with
      | some (.range _) => true
      | _ => false
    doubtful := doubtfulPair tolerance f.readingA f.readingB
    neighbours := (readNeighbours list [] f.neighbours).1
    decision := .none, best := none }

/-! ### Eligibility (R122) -/

/-- Whether a local base's free count is below 2 (R113); never for a foreign target. -/
def State.lowFree (s : State) : Target → Bool
  | .localBase b => decide (s.freeChannelCount b < 2)
  | .foreignBase _ _ => false

/-- Whether a candidate entry may be chosen (R122). -/
def State.eligible (s : State) (c : CallIx) (serving : BaseIx) (e : Candidate) : Bool :=
  e.penalty.isNone &&
    match e.target with
    | .foreignBase _ _ => true
    | .localBase b =>
      decide ((s.base b).state = .inService) && !(s.base b).closed && decide (1 ≤ s.freeChannelCount b) &&
        decide ((s.base b).window.length < 4) && !s.ownsElsewhere c serving

/-! ### The appending of a sample (R102, R103) -/

/-- The notices of the conditions an evaluation met unmasked: DIVERGE first, then SATURATE (R112, R114). -/
def Evaluation.notices (v : Evaluation) (e : EvaluatorSettings) (c : CallIx) (number : BitVec 32) : List NoticeBody :=
  (if e.divergeMasked then [] else v.diverged.map fun d => .diverge c number d.1 d.2.1 d.2.2) ++
    (if e.saturateMasked then [] else v.saturated.map fun d => .saturate c number d.1 d.2)

/-- Whether an evaluation sets the DIVERGE stickies (R111). -/
def Evaluation.setsDiverge (v : Evaluation) (e : EvaluatorSettings) : Bool := e.divergeMasked && !v.diverged.isEmpty

/-- Whether an evaluation sets the SATURATE stickies (R114). -/
def Evaluation.setsSaturate (v : Evaluation) (e : EvaluatorSettings) : Bool := e.saturateMasked && !v.saturated.isEmpty

/-- A sample with the decision the evaluator wrote (R126). -/
def Sample.decided (x : Sample) (v : Verdict) : Sample := { x with decision := v.decision, best := v.best }

/-- A context with a sample appended and its evaluation kept (R101, R102, R107). -/
def Context.appended (x : Context) (smp : Sample) (v : Evaluation) (e : EvaluatorSettings) : Context :=
  { x with
    ring := lastSamples 16 (x.ring ++ [smp]), nextSample := x.nextSample + 1, lastAccepted := some smp.tick,
    serving := v.serving, uplink := v.uplink, candidates := v.candidates,
    divergeSticky := x.divergeSticky || v.setsDiverge e, saturateSticky := x.saturateSticky || v.setsSaturate e }

/-- The ARMED_NEXT slots that wait on a call, in ascending slot order (R173). -/
def State.waitingSlots (s : State) (c : CallIx) : List (CapIx × CaptureHeader) :=
  (indices 4).filterMap fun k => match s.slots.get k with
    | .armedNext h => if h.call = c then some (k, h) else none
    | _ => none

/-- The Capture Unit told of a new sample (R173): the slots that were waiting when it was appended complete. -/
def State.completeWaiting (s : State) (due : List (CapIx × CaptureHeader)) : State :=
  due.foldl (init := s) fun t k => if t.slots.get k.1 = .armedNext k.2 then t.completeSlot k.1 k.2 .ok else t

/-- What an evaluation of the context reads (R117). -/
def State.evalContext (s : State) (c : CallIx) (i : CallInfo) : EvalContext :=
  { settings := s.settings.evaluator, list := (s.cfg i.serving.base).neighbours, low := s.lowFree,
    eligible := s.eligible c i.serving.base, idle := decide ((s.ctx c).phase = .none),
    guarded := (s.ctx c).guard.isSome }

/-- The state with a sample in the ring, its decision written, its conditions kept and reported (R103). -/
def State.keepSample (s : State) (c : CallIx) (smp : Sample) (v : Evaluation) : State :=
  let e := s.settings.evaluator
  let kept := s.setCtx c ((s.ctx c).appended (smp.decided v.verdict) v e)
  (v.notices e c smp.number).foldl State.post
    { kept with
      divergeSticky := kept.divergeSticky || v.setsDiverge e
      saturateSticky := kept.saturateSticky || v.setsSaturate e }

/-- The whole event of a sample (R103): append and evaluate, hand a decision on, tell the Capture Unit. -/
def State.takeSample (s : State) (c : CallIx) (i : CallInfo) (smp : Sample) : State :=
  let x := s.ctx c
  let v := evaluate (s.evalContext c i) x.serving x.uplink x.candidates smp
  let kept := s.keepSample c smp v
  let due := kept.waitingSlots c
  let moved := match v.verdict.chosen with
    | some w => kept.startHandover c i w.1 (v.verdict.decision == Decision.rescue)
    | none => kept
  moved.completeWaiting due

/-! ### Taking a report (R90 to R95) -/

/-- A stray (R93): counted in the context and in the switch under way. -/
def Context.strayed (x : Context) : Context := { x with strays := sat 255 x.strays, phase := x.phase.strayed }

/-- Whether a report is packed (R95): closer to the last accepted one than the report spacing, modulo 2^32. -/
def State.packs (s : State) (x : Context) : Bool :=
  match x.lastAccepted with
  | some t => decide ((s.tick - t).toNat < s.settings.timers.spacing)
  | none => false

/-- An accepted report (R95 to R103): packed, or a sample. -/
def State.acceptReport (s : State) (b : BaseIx) (c : CallIx) (i : CallInfo) (f : ReportFrame) : State :=
  let x := s.ctx c
  if s.packs x then
    (s.setCtx c { x with packed := sat 255 x.packed }).setBase b { s.base b with packed := sat 65535 (s.base b).packed }
  else
    let list := (s.cfg i.serving.base).neighbours
    let unlisted := (readNeighbours list [] f.neighbours).2
    (s.setCtx c { x with unlisted := min 255 (x.unlisted + unlisted) }).takeSample c i
      (buildSample x.nextSample s.tick s.settings.evaluator.diversity list f)

/-- A REPORT from an IN_SERVICE base (R90, R92, R93). -/
def State.takeReport (s : State) (b : BaseIx) (f : ReportFrame) : State :=
  match toIndex 96 f.call.toNat with
  | none => s
  | some c =>
    if 4 < f.count.toNat then s
    else
      let x := s.ctx c
      match x.call with
      | none => s
      | some i =>
        if i.stage = .active ∧ i.serving = ⟨b, f.channel⟩ then
          match x.phase with
          | .none => s.acceptReport b c i f
          | .preparing _ _ => s.acceptReport b c i f
          | .handingOut _ _ _ _ => s.acceptReport b c i f
          | .switching _ _ _ _ _ => s.setCtx c x.strayed
          | .switchingOut _ _ _ _ _ _ _ => s.setCtx c x.strayed
        else s

end Sys2Proof.Machine
end

