-- ==== Sys2Proof/Machine/Handsets.lean ====
section
/-! DEFINITION. The Registration Unit (chapter 4): the host's requests on the handset table, access requests, lifetime and
origination. -/

namespace Sys2Proof.Machine

/-! ### Host requests (R51 to R55) -/

/-- ENROL (R51). -/
def takeEnrol (tag credential : BitVec 32) (cls : Byte) (s : State) : Taken :=
  match asTag tag, asCredential credential, asClass cls with
  | some t, some k, some c =>
    if (s.findTag t).isSome then (refuse .duplicate, s)
    else
      match s.handsets.lowest Option.isNone with
      | none => (refuse .noRoom, s)
      | some i =>
        (okay (byte2 i.val), s.setHandset i (some
          { tag := t, credential := k, cls := c, barred := false, failures := 0, lastAccess := none,
            status := .enrolled none }))
  | _, _, _ => (refuse .badArg, s)

/-- The refusal of a selection that names no record (R50). -/
def Selected.refusal : Selected → Status
  | .bad => .badArg
  | _ => .noSuch

/-- REMOVE (R52). -/
def takeRemove (selector : Byte) (value : BitVec 32) (s : State) : Taken :=
  match s.select selector value with
  | .held i h => if h.status.state = .engaged then (refuse .inCall, s) else (okay [], s.setHandset i none)
  | x => (refuse x.refusal, s)

/-- An ATTACHED record withdrawn: ENROLLED with no location (R53, R59). -/
def Handset.withdrawn (h : Handset) : Handset :=
  match h.status with
  | .attached _ _ _ => { h with status := .enrolled none }
  | _ => h

/-- BAR (R53). -/
def takeBar (selector : Byte) (value : BitVec 32) (s : State) : Taken :=
  match s.select selector value with
  | .held i h =>
    if h.barred then (okay (byte1 h.status.state.code), s)
    else
      let barred := { h with barred := true }
      match h.status with
      | .attached b _ origination =>
        (okay (byte1 HandsetState.enrolled.code),
          (s.setHandset i (some barred.withdrawn)).post (.withdrawn i h.tag b origination.isSome))
      | _ => (okay (byte1 h.status.state.code), s.setHandset i (some barred))
  | x => (refuse x.refusal, s)

/-- UNBAR (R54). -/
def takeUnbar (selector : Byte) (value : BitVec 32) (s : State) : Taken :=
  match s.select selector value with
  | .held i h => (okay [], s.setHandset i (some { h with barred := false, failures := 0 }))
  | x => (refuse x.refusal, s)

/-- The call index and detach-pending flag of a status (R55). -/
def HandsetStatus.callBytes : HandsetStatus → List Byte
  | .engaged _ c d => byte1 c.val ++ flagByte d
  | _ => [0xFF, 0xFF]

/-- The remaining lifetime and origination of a status (R55). -/
def HandsetStatus.deadlineBytes : HandsetStatus → List Byte
  | .attached _ lifetime origination => byte4 lifetime ++ remaining origination
  | _ => remaining none ++ remaining none

/-- A record as QUERY HANDSET returns it (R55): never the credential. The one byte of the access class and of the state is
the model's choice (log entry 34). -/
def Handset.bytes (h : Handset) (i : SlotIx) : List Byte :=
  byte2 i.val ++ byte1 h.status.state.code ++ tagBytes h.tag ++ byte1 h.cls.val ++ flagByte h.barred ++
    byte1 h.failures ++ h.status.location.bytes ++ h.status.callBytes ++
    orAbsent 4 (fun t : Tick => byte4 t.toNat) h.lastAccess ++ h.status.deadlineBytes

/-- QUERY HANDSET (R55): a VACANT slot by slot is answered with its state alone. -/
def takeQueryHandset (selector : Byte) (value : BitVec 32) (s : State) : Taken :=
  match s.select selector value with
  | .held i h => (okay (h.bytes i), s)
  | .vacant _ => (okay (byte1 HandsetState.vacant.code), s)
  | x => (refuse x.refusal, s)

/-! ### Access requests (R56 to R63) -/

/-- Whether an answer cause posts REFUSED (R56): each refusal other than UNKNOWN and MALFORMED. -/
def AnswerCause.refuses : AnswerCause → Bool
  | .closed | .barred | .denied | .inCall | .notAttached => true
  | .accept | .unknown | .malformed => false

/-- The REFUSED notice of a decision, where it posts one (R56). -/
def State.refuseAccess (s : State) (i : SlotIx) (r : AccessRequest) (cause : AnswerCause) : AnswerCause × State :=
  (cause, if cause.refuses then s.post (.refused i r.tag r.base r.kind cause) else s)

/-- A third credential failure (R59): barred, withdrawn, BARRED_BY_FAILURES. -/
def State.barByFailures (s : State) (i : SlotIx) (h : Handset) (r : AccessRequest) : State :=
  let after := { h with failures := 3, barred := true }.withdrawn
  (s.setHandset i (some after)).post (.barredByFailures i r.tag r.base after.status.state)

/-- DENIED (R59). -/
def State.deny (s : State) (i : SlotIx) (h : Handset) (r : AccessRequest) : AnswerCause × State :=
  let failures := sat 3 h.failures
  if failures < 3 then (s.setHandset i (some { h with failures := failures })).refuseAccess i r .denied
  else (.denied, s.barByFailures i h r)

/-- An accepted ATTACH (R58). -/
def State.attach (s : State) (i : SlotIx) (h : Handset) (r : AccessRequest) : State :=
  let origination := match h.status with
    | .attached _ _ o => o
    | _ => none
  let t := s.setHandset i (some { h with failures := 0, status := .attached r.base s.lifetimeTicks origination })
  if h.status.location = .base r.base then t else t.post (.attached i r.tag r.base h.status.location)

/-- ATTACH (R58). -/
def State.decideAttach (s : State) (i : SlotIx) (h : Handset) (r : AccessRequest) : AnswerCause × State :=
  if s.closedAt r.base then s.refuseAccess i r .closed
  else if h.barred then s.refuseAccess i r .barred
  else if r.credential ≠ some h.credential then s.deny i h r
  else if h.status.state = .engaged then s.refuseAccess i r .inCall
  else (.accept, s.attach i h r)

/-- An accepted LOCATE (R60): location, lifetime, LOCATED. -/
def State.locate (s : State) (i : SlotIx) (h : Handset) (former : BaseIx) (origination : Option Nat)
    (r : AccessRequest) : State :=
  (s.setStatus i h (.attached r.base s.lifetimeTicks origination)).post (.located i r.tag former r.base)

/-- LOCATE (R60). -/
def State.decideLocate (s : State) (i : SlotIx) (h : Handset) (r : AccessRequest) : AnswerCause × State :=
  match h.status with
  | .engaged _ _ _ => s.refuseAccess i r .inCall
  | .enrolled _ => s.refuseAccess i r .notAttached
  | .attached b _ origination => (.accept, s.locate i h b origination r)

/-- RENEW (R61): at another base it is a LOCATE. -/
def State.decideRenew (s : State) (i : SlotIx) (h : Handset) (r : AccessRequest) : AnswerCause × State :=
  match h.status with
  | .engaged _ _ _ => s.refuseAccess i r .inCall
  | .enrolled _ => s.refuseAccess i r .notAttached
  | .attached b _ origination =>
    if b = r.base then (.accept, s.setStatus i h (.attached b s.lifetimeTicks origination))
    else (.accept, s.locate i h b origination r)

/-- DETACH (R62): an ENGAGED record's call is cleared with cause DETACH. -/
def State.decideDetach (s : State) (i : SlotIx) (h : Handset) (r : AccessRequest) : AnswerCause × State :=
  match h.status with
  | .attached b _ _ => (.accept, (s.setStatus i h (.enrolled none)).post (.detached i r.tag b))
  | .engaged b c pending =>
    if pending then (.accept, s) else (.accept, (s.setStatus i h (.engaged b c true)).clearCall c .detach)
  | .enrolled _ => (.accept, s)

/-- An accepted ORIGINATE (R63). -/
def State.originate (s : State) (i : SlotIx) (h : Handset) (b : BaseIx) (pending : Option Nat) (r : AccessRequest) :
    State :=
  let t := s.setStatus i h (.attached r.base s.lifetimeTicks (some s.settings.timers.hold))
  let moved := if b = r.base then t else t.post (.located i r.tag b r.base)
  if pending.isNone then moved.post (.originationRequest i r.tag r.base) else moved

/-- ORIGINATE (R63). -/
def State.decideOriginate (s : State) (i : SlotIx) (h : Handset) (r : AccessRequest) : AnswerCause × State :=
  if s.closedAt r.base then s.refuseAccess i r .closed
  else
    match h.status with
    | .engaged _ _ _ => s.refuseAccess i r .inCall
    | .enrolled _ => s.refuseAccess i r .notAttached
    | .attached b _ pending => (.accept, s.originate i h b pending r)

/-- The decision on an access request whose tag a record holds (R57 to R63). -/
def State.decideAccess (s : State) (i : SlotIx) (h : Handset) (r : AccessRequest) : AnswerCause × State :=
  match r.kind with
  | .attach => s.decideAttach i h r
  | .locate => s.decideLocate i h r
  | .renew => s.decideRenew i h r
  | .detach => s.decideDetach i h r
  | .originate => s.decideOriginate i h r
  | .malformed => (.malformed, s)

/-- The ANSWER order of a decision (R56). -/
def State.answer (s : State) (r : AccessRequest) (owner : OrderOwner) (cause : AnswerCause) : State :=
  (s.offer r.base (.answer r.tag cause) .registration owner).2

/-- An access request as one event at the Registration Unit (R56, R57). -/
def State.access (s : State) (r : AccessRequest) : State :=
  match s.findTag r.tag with
  | none => if r.kind = .malformed then s else s.answer r .none .unknown
  | some i =>
    match s.handset i with
    | none => s
    | some h =>
      let seen := { h with lastAccess := some s.tick }
      let d := (s.setHandset i (some seen)).decideAccess i seen r
      d.2.answer r (.slot i) d.1

/-! ### Deadlines (R65, R66) -/

/-- The lifetime deadline's expiry, when it is due (R65). -/
def takeLifetimeExpiry (i : SlotIx) (s : State) : State :=
  match s.handset i with
  | none => s
  | some h =>
    match h.status with
    | .attached b 0 origination =>
      (s.setStatus i h (.enrolled none)).post (.lapsed i h.tag b origination.isSome)
    | _ => s

/-- LIFETIME_EXPIRY (R65). -/
def execLifetimeExpiry (i : SlotIx) (s : State) : Result := .next (takeLifetimeExpiry i s.fresh)

/-- The origination pending deadline's expiry, when it is due (R66). -/
def takeOriginationExpiry (i : SlotIx) (s : State) : State :=
  match s.handset i with
  | none => s
  | some h =>
    match h.status with
    | .attached b lifetime (some 0) =>
      (s.setStatus i h (.attached b lifetime none)).post (.originationExpired i h.tag b)
    | _ => s

/-- ORIGINATION_EXPIRY (R66). -/
def execOriginationExpiry (i : SlotIx) (s : State) : Result := .next (takeOriginationExpiry i s.fresh)

end Sys2Proof.Machine
end

