-- ==== Sys2Proof/Machine/Trains.lean ====
section
/-! DEFINITION. The Train Assembler (chapter 3): collecting, judging and decoding registration trains. -/

namespace Sys2Proof.Machine

/-- A spoiled train counted against its base (R43). -/
def State.spoil (s : State) (b : BaseIx) : State :=
  s.setBase b { s.base b with spoiled := sat 65535 (s.base b).spoiled }

/-! ### Collecting (R38 to R40) -/

/-- The train a FIRST fragment opens (R38). -/
def State.openTrain (s : State) (x : Byte) : Train :=
  { fragments := [x], xor := x, vertical := !s.settings.parity.passes x, overlong := false, gap := s.settings.timers.gap }

/-- A FIRST fragment (R38): a train being collected is CUT. -/
def State.takeFirst (s : State) (b : BaseIx) (x : Byte) : State :=
  match s.trains.get b with
  | none => s.setTrain b (some (s.openTrain x))
  | some _ => (s.spoil b).setTrain b (some (s.openTrain x))

/-- A train that takes a further data fragment (R39). -/
def Train.next (t : Train) (passes : Bool) (gap : Nat) (x : Byte) : Train :=
  if t.fragments.length < 9 then
    { t with fragments := t.fragments ++ [x], xor := t.xor ^^^ x, vertical := t.vertical || !passes, gap := gap }
  else { t with xor := t.xor ^^^ x, vertical := t.vertical || !passes, overlong := true, gap := gap }

/-- A NEXT fragment (R39): a stray in an IDLE context. -/
def State.takeNext (s : State) (b : BaseIx) (x : Byte) : State :=
  match s.trains.get b with
  | none => s
  | some t => s.setTrain b (some (t.next (s.settings.parity.passes x) s.settings.timers.gap x))

/-! ### Judging and decoding (R41 to R46) -/

/-- The judgement of a closed train (R41, R42): the first item that fails names the outcome. -/
def Train.judge (t : Train) (sense : Parity) (closing : Byte) : Judgement :=
  if t.fragments.length < 5 then .short
  else if t.overlong then .overlong
  else if t.vertical then .vertical
  else if closing ≠ t.xor then .longitudinal
  else if (sense.closing t.fragments.length).passes closing then .good
  else .closeParity

/-- The data bits of fragment `n`, counting from 1 (R44). -/
def Train.data (t : Train) (n : Nat) : BitVec 7 :=
  (t.fragments.getD (n - 1) 0).setWidth 7

/-- The tag of a good train: fragments 2..5, most significant first (R44). -/
def Train.tag (t : Train) : Tag :=
  (t.data 2 ++ t.data 3) ++ (t.data 4 ++ t.data 5)

/-- The credential of an ATTACH train: fragments 6..8, most significant first (R44). -/
def Train.credential (t : Train) : Credential :=
  t.data 6 ++ (t.data 7 ++ t.data 8)

/-- The kind field of a train, bits 6..4 of fragment 1 (R44): `none` for the undefined kinds. -/
def kindOf (field : BitVec 3) : Option AccessKind :=
  match field.toNat with
  | 1 => some .attach
  | 2 => some .locate
  | 3 => some .renew
  | 4 => some .detach
  | 5 => some .originate
  | _ => none

/-- The fragment count expected for a kind (R44). -/
def expectedCount : AccessKind → Nat
  | .attach => 8
  | _ => 5

/-- The access request of a good train (R45, R46). -/
def Train.request (t : Train) (b : BaseIx) : AccessRequest :=
  let malformed : AccessRequest := { kind := .malformed, tag := t.tag, credential := none, base := b }
  match kindOf ((t.data 1).extractLsb' 4 3) with
  | none => malformed
  | some k =>
    if (t.data 1).extractLsb' 0 4 = 0 ∧ t.fragments.length = expectedCount k then
      { kind := k, tag := t.tag, credential := if k = .attach then some t.credential else none, base := b }
    else malformed

/-- A CLOSE (R41): the context is IDLE at once, the train is judged, and a good one is handed on (R46). -/
def State.takeClose (s : State) (b : BaseIx) (x : Byte) : State :=
  match s.trains.get b with
  | none => s
  | some t =>
    let idle := s.setTrain b none
    if t.judge s.settings.parity x = .good then idle.access (t.request b) else idle.spoil b

/-! ### The gap deadline (R40) -/

/-- The gap deadline's expiry, when it is due (R40): the train ends TIMEOUT. -/
def takeGapExpiry (b : BaseIx) (s : State) : State :=
  match s.trains.get b with
  | none => s
  | some t => if t.gap = 0 then (s.setTrain b none).spoil b else s

/-- GAP_DEADLINE_EXPIRY (R40). -/
def execGapDeadlineExpiry (b : BaseIx) (s : State) : Result := .next (takeGapExpiry b s.fresh)

end Sys2Proof.Machine
end

