-- ==== Sys2Proof/Machine/BasePorts.lean ====
section
/-! DEFINITION. The Base Link Controller (chapter 2): carrier, base frames and where they go, base states, echoes and their
deadlines, admission, and the host's requests on a base. -/

namespace Sys2Proof.Machine

/-! ### Base frames (R18) -/

/-- The base a frame comes from (chapter 2). -/
def originBase (o : Origin) : BaseIx := baseAt o.port o.position

/-- Whether a frame passes the checks of its port (R17, R18): framing, port driven, carrier UP. -/
def State.hears (s : State) (o : Origin) : Bool :=
  o.framed && s.driven o.port && s.carriers.get o.port

/-- A frame passed on only from a base IN_SERVICE (R18). -/
def State.fromService (s : State) (o : Origin) (act : BaseIx → State → State) : State :=
  if s.hears o && decide ((s.base (originBase o)).state = .inService) then act (originBase o) s else s

/-- FRAG marked FIRST (R18, R38). -/
def execFragFirst (o : Origin) (x : Byte) (s : State) : Result :=
  .next (s.fresh.fromService o fun b t => t.takeFirst b x)

/-- FRAG marked NEXT (R18, R39). -/
def execFragNext (o : Origin) (x : Byte) (s : State) : Result :=
  .next (s.fresh.fromService o fun b t => t.takeNext b x)

/-- FRAG marked CLOSE (R18, R41). -/
def execFragClose (o : Origin) (x : Byte) (s : State) : Result :=
  .next (s.fresh.fromService o fun b t => t.takeClose b x)

/-- REPORT (R18, R92). -/
def execReport (o : Origin) (f : ReportFrame) (s : State) : Result :=
  .next (s.fresh.fromService o fun b t => t.takeReport b f)

/-- ARRIVAL (R18, R79). -/
def execArrival (o : Origin) (ch : ChanIx) (tag : Tag) (s : State) : Result :=
  .next (s.fresh.fromService o fun b t => t.arrive ⟨b, ch⟩ tag)

/-- LOSS (R18, R85). -/
def execLoss (o : Origin) (ch : ChanIx) (tag : Tag) (s : State) : Result :=
  .next (s.fresh.fromService o fun b t => t.lose ⟨b, ch⟩ tag)

/-! ### STATUS (R20, R21) -/

/-- A base record with a STATUS recorded: last health and last heartbeat tick. -/
def BaseRecord.beat (r : BaseRecord) (h : Health) (t : Tick) : BaseRecord :=
  { r with lastHealth := some h, lastBeat := some t }

/-- First contact (R20). -/
def State.firstContact (s : State) (b : BaseIx) (h : Health) : State :=
  let r := s.base b
  let t := s.settings.timers
  (s.setBase b { r.beat h s.tick with
    state := .probing, settle := some (if r.seen then t.settleWarm else t.settleCold), seen := true,
    heartbeat := some t.heartbeat, noEcho := 0, degraded := false }).post (.baseState b .down .probing .contact)

/-- A heartbeat of a base IN_SERVICE (R21). -/
def State.serviceBeat (s : State) (b : BaseIx) (h : Health) : State :=
  let r := { (s.base b).beat h s.tick with heartbeat := some s.settings.timers.heartbeat }
  match h with
  | .ok => if r.degraded then (s.setBase b { r with degraded := false }).post (.health b false) else s.setBase b r
  | .degraded => if r.degraded then s.setBase b r else (s.setBase b { r with degraded := true }).post (.health b true)
  | .failed => (s.setBase b r).leaveService b .fault .healthFailed

/-- A STATUS frame by the base's state (R18, R20, R21). -/
def State.takeStatus (s : State) (b : BaseIx) (h : Health) : State :=
  let r := s.base b
  match r.state with
  | .unused => s
  | .down => s.firstContact b h
  | .probing => s.setBase b { r.beat h s.tick with heartbeat := some s.settings.timers.heartbeat }
  | .inService => s.serviceBeat b h
  | .fault => s.setBase b (r.beat h s.tick)

/-- STATUS (R18, R20, R21). -/
def execStatus (o : Origin) (h : Health) (s : State) : Result :=
  .next (if s.hears o then s.fresh.takeStatus (originBase o) h else s.fresh)

/-! ### Echoes (R30, R31) -/

/-- A window entry removed, and the no-echo count that its departure leaves. -/
def BaseRecord.depart (r : BaseRecord) (serial : BitVec 8) (noEcho : Nat) : BaseRecord :=
  { r with window := r.window.eraseP (fun e => e.serial == serial), noEcho := noEcho }

/-- An ECHO matched or late (R30). -/
def State.takeEcho (s : State) (b : BaseIx) (serial : Byte) : State :=
  let r := s.base b
  match r.window.find? fun e => e.serial == serial with
  | none => s.setBase b { r with lateEchoes := sat 65535 r.lateEchoes }
  | some e => ((s.setBase b (r.depart serial 0)).sendOwed b).outcome b e true

/-- Whether a base takes ECHO frames: PROBING or IN_SERVICE (R18). -/
def BaseState.takesEcho : BaseState → Bool
  | .probing | .inService => true
  | .unused | .down | .fault => false

/-- ECHO (R18, R30). -/
def execEcho (o : Origin) (serial : Byte) (s : State) : Result :=
  .next (if s.hears o && (s.base (originBase o)).state.takesEcho then s.fresh.takeEcho (originBase o) serial else s.fresh)

/-- The third missing echo in a row (R31): FAULT, handled as a base loss. -/
def State.faultIfSilent (s : State) (b : BaseIx) : State :=
  if (s.base b).noEcho = 3 then s.leaveService b .fault .noEcho else s

/-- An echo deadline's expiry, when it is due (R31). -/
def takeEchoExpiry (b : BaseIx) (serial : Byte) (s : State) : State :=
  let r := s.base b
  match r.window.find? fun e => e.serial == serial with
  | none => s
  | some e =>
    if e.deadline = 0 then
      (((s.setBase b (r.depart serial (sat 3 r.noEcho))).sendOwed b).outcome b e false).faultIfSilent b
    else s

/-- ECHO_DEADLINE_EXPIRY (R31). -/
def execEchoDeadlineExpiry (b : BaseIx) (serial : Byte) (s : State) : Result :=
  .next (takeEchoExpiry b serial s.fresh)

/-! ### Settle and heartbeat deadlines (R22, R23) -/

/-- The settle deadline's expiry, when it is due (R22). -/
def takeSettleExpiry (b : BaseIx) (s : State) : State :=
  let r := s.base b
  if r.state = .probing ∧ r.settle = some 0 then
    if r.lastHealth = some .ok then
      (((s.setBase b { r with state := .inService, settle := none, degraded := false }).post
        (.baseState b .probing .inService .settled)).offer b (.admission r.held) .baseLink .none).2
    else s.leaveService b .fault .settleFault
  else s

/-- SETTLE_EXPIRY (R22). -/
def execSettleExpiry (b : BaseIx) (s : State) : Result := .next (takeSettleExpiry b s.fresh)

/-- The heartbeat deadline's expiry, when it is due (R23). -/
def takeHeartbeatExpiry (b : BaseIx) (s : State) : State :=
  let r := s.base b
  if r.state.takesEcho = true ∧ r.heartbeat = some 0 then s.leaveService b .down .heartbeatLost else s

/-- HEARTBEAT_EXPIRY (R23). -/
def execHeartbeatExpiry (b : BaseIx) (s : State) : Result := .next (takeHeartbeatExpiry b s.fresh)

/-! ### Carrier (R17) -/

/-- The bases of a port dropped in a given order of positions (R17); a base already DOWN is passed over. -/
def State.dropPort (s : State) (p : PortIx) (order : List (Fin 8)) : State :=
  order.foldl (fun t i => t.dropBase (baseAt p i)) s

/-- Carrier lost (R17). The order in which the bases are taken is a free value (log entry 7): the named positions first,
then every position, so that each base is taken once. -/
def takeCarrierLost (p : PortIx) (s : State) : State :=
  let sensed := { s with carriers := s.carriers.set p false }
  if s.carriers.get p && s.driven p then
    { sensed.post (.port p false) with freeCount := s.freeCount + 1 }.dropPort p
      (Config.lossOrder s.freeCount ++ indices 8)
  else sensed

/-- CARRIER_LOST (R17). -/
def execCarrierLost (p : PortIx) (s : State) : Result := .next (takeCarrierLost p s.fresh)

/-- Carrier regained (R17). -/
def takeCarrierRegained (p : PortIx) (s : State) : State :=
  let sensed := { s with carriers := s.carriers.set p true }
  if !s.carriers.get p && s.driven p then sensed.post (.port p true) else sensed

/-- CARRIER_REGAINED (R17). -/
def execCarrierRegained (p : PortIx) (s : State) : Result := .next (takeCarrierRegained p s.fresh)

/-! ### Host requests on a base (R25, R26, R34) -/

/-- A changed admission held flag, told to a base IN_SERVICE (R26). -/
def State.setHeld (s : State) (b : BaseIx) (held : Bool) : State :=
  ((s.setBase b { s.base b with held := held }).offer b (.admission held) .baseLink .none).2

/-- The judgement shared by HOLD ADMISSION and OPEN ADMISSION (R26). -/
def takeAdmission (held : Bool) (base : Byte) (s : State) : Taken :=
  match asBase base with
  | none => (refuse .badArg, s)
  | some b =>
    if !(s.cfg b).enabled then (refuse .noSuch, s)
    else if (s.base b).held = held then (okay (flagByte held), s)
    else (okay (flagByte held), s.setHeld b held)

/-- HOLD ADMISSION (R26). -/
def takeHoldAdmission (base : Byte) (s : State) : Taken := takeAdmission true base s

/-- OPEN ADMISSION (R26). -/
def takeOpenAdmission (base : Byte) (s : State) : Taken := takeAdmission false base s

/-- RESTORE BASE (R25). -/
def takeRestoreBase (base : Byte) (s : State) : Taken :=
  match asBase base with
  | none => (refuse .badArg, s)
  | some b =>
    let r := s.base b
    if !(s.cfg b).enabled then (refuse .noSuch, s)
    else if r.state ≠ .fault then (refuse .wrongState, s)
    else
      (okay (byte1 BaseState.probing.code), s.setBase b { r with
        state := .probing, settle := some s.settings.timers.settleWarm,
        heartbeat := some s.settings.timers.heartbeat, noEcho := 0 })

/-- The owed releases in ascending order. -/
def BaseRecord.owedList (r : BaseRecord) : List ChanIx :=
  (indices 8).filter fun c => r.owedReleases.get c

/-- A base and its port as QUERY BASE returns them (R34). -/
def State.baseBytes (s : State) (b : BaseIx) : List Byte :=
  let r := s.base b
  let p := portOf b
  byte1 b.val ++ byte1 p.val ++ byte1 (if s.carriers.get p then 0 else 1) ++ flagByte (s.driven p) ++
    flagByte (s.cfg b).enabled ++ byte1 r.state.code ++ flagByte r.held ++ flagByte r.degraded ++ flagByte r.seen ++
    orAbsent 1 (fun h => byte1 (healthCode h)) r.lastHealth ++ orAbsent 4 (fun t : Tick => byte4 t.toNat) r.lastBeat ++
    remaining r.settle ++ remaining r.heartbeat ++ counted WindowEntry.bytes r.window ++ [r.nextSerial] ++
    byte1 r.noEcho ++ counted (fun c : ChanIx => byte1 c.val) r.owedList ++ flagByte r.owedAdmission ++
    byte2 r.lateEchoes ++ byte2 r.spoiled ++ byte2 r.droppedAnswers ++ byte2 r.packed

/-- A base record with its counters cleared (R33). -/
def BaseRecord.cleared (r : BaseRecord) : BaseRecord :=
  { r with lateEchoes := 0, spoiled := 0, droppedAnswers := 0, packed := 0 }

/-- QUERY BASE (R34): the counters are reported before CLEAR sets them to 0. -/
def takeQueryBase (base option : Byte) (s : State) : Taken :=
  match asBase base, asFlag option with
  | some b, some clear =>
    (okay (s.baseBytes b), if clear then s.setBase b (s.base b).cleared else s)
  | _, _ => (refuse .badArg, s)

end Sys2Proof.Machine
end

