-- ==== Sys2Proof/Machine/Captures.lean ====
section
/-! DEFINITION. The host's requests on the Capture Unit, and the mark line's events (chapter 11). -/

namespace Sys2Proof.Machine

/-- A mode byte with its sample number (section 12.4): `none` outside 0..3. -/
def asMode (mode : Byte) (n : BitVec 32) : Option CaptureMode :=
  if mode = 0 then some .now
  else if mode = 1 then some (.fromSample n)
  else if mode = 2 then some .next
  else if mode = 3 then some .mark
  else none

/-- Whether a FROM number is beyond the newest sample, or the ring holds none (R172 item 5). -/
def beyondRing (n : BitVec 32) (ring : List Sample) : Bool :=
  match ring.getLast? with
  | none => true
  | some x => decide (x.number.toNat < n.toNat)

/-- The samples FROM n copies with its status (R172): from n while it is in the ring, otherwise from the oldest. -/
def copyFrom (n : BitVec 32) (count : Nat) (ring : List Sample) : CaptureStatus × List Sample :=
  if ring.any fun x => x.number == n then (.ok, (ring.dropWhile fun x => x.number != n).take count)
  else (.truncated, ring.take count)

/-- The reply of a capture completed within its request (R172). -/
def copiedReply (status : CaptureStatus) (samples : List Sample) : Reply :=
  okay (byte1 status.code ++ byte1 samples.length)

/-- Whether a slot is armed. -/
def CaptureSlot.armed : CaptureSlot → Bool
  | .armedMark _ | .armedNext _ => true
  | .empty | .complete _ _ _ _ => false

/-- An accepted CAPTURE by its mode (R172). -/
def State.startCapture (s : State) (k : CapIx) (h : CaptureHeader) (ring : List Sample) : Taken :=
  match h.mode with
  | .now =>
    let samples := lastSamples h.count ring
    (copiedReply .ok samples, s.setSlot k (.complete h .ok samples s.settings.zone))
  | .fromSample n =>
    let c := copyFrom n h.count ring
    (copiedReply c.1 c.2, s.setSlot k (.complete h c.1 c.2 s.settings.zone))
  | .next => (okay (byte1 2), s.setSlot k (.armedNext h))
  | .mark => (okay (byte1 1), s.setSlot k (.armedMark h))

/-- The ring of an ACTIVE call with its tag (R172 item 3). -/
def State.activeRing (s : State) (c : CallIx) : Option (Tag × List Sample) :=
  match (s.ctx c).call with
  | some i => if i.stage = .active then some (i.tag, (s.ctx c).ring) else none
  | none => none

/-- Item 5 of R172 for a mode. -/
def CaptureMode.beyond (m : CaptureMode) (ring : List Sample) : Bool :=
  match m with
  | .fromSample n => beyondRing n ring
  | _ => false

/-- CAPTURE (R172): the refusals in their order, then the capture. -/
def takeCapture (slot call count mode : Byte) (n : BitVec 32) (s : State) : Taken :=
  match asCapture slot, asCall call, asMode mode n with
  | some k, some c, some m =>
    if (s.slots.get k).armed then (refuse .slotArmed, s)
    else
      match s.activeRing c with
      | none => (refuse .noSuch, s)
      | some (tag, ring) =>
        if count.toNat < 1 ∨ 16 < count.toNat then (refuse .badArg, s)
        else if m.beyond ring then (refuse .badArg, s)
        else s.startCapture k { call := c, tag := tag, count := count.toNat, mode := m } ring
  | _, _, _ => (refuse .badArg, s)

/-- CANCEL CAPTURE (R175). -/
def takeCancelCapture (slot : Byte) (s : State) : Taken :=
  match asCapture slot with
  | none => (refuse .badArg, s)
  | some k => (okay [], s.setSlot k .empty)

/-- READ CAPTURE (R175): up to 8 samples of a COMPLETE slot. The mode is its one byte, without the sample number of FROM
(log entry 32). -/
def takeReadCapture (slot first : Byte) (s : State) : Taken :=
  match asCapture slot, toIndex 16 first.toNat with
  | some k, some f =>
    match s.slots.get k with
    | .empty => (refuse .none, s)
    | .armedMark _ => (refuse .notReady, s)
    | .armedNext _ => (refuse .notReady, s)
    | .complete h status samples ownZone =>
      (okay (byte1 h.call.val ++ tagBytes h.tag ++ byte1 h.mode.code ++ byte1 h.count ++ byte1 status.code ++
        byte1 samples.length ++ ((samples.drop f.val).take 8).flatMap (Sample.bytes ownZone)), s)
  | _, _ => (refuse .badArg, s)

/-- MARK (R177). -/
def takeMark (s : State) : Taken := (okay [], s.driveMark)

/-- MARK_EDGE (R176): ignored while the RESET pin is held low. -/
def execMarkEdge (s : State) : Result := .next (if s.resetHeld then s.fresh else s.fresh.markEdge)

/-- The end of the mark drive, when its second tick has come (R177). -/
def takeMarkDriveEnd (s : State) : State :=
  if s.markDrive = some 0 then { s with markDrive := none } else s

/-- MARK_DRIVE_END (R177). -/
def execMarkDriveEnd (s : State) : Result := .next (takeMarkDriveEnd s.fresh)

end Sys2Proof.Machine
end

