-- ==== Sys2Proof/Machine/Notices.lean ====
section
/-! DEFINITION. The host's requests on the Notice Unit and on the condition stickies (chapter 10). -/

namespace Sys2Proof.Machine

/-- The current fill of every class (R166). -/
def State.fills (s : State) : List Byte := s.classes.list.flatMap fun c => byte1 c.fifo.length

/-- The unmasked class with a notice that has the highest priority (R166). -/
def State.fetchClass (s : State) : Option (Fin 8) :=
  s.classes.lowest fun c => !c.masked && !c.fifo.isEmpty

/-- FETCH NOTICE (R163, R166): the oldest notice of that class, the lost flag read and cleared. -/
def takeFetchNotice (s : State) : Taken :=
  match s.fetchClass with
  | none => ({ status := .none, results := s.fills }, s)
  | some k =>
    let c := s.classes.get k
    match c.fifo with
    | [] => ({ status := .none, results := s.fills }, s)
    | n :: rest =>
      let t := { s with classes := s.classes.set k { c with fifo := rest, lost := false } }
      (okay (n.bytes c.lost ++ t.fills), t)

/-- The masks as a byte, bit c for class c. -/
def State.maskByte (s : State) : Byte :=
  BitVec.ofNat 8 (((indices 8).map fun k => if (s.classes.get k).masked then 2 ^ k.val else 0).sum)

/-- One class with its mask replaced (R165). -/
def maskClass (mask : Byte) (cs : Table NoticeClass 8) (k : Fin 8) : Table NoticeClass 8 :=
  cs.set k { cs.get k with masked := decide (k ≠ 0) && mask.getLsbD k.val }

/-- MASK NOTICES (R165): the masks replaced, LINK always unmasked. -/
def takeMaskNotices (mask : Byte) (s : State) : Taken :=
  let t := { s with classes := (indices 8).foldl (maskClass mask) s.classes }
  (okay [t.maskByte], t)

/-- The part-wide stickies as QUERY CONDITIONS and CLEAR CONDITIONS return them. -/
def State.stickyBytes (s : State) : List Byte := flagByte s.divergeSticky ++ flagByte s.saturateSticky

/-- The call indices whose context passes a test, ascending. -/
def State.callsWhere (s : State) (p : Context → Bool) : List CallIx :=
  (indices 96).filter fun c => p (s.ctx c)

/-- QUERY CONDITIONS (R168). -/
def takeQueryConditions (s : State) : Taken :=
  (okay (s.stickyBytes ++ counted (fun c : CallIx => byte1 c.val) (s.callsWhere Context.divergeSticky) ++
    counted (fun c : CallIx => byte1 c.val) (s.callsWhere Context.saturateSticky)), s)

/-- A context with named stickies cleared (R169). -/
def Context.unstick (diverge saturate : Bool) (x : Context) : Context :=
  { x with divergeSticky := x.divergeSticky && !diverge, saturateSticky := x.saturateSticky && !saturate }

/-- CLEAR CONDITIONS (R169): one call, or ALL with the part-wide stickies. -/
def takeClearConditions (scope conditions : Byte) (s : State) : Taken :=
  let diverge := conditions.getLsbD 0
  let saturate := conditions.getLsbD 1
  if !diverge && !saturate then (refuse .badArg, s)
  else if scope = 0xFF then
    let t := { s with
      contexts := s.contexts.map (Context.unstick diverge saturate)
      divergeSticky := s.divergeSticky && !diverge
      saturateSticky := s.saturateSticky && !saturate }
    (okay t.stickyBytes, t)
  else
    match asCall scope with
    | none => (refuse .badArg, s)
    | some c =>
      let t := s.setCtx c ((s.ctx c).unstick diverge saturate)
      (okay t.stickyBytes, t)

end Sys2Proof.Machine
end

