-- ==== Sys2Proof/Machine/RunControl.lean ====
section
/-! DEFINITION. Run Control (chapter 1): run-state requests, the configuration check, settings, resets and the tick. -/

namespace Sys2Proof.Machine

/-! ### The configuration check (R3) -/

/-- The first item one neighbour entry fails: for a local base SELF then TARGET_DISABLED, for a foreign base ZONE_IS_OWN,
then DUPLICATE_TARGET against the entries at lower positions. -/
def checkEntry (st : Settings) (b : BaseIx) (earlier : List Neighbour) (n : Neighbour) : Option CheckItem :=
  let duplicate := if earlier.any (fun m => m.target == n.target) then some CheckItem.duplicateTarget else none
  match n.target with
  | .localBase t =>
    if t = b then some .self
    else if (st.bases.get t).enabled then duplicate
    else some .targetDisabled
  | .foreignBase z _ => if z = st.zone then some .zoneIsOwn else duplicate

/-- The first failing entry of a list, with its position. -/
def checkList (st : Settings) (b : BaseIx) : List Neighbour → List Neighbour → Option (CheckItem × Nat)
  | _, [] => none
  | earlier, n :: rest =>
    match checkEntry st b earlier n with
    | some item => some (item, earlier.length)
    | none => checkList st b (earlier ++ [n]) rest

/-- The configuration check (R3): the first failing item with its base and position, or none. -/
def configCheck (st : Settings) : Option (CheckItem × Option BaseIx × Option Nat) :=
  if (indices 32).any fun b => (st.bases.get b).enabled then
    (indices 32).findSome? fun b =>
      if (st.bases.get b).enabled then
        (checkList st b [] (st.bases.get b).neighbours).map fun r => (r.1, some b, some r.2)
      else none
  else some (.noBase, none, none)

/-! ### Changing the run state (R2, R4 to R6) -/

/-- An OK reply that carries the run state as it stands after the request (R1). -/
def okRunState (s : State) : Reply := okay (byte1 s.runState.code)

/-- GO (R2). -/
def takeGo (s : State) : Taken :=
  match s.runState with
  | .halted =>
    match configCheck s.settings with
    | some (item, base, position) =>
      ({ status := .checkFailed, results := byte1 item.code ++ orAbsent 1 (fun b : BaseIx => byte1 b.val) base ++
          orAbsent 1 byte1 position }, s)
    | none =>
      let t := s.enter .standby .go
      (okRunState t, t)
  | .standby =>
    let t := s.enter .serving .go
    (okRunState t, t)
  | .draining =>
    let t := s.enter .serving .go
    (okRunState t, t)
  | .serving => (okRunState s, s)

/-- STOP FORCE on the calls: every context in SETUP or ACTIVE cleared with cause FORCED, in ascending call index (R4). -/
def State.forceAll (s : State) : State :=
  (indices 96).foldl (fun t c => t.clearCall c .forced) s

/-- STOP (R4). -/
def takeStop (option : Byte) (s : State) : Taken :=
  match asFlag option with
  | none => (refuse .badArg, s)
  | some force =>
    let cause := if force then RunCause.stopForce else RunCause.stop
    let t := match s.runState with
      | .serving =>
        if s.allFree then s.enter .standby cause
        else
          let draining := s.enter .draining cause
          if force then draining.forceAll else draining
      | .draining => if force then s.forceAll else s
      | .standby => s
      | .halted => s
    (okRunState t, t)

/-- Entering HALTED by HALT (R6, R35): every base dropped, every record and assembly context emptied. -/
def State.haltAll (s : State) : State :=
  let dropped := (indices 32).foldl State.dropBase (s.enter .halted .halt)
  { dropped with bases := dropped.bases.map BaseRecord.emptied, trains := Table.fill 32 none }

/-- HALT (R6). -/
def takeHalt (s : State) : Taken :=
  match s.runState with
  | .standby =>
    let t := s.haltAll
    (okRunState t, t)
  | .halted => (okRunState s, s)
  | .serving => (refuse .wrongState, s)
  | .draining => (refuse .wrongState, s)

/-! ### Settings (R11 to R16) -/

/-- The status of a taken settings request (R11). -/
def okUnless (clamped : Bool) : Status := if clamped then .okClamped else .ok

/-- SET PART (R11, R12): own zone and fragment parity sense. -/
def takeSetPart (zone parity : Byte) (s : State) : Taken :=
  if s.runState ≠ .halted then (refuse .wrongState, s)
  else
    match asZone zone, asFlag parity with
    | some z, some even =>
      (okay (byte1 z.val ++ flagByte even),
        { s with settings := { s.settings with zone := z, parity := if even then .even else .odd } })
    | _, _ => (refuse .badArg, s)

/-- A base record as its enabled flag changes (R13, R35). -/
def BaseRecord.enabling (r : BaseRecord) (was now : Bool) : BaseRecord :=
  match was, now with
  | false, true => { r with
      state := .down, seen := false, lastHealth := none, lastBeat := none, nextSerial := 0, noEcho := 0 }
  | true, false => { r with state := .unused, held := false }
  | _, _ => r

/-- SET BASE (R11, R13): enabled flag and channel count of one base. -/
def takeSetBase (base enabled channels : Byte) (s : State) : Taken :=
  if s.runState ≠ .halted then (refuse .wrongState, s)
  else
    match asBase base, asFlag enabled with
    | some b, some on =>
      let n := clampNat 1 8 channels.toNat
      let c := s.cfg b
      let t := s.setBase b ((s.base b).enabling c.enabled on)
      ({ status := okUnless (decide (n ≠ channels.toNat)), results := flagByte on ++ byte1 n },
        { t with settings := { t.settings with
            bases := t.settings.bases.set b { c with enabled := on, channels := n } } })
    | _, _ => (refuse .badArg, s)

/-- The entries of a SET NEIGHBOURS as stored: `none` when a target is out of range (R11, R183). -/
def storedEntries : List (Byte × Byte) → Option (List Neighbour)
  | [] => some []
  | (t, o) :: rest =>
    match asTarget t, storedEntries rest with
    | some target, some more => some ({ target := target, offset := clampOffset o } :: more)
    | _, _ => none

/-- SET NEIGHBOURS (R11, R13): the whole list of one base. -/
def takeSetNeighbours (base : Byte) (entries : List (Byte × Byte)) (s : State) : Taken :=
  if s.runState ≠ .halted then (refuse .wrongState, s)
  else
    match asBase base, storedEntries entries with
    | some b, some stored =>
      if 8 < entries.length then (refuse .badArg, s)
      else
        ({ status := okUnless (entries.any fun e => clampOffset e.2 != e.2.toInt),
           results := counted Neighbour.bytes stored },
          { s with settings := { s.settings with
              bases := s.settings.bases.set b { s.cfg b with neighbours := stored } } })
    | _, _ => (refuse .badArg, s)

/-- The values of a pair request as stored, two bytes each (log entry 10). -/
def storedBytes (range : Nat → Option (Nat × Nat)) (pairs : List (Byte × BitVec 16)) : List Byte :=
  pairs.flatMap fun p => byte2 (storedValue range p)

/-- Whether a value of a pair request was clamped (R11). -/
def anyClamped (range : Nat → Option (Nat × Nat)) (pairs : List (Byte × BitVec 16)) : Bool :=
  pairs.any fun p => storedValue range p != p.2.toNat

/-- SET TIMERS (R11, R14). -/
def takeSetTimers (pairs : List (Byte × BitVec 16)) (s : State) : Taken :=
  if pairsRefused timerRange pairs then (refuse .badArg, s)
  else
    ({ status := okUnless (anyClamped timerRange pairs), results := storedBytes timerRange pairs },
      { s with settings := { s.settings with
          timers := pairs.foldl (fun t p => t.store p.1.toNat (storedValue timerRange p)) s.settings.timers } })

/-- Whether a pair gives a two-valued evaluator setting a value outside its two values (R11). -/
def outsideTwo (p : Byte × BitVec 16) : Bool :=
  decide (8 ≤ p.1.toNat) && decide (p.1.toNat ≤ 10) && decide (1 < p.2.toNat)

/-- SET EVALUATOR (R11, R15). -/
def takeSetEvaluator (pairs : List (Byte × BitVec 16)) (s : State) : Taken :=
  if pairsRefused evaluatorRange pairs || pairs.any outsideTwo then (refuse .badArg, s)
  else
    ({ status := okUnless (anyClamped evaluatorRange pairs), results := storedBytes evaluatorRange pairs },
      { s with settings := { s.settings with
          evaluator := pairs.foldl (fun e p => e.store p.1.toNat (storedValue evaluatorRange p)) s.settings.evaluator } })

/-- The timer settings as READ SETTINGS returns them: settings of up to 255 in one byte, the others in two (R183, log
entry 10). -/
def TimerSettings.bytes (t : TimerSettings) : List Byte :=
  byte1 t.echo ++ byte2 t.setup ++ byte1 t.switch ++ byte2 t.zone ++ byte2 t.guard ++ byte2 t.penalty ++ byte1 t.gap ++
    byte1 t.heartbeat ++ byte2 t.settleCold ++ byte2 t.settleWarm ++ byte2 t.hold ++ byte1 t.spacing ++ byte1 t.lifetime

/-- The evaluator settings as READ SETTINGS returns them (R183). -/
def EvaluatorSettings.bytes (e : EvaluatorSettings) : List Byte :=
  byte1 e.smoothing ++ byte1 e.hysteresis ++ byte1 e.dwell ++ byte1 e.rescueFloor ++ byte1 e.loadPenalty ++
    byte1 e.divergence ++ byte1 e.diversity ++ byte1 e.highClass ++ flagByte e.divergeMasked ++
    flagByte e.saturateMasked ++ flagByte e.markOnFailure

/-- READ SETTINGS (R16): the base byte is read for group BASE alone. -/
def takeReadSettings (group base : Byte) (s : State) : Taken :=
  if group = 0 then (okay (byte1 s.settings.zone.val ++ byte1 s.settings.parity.code), s)
  else if group = 1 then (okay s.settings.timers.bytes, s)
  else if group = 2 then (okay s.settings.evaluator.bytes, s)
  else if group = 3 then
    match asBase base with
    | none => (refuse .badArg, s)
    | some b =>
      let c := s.cfg b
      (okay (flagByte c.enabled ++ byte1 c.channels ++ counted Neighbour.bytes c.neighbours), s)
  else (refuse .badArg, s)

/-! ### The tick (R9, R10) -/

/-- One tick of a deadline: it counts down and stands at 0, due, until its expiry is taken (log entry 2). -/
def countDown (d : Option Nat) : Option Nat := d.map (· - 1)

/-- One tick of a base record's deadlines. -/
def BaseRecord.ticked (r : BaseRecord) : BaseRecord :=
  { r with settle := countDown r.settle, heartbeat := countDown r.heartbeat,
           window := r.window.map fun e => { e with deadline := e.deadline - 1 } }

/-- One tick of a train's gap deadline. -/
def Train.ticked (t : Train) : Train := { t with gap := t.gap - 1 }

/-- One tick of a handset record's deadlines. -/
def Handset.ticked (h : Handset) : Handset :=
  match h.status with
  | .attached b lifetime origination => { h with status := .attached b (lifetime - 1) (countDown origination) }
  | _ => h

/-- One tick of a call stage's setup deadline. -/
def Stage.ticked : Stage → Stage
  | .setup d => .setup (countDown d)
  | x => x

/-- One tick of a phase's deadline. -/
def Phase.ticked : Phase → Phase
  | .switching p r o n d => .switching p r o n (d - 1)
  | .handingOut z b r d => .handingOut z b r (d - 1)
  | .switchingOut z b c r o n d => .switchingOut z b c r o n (d - 1)
  | x => x

/-- One tick of a context's deadlines. -/
def Context.ticked (x : Context) : Context :=
  { x with call := x.call.map fun i => { i with stage := i.stage.ticked }, phase := x.phase.ticked,
           guard := countDown x.guard, candidates := x.candidates.map fun e => { e with penalty := countDown e.penalty } }

/-- Every deadline of the part counts down (R10). -/
def State.countDeadlines (s : State) : State :=
  { s with bases := s.bases.map BaseRecord.ticked, trains := s.trains.map (Option.map Train.ticked),
           handsets := s.handsets.map (Option.map Handset.ticked), contexts := s.contexts.map Context.ticked }

/-- The intervals that count in every run state (R10): the inter-byte gap and the mark drive; and the tick counter (R9). -/
def State.countAlways (s : State) : State :=
  { s with tick := s.tick + 1, markDrive := countDown s.markDrive,
           link := { s.link with gap := countDown s.link.gap } }

/-- TICK (R9, R10). While the RESET pin is held everything stands at its cold value (log entry 17). -/
def takeTick (s : State) : State :=
  if s.resetHeld then s
  else if s.runState = .halted then s.countAlways
  else s.countAlways.countDeadlines

/-- TICK (R9). -/
def execTick (s : State) : Result := .next (takeTick s.fresh)

/-! ### Resets (R7, R8) -/

/-- A base record after warm reset (R35). -/
def BaseRecord.warm (c : BaseSettings) (r : BaseRecord) : BaseRecord :=
  { BaseRecord.cold with
    state := if c.enabled then .down else .unused
    lateEchoes := r.lateEchoes, spoiled := r.spoiled, droppedAnswers := r.droppedAnswers, packed := r.packed }

/-- A handset record after warm reset (R69): ENROLLED with no location. -/
def Handset.warm (h : Handset) : Handset := { h with status := .enrolled none }

/-- A call context after warm reset (R89, R106, R129, R148): FREE, with its use, order and attempt numbers. -/
def Context.warm (x : Context) : Context :=
  { Context.cold with use := x.use, orderNo := x.orderNo, attempts := x.attempts }

/-- The host link after warm reset (R179, R182): the receive error count is kept. -/
def Link.warm (l : Link) : Link := { Link.cold with errors := l.errors }

/-- The warm reset taking effect in every block (R7), READY (WARM) last. -/
def State.warmReset (s : State) : State :=
  ({ s with
      runState := .halted, bases := s.settings.bases.zip BaseRecord.warm s.bases, trains := Table.fill 32 none,
      handsets := s.handsets.map (Option.map Handset.warm), channels := Table.fill 32 (Table.fill 8 Channel.free),
      contexts := s.contexts.map Context.warm, divergeSticky := false, saturateSticky := false,
      classes := Table.fill 8 NoticeClass.cold, slots := Table.fill 4 CaptureSlot.empty, markDrive := none,
      link := s.link.warm }).post (.ready true)

/-- Every piece of state at its cold value, before READY is posted (R8); the carrier inputs are what they are. -/
def State.cold (s : State) : State :=
  { State.reset with
    pending := s.pending, carriers := s.carriers, straps := s.straps, freeCount := s.freeCount,
    classes := Table.fill 8 NoticeClass.cold }

/-- COLD_RESET (R8): power-on or the RESET pin driven low. -/
def execColdReset (s : State) : Result := .next { s.cold with resetHeld := true }

/-- The release of the RESET pin (R8): the straps are read and READY (COLD) is posted. -/
def takeResetRelease (straps : Fin 8) (s : State) : State :=
  if s.resetHeld then ({ s.cold with straps := straps }).post (.ready false) else s

/-- RESET_RELEASE (R8). -/
def execResetRelease (straps : Fin 8) (s : State) : Result := .next (takeResetRelease straps s.fresh)

end Sys2Proof.Machine
end

