-- ==== Sys2Proof/Machine/HostLink.lean ====
section
/-! DEFINITION. The Host Link Port (chapter 12): RESET and IDENTIFY, handing requests to their owners, the request buffer
and the refusal queue, the transmitter, the receiver. -/

namespace Sys2Proof.Machine

/-! ### RESET and IDENTIFY (R7, R182) -/

/-- RESET handed on (R182): frames are no longer placed and the buffered requests go; the reset waits for the reply. -/
def takeReset (s : State) : Taken :=
  (okay [], s.setLink { s.link with resetting := true, buffer := [] })

/-- IDENTIFY (R182): family 32, revision 1, run state, receive error count. -/
def takeIdentify (s : State) : Taken :=
  (okay (byte2 32 ++ byte1 1 ++ byte1 s.runState.code ++ byte2 s.link.errors), s)

/-! ### Handing on (R181) -/

/-- A request taken by the port or by the owner the catalogue names, as one event (R181, section 12.4). -/
def takeRequest (r : Request) (s : State) : Taken :=
  match r with
  | .go => takeGo s
  | .stop o => takeStop o s
  | .halt => takeHalt s
  | .reset => takeReset s
  | .identify => takeIdentify s
  | .setPart z p => takeSetPart z p s
  | .setBase b e c => takeSetBase b e c s
  | .setNeighbours b es => takeSetNeighbours b es s
  | .setTimers ps => takeSetTimers ps s
  | .setEvaluator ps => takeSetEvaluator ps s
  | .readSettings g b => takeReadSettings g b s
  | .enrol t k c => takeEnrol t k c s
  | .remove k v => takeRemove k v s
  | .bar k v => takeBar k v s
  | .unbar k v => takeUnbar k v s
  | .queryHandset k v => takeQueryHandset k v s
  | .holdAdmission b => takeHoldAdmission b s
  | .openAdmission b => takeOpenAdmission b s
  | .restoreBase b => takeRestoreBase b s
  | .queryBase b o => takeQueryBase b o s
  | .openCall t d => takeOpenCall t d s
  | .closeCall c => takeCloseCall c s
  | .queryCall c => takeQueryCall c s
  | .admitCall t b z => takeAdmitCall t b z s
  | .zoneGo c h => takeZoneGo c h s
  | .zoneFail c => takeZoneFail c s
  | .zoneComplete c => takeZoneComplete c s
  | .fetchNotice => takeFetchNotice s
  | .maskNotices m => takeMaskNotices m s
  | .queryConditions => takeQueryConditions s
  | .clearConditions k c => takeClearConditions k c s
  | .capture k c n m x => takeCapture k c n m x s
  | .cancelCapture k => takeCancelCapture k s
  | .readCapture k f => takeReadCapture k f s
  | .mark => takeMark s
  | .unknown _ => (refuse .unknownRequest, s)
  | .badLength _ => (refuse .badArg, s)

/-- The state with the request being executed replaced. -/
def State.setExecuting (s : State) (e : Option Executing) : State :=
  s.setLink { s.link with executing := e }

/-- A request executed (R181): its owner takes it and the reply exists from then on. -/
def State.execute (s : State) (b : Buffered) : State :=
  let r := takeRequest b.request s
  r.2.setExecuting (some { code := b.request.code, tag := b.tag, reply := r.1 })

/-- The oldest buffered request handed on when none is being executed (R181). -/
def State.handOn (s : State) : State :=
  match s.link.executing, s.link.buffer with
  | none, b :: rest => (s.setLink { s.link with buffer := rest }).execute b
  | _, _ => s

/-- The next frame an idle transmitter starts (R180): the oldest BUSY reply, otherwise the executing request's reply. -/
def Link.startTx (l : Link) : Link :=
  match l.sending with
  | .idle =>
    if l.refusals ≠ [] then { l with sending := .busy }
    else if l.executing.isSome then { l with sending := .reply }
    else l
  | .busy => l
  | .reply => l

/-- The port moving on: hand on, then start the next frame (R180, R181). -/
def State.advance (s : State) : State :=
  s.handOn.setLink s.handOn.link.startTx

/-! ### The request buffer (R180) -/

/-- The placing of a good frame (R180): in the buffer, as a BUSY reply, or discarded with the error counted. -/
def Link.place (l : Link) (b : Buffered) : Link :=
  if l.buffer.length < 4 then { l with buffer := l.buffer ++ [b] }
  else if l.refusals.length < 4 then { l with refusals := l.refusals ++ [{ code := b.request.code, tag := b.tag }] }
  else { l with errors := sat 65535 l.errors }

/-- A good request frame at the port (R180, R182): nothing is received while the RESET pin is held low, and a frame that
completes after RESET was handed on is discarded. -/
def State.submit (s : State) (tag : Byte) (r : Request) : State :=
  if s.resetHeld || s.link.resetting then s
  else (s.setLink (s.link.place { tag := tag, request := r })).advance

/-- The body of a good frame given to the request buffer (R179, R181). -/
def State.submitBody (s : State) : List Byte → State
  | code :: tag :: params => s.submit tag (parseRequest code params)
  | _ => s

/-! ### The transmitter (R180, R182) -/

/-- The frame on HTX: the oldest BUSY reply, or the reply of the request being executed. -/
def State.htx (s : State) : Option (List Byte) :=
  match s.link.sending with
  | .idle => none
  | .busy => s.link.refusals.head?.map fun q => (refuse .busy).frame q.code q.tag
  | .reply => s.link.executing.map fun e => e.reply.frame e.code e.tag

/-- A frame finishing on HTX (R180, R182): a BUSY reply leaves the queue; a reply ends its request, and the reply of RESET
brings the warm reset. -/
def takeReplySent (s : State) : State :=
  let idle := s.setLink { s.link with sending := .idle }
  match s.link.sending with
  | .idle => s
  | .busy => (idle.setLink { idle.link with refusals := idle.link.refusals.tail }).advance
  | .reply => if s.link.resetting then s.warmReset else (idle.setExecuting none).advance

/-- REPLY_SENT (R180). -/
def execReplySent (s : State) : Result := .next (takeReplySent s.fresh)

/-- WARM_RESET (R7, R182): it takes effect when the RESET reply, then on HTX, has left it (log entry 18). -/
def takeWarmReset (s : State) : State :=
  if s.link.resetting = true ∧ s.link.sending = .reply then s.warmReset else s

/-- WARM_RESET (R7). -/
def execWarmReset (s : State) : Result := .next (takeWarmReset s.fresh)

/-! ### The receiver (R179) -/

/-- The link with the receiver moved and the gap count loaded with 3. -/
def Link.await (l : Link) (r : Receiver) : Link := { l with receiver := r, gap := some 3 }

/-- The link with the receiver back in HUNT. -/
def Link.hunting (l : Link) : Link := { l with receiver := .hunt, gap := none }

/-- A receive error counted, the receiver back in HUNT. -/
def Link.failed (l : Link) : Link := { l.hunting with errors := sat 65535 l.errors }

/-- The CHECK byte (R179). -/
def State.checkFrame (s : State) (length : Byte) (bytes : List Byte) (x : Byte) : State :=
  if byteSum (length :: bytes ++ [x]) = 0 then (s.setLink s.link.hunting).submitBody bytes
  else s.setLink s.link.failed

/-- A byte completing on HRX (R179). -/
def State.receive (s : State) (x : Byte) (stop : Bool) : State :=
  match s.link.receiver with
  | .hunt => if stop && x == 0xA5 then s.setLink (s.link.await .length) else s
  | .length =>
    if !stop then s.setLink s.link.failed
    else if 2 ≤ x.toNat ∧ x.toNat ≤ 250 then s.setLink (s.link.await (.body x []))
    else s.setLink s.link.hunting
  | .body length bytes =>
    if !stop then s.setLink s.link.failed
    else if bytes.length + 1 < length.toNat then s.setLink (s.link.await (.body length (bytes ++ [x])))
    else s.setLink (s.link.await (.check length (bytes ++ [x])))
  | .check length bytes =>
    if !stop then s.setLink s.link.failed else s.checkFrame length bytes x

/-- HRX_BYTE (R179); nothing is received while the RESET pin is held low (R182). -/
def takeHrxByte (x : Byte) (stop : Bool) (s : State) : State :=
  if s.resetHeld then s else s.receive x stop

/-- HRX_BYTE (R179). -/
def execHrxByte (x : Byte) (stop : Bool) (s : State) : Result := .next (takeHrxByte x stop s.fresh)

/-- REQUEST_FRAME (R179, R180): the bytes of a whole frame, one after the other. -/
def execRequestFrame (bytes : List Byte) (s : State) : Result :=
  .next (bytes.foldl (fun t x => takeHrxByte x true t) s.fresh)

/-- The gap count's expiry, when its third tick has come (R179): no reply and no count. -/
def takeGapCountExpiry (s : State) : State :=
  if s.link.gap = some 0 then s.setLink s.link.hunting else s

/-- GAP_COUNT_EXPIRY (R179). -/
def execGapCountExpiry (s : State) : Result := .next (takeGapCountExpiry s.fresh)

end Sys2Proof.Machine
end

