-- ==== Sys2Proof/Machine/Requests.lean ====
section
/-! DEFINITION. The host requests as commands (section 12.4): each is the arrival of that good request frame with its tag
byte at the port (R178 to R181, log entry 1). -/

namespace Sys2Proof.Machine

/-- GO (R2). -/
def execGo (tag : Byte) (s : State) : Result := .next (s.fresh.submit tag .go)

/-- STOP (R4). -/
def execStop (tag : Byte) (option : Byte) (s : State) : Result := .next (s.fresh.submit tag (.stop option))

/-- HALT (R6). -/
def execHalt (tag : Byte) (s : State) : Result := .next (s.fresh.submit tag .halt)

/-- RESET (R7). -/
def execReset (tag : Byte) (s : State) : Result := .next (s.fresh.submit tag .reset)

/-- IDENTIFY (R182). -/
def execIdentify (tag : Byte) (s : State) : Result := .next (s.fresh.submit tag .identify)

/-- SET_PART (R12). -/
def execSetPart (tag : Byte) (zone parity : Byte) (s : State) : Result :=
  .next (s.fresh.submit tag (.setPart zone parity))

/-- SET_BASE (R13). -/
def execSetBase (tag : Byte) (base enabled channels : Byte) (s : State) : Result :=
  .next (s.fresh.submit tag (.setBase base enabled channels))

/-- SET_NEIGHBOURS (R13). -/
def execSetNeighbours (tag : Byte) (base : Byte) (entries : List (Byte × Byte)) (s : State) : Result :=
  .next (s.fresh.submit tag (.setNeighbours base entries))

/-- SET_TIMERS (R14). -/
def execSetTimers (tag : Byte) (pairs : List (Byte × BitVec 16)) (s : State) : Result :=
  .next (s.fresh.submit tag (.setTimers pairs))

/-- SET_EVALUATOR (R15). -/
def execSetEvaluator (tag : Byte) (pairs : List (Byte × BitVec 16)) (s : State) : Result :=
  .next (s.fresh.submit tag (.setEvaluator pairs))

/-- READ_SETTINGS (R16). -/
def execReadSettings (tag : Byte) (group base : Byte) (s : State) : Result :=
  .next (s.fresh.submit tag (.readSettings group base))

/-- ENROL (R51). -/
def execEnrol (tag : Byte) (handset credential : BitVec 32) (cls : Byte) (s : State) : Result :=
  .next (s.fresh.submit tag (.enrol handset credential cls))

/-- REMOVE (R52). -/
def execRemove (tag : Byte) (selector : Byte) (value : BitVec 32) (s : State) : Result :=
  .next (s.fresh.submit tag (.remove selector value))

/-- BAR (R53). -/
def execBar (tag : Byte) (selector : Byte) (value : BitVec 32) (s : State) : Result :=
  .next (s.fresh.submit tag (.bar selector value))

/-- UNBAR (R54). -/
def execUnbar (tag : Byte) (selector : Byte) (value : BitVec 32) (s : State) : Result :=
  .next (s.fresh.submit tag (.unbar selector value))

/-- QUERY_HANDSET (R55). -/
def execQueryHandset (tag : Byte) (selector : Byte) (value : BitVec 32) (s : State) : Result :=
  .next (s.fresh.submit tag (.queryHandset selector value))

/-- HOLD_ADMISSION (R26). -/
def execHoldAdmission (tag : Byte) (base : Byte) (s : State) : Result :=
  .next (s.fresh.submit tag (.holdAdmission base))

/-- OPEN_ADMISSION (R26). -/
def execOpenAdmission (tag : Byte) (base : Byte) (s : State) : Result :=
  .next (s.fresh.submit tag (.openAdmission base))

/-- RESTORE_BASE (R25). -/
def execRestoreBase (tag : Byte) (base : Byte) (s : State) : Result := .next (s.fresh.submit tag (.restoreBase base))

/-- QUERY_BASE (R34). -/
def execQueryBase (tag : Byte) (base option : Byte) (s : State) : Result :=
  .next (s.fresh.submit tag (.queryBase base option))

/-- OPEN_CALL (R77). -/
def execOpenCall (tag : Byte) (handset : BitVec 32) (direction : Byte) (s : State) : Result :=
  .next (s.fresh.submit tag (.openCall handset direction))

/-- CLOSE_CALL (R82). -/
def execCloseCall (tag : Byte) (call : Byte) (s : State) : Result := .next (s.fresh.submit tag (.closeCall call))

/-- QUERY_CALL (R88). -/
def execQueryCall (tag : Byte) (call : Byte) (s : State) : Result := .next (s.fresh.submit tag (.queryCall call))

/-- ADMIT_CALL (R157). -/
def execAdmitCall (tag : Byte) (handset : BitVec 32) (base zone : Byte) (s : State) : Result :=
  .next (s.fresh.submit tag (.admitCall handset base zone))

/-- ZONE_GO (R151). -/
def execZoneGo (tag : Byte) (call channel : Byte) (s : State) : Result :=
  .next (s.fresh.submit tag (.zoneGo call channel))

/-- ZONE_FAIL (R152). -/
def execZoneFail (tag : Byte) (call : Byte) (s : State) : Result := .next (s.fresh.submit tag (.zoneFail call))

/-- ZONE_COMPLETE (R155). -/
def execZoneComplete (tag : Byte) (call : Byte) (s : State) : Result :=
  .next (s.fresh.submit tag (.zoneComplete call))

/-- FETCH_NOTICE (R166). -/
def execFetchNotice (tag : Byte) (s : State) : Result := .next (s.fresh.submit tag .fetchNotice)

/-- MASK_NOTICES (R165). -/
def execMaskNotices (tag : Byte) (mask : Byte) (s : State) : Result := .next (s.fresh.submit tag (.maskNotices mask))

/-- QUERY_CONDITIONS (R168). -/
def execQueryConditions (tag : Byte) (s : State) : Result := .next (s.fresh.submit tag .queryConditions)

/-- CLEAR_CONDITIONS (R169). -/
def execClearConditions (tag : Byte) (scope conditions : Byte) (s : State) : Result :=
  .next (s.fresh.submit tag (.clearConditions scope conditions))

/-- CAPTURE (R172). -/
def execCapture (tag : Byte) (slot call count mode : Byte) (sample : BitVec 32) (s : State) : Result :=
  .next (s.fresh.submit tag (.capture slot call count mode sample))

/-- CANCEL_CAPTURE (R175). -/
def execCancelCapture (tag : Byte) (slot : Byte) (s : State) : Result :=
  .next (s.fresh.submit tag (.cancelCapture slot))

/-- READ_CAPTURE (R175). -/
def execReadCapture (tag : Byte) (slot first : Byte) (s : State) : Result :=
  .next (s.fresh.submit tag (.readCapture slot first))

/-- MARK (R177). -/
def execMark (tag : Byte) (s : State) : Result := .next (s.fresh.submit tag .mark)

/-- UNKNOWN_REQUEST (R181): the frame's code and parameters judged as the port judges any frame. -/
def execUnknownRequest (tag code : Byte) (params : List Byte) (s : State) : Result :=
  .next (s.fresh.submit tag (parseRequest code params))

end Sys2Proof.Machine
end

