-- ==== Sys2Proof/Machine/Dispatch.lean ====
section
/-! DEFINITION. One arm per command: the call of its meaning. -/

namespace Sys2Proof.Machine

/-- A command's effect on everything but the queue. -/
def exec (i : Instr) (s : State) : Host.Outcome State Fault Refusal :=
  match i with
  | .go tag => Sys2Proof.Machine.execGo tag s
  | .stop tag option => Sys2Proof.Machine.execStop tag option s
  | .halt tag => Sys2Proof.Machine.execHalt tag s
  | .reset tag => Sys2Proof.Machine.execReset tag s
  | .identify tag => Sys2Proof.Machine.execIdentify tag s
  | .setPart tag zone parity => Sys2Proof.Machine.execSetPart tag zone parity s
  | .setBase tag base enabled channels => Sys2Proof.Machine.execSetBase tag base enabled channels s
  | .setNeighbours tag base entries => Sys2Proof.Machine.execSetNeighbours tag base entries s
  | .setTimers tag pairs => Sys2Proof.Machine.execSetTimers tag pairs s
  | .setEvaluator tag pairs => Sys2Proof.Machine.execSetEvaluator tag pairs s
  | .readSettings tag group base => Sys2Proof.Machine.execReadSettings tag group base s
  | .enrol tag handset credential cls => Sys2Proof.Machine.execEnrol tag handset credential cls s
  | .remove tag selector value => Sys2Proof.Machine.execRemove tag selector value s
  | .bar tag selector value => Sys2Proof.Machine.execBar tag selector value s
  | .unbar tag selector value => Sys2Proof.Machine.execUnbar tag selector value s
  | .queryHandset tag selector value => Sys2Proof.Machine.execQueryHandset tag selector value s
  | .holdAdmission tag base => Sys2Proof.Machine.execHoldAdmission tag base s
  | .openAdmission tag base => Sys2Proof.Machine.execOpenAdmission tag base s
  | .restoreBase tag base => Sys2Proof.Machine.execRestoreBase tag base s
  | .queryBase tag base option => Sys2Proof.Machine.execQueryBase tag base option s
  | .openCall tag handset direction => Sys2Proof.Machine.execOpenCall tag handset direction s
  | .closeCall tag call => Sys2Proof.Machine.execCloseCall tag call s
  | .queryCall tag call => Sys2Proof.Machine.execQueryCall tag call s
  | .admitCall tag handset base zone => Sys2Proof.Machine.execAdmitCall tag handset base zone s
  | .zoneGo tag call channel => Sys2Proof.Machine.execZoneGo tag call channel s
  | .zoneFail tag call => Sys2Proof.Machine.execZoneFail tag call s
  | .zoneComplete tag call => Sys2Proof.Machine.execZoneComplete tag call s
  | .fetchNotice tag => Sys2Proof.Machine.execFetchNotice tag s
  | .maskNotices tag mask => Sys2Proof.Machine.execMaskNotices tag mask s
  | .queryConditions tag => Sys2Proof.Machine.execQueryConditions tag s
  | .clearConditions tag scope conditions => Sys2Proof.Machine.execClearConditions tag scope conditions s
  | .capture tag slot call count mode sample => Sys2Proof.Machine.execCapture tag slot call count mode sample s
  | .cancelCapture tag slot => Sys2Proof.Machine.execCancelCapture tag slot s
  | .readCapture tag slot first => Sys2Proof.Machine.execReadCapture tag slot first s
  | .mark tag => Sys2Proof.Machine.execMark tag s
  | .unknownRequest tag code params => Sys2Proof.Machine.execUnknownRequest tag code params s
  | .requestFrame bytes => Sys2Proof.Machine.execRequestFrame bytes s
  | .gapCountExpiry => Sys2Proof.Machine.execGapCountExpiry s
  | .replySent => Sys2Proof.Machine.execReplySent s
  | .warmReset => Sys2Proof.Machine.execWarmReset s
  | .coldReset => Sys2Proof.Machine.execColdReset s
  | .resetRelease straps => Sys2Proof.Machine.execResetRelease straps s
  | .carrierLost port => Sys2Proof.Machine.execCarrierLost port s
  | .carrierRegained port => Sys2Proof.Machine.execCarrierRegained port s
  | .markEdge => Sys2Proof.Machine.execMarkEdge s
  | .tick => Sys2Proof.Machine.execTick s
  | .status origin health => Sys2Proof.Machine.execStatus origin health s
  | .echo origin serial => Sys2Proof.Machine.execEcho origin serial s
  | .fragFirst origin fragment => Sys2Proof.Machine.execFragFirst origin fragment s
  | .fragNext origin fragment => Sys2Proof.Machine.execFragNext origin fragment s
  | .fragClose origin fragment => Sys2Proof.Machine.execFragClose origin fragment s
  | .report origin frame => Sys2Proof.Machine.execReport origin frame s
  | .arrival origin channel handset => Sys2Proof.Machine.execArrival origin channel handset s
  | .loss origin channel handset => Sys2Proof.Machine.execLoss origin channel handset s
  | .settleExpiry base => Sys2Proof.Machine.execSettleExpiry base s
  | .heartbeatExpiry base => Sys2Proof.Machine.execHeartbeatExpiry base s
  | .echoDeadlineExpiry base serial => Sys2Proof.Machine.execEchoDeadlineExpiry base serial s
  | .gapDeadlineExpiry base => Sys2Proof.Machine.execGapDeadlineExpiry base s
  | .lifetimeExpiry slot => Sys2Proof.Machine.execLifetimeExpiry slot s
  | .originationExpiry slot => Sys2Proof.Machine.execOriginationExpiry slot s
  | .setupDeadlineExpiry call => Sys2Proof.Machine.execSetupDeadlineExpiry call s
  | .switchDeadlineExpiry call => Sys2Proof.Machine.execSwitchDeadlineExpiry call s
  | .zoneDeadlineExpiry call => Sys2Proof.Machine.execZoneDeadlineExpiry call s
  | .guardExpiry call => Sys2Proof.Machine.execGuardExpiry call s
  | .penaltyExpiry call target => Sys2Proof.Machine.execPenaltyExpiry call target s
  | .markDriveEnd => Sys2Proof.Machine.execMarkDriveEnd s
  | .hrxByte byte stop => Sys2Proof.Machine.execHrxByte byte stop s

end Sys2Proof.Machine
end

