-- ==== Sys2Proof/WellFormed.lean ====
section
/-! DEFINITION. Which commands can occur on the block's lines at all: a request must fit a frame, a whole frame must have
the form of a frame, and a report carries as many readings as its count field says. -/

namespace Sys2Proof

/-- A body of a request frame holds 2..250 bytes, code and tag byte among them (R178). -/
def fitsFrame (r : Request) : Bool :=
  decide (r.params.length + 2 ≤ 250)

/-- The bytes of a whole request frame: A5h, LENGTH 2..250, LENGTH body bytes and CHECK, right or wrong (R178). -/
def frameForm : List Byte → Bool
  | start :: length :: rest =>
    decide (start = 0xA5) && decide (2 ≤ length.toNat) && decide (length.toNat ≤ 250) &&
      decide (rest.length = length.toNat + 1)
  | _ => false

/-- The check of each command's form. Index and value ranges are judged by the block itself (BAD_ARG), so they are no part
of it. -/
def Instr.wellFormed : Instr → Bool
  | .setNeighbours _ b es => fitsFrame (.setNeighbours b es)
  | .setTimers _ ps => fitsFrame (.setTimers ps)
  | .setEvaluator _ ps => fitsFrame (.setEvaluator ps)
  | .unknownRequest _ code params => !(catalogue.contains code) && decide (params.length + 2 ≤ 250)
  | .requestFrame bytes => frameForm bytes
  | .report _ f => decide (f.neighbours.length = f.count.toNat)
  | .go _ | .stop _ _ | .halt _ | .reset _ | .identify _ | .setPart _ _ _ | .setBase _ _ _ _ | .readSettings _ _ _
  | .enrol _ _ _ _ | .remove _ _ _ | .bar _ _ _ | .unbar _ _ _ | .queryHandset _ _ _ | .holdAdmission _ _
  | .openAdmission _ _ | .restoreBase _ _ | .queryBase _ _ _ | .openCall _ _ _ | .closeCall _ _ | .queryCall _ _
  | .admitCall _ _ _ _ | .zoneGo _ _ _ | .zoneFail _ _ | .zoneComplete _ _ | .fetchNotice _ | .maskNotices _ _
  | .queryConditions _ | .clearConditions _ _ _ | .capture _ _ _ _ _ _ | .cancelCapture _ _ | .readCapture _ _ _
  | .mark _ | .gapCountExpiry | .replySent | .warmReset | .coldReset | .resetRelease _ | .carrierLost _
  | .carrierRegained _ | .markEdge | .tick | .status _ _ | .echo _ _ | .fragFirst _ _ | .fragNext _ _ | .fragClose _ _
  | .arrival _ _ _ | .loss _ _ _ | .settleExpiry _ | .heartbeatExpiry _ | .echoDeadlineExpiry _ _
  | .gapDeadlineExpiry _ | .lifetimeExpiry _ | .originationExpiry _ | .setupDeadlineExpiry _
  | .switchDeadlineExpiry _ | .zoneDeadlineExpiry _ | .guardExpiry _ | .penaltyExpiry _ _ | .markDriveEnd
  | .hrxByte _ _ => true

end Sys2Proof
end

