-- ==== Sys2Proof/Safety.lean ====
section
/-! DEFINITION. The vocabulary of the statements: an idle host link, a request answered at once, the laws of the device
(the invariants that the spec says its units keep), and what a safe run is. -/

namespace Sys2Proof.Machine

/-! ### The host link -/

/-- The port would hand a request on at once and answer it on an idle line: nothing waits, executes or is being sent. -/
def State.portFree (s : State) : Prop :=
  s.resetHeld = false ∧ s.link.resetting = false ∧ s.link.buffer = [] ∧ s.link.refusals = [] ∧
    s.link.executing = none ∧ s.link.sending = .idle

/-- The state with a request executing and its reply on HTX. -/
def State.answered (s : State) (code tag : Byte) (r : Reply) : State :=
  s.setLink { s.link with executing := some { code := code, tag := tag, reply := r }, sending := .reply }

/-- The command that is the arrival of a request of the catalogue with a tag byte. -/
def commandOf (tag : Byte) : Request → Instr
  | .go => .go tag
  | .stop o => .stop tag o
  | .halt => .halt tag
  | .reset => .reset tag
  | .identify => .identify tag
  | .setPart z p => .setPart tag z p
  | .setBase b e c => .setBase tag b e c
  | .setNeighbours b es => .setNeighbours tag b es
  | .setTimers ps => .setTimers tag ps
  | .setEvaluator ps => .setEvaluator tag ps
  | .readSettings g b => .readSettings tag g b
  | .enrol t k c => .enrol tag t k c
  | .remove k v => .remove tag k v
  | .bar k v => .bar tag k v
  | .unbar k v => .unbar tag k v
  | .queryHandset k v => .queryHandset tag k v
  | .holdAdmission b => .holdAdmission tag b
  | .openAdmission b => .openAdmission tag b
  | .restoreBase b => .restoreBase tag b
  | .queryBase b o => .queryBase tag b o
  | .openCall t d => .openCall tag t d
  | .closeCall c => .closeCall tag c
  | .queryCall c => .queryCall tag c
  | .admitCall t b z => .admitCall tag t b z
  | .zoneGo c h => .zoneGo tag c h
  | .zoneFail c => .zoneFail tag c
  | .zoneComplete c => .zoneComplete tag c
  | .fetchNotice => .fetchNotice tag
  | .maskNotices m => .maskNotices tag m
  | .queryConditions => .queryConditions tag
  | .clearConditions k c => .clearConditions tag k c
  | .capture k c n m x => .capture tag k c n m x
  | .cancelCapture k => .cancelCapture tag k
  | .readCapture k f => .readCapture tag k f
  | .mark => .mark tag
  | .unknown c => .unknownRequest tag c []
  | .badLength c => .unknownRequest tag c []

/-- A request that a frame can carry: one of the catalogue, whose lists leave its body within a frame. -/
def carried : Request → Prop
  | .unknown _ => False
  | .badLength _ => False
  | .setNeighbours b es => fitsFrame (.setNeighbours b es) = true
  | .setTimers ps => fitsFrame (.setTimers ps) = true
  | .setEvaluator ps => fitsFrame (.setEvaluator ps) = true
  | _ => True

/-- The number of parameter bytes that section 12.4 requires of a request code, `none` for a code that is not in its
table. The count byte of a list is read where it stands; where the parameters end before it, it counts 0. The nine bytes
of ENROL rest on the one byte of its access class, which is the model's choice (log entry 34). -/
def requiredCount (code : Byte) (params : List Byte) : Option Nat :=
  if code ∈ ([0x01, 0x03, 0x04, 0x05, 0x60, 0x62, 0x73] : List Byte) then some 0
  else if code ∈ ([0x02, 0x30, 0x31, 0x32, 0x41, 0x42, 0x52, 0x53, 0x61, 0x71] : List Byte) then some 1
  else if code ∈ ([0x10, 0x15, 0x33, 0x51, 0x63, 0x72] : List Byte) then some 2
  else if code = 0x11 then some 3
  else if code ∈ ([0x21, 0x22, 0x23, 0x24, 0x40] : List Byte) then some 5
  else if code = 0x50 then some 6
  else if code = 0x70 then some 8
  else if code = 0x20 then some 9
  else if code = 0x12 then some (2 + 2 * (params.getD 1 0).toNat)
  else if code = 0x13 ∨ code = 0x14 then some (1 + 3 * (params.getD 0 0).toNat)
  else none

/-! ### What the host and the bases send -/

/-- The byte of a target in a request (R183). -/
def targetByte : Target → Byte
  | .localBase b => BitVec.ofNat 8 (128 + b.val)
  | .foreignBase z b => BitVec.ofNat 8 (z.val * 32 + b.val)

/-- A flag byte in a request: 1 for yes, 0 for no (R183). -/
def yesNo (b : Bool) : Byte := if b then 1 else 0

/-- A number in `w` bytes, most significant first (R183). -/
def wide : Nat → Nat → List Byte
  | 0, _ => []
  | w + 1, n => wide w (n / 256) ++ [BitVec.ofNat 8 n]

/-- An enumerated value: its place in the list where the manual first gives it (R183). -/
def placeIn {α : Type} [DecidableEq α] (list : List α) (a : α) : Byte := BitVec.ofNat 8 (list.idxOf a)

/-- A field of `w` bytes that may be absent: every bit set when it is (R183). -/
def fieldOr (w : Nat) : Option (List Byte) → List Byte
  | some bytes => bytes
  | none => List.replicate w 0xFF

/-- The base states in the order of R19. -/
def baseStates : List BaseState := [.unused, .down, .probing, .inService, .fault]

/-- The owner of a window entry (R183). -/
def ownerFields : OrderOwner → List Byte
  | .call c use orderNo => [BitVec.ofNat 8 c.val, use, orderNo, 0]
  | .slot i => wide 2 i.val ++ [0, 0]
  | .none => [0xFF, 0xFF, 0xFF, 0xFF]

/-- A window entry (R34): serial, kind, placing block, owner, channel, ticks remaining. -/
def entryFields (e : WindowEntry) : List Byte :=
  [e.serial, placeIn [OrderKind.assign, .release, .move, .answer, .admission] e.kind,
    placeIn [Placer.callUnit, .sequencer, .registration, .baseLink] e.placer] ++ ownerFields e.owner ++
    fieldOr 1 (e.channel.map fun c => [BitVec.ofNat 8 c.val]) ++ wide 4 e.deadline

/-- The fields of a base and its port in the order of R34; the count bytes are the model's (log entry 10). -/
def State.baseFields (s : State) (b : BaseIx) : List Byte :=
  let r := s.base b
  let owed := (List.finRange 8).filter fun c => r.owedReleases.get c
  [BitVec.ofNat 8 b.val, BitVec.ofNat 8 (b.val / 8), if s.carriers.get (portOf b) then 0 else 1,
    yesNo (s.driven (portOf b)), yesNo (s.cfg b).enabled, placeIn baseStates r.state, yesNo r.held, yesNo r.degraded,
    yesNo r.seen] ++
    fieldOr 1 (r.lastHealth.map fun h => [placeIn [Health.ok, .degraded, .failed] h]) ++
    fieldOr 4 (r.lastBeat.map fun t => wide 4 t.toNat) ++ fieldOr 4 (r.settle.map (wide 4)) ++
    fieldOr 4 (r.heartbeat.map (wide 4)) ++ [BitVec.ofNat 8 r.window.length] ++ r.window.flatMap entryFields ++
    [r.nextSerial, BitVec.ofNat 8 r.noEcho, BitVec.ofNat 8 owed.length] ++ owed.map (fun c => BitVec.ofNat 8 c.val) ++
    [yesNo r.owedAdmission] ++ wide 2 r.lateEchoes ++ wide 2 r.spoiled ++ wide 2 r.droppedAnswers ++ wide 2 r.packed

/-- A base and a channel. -/
def refFields (p : ChanRef) : List Byte := [BitVec.ofNat 8 p.base.val, BitVec.ofNat 8 p.channel.val]

/-- A clear cause by its place in the list of R74, with the reason of SETUP_FAILED (R183). -/
def causeFields : ClearCause → List Byte
  | .closed => [0, 0xFF]
  | .lost => [1, 0xFF]
  | .baseLost => [2, 0xFF]
  | .detach => [3, 0xFF]
  | .forced => [4, 0xFF]
  | .handedOut _ => [5, 0xFF]
  | .setupFailed reason => [6, placeIn [SetupReason.noEcho, .timeout, .baseLost] reason]

/-- The state of a channel by its place in the list of R70. -/
def channelState : Channel → Byte
  | .free => 0
  | .reserved _ _ => 1
  | .busy _ => 2
  | .releasing _ => 3
  | .releaseOwed => 4

/-- Phase, target, target channel, rescue flag, old serving base and channel, stray count and phase deadline (R130,
R147); `code` is the byte of the phase, absent while CLEARING. -/
def phaseFields (code : Byte → Byte) : Phase → List Byte
  | .none => [code 0, 0xFF, 0xFF, 0xFF, 0xFF, 0xFF, 0xFF, 0xFF, 0xFF, 0xFF, 0xFF]
  | .preparing p rescue =>
    [code 1, targetByte (.localBase p.base), BitVec.ofNat 8 p.channel.val, yesNo rescue, 0xFF, 0xFF, 0xFF, 0xFF, 0xFF,
      0xFF, 0xFF]
  | .switching p rescue old strays deadline =>
    [code 2, targetByte (.localBase p.base), BitVec.ofNat 8 p.channel.val, yesNo rescue] ++
      fieldOr 2 (old.map refFields) ++ [BitVec.ofNat 8 strays] ++ wide 4 deadline
  | .handingOut zone base rescue deadline =>
    [code 3, targetByte (.foreignBase zone base), 0xFF, yesNo rescue, 0xFF, 0xFF, 0xFF] ++ wide 4 deadline
  | .switchingOut zone base channel rescue old strays deadline =>
    [code 4, targetByte (.foreignBase zone base), BitVec.ofNat 8 channel.val, yesNo rescue] ++
      fieldOr 2 (old.map refFields) ++ [BitVec.ofNat 8 strays] ++ wide 4 deadline

/-- A candidate entry in the order of R107. -/
def candidateFields (e : Candidate) : List Byte :=
  [targetByte e.target, BitVec.ofNat 8 e.position.val] ++ wide 2 e.average ++
    [BitVec.ofNat 8 e.dwell, BitVec.ofNat 8 e.misses,
      placeIn [Compare.better, .equal, .worse, .unordered] e.lastCompare] ++
    fieldOr 2 (e.lastScore.map fun n => [BitVec.ofInt 8 (n / 256), BitVec.ofInt 8 n]) ++
    fieldOr 4 (e.penalty.map (wide 4))

/-- The fields of a call context not FREE in the order of R88; the count bytes are the model's (log entry 10). -/
def State.callFields (s : State) (c : CallIx) (i : CallInfo) : List Byte :=
  let x := s.ctx c
  let owned := ((List.finRange 32).flatMap fun b => (List.finRange 8).map fun k => (⟨b, k⟩ : ChanRef)).filter fun p =>
    (s.chan p).ownedBy (s.ownerOf c)
  let absent : List Byte := [0xFF, 0xFF, 0xFF, 0xFF]
  let stage : Byte × List Byte × (Byte → Byte) := match i.stage with
    | .setup deadline => (1, fieldOr 4 (deadline.map (wide 4)) ++ [0xFF, 0xFF], id)
    | .active => (2, absent ++ [0xFF, 0xFF], id)
    | .clearing cause => (3, absent ++ causeFields cause, fun _ => 0xFF)
  let kind : List Byte := match i.kind with
    | .localCall .terminating => [0, 0]
    | .localCall .originated => [0, 1]
    | .zoneIn zone => [1, BitVec.ofNat 8 zone.val]
  [stage.1, x.use] ++ kind ++ wide 2 i.slot.val ++ wide 4 i.tag.toNat ++ [BitVec.ofNat 8 i.cls.val] ++
    refFields i.serving ++ [yesNo i.reachedActive] ++ stage.2.1 ++
    [BitVec.ofNat 8 owned.length] ++ owned.flatMap (fun p => refFields p ++ [channelState (s.chan p)]) ++
    phaseFields stage.2.2 x.phase ++ fieldOr 4 (x.guard.map (wide 4)) ++ [x.orderNo, BitVec.ofNat 8 x.attempts] ++
    fieldOr 2 (x.serving.map (wide 2)) ++ fieldOr 2 (x.uplink.map (wide 2)) ++
    [BitVec.ofNat 8 x.candidates.length] ++ x.candidates.flatMap candidateFields ++ [BitVec.ofNat 8 x.ring.length] ++
    wide 4 x.nextSample.toNat ++ [yesNo x.divergeSticky, yesNo x.saturateSticky, BitVec.ofNat 8 x.packed,
      BitVec.ofNat 8 x.unlisted, BitVec.ofNat 8 x.strays, BitVec.ofNat 8 x.attempts]

/-- A timer setting by its number, in the order of the table of R14. -/
def TimerSettings.value (t : TimerSettings) : Fin 13 → Nat
  | 0 => t.echo
  | 1 => t.setup
  | 2 => t.switch
  | 3 => t.zone
  | 4 => t.guard
  | 5 => t.penalty
  | 6 => t.gap
  | 7 => t.heartbeat
  | 8 => t.settleCold
  | 9 => t.settleWarm
  | 10 => t.hold
  | 11 => t.spacing
  | 12 => t.lifetime

/-- The range of a timer setting (R14). -/
def timerLimits : Fin 13 → Nat × Nat
  | 0 => (1, 15)
  | 1 => (20, 500)
  | 2 => (5, 100)
  | 3 => (10, 300)
  | 4 => (0, 1000)
  | 5 => (0, 3000)
  | 6 => (1, 20)
  | 7 => (20, 200)
  | 8 => (50, 1000)
  | 9 => (10, 500)
  | 10 => (50, 500)
  | 11 => (1, 9)
  | 12 => (1, 255)

/-- An evaluator setting by its number, in the order of the table of R15; masked and on are 1. -/
def EvaluatorSettings.value (e : EvaluatorSettings) : Fin 11 → Nat
  | 0 => e.smoothing
  | 1 => e.hysteresis
  | 2 => e.dwell
  | 3 => e.rescueFloor
  | 4 => e.loadPenalty
  | 5 => e.divergence
  | 6 => e.diversity
  | 7 => e.highClass
  | 8 => if e.divergeMasked then 1 else 0
  | 9 => if e.saturateMasked then 1 else 0
  | 10 => if e.markOnFailure then 1 else 0

/-- The range of an evaluator setting (R15). -/
def evaluatorLimits : Fin 11 → Nat × Nat
  | 0 => (0, 4)
  | 1 => (0, 15)
  | 2 => (1, 15)
  | 3 => (0, 100)
  | 4 => (0, 15)
  | 5 => (10, 60)
  | 6 => (0, 15)
  | 7 => (0, 15)
  | 8 => (0, 1)
  | 9 => (0, 1)
  | 10 => (0, 1)

/-- A value clamped to the nearer end of a range (R11). -/
def clampTo (range : Nat × Nat) (n : Nat) : Nat := max range.1 (min range.2 n)

/-- A selector byte and value that name the record `h` in slot `i` (R50): by slot, or by a tag that no other slot holds. -/
def State.names (s : State) (selector : Byte) (value : BitVec 32) (i : SlotIx) (h : Handset) : Prop :=
  s.handset i = some h ∧
    ((selector = 1 ∧ value.toNat = i.val) ∨
      (selector = 0 ∧ value.toNat = h.tag.toNat ∧ 0 < h.tag.toNat ∧ h.tag.toNat < 268435455 ∧
        ∀ (j : SlotIx) (k : Handset), s.handset j = some k → k.tag = h.tag → j = i))

/-- The entry that a base's window takes for an order (R28): the next serial, the order's kind, placing block, owner and
channel, and the echo deadline loaded. -/
def newEntry (r : BaseRecord) (kind : OrderKind) (placer : Placer) (owner : OrderOwner) (channel : Option ChanIx)
    (deadline : Nat) : WindowEntry :=
  { serial := r.nextSerial, kind := kind, placer := placer, owner := owner, channel := channel, deadline := deadline }

/-- The header of a slot that is armed on a call (R173, R174). -/
def CaptureSlot.armedOn (c : CallIx) : CaptureSlot → Option CaptureHeader
  | .armedMark h => if h.call = c then some h else none
  | .armedNext h => if h.call = c then some h else none
  | _ => none

/-- The header of a slot that waits for the next sample of a call (R173). -/
def CaptureSlot.awaits (c : CallIx) : CaptureSlot → Option CaptureHeader
  | .armedNext h => if h.call = c then some h else none
  | _ => none

/-- A class after notices posted at one tick, in their order (R162). -/
def NoticeClass.fileAll (k : NoticeClass) (tick : Tick) (bodies : List NoticeBody) : NoticeClass :=
  bodies.foldl (fun q n => q.file { tick := tick, body := n }) k

/-- What owed items make of a base that an entry has just left (R32): with room the owed admission is sent, or else the
lowest owed release, whose channel becomes RELEASING without owner. -/
def State.owedSent (s : State) (b : BaseIx) : State :=
  let r := s.base b
  let sent := fun (rest : BaseRecord) (kind : OrderKind) (placer : Placer) (channel : Option ChanIx) (order : Order) =>
    { s.setBase b { rest with
        nextSerial := r.nextSerial + 1
        window := r.window ++ [newEntry r kind placer .none channel s.settings.timers.echo] } with
      ordersOut := s.ordersOut ++ [{ base := b, serial := r.nextSerial, order := order }] }
  if 4 ≤ r.window.length then s
  else if r.owedAdmission then
    sent { r with owedAdmission := false } .admission .baseLink none (.admission r.held)
  else
    match (List.finRange 8).find? fun ch => r.owedReleases.get ch with
    | none => s
    | some ch => (sent { r with owedReleases := r.owedReleases.set ch false } .release .callUnit (some ch)
        (.release ch)).setChan ⟨b, ch⟩ (.releasing none)

/-- An entry leaves the window of a base (R30, R31): echoed, or at its due deadline when fewer than two echoes have been
missing in a row. The command is `c`; `u` is what its departure leaves before the placing block hears of it, owed items
sent (R32). -/
def State.departs (s : State) (b : BaseIx) (serial : Byte) (e : WindowEntry) (echoed : Bool) (c : Instr) (u : State) :
    Prop :=
  let r := s.base b
  let left := r.window.eraseP fun x => x.serial == serial
  r.window.find? (fun x => x.serial == serial) = some e ∧
    ((echoed = true ∧ (∃ o, c = .echo o serial ∧ originBase o = b ∧ s.hears o = true) ∧
        (r.state = .probing ∨ r.state = .inService) ∧
        u = (s.fresh.setBase b { r with window := left, noEcho := 0 }).owedSent b) ∨
      (echoed = false ∧ c = .echoDeadlineExpiry b serial ∧ e.deadline = 0 ∧ r.noEcho < 2 ∧
        u = (s.fresh.setBase b { r with window := left, noEcho := r.noEcho + 1 }).owedSent b))

/-- What the failure of an attempt leaves (R132), the claimed channel apart: the call goes on in phase NONE, the target is
penalised, FAILED is filed, and every other context is as it was. -/
def State.attemptFailed (s t : State) (c : CallIx) (i : CallInfo) (target : Target) (reason : HandoverReason)
    (phase : PhaseName) (rescue : Bool) : Prop :=
  (t.ctx c).call = some i ∧ (t.ctx c).phase = .none ∧ (t.ctx c).guard = (s.ctx c).guard ∧
    ((t.ctx c).candidates = (s.ctx c).candidates.map fun e =>
      if e.target = target ∧ s.settings.timers.penalty ≠ 0 then { e with penalty := some s.settings.timers.penalty }
      else e) ∧
    t.classes.get 1 = (s.classes.get 1).file
      { tick := s.tick, body := .failed (i.ref c) i.serving target reason phase rescue (s.ctx c).attempts } ∧
    ∀ d, d ≠ c → t.ctx d = s.ctx d

/-! ### What a report gives -/

/-- The check of an uplink reading (R96): the reading and its check bit hold an odd number of 1 bits. -/
def oddCheck (r : UplinkReading) : Prop := (ones r.value + if r.check then 1 else 0) % 2 = 1

/-- The readings of a report whose position no earlier reading of it names (R99). -/
def firstNamed (readings : List (Fin 8 × BitVec 7)) : List (Fin 8 × BitVec 7) :=
  (readings.zipIdx.filter fun q => (readings.take q.2).all fun r => r.1 != q.1.1).map Prod.fst

/-- The neighbour entries of a sample (R99): each position of the list that a report names, in report order. -/
def listedReadings (list : List Neighbour) (readings : List (Fin 8 × BitVec 7)) : List NeighbourReading :=
  (firstNamed readings).filterMap fun q => (list[q.1.val]?).map fun n =>
    { position := q.1, target := n.target
      reading := if q.2.toNat ≤ 100 then .valid q.2.toNat else if q.2.toNat < 127 then .range q.2.toNat else .absent }

/-- How many of a report's readings name a position beyond the list (R99), each position once (log entry 13). -/
def unlistedReadings (list : List Neighbour) (readings : List (Fin 8 × BitVec 7)) : Nat :=
  ((firstNamed readings).filter fun q => decide (list.length ≤ q.1.val)).length

/-! ### What an evaluation reads -/

/-- The rescue test (R124): named and scored in this sample, ahead of the serving base without the hysteresis, and with a
dwell before the sample of 1 or more. -/
def passesRescue (e : EvaluatorSettings) (w : Weighed) : Prop :=
  (∃ n : Int, w.score = some n ∧ 0 < n + 4 * (e.hysteresis : Int)) ∧ 1 ≤ w.before

/-- The trigger test (R125): named and scored in this sample, BETTER or EQUAL, and with a dwell of N or more. -/
def passesTrigger (e : EvaluatorSettings) (w : Weighed) : Prop :=
  w.score ≠ none ∧ (w.entry.lastCompare = .better ∨ w.entry.lastCompare = .equal) ∧ e.dwell ≤ w.entry.dwell

/-- Rescue applies (R124): U is present and below 4F. -/
def rescueApplies (e : EvaluatorSettings) (uplink : Option Nat) : Prop :=
  ∃ u, uplink = some u ∧ u < 4 * e.rescueFloor

/-- `w`, scored `n`, comes first among the scored entries of a list that pass a test (R125): the highest score, then the
greatest dwell, then the earliest place. -/
def comesFirst (test : Weighed → Prop) (l : List Weighed) (w : Weighed) (n : Int) : Prop :=
  ∃ before after, l = before ++ w :: after ∧ w.score = some n ∧ test w ∧
    (∀ v ∈ before, test v → ∀ m, v.score = some m → m < n ∨ (m = n ∧ v.entry.dwell < w.entry.dwell)) ∧
    ∀ v ∈ after, test v → ∀ m, v.score = some m → m < n ∨ (m = n ∧ v.entry.dwell ≤ w.entry.dwell)

/-- The serving average that the scores of a sample are measured against (R113): the average after the sample, if its
downlink is valid and was not set aside. -/
def measuredAgainst (e : EvaluatorSettings) (serving : Option Nat) (x : Sample) : Option Nat :=
  match x.downlink with
  | .valid l => if (e.averageIf serving (some l)).aside then none else (e.averageIf serving (some l)).average
  | _ => none

/-- The DIVERGE condition of one reading (R111): the reading and the average held, when the reading lies beyond the
limit. -/
def beyondLimit (e : EvaluatorSettings) (held level : Option Nat) : Option (Nat × Nat) :=
  match held, level with
  | some a, some l => if a + 4 * e.divergence < 4 * l ∨ 4 * l + 4 * e.divergence < a then some (l, a) else none
  | _, _ => none

/-- The DIVERGE conditions of a sample (R111, R112): serving, uplink, then the candidates it names, in place order. -/
def divergesMet (e : EvaluatorSettings) (serving uplink : Option Nat) (candidates : List Candidate) (x : Sample) :
    List (DivergeSubject × Nat × Nat) :=
  (beyondLimit e serving x.downlink.level).toList.map (fun q => (.serving, q)) ++
    (beyondLimit e uplink x.uplink).toList.map (fun q => (.uplink, q)) ++
    candidates.filterMap fun c =>
      (beyondLimit e (some c.average)
        ((x.neighbours.find? fun n => n.target == c.target).bind fun n => n.reading.level)).map fun q =>
          (.candidate c.target, q)

/-- The SATURATE conditions of a sample (R114, R118): its raw scores out of range, in place order. -/
def saturatesMet (k : EvalContext) (serving : Option Nat) (candidates : List Candidate) (x : Sample) :
    List (Target × Int) :=
  if x.doubtful then []
  else candidates.filterMap fun c =>
    (k.settings.weigh k.list k.low (measuredAgainst k.settings serving x) x c).saturated.map fun raw => (c.target, raw)

/-- The entries after stages 3 and 4 of an evaluation (R119, R120). -/
def weighedEntries (k : EvalContext) (serving : Option Nat) (candidates : List Candidate) (x : Sample) : List Weighed :=
  (candidates.map (k.settings.weigh k.list k.low (measuredAgainst k.settings serving x) x)).filterMap Weighed.missed

/-- The list after stage 5 (R121): each valid reading offered in the order the sample holds them. -/
def offeredEntries (l : List Weighed) (readings : List NeighbourReading) : List Weighed :=
  readings.foldl (fun l n => match n.reading with
    | .valid level => insertRule Weighed.entry Weighed.untouched n.target n.position (4 * level) l
    | _ => l) l

/-! ### What a completed handover leaves of the candidates -/

/-- The position of a target in a neighbour list. -/
def placeOf (list : List Neighbour) (t : Target) : Option (Fin 8) :=
  (List.finRange 8).find? fun k => (list[k.val]?).map Neighbour.target == some t

/-- The entries that remain at a completed handover to `base` (R143, steps 2, 4 and 6): those whose target the new serving
base's list holds, at their positions there. -/
def remainingEntries (list : List Neighbour) (base : BaseIx) (l : List Candidate) : List Candidate :=
  (l.filter fun e => e.target != .localBase base).filterMap fun e => (placeOf list e.target).map fun k =>
    { e with position := k, dwell := 0, misses := 0, lastCompare := .unordered, lastScore := none }

/-- What an entry offered to a candidate list makes of it (R121). -/
def offeredEntry (l : List Candidate) (new : Candidate) (result : List Candidate) : Prop :=
  ((∃ e ∈ l, e.target = new.target) → result = l) ∧
    ((∀ e ∈ l, e.target ≠ new.target) → l.length < 6 → result = l ++ [new]) ∧
    ∀ before e after, l = before ++ e :: after → (∀ v ∈ l, v.target ≠ new.target) → 6 ≤ l.length →
      (∀ v ∈ before, e.average ≤ v.average) → (∀ v ∈ after, e.average < v.average) →
      result = if e.average < new.average then before ++ after ++ [new] else l

/-! ### What a clearing sends to a base -/

/-- The channels of a base that a clearing of a context releases (R83), ascending. -/
def State.givenUpAt (s : State) (b : BaseIx) (c : CallIx) : List ChanIx :=
  (List.finRange 8).filter fun ch => (s.chan ⟨b, ch⟩).heldBy (s.ownerOf c)

/-! ### Registration trains -/

/-- The data fragment that carries seven bits under a parity sense (R37). -/
def fragmentOf (sense : Parity) (d : BitVec 7) : Byte :=
  let even : Byte := (0 : BitVec 1) ++ d
  if sense.passes even then even else (1 : BitVec 1) ++ d

/-- The kind field of an access request (R44). -/
def kindBits : AccessKind → BitVec 3
  | .attach => 1
  | .locate => 2
  | .renew => 3
  | .detach => 4
  | .originate => 5
  | .malformed => 0

/-- The data bits of the fragments of an access request (R44): kind, tag, and the credential of an ATTACH. -/
def trainData (kind : AccessKind) (tag : Tag) (credential : Credential) : List (BitVec 7) :=
  [kindBits kind ++ (0 : BitVec 4), tag.extractLsb' 21 7, tag.extractLsb' 14 7, tag.extractLsb' 7 7,
    tag.extractLsb' 0 7] ++
    if kind = .attach then
      [credential.extractLsb' 14 7, credential.extractLsb' 7 7, credential.extractLsb' 0 7]
    else []

/-! ### The laws of the device -/

/-- No base's order window holds more than 4 orders (R28). -/
def State.windowsBounded (s : State) : Prop :=
  ∀ b : BaseIx, (s.base b).window.length ≤ 4

/-- No call context is other than FREE while the run state is HALTED or STANDBY (R5). -/
def State.callsOnlyInService (s : State) : Prop :=
  s.runState = .halted ∨ s.runState = .standby → ∀ c : CallIx, (s.ctx c).call = none

/-- A handset tag appears in at most one handset record (R51). -/
def State.tagsUnique (s : State) : Prop :=
  ∀ (i j : SlotIx) (h k : Handset), s.handset i = some h → s.handset j = some k → h.tag = k.tag → i = j

/-- A failure count never exceeds 3, and a record whose count is 3 is barred (R59). -/
def State.failuresBounded (s : State) : Prop :=
  ∀ (i : SlotIx) (h : Handset), s.handset i = some h → h.failures ≤ 3 ∧ (h.failures = 3 → h.barred = true)

/-- A record is ENGAGED exactly when one context other than FREE names its slot, and no two name the same slot (R67). -/
def State.engagedBound (s : State) : Prop :=
  (∀ (i : SlotIx) (h : Handset) (b : BaseIx) (c : CallIx) (d : Bool), s.handset i = some h →
      h.status = .engaged b c d → ∃ k, (s.ctx c).call = some k ∧ k.slot = i) ∧
    ∀ (c : CallIx) (k : CallInfo), (s.ctx c).call = some k →
      ∃ h b d, s.handset k.slot = some h ∧ h.status = .engaged b c d

/-- A ring holds at most 16 samples in the order they were accepted: their numbers run up to the next sample number
(R102). -/
def State.ringsOrdered (s : State) : Prop :=
  ∀ c : CallIx, (s.ctx c).ring.length ≤ 16 ∧
    ∀ (k : Nat) (x : Sample), (s.ctx c).ring[k]? = some x →
      x.number = (s.ctx c).nextSample - BitVec.ofNat 32 ((s.ctx c).ring.length - k)

/-- A candidate list holds at most 6 entries and never two with the same target (R108). -/
def State.candidatesDistinct (s : State) : Prop :=
  ∀ c : CallIx, (s.ctx c).candidates.length ≤ 6 ∧ ((s.ctx c).candidates.map Candidate.target).Nodup

/-- Every smoothed average lies within 0..400 (R109). -/
def State.averagesBounded (s : State) : Prop :=
  ∀ c : CallIx, (∀ a ∈ (s.ctx c).serving, a ≤ 400) ∧ (∀ a ∈ (s.ctx c).uplink, a ≤ 400) ∧
    ∀ e ∈ (s.ctx c).candidates, e.average ≤ 400

/-- A score within −256..255. -/
def scoreInRange (n : Int) : Prop := -256 ≤ n ∧ n ≤ 255

/-- Every stored score lies within −256..255 (R114). -/
def State.scoresBounded (s : State) : Prop :=
  ∀ c : CallIx, (∀ e ∈ (s.ctx c).candidates, ∀ n ∈ e.lastScore, scoreInRange n) ∧
    ∀ x ∈ (s.ctx c).ring, ∀ p ∈ x.best, scoreInRange p.2

/-- A notice class holds at most 8 notices, and the LINK class is never masked (R161, R165). -/
def State.classesBounded (s : State) : Prop :=
  (∀ k : Fin 8, (s.classes.get k).fifo.length ≤ 8) ∧ (s.classes.get 0).masked = false

/-- The request buffer and the refusal queue hold at most 4 each, and the error count at most 65,535 (R179, R180). -/
def State.linkBounded (s : State) : Prop :=
  s.link.buffer.length ≤ 4 ∧ s.link.refusals.length ≤ 4 ∧ s.link.errors ≤ 65535

/-- Every counter within its range (R33, R91, R130). -/
def State.countersBounded (s : State) : Prop :=
  (∀ b : BaseIx, (s.base b).noEcho ≤ 3 ∧ (s.base b).lateEchoes ≤ 65535 ∧ (s.base b).spoiled ≤ 65535 ∧
      (s.base b).droppedAnswers ≤ 65535 ∧ (s.base b).packed ≤ 65535) ∧
    ∀ c : CallIx, (s.ctx c).packed ≤ 255 ∧ (s.ctx c).unlisted ≤ 255 ∧ (s.ctx c).strays ≤ 255 ∧
      (s.ctx c).attempts ≤ 255

/-- A number within a range. -/
def within (lo hi n : Nat) : Prop := lo ≤ n ∧ n ≤ hi

/-- Every setting within its range (R13 to R15). -/
def State.settingsInRange (s : State) : Prop :=
  (∀ b : BaseIx, within 1 8 (s.cfg b).channels ∧ (s.cfg b).neighbours.length ≤ 8 ∧
      ∀ n ∈ (s.cfg b).neighbours, -8 ≤ n.offset ∧ n.offset ≤ 7) ∧
    (within 1 15 s.settings.timers.echo ∧ within 20 500 s.settings.timers.setup ∧
      within 5 100 s.settings.timers.switch ∧ within 10 300 s.settings.timers.zone ∧
      s.settings.timers.guard ≤ 1000 ∧ s.settings.timers.penalty ≤ 3000 ∧ within 1 20 s.settings.timers.gap ∧
      within 20 200 s.settings.timers.heartbeat ∧ within 50 1000 s.settings.timers.settleCold ∧
      within 10 500 s.settings.timers.settleWarm ∧ within 50 500 s.settings.timers.hold ∧
      within 1 9 s.settings.timers.spacing ∧ within 1 255 s.settings.timers.lifetime) ∧
    s.settings.evaluator.smoothing ≤ 4 ∧ s.settings.evaluator.hysteresis ≤ 15 ∧
      within 1 15 s.settings.evaluator.dwell ∧ s.settings.evaluator.rescueFloor ≤ 100 ∧
      s.settings.evaluator.loadPenalty ≤ 15 ∧ within 10 60 s.settings.evaluator.divergence ∧
      s.settings.evaluator.diversity ≤ 15 ∧ s.settings.evaluator.highClass ≤ 15

/-- The base link off (R1, R6): every base UNUSED or DOWN with nothing in its window, nothing owed and no deadline, and no
train being collected. -/
def State.linkOff (s : State) : Prop :=
  ∀ b : BaseIx, ((s.base b).state = .unused ∨ (s.base b).state = .down) ∧ (s.base b).window = [] ∧
    (s.base b).owedReleases = Table.fill 8 false ∧ (s.base b).owedAdmission = false ∧ (s.base b).settle = none ∧
    (s.base b).heartbeat = none ∧ s.trains.get b = none

/-- In HALTED the base link is off (R1). -/
def State.haltedIsOff (s : State) : Prop :=
  s.runState = .halted → s.linkOff

/-- Every channel that is RESERVED or BUSY belongs to a base in state IN_SERVICE (R70). -/
def State.channelsInService (s : State) : Prop :=
  ∀ (p : ChanRef) (o : Owner), (s.chan p).heldBy o = true → (s.base p.base).state = .inService

/-- The stray count of a switch holds at 255 (R130). -/
def State.switchStraysBounded (s : State) : Prop :=
  ∀ c : CallIx, (s.ctx c).phase.strays ≤ 255

/-- A channel that a context owns names the context's current use, and the context is not FREE (R70, R74). -/
def State.ownersCurrent (s : State) : Prop :=
  ∀ (p : ChanRef) (o : Owner), (s.chan p).ownedBy o = true → (s.ctx o.call).use = o.use ∧ (s.ctx o.call).call ≠ none

/-- A context owns channels on at most two bases at once (R70). -/
def State.twoBasesAtMost (s : State) : Prop :=
  ∀ (c : CallIx) (p q r : ChanRef), (s.chan p).ownedBy (s.ownerOf c) = true → (s.chan q).ownedBy (s.ownerOf c) = true →
    (s.chan r).ownedBy (s.ownerOf c) = true → p.base = q.base ∨ p.base = r.base ∨ q.base = r.base

/-- Outside HALTED the stored structural settings pass the configuration check (R2, R3, R11). -/
def State.configChecked (s : State) : Prop :=
  s.runState ≠ .halted → configCheck s.settings = none

/-- A base is UNUSED exactly when it is not enabled, and an UNUSED base has nothing in its window (R13, R19). -/
def State.unusedAreDisabled (s : State) : Prop :=
  ∀ b : BaseIx, ((s.base b).state = .unused ↔ (s.cfg b).enabled = false) ∧
    ((s.base b).state = .unused → (s.base b).window = [])

/-- A candidate list never holds the serving base (R108). -/
def State.servingNoCandidate (s : State) : Prop :=
  ∀ (c : CallIx) (i : CallInfo), (s.ctx c).call = some i → ∀ e ∈ (s.ctx c).candidates, e.target ≠ .localBase i.serving.base

/-- A run is safe while the block's state keeps every law of the device. -/
def State.lawful (s : State) : Prop :=
  s.windowsBounded ∧ s.callsOnlyInService ∧ s.tagsUnique ∧ s.failuresBounded ∧ s.engagedBound ∧ s.ringsOrdered ∧
    s.candidatesDistinct ∧ s.averagesBounded ∧ s.scoresBounded ∧ s.classesBounded ∧ s.linkBounded ∧
    s.countersBounded ∧ s.settingsInRange ∧ s.haltedIsOff ∧ s.channelsInService ∧ s.switchStraysBounded ∧
    s.ownersCurrent ∧ s.twoBasesAtMost ∧ s.configChecked ∧ s.unusedAreDisabled ∧ s.servingNoCandidate

end Sys2Proof.Machine
end

