-- ==== Sys2Proof/Certificates/Slice0/Obligations.lean ====
section
/-! DEFINITION. The statements for the provers: what each command does, what it leaves, and the laws every step keeps. -/

section

open Sys2Proof Sys2Proof.Machine

/-- A step takes the command at the front of the queue and runs it with the queue's rest; with none waiting it idles.
The idling is the model's choice (log entry 4). -/
def Obligations.StepRunsOldestCommand : Prop :=
  (∀ (c : Instr) (s : State), step { s with pending := c :: s.pending } = exec c s) ∧
    ∀ s : State, s.pending = [] → step s = .next s

/-- No command changes the queue of the commands that wait behind it. The tick counter (R9): TICK adds one, modulo 2^32;
cold reset gives 0; nothing else touches it, warm reset included. That no tick is counted while the RESET pin is held
low is the model's reading (log entry 17). -/
def Obligations.CommandsLeaveQueueAndTick : Prop :=
  (∀ (c : Instr) (s t : State), exec c s = .next t → t.pending = s.pending) ∧
  (∀ (c : Instr) (s t : State), exec c s = .next t →
     t.tick = match c with
       | .tick => if s.resetHeld then s.tick else s.tick + 1
       | .coldReset => 0
       | .resetRelease _ => if s.resetHeld then 0 else s.tick
       | _ => s.tick)

/-- The part's structure may change in HALTED alone (R11 item 1, R1): outside HALTED no command but cold reset changes
the structural settings, not even a frame or a byte that brings a request. -/
def Obligations.StructureFixedOutsideHalted : Prop :=
  ∀ (c : Instr) (s t : State), exec c s = .next t → s.runState ≠ .halted → s.resetHeld = false → c ≠ .coldReset →
    t.settings.zone = s.settings.zone ∧ t.settings.parity = s.settings.parity ∧ t.settings.bases = s.settings.bases

/-- The state right after cold reset (R8, R35, R48, R69, R89, R106, R129, R148, R170, R171, R179, R180): HALTED, tick 0,
the defaults of R12 to R15, every table empty, and READY (COLD) alone in the STATE class, which asserts ATTN. Cold reset
by the pin (R8, R182): while it is low nothing is received, ATTN is deasserted, no port is driven and the mark line is
not pulled; the release reads the straps and leaves the state of `State.reset`. -/
def Obligations.ColdResetLeavesResetState : Prop :=
  (State.reset.runState = .halted ∧ State.reset.tick = 0 ∧
     (State.reset.settings.zone = 0 ∧ State.reset.settings.parity = .odd ∧
       (List.ofFn State.reset.settings.timers.value = [3, 200, 30, 60, 100, 500, 5, 50, 200, 50, 200, 4, 30]) ∧
       List.ofFn State.reset.settings.evaluator.value = [2, 4, 3, 15, 6, 30, 6, 12, 1, 1, 0]) ∧
     (∀ b : BaseIx, State.reset.cfg b = { enabled := false, channels := 6, neighbours := [] } ∧
       State.reset.base b = BaseRecord.cold ∧ State.reset.trains.get b = none) ∧
     (∀ i : SlotIx, State.reset.handset i = none) ∧ (∀ p : ChanRef, State.reset.chan p = .free) ∧
     (∀ c : CallIx, State.reset.ctx c = Context.cold) ∧ (∀ k : CapIx, State.reset.slots.get k = .empty) ∧
     (∀ k : Fin 8, State.reset.classes.get k =
       if k = 7 then { fifo := [{ tick := 0, body := .ready false }], lost := false, masked := false }
       else { fifo := [], lost := false, masked := false }) ∧
     State.reset.attn = true ∧ State.reset.markDrive = none ∧ State.reset.portFree ∧ State.reset.link.errors = 0 ∧
     State.reset.htx = none) ∧
  ((∀ s : State, ∃ t, exec .coldReset s = .next t ∧ t.resetHeld = true ∧ t.runState = .halted ∧ t.attn = false ∧
       (∀ p, t.driven p = false) ∧ t.markDrive = none ∧ t.htx = none) ∧
     (∀ (s : State) (x : Byte) (stop : Bool), s.resetHeld = true → exec (.hrxByte x stop) s = .next s.fresh) ∧
     ∀ (s : State) (straps : Fin 8), s.resetHeld = true →
       exec (.resetRelease straps) s = .next { State.reset with
         pending := s.pending, carriers := s.carriers, straps := straps, freeCount := s.freeCount })

/-- The warm reset (R7, R35, R48, R69, R89, R106, R129, R148, R170, R171, R179, R182), taken when the RESET reply, then
on HTX, has left it: by REPLY_SENT or as WARM_RESET (log entry 18). -/
def Obligations.WarmResetKeepsSettingsAndHandsets : Prop :=
  ∀ s : State, s.link.resetting = true → s.link.sending = .reply →
    ∃ t, exec .replySent s = .next t ∧ exec .warmReset s = .next t ∧
      t.runState = .halted ∧ t.settings = s.settings ∧ t.tick = s.tick ∧ t.carriers = s.carriers ∧
      (∀ b, t.base b = { BaseRecord.cold with
        state := if (s.cfg b).enabled then .down else .unused
        lateEchoes := (s.base b).lateEchoes, spoiled := (s.base b).spoiled
        droppedAnswers := (s.base b).droppedAnswers, packed := (s.base b).packed }) ∧
      (∀ b, t.trains.get b = none) ∧
      (∀ i, t.handset i = (s.handset i).map fun h => { h with status := .enrolled none }) ∧
      (∀ p, t.chan p = .free) ∧ (∀ c, (t.ctx c).call = none ∧ (t.ctx c).ring = [] ∧ (t.ctx c).candidates = [] ∧
        (t.ctx c).phase = .none ∧ (t.ctx c).guard = none ∧ (t.ctx c).divergeSticky = false ∧
        (t.ctx c).saturateSticky = false ∧ (t.ctx c).use = (s.ctx c).use ∧ (t.ctx c).orderNo = (s.ctx c).orderNo) ∧
      t.divergeSticky = false ∧ t.saturateSticky = false ∧
      (∀ k : Fin 8, t.classes.get k = { fifo := if k = 7 then [{ tick := s.tick, body := .ready true }] else []
                                        lost := false, masked := false }) ∧
      (∀ k, t.slots.get k = .empty) ∧ t.markDrive = none ∧ t.link = { Link.cold with errors := s.link.errors }

/-- At each tick outside HALTED the count of every loaded deadline decreases by one (R10); in HALTED none does, and the
tick counter, the inter-byte gap and the mark drive count in every run state (R9, R177, R179). -/
def Obligations.TickCountsEveryDeadline : Prop :=
  ∀ s : State, s.resetHeld = false →
    (s.runState = .halted → exec .tick s = .next { s.fresh with
      tick := s.tick + 1, markDrive := s.markDrive.map (· - 1), link := { s.link with gap := s.link.gap.map (· - 1) } }) ∧
    (s.runState ≠ .halted → ∃ t, exec .tick s = .next t ∧
      (∀ b, t.base b = { s.base b with
        settle := (s.base b).settle.map (· - 1), heartbeat := (s.base b).heartbeat.map (· - 1)
        window := (s.base b).window.map fun e => { e with deadline := e.deadline - 1 } }) ∧
      (∀ b, t.trains.get b = (s.trains.get b).map fun x => { x with gap := x.gap - 1 }) ∧
      (∀ i, t.handset i = (s.handset i).map fun h => match h.status with
        | .attached b lifetime origination =>
          { h with status := .attached b (lifetime - 1) (origination.map (· - 1)) }
        | _ => h) ∧
      (∀ c, t.ctx c = { s.ctx c with
        call := (s.ctx c).call.map fun i => match i.stage with
          | .setup d => { i with stage := .setup (d.map (· - 1)) }
          | _ => i
        phase := match (s.ctx c).phase with
          | .switching p r o n d => .switching p r o n (d - 1)
          | .handingOut z b r d => .handingOut z b r (d - 1)
          | .switchingOut z b ch r o n d => .switchingOut z b ch r o n (d - 1)
          | x => x
        guard := (s.ctx c).guard.map (· - 1)
        candidates := (s.ctx c).candidates.map fun e => { e with penalty := e.penalty.map (· - 1) } }) ∧
      t = { s.fresh with
        tick := s.tick + 1, markDrive := s.markDrive.map (· - 1), link := { s.link with gap := s.link.gap.map (· - 1) }
        bases := t.bases, trains := t.trains, handsets := t.handsets, contexts := t.contexts })

/-- GO (R2) in each run state, on an idle host link. The configuration check (R3) passes exactly when every item holds,
and NO_BASE comes first. That an enumerated value takes one byte is the model's choice (log entry 34). -/
def Obligations.GoChecksAndStepsTowardsServing : Prop :=
  (∀ (tag : Byte) (s : State), s.portFree →
     (s.runState = .halted → configCheck s.settings = none →
       exec (.go tag) s = .next ((s.fresh.enter .standby .go).answered 0x01 tag (okay [1]))) ∧
     (∀ item base position, s.runState = .halted → configCheck s.settings = some (item, base, position) →
       exec (.go tag) s = .next (s.fresh.answered 0x01 tag
         { status := .checkFailed, results := [BitVec.ofNat 8 item.code,
             (base.map fun b : BaseIx => BitVec.ofNat 8 b.val).getD 0xFF, (position.map (BitVec.ofNat 8)).getD 0xFF] })) ∧
     (s.runState = .standby ∨ s.runState = .draining →
       exec (.go tag) s = .next ((s.fresh.enter .serving .go).answered 0x01 tag (okay [2]))) ∧
     (s.runState = .serving → exec (.go tag) s = .next (s.fresh.answered 0x01 tag (okay [2])))) ∧
  ((∀ st : Settings, configCheck st = none ↔
     (∃ b, (st.bases.get b).enabled = true) ∧ ∀ b, (st.bases.get b).enabled = true →
       (∀ n ∈ (st.bases.get b).neighbours, match n.target with
         | .localBase t => t ≠ b ∧ (st.bases.get t).enabled = true
         | .foreignBase z _ => z ≠ st.zone) ∧
       ((st.bases.get b).neighbours.map Neighbour.target).Nodup) ∧
     ∀ st : Settings, configCheck st = some (.noBase, none, none) ↔ ∀ b, (st.bases.get b).enabled = false)

/-- STOP (R4) where no context is cleared, on an idle host link. That an enumerated value takes one byte is the model's
choice (log entry 34). -/
def Obligations.StopEndsServing : Prop :=
  ∀ (tag : Byte) (s : State), s.portFree →
    (s.runState = .serving → (∀ c, (s.ctx c).call = none) →
      exec (.stop tag 0) s = .next ((s.fresh.enter .standby .stop).answered 0x02 tag (okay [1])) ∧
      exec (.stop tag 1) s = .next ((s.fresh.enter .standby .stopForce).answered 0x02 tag (okay [1]))) ∧
    (∀ c, s.runState = .serving → (s.ctx c).call ≠ none →
      exec (.stop tag 0) s = .next ((s.fresh.enter .draining .stop).answered 0x02 tag (okay [3]))) ∧
    (s.runState = .draining → exec (.stop tag 0) s = .next (s.fresh.answered 0x02 tag (okay [3]))) ∧
    (∀ force, s.runState = .standby →
      exec (.stop tag (yesNo force)) s = .next (s.fresh.answered 0x02 tag (okay [1]))) ∧
    (∀ force, s.runState = .halted →
      exec (.stop tag (yesNo force)) s = .next (s.fresh.answered 0x02 tag (okay [0]))) ∧
    ∀ option : Byte, 1 < option.toNat → exec (.stop tag option) s = .next (s.fresh.answered 0x02 tag (refuse .badArg))

/-- STOP FORCE (R4, R5, R83) with a context in use. That an enumerated value takes one byte is the model's choice (log
entry 34). -/
def Obligations.StopForceClearsEveryCall : Prop :=
  ∀ (tag : Byte) (s : State) (inUse : CallIx), s.portFree → s.runState = .serving ∨ s.runState = .draining →
    (s.ctx inUse).call ≠ none →
    ∃ t, exec (.stop tag 1) s = .next t ∧
      (∀ c, match (s.ctx c).call with
        | none => (t.ctx c).call = none
        | some i => (t.ctx c).call = none ∨ ∃ j, (t.ctx c).call = some j ∧ j.slot = i.slot ∧ j.tag = i.tag ∧
          j.stage = (match i.stage with
            | .clearing cause => .clearing cause
            | _ => .clearing .forced)) ∧
      (t.runState = if t.allFree then .standby else .draining) ∧
      t.link = ((s.answered 0x02 tag (okay [BitVec.ofNat 8 t.runState.code])).link) ∧
      t.settings = s.settings ∧ t.tick = s.tick ∧ t.trains = s.trains

/-- HALT (R6, R35). That every context is FREE in STANDBY is a law of the device (`CallsOnlyInServiceKept`). That an
enumerated value takes one byte is the model's choice (log entry 34). -/
def Obligations.HaltTakesBasesDown : Prop :=
  ∀ (tag : Byte) (s : State), s.portFree →
    (s.runState = .standby → (∀ c, (s.ctx c).call = none) →
      ∃ t, exec (.halt tag) s = .next t ∧
        (∀ b, t.base b = { s.base b with
          state := if (s.base b).state = .unused then .unused else .down
          window := [], owedReleases := Table.fill 8 false, owedAdmission := false, settle := none, heartbeat := none
          degraded := false }) ∧
        (∀ b, t.trains.get b = none) ∧
        (∀ p : ChanRef, t.chan p =
          if (s.base p.base).state = .inService ∨ (s.base p.base).state = .probing then .free else s.chan p) ∧
        t = { (s.fresh.enter .halted .halt).answered 0x03 tag (okay [0]) with
          bases := t.bases, trains := t.trains, channels := t.channels }) ∧
    (s.runState = .halted → exec (.halt tag) s = .next (s.fresh.answered 0x03 tag (okay [0]))) ∧
    (s.runState = .serving ∨ s.runState = .draining →
      exec (.halt tag) s = .next (s.fresh.answered 0x03 tag (refuse .wrongState)))

/-- SET PART (R11, R12) in HALTED. SET BASE (R11, R13, R35) in HALTED. SET NEIGHBOURS (R11, R13) in HALTED; the reply's
layout beyond its list is the model's (log entry 10). That an enumerated value takes one byte is the model's choice (log
entry 34). -/
def Obligations.StructuralSettingsStored : Prop :=
  (∀ (tag : Byte) (s : State) (z : ZoneIx) (even : Bool), s.portFree → s.runState = .halted →
     exec (.setPart tag (BitVec.ofNat 8 z.val) (yesNo even)) s = .next
       ({ s.fresh with settings := { s.settings with zone := z, parity := if even then .even else .odd } }.answered 0x10 tag
         (okay [BitVec.ofNat 8 z.val, yesNo even]))) ∧
  (∀ (tag : Byte) (s : State) (b : BaseIx) (on : Bool) (channels : Byte), s.portFree → s.runState = .halted →
     exec (.setBase tag (BitVec.ofNat 8 b.val) (yesNo on) channels) s = .next
       (({ s.fresh.setBase b
           (if on = (s.cfg b).enabled then s.base b
           else if on then { s.base b with
             state := .down, seen := false, lastHealth := none, lastBeat := none, nextSerial := 0, noEcho := 0 }
           else { s.base b with state := .unused, held := false }) with
         settings := { s.settings with bases := s.settings.bases.set b { s.cfg b with
           enabled := on, channels := clampTo (1, 8) channels.toNat } } }).answered 0x11 tag
         { status := if clampTo (1, 8) channels.toNat = channels.toNat then .ok else .okClamped
           results := [yesNo on, BitVec.ofNat 8 (clampTo (1, 8) channels.toNat)] })) ∧
  (∀ (tag : Byte) (s : State) (b : BaseIx) (entries : List (Target × Byte)), s.portFree → s.runState = .halted →
     entries.length ≤ 8 →
     exec (.setNeighbours tag (BitVec.ofNat 8 b.val) (entries.map fun e => (targetByte e.1, e.2))) s = .next
       ({ s.fresh with settings := { s.settings with bases := s.settings.bases.set b { s.cfg b with
           neighbours := entries.map fun (e : Target × Byte) => { target := e.1, offset := max (-8) (min 7 e.2.toInt) } } } }.answered 0x12 tag
         { status := if entries.all (fun e => max (-8) (min 7 e.2.toInt) == e.2.toInt) then .ok else .okClamped
           results := BitVec.ofNat 8 entries.length ::
             entries.flatMap fun (e : Target × Byte) => [targetByte e.1, BitVec.ofInt 8 (max (-8) (min 7 e.2.toInt))] }))

/-- A structural request in any run state other than HALTED is refused WRONG_STATE and stores nothing (R11 item 1); in
HALTED an index, a target, a list or a two-valued byte out of range is refused BAD_ARG (R11 item 2). OPEN CALL and ADMIT
CALL are refused outside SERVING (R5), and in SERVING by the items of R76 and R156, each where no earlier one applies.
Indices out of range are refused BAD_ARG and change nothing (R25, R26, R34, R82, R88, R151, R152, R155, R169, R175). -/
def Obligations.RequestsRefusedWithoutEffect : Prop :=
  (∀ (tag : Byte) (s : State), s.portFree → s.runState ≠ .halted →
     (∀ z p, exec (.setPart tag z p) s = .next (s.fresh.answered 0x10 tag (refuse .wrongState))) ∧
     (∀ b e c, exec (.setBase tag b e c) s = .next (s.fresh.answered 0x11 tag (refuse .wrongState))) ∧
     ∀ b es, exec (.setNeighbours tag b es) s = .next (s.fresh.answered 0x12 tag (refuse .wrongState))) ∧
  (∀ (tag x y z : Byte) (s : State), s.portFree → s.runState = .halted →
     (3 < x.toNat ∨ 1 < y.toNat → exec (.setPart tag x y) s = .next (s.fresh.answered 0x10 tag (refuse .badArg))) ∧
     (31 < x.toNat ∨ 1 < y.toNat → exec (.setBase tag x y z) s = .next (s.fresh.answered 0x11 tag (refuse .badArg))) ∧
     ∀ es : List (Byte × Byte), 31 < x.toNat ∨ 8 < es.length ∨ (∃ e ∈ es, 0xA0 ≤ e.1.toNat) →
       exec (.setNeighbours tag x es) s = .next (s.fresh.answered 0x12 tag (refuse .badArg))) ∧
  (∀ (tag : Byte) (s : State), s.portFree → s.runState ≠ .serving →
     (∀ t d, exec (.openCall tag t d) s = .next (s.fresh.answered 0x40 tag (refuse .wrongState))) ∧
     ∀ t b z, exec (.admitCall tag t b z) s = .next (s.fresh.answered 0x50 tag (refuse .wrongState))) ∧
  (∀ (tag : Byte) (s : State) (t : BitVec 32) (d : Byte), s.portFree → s.runState = .serving →
     let refused := fun st : Status => exec (.openCall tag t d) s = .next (s.fresh.answered 0x40 tag (refuse st))
     (t.toNat = 0 ∨ 268435455 ≤ t.toNat ∨ 1 < d.toNat → refused .badArg) ∧
     (0 < t.toNat → t.toNat < 268435455 → d.toNat ≤ 1 →
       ((∀ i h, s.handset i = some h → h.tag.toNat ≠ t.toNat) → refused .noSuch) ∧
       ∀ i h, s.names 0 t i h →
         (h.barred = true → refused .barred) ∧
         (h.barred = false → h.status.state = .engaged → refused .inCall) ∧
         (h.barred = false → h.status.state = .enrolled → refused .notAttached) ∧
         ∀ b lifetime origination, h.barred = false → h.status = .attached b lifetime origination →
           (d = 1 → origination = none → refused .noSuch) ∧
           (d = 0 ∨ origination ≠ none →
             ((∀ c, (s.ctx c).call ≠ none) → refused .noRoom) ∧
             ((∃ c, (s.ctx c).call = none) →
               ((s.base b).state ≠ .inService ∨ (s.base b).held = true ∨ (s.base b).degraded = true →
                 refused .baseUnavailable) ∧
               ((s.base b).state = .inService → (s.base b).held = false → (s.base b).degraded = false →
                 (s.freeChannels b = [] ∨
                     ((s.freeChannels b).length = 1 ∧ h.cls.val < s.settings.evaluator.highClass) → refused .noChannel) ∧
                 (s.freeChannels b ≠ [] → ((s.freeChannels b).length = 1 → s.settings.evaluator.highClass ≤ h.cls.val) →
                   4 ≤ (s.base b).window.length → refused .orderWindowFull)))))) ∧
  (∀ (tag : Byte) (s : State) (t : BitVec 32) (x z : Byte), s.portFree → s.runState = .serving →
     let refused := fun st : Status => exec (.admitCall tag t x z) s = .next (s.fresh.answered 0x50 tag (refuse st))
     (t.toNat = 0 ∨ 268435455 ≤ t.toNat ∨ 31 < x.toNat ∨ 3 < z.toNat ∨ z.toNat = s.settings.zone.val → refused .badArg) ∧
     ∀ b : BaseIx, 0 < t.toNat → t.toNat < 268435455 → x.toNat = b.val → z.toNat ≤ 3 → z.toNat ≠ s.settings.zone.val →
       ((∀ i h, s.handset i = some h → h.tag.toNat ≠ t.toNat) → refused .noSuch) ∧
       ∀ i h, s.names 0 t i h →
         (h.barred = true → refused .barred) ∧
         (h.barred = false → h.status.state = .engaged → refused .inCall) ∧
         (h.barred = false → h.status.state ≠ .engaged →
           ((∀ c, (s.ctx c).call ≠ none) → refused .noRoom) ∧
           ((∃ c, (s.ctx c).call = none) →
             ((s.base b).state ≠ .inService ∨ (s.base b).held = true ∨ (s.base b).degraded = true →
               refused .baseUnavailable) ∧
             ((s.base b).state = .inService → (s.base b).held = false → (s.base b).degraded = false →
               (s.freeChannels b = [] → refused .noChannel) ∧
               (s.freeChannels b ≠ [] → 4 ≤ (s.base b).window.length → refused .orderWindowFull))))) ∧
  (∀ (tag x y : Byte) (s : State), s.portFree →
     (31 < x.toNat →
       exec (.holdAdmission tag x) s = .next (s.fresh.answered 0x30 tag (refuse .badArg)) ∧
       exec (.openAdmission tag x) s = .next (s.fresh.answered 0x31 tag (refuse .badArg)) ∧
       exec (.restoreBase tag x) s = .next (s.fresh.answered 0x32 tag (refuse .badArg)) ∧
       exec (.queryBase tag x y) s = .next (s.fresh.answered 0x33 tag (refuse .badArg))) ∧
     (95 < x.toNat →
       exec (.closeCall tag x) s = .next (s.fresh.answered 0x41 tag (refuse .badArg)) ∧
       exec (.queryCall tag x) s = .next (s.fresh.answered 0x42 tag (refuse .badArg)) ∧
       exec (.zoneGo tag x y) s = .next (s.fresh.answered 0x51 tag (refuse .badArg)) ∧
       exec (.zoneFail tag x) s = .next (s.fresh.answered 0x52 tag (refuse .badArg)) ∧
       exec (.zoneComplete tag x) s = .next (s.fresh.answered 0x53 tag (refuse .badArg)) ∧
       (x ≠ 0xFF → exec (.clearConditions tag x y) s = .next (s.fresh.answered 0x63 tag (refuse .badArg)))) ∧
     (3 < x.toNat →
       exec (.cancelCapture tag x) s = .next (s.fresh.answered 0x71 tag (refuse .badArg)) ∧
       exec (.readCapture tag x y) s = .next (s.fresh.answered 0x72 tag (refuse .badArg))))

/-- SET TIMERS (R11, R14) and SET EVALUATOR (R11, R15), accepted and refused; each value of the reply in two bytes is
the model's layout (log entry 10). -/
def Obligations.NumberedSettingsStoredClamped : Prop :=
  (∀ (tag : Byte) (s : State) (pairs : List (Fin 13 × BitVec 16)), s.portFree → pairs ≠ [] →
    (pairs.map Prod.fst).Nodup →
    ∃ t : TimerSettings,
      (∀ k : Fin 13, t.value k = match pairs.find? (fun p => p.1 == k) with
        | some p => clampTo (timerLimits k) p.2.toNat
        | none => s.settings.timers.value k) ∧
      exec (.setTimers tag (pairs.map fun p => (BitVec.ofNat 8 p.1.val, p.2))) s = .next
        ({ s.fresh with settings := { s.settings with timers := t } }.answered 0x13 tag
          { status := if pairs.all (fun p => clampTo (timerLimits p.1) p.2.toNat == p.2.toNat) then .ok else .okClamped
            results := pairs.flatMap fun (p : Fin 13 × BitVec 16) => byte2 (clampTo (timerLimits p.1) p.2.toNat) })) ∧
  ∀ (tag : Byte) (s : State) (pairs : List (Fin 11 × BitVec 16)), s.portFree → pairs ≠ [] →
    (pairs.map Prod.fst).Nodup → (∀ p ∈ pairs, 8 ≤ p.1.val → p.2.toNat ≤ 1) →
    ∃ e : EvaluatorSettings,
      (∀ k : Fin 11, e.value k = match pairs.find? (fun p => p.1 == k) with
        | some p => clampTo (evaluatorLimits k) p.2.toNat
        | none => s.settings.evaluator.value k) ∧
      exec (.setEvaluator tag (pairs.map fun p => (BitVec.ofNat 8 p.1.val, p.2))) s = .next
        ({ s.fresh with settings := { s.settings with evaluator := e } }.answered 0x14 tag
          { status := if pairs.all (fun p => clampTo (evaluatorLimits p.1) p.2.toNat == p.2.toNat) then .ok
              else .okClamped
            results := pairs.flatMap fun (p : Fin 11 × BitVec 16) => byte2 (clampTo (evaluatorLimits p.1) p.2.toNat) }) ∧
  ∀ (tag : Byte) (s : State) (pairs : List (Byte × BitVec 16)), s.portFree →
    (pairs = [] ∨ (∃ p ∈ pairs, 12 < p.1.toNat) ∨ ¬(pairs.map Prod.fst).Nodup →
      exec (.setTimers tag pairs) s = .next (s.fresh.answered 0x13 tag (refuse .badArg))) ∧
    (pairs = [] ∨ (∃ p ∈ pairs, 10 < p.1.toNat) ∨ ¬(pairs.map Prod.fst).Nodup ∨
        (∃ p ∈ pairs, 8 ≤ p.1.toNat ∧ p.1.toNat ≤ 10 ∧ 1 < p.2.toNat) →
      exec (.setEvaluator tag pairs) s = .next (s.fresh.answered 0x14 tag (refuse .badArg)))

/-- IDENTIFY (R182) and READ SETTINGS (R16); the widths of the group's values are the model's reading of R183 (log entry
10). QUERY BASE (R33, R34), QUERY CALL (R88, R107, R130, R147), QUERY CONDITIONS (R168) and READ CAPTURE (R175), the
fields of a base and of a call spelled in the order of their rules; the layouts of the results are the model's where the
rules leave them open (log entry 10), and so are the mode byte of FROM (log entry 32) and the code of a completion
status (log entry 33). That the access class and an enumerated value take one byte each is the model's choice (log entry
34). -/
def Obligations.IdentifySettingsAndQueriesReport : Prop :=
  (∀ (tag : Byte) (s : State), s.portFree →
     exec (.identify tag) s = .next (s.fresh.answered 0x05 tag
       (okay ([0, 32, 1, BitVec.ofNat 8 s.runState.code] ++ byte2 s.link.errors))) ∧
     (∀ base, exec (.readSettings tag 0 base) s = .next (s.fresh.answered 0x15 tag
       (okay [BitVec.ofNat 8 s.settings.zone.val, BitVec.ofNat 8 s.settings.parity.code]))) ∧
     (∀ base, exec (.readSettings tag 1 base) s = .next (s.fresh.answered 0x15 tag (okay
       (let v := s.settings.timers;
         wide 1 v.echo ++ wide 2 v.setup ++ wide 1 v.switch ++ wide 2 v.zone ++ wide 2 v.guard ++ wide 2 v.penalty ++
           wide 1 v.gap ++ wide 1 v.heartbeat ++ wide 2 v.settleCold ++ wide 2 v.settleWarm ++ wide 2 v.hold ++
           wide 1 v.spacing ++ wide 1 v.lifetime)))) ∧
     (∀ base, exec (.readSettings tag 2 base) s = .next (s.fresh.answered 0x15 tag (okay
       (let v := s.settings.evaluator;
         wide 1 v.smoothing ++ wide 1 v.hysteresis ++ wide 1 v.dwell ++ wide 1 v.rescueFloor ++ wide 1 v.loadPenalty ++
           wide 1 v.divergence ++ wide 1 v.diversity ++ wide 1 v.highClass ++
           [yesNo v.divergeMasked, yesNo v.saturateMasked, yesNo v.markOnFailure])))) ∧
     (∀ b : BaseIx, exec (.readSettings tag 3 (BitVec.ofNat 8 b.val)) s = .next (s.fresh.answered 0x15 tag
       (okay ([yesNo (s.cfg b).enabled, BitVec.ofNat 8 (s.cfg b).channels, BitVec.ofNat 8 (s.cfg b).neighbours.length] ++
         (s.cfg b).neighbours.flatMap fun n => [targetByte n.target, BitVec.ofInt 8 n.offset])))) ∧
     ∀ group base : Byte, 3 < group.toNat →
       exec (.readSettings tag group base) s = .next (s.fresh.answered 0x15 tag (refuse .badArg))) ∧
  (∀ (tag : Byte) (s : State), s.portFree →
     (∀ b : BaseIx,
       exec (.queryBase tag (BitVec.ofNat 8 b.val) 0) s = .next (s.fresh.answered 0x33 tag (okay (s.baseFields b))) ∧
       exec (.queryBase tag (BitVec.ofNat 8 b.val) 1) s = .next ((s.fresh.setBase b { s.base b with
         lateEchoes := 0, spoiled := 0, droppedAnswers := 0, packed := 0 }).answered 0x33 tag (okay (s.baseFields b)))) ∧
     (∀ c : CallIx, (s.ctx c).call = none →
       exec (.queryCall tag (BitVec.ofNat 8 c.val)) s = .next (s.fresh.answered 0x42 tag (okay [0, (s.ctx c).use]))) ∧
     (∀ (c : CallIx) (i : CallInfo), (s.ctx c).call = some i →
       exec (.queryCall tag (BitVec.ofNat 8 c.val)) s = .next (s.fresh.answered 0x42 tag (okay (s.callFields c i)))) ∧
     (∃ diverged saturated : List CallIx,
       (∀ c, c ∈ diverged ↔ (s.ctx c).divergeSticky = true) ∧ (∀ c, c ∈ saturated ↔ (s.ctx c).saturateSticky = true) ∧
       diverged.Pairwise (· < ·) ∧ saturated.Pairwise (· < ·) ∧
       exec (.queryConditions tag) s = .next (s.fresh.answered 0x62 tag
         (okay ([yesNo s.divergeSticky, yesNo s.saturateSticky] ++
           (BitVec.ofNat 8 diverged.length :: diverged.map fun c => BitVec.ofNat 8 c.val) ++
           (BitVec.ofNat 8 saturated.length :: saturated.map fun c => BitVec.ofNat 8 c.val))))) ∧
     ∀ (k : CapIx) (first : Fin 16),
       exec (.readCapture tag (BitVec.ofNat 8 k.val) (BitVec.ofNat 8 first.val)) s = .next (s.fresh.answered 0x72 tag
         (match s.slots.get k with
           | .empty => refuse .none
           | .armedMark _ => refuse .notReady
           | .armedNext _ => refuse .notReady
           | .complete h status samples zone =>
             okay ([BitVec.ofNat 8 h.call.val] ++ byte4 h.tag.toNat ++
               [BitVec.ofNat 8 h.mode.code, BitVec.ofNat 8 h.count, BitVec.ofNat 8 status.code,
                 BitVec.ofNat 8 samples.length] ++
               ((samples.drop first.val).take 8).flatMap (Sample.bytes zone)))))

/-- A request handed on is taken by its owner as one event, and the reply carries the request's code and tag byte
(R181). -/
def Obligations.OwnerAnswersAtOnce : Prop :=
  ∀ (r : Request) (tag : Byte) (s : State), carried r → r ≠ .reset → s.portFree →
    exec (commandOf tag r) s =
        .next ((takeRequest r s.fresh).2.answered r.code tag (takeRequest r s.fresh).1) ∧
      (takeRequest r s.fresh).2.link = s.link

/-- ENROL (R51): the items of its judgement in their order. -/
def Obligations.EnrolFillsLowestVacantSlot : Prop :=
  (∀ (tag : Byte) (s : State) (t : Tag) (k : Credential) (cls : Fin 16), s.portFree → 0 < t.toNat →
     t.toNat < 268435455 →
     ((∃ i h, s.handset i = some h ∧ h.tag = t) →
       exec (.enrol tag (t.setWidth 32) (k.setWidth 32) (BitVec.ofNat 8 cls.val)) s =
         .next (s.fresh.answered 0x20 tag (refuse .duplicate))) ∧
     ((∀ i, ∃ h, s.handset i = some h ∧ h.tag ≠ t) →
       exec (.enrol tag (t.setWidth 32) (k.setWidth 32) (BitVec.ofNat 8 cls.val)) s =
         .next (s.fresh.answered 0x20 tag (refuse .noRoom))) ∧
     ∀ i : SlotIx, (∀ j h, s.handset j = some h → h.tag ≠ t) → s.handset i = none →
       (∀ j < i, s.handset j ≠ none) →
       exec (.enrol tag (t.setWidth 32) (k.setWidth 32) (BitVec.ofNat 8 cls.val)) s =
         .next ((s.fresh.setHandset i (some { tag := t, credential := k, cls := cls, barred := false, failures := 0
                                              lastAccess := none, status := .enrolled none })).answered 0x20 tag (okay (byte2 i.val)))) ∧
  ∀ (tag : Byte) (s : State) (t k : BitVec 32) (cls : Byte), s.portFree →
    (t.toNat = 0 ∨ 268435455 ≤ t.toNat ∨ 2097151 < k.toNat ∨ 15 < cls.toNat) →
    exec (.enrol tag t k cls) s = .next (s.fresh.answered 0x20 tag (refuse .badArg))

/-- REMOVE (R52) and BAR (R53), the handset named either way, and the handsets that no record answers to (R50), for
UNBAR (R54) and QUERY HANDSET (R55) too; a VACANT slot is no refusal of QUERY HANDSET (`QueryHandsetHidesCredential`).
That an enumerated value takes one byte is the model's choice (log entry 34). -/
def Obligations.RemoveAndBarByTagOrSlot : Prop :=
  (∀ (tag selector : Byte) (value : BitVec 32) (s : State) (i : SlotIx) (h : Handset), s.portFree →
     s.names selector value i h →
     (h.status.state ≠ .engaged →
       exec (.remove tag selector value) s = .next ((s.fresh.setHandset i none).answered 0x21 tag (okay []))) ∧
     (h.status.state = .engaged →
       exec (.remove tag selector value) s = .next (s.fresh.answered 0x21 tag (refuse .inCall)))) ∧
  (∀ (tag selector : Byte) (value : BitVec 32) (s : State) (i : SlotIx) (h : Handset), s.portFree →
     s.names selector value i h →
     (h.barred = true → exec (.bar tag selector value) s = .next
       (s.fresh.answered 0x22 tag (okay [BitVec.ofNat 8 h.status.state.code]))) ∧
     (h.barred = false → h.status.state ≠ .attached → exec (.bar tag selector value) s = .next
       ((s.fresh.setHandset i (some { h with barred := true })).answered 0x22 tag
         (okay [BitVec.ofNat 8 h.status.state.code]))) ∧
     ∀ b lifetime origination, h.barred = false → h.status = .attached b lifetime origination →
       exec (.bar tag selector value) s = .next
         (((s.fresh.setHandset i (some { h with barred := true, status := .enrolled none })).post
           (.withdrawn i h.tag b origination.isSome)).answered 0x22 tag (okay [1]))) ∧
  ∀ (tag selector : Byte) (value : BitVec 32) (s : State), s.portFree →
    let refused := fun st : Status =>
      exec (.remove tag selector value) s = .next (s.fresh.answered 0x21 tag (refuse st)) ∧
      exec (.bar tag selector value) s = .next (s.fresh.answered 0x22 tag (refuse st)) ∧
      exec (.unbar tag selector value) s = .next (s.fresh.answered 0x23 tag (refuse st))
    let unanswered := fun st : Status =>
      exec (.queryHandset tag selector value) s = .next (s.fresh.answered 0x24 tag (refuse st))
    (1 < selector.toNat ∨ (selector = 1 ∧ 511 < value.toNat) ∨
        (selector = 0 ∧ (value.toNat = 0 ∨ 268435455 ≤ value.toNat)) → refused .badArg ∧ unanswered .badArg) ∧
    (selector = 0 → 0 < value.toNat → value.toNat < 268435455 →
      (∀ i h, s.handset i = some h → h.tag.toNat ≠ value.toNat) → refused .noSuch ∧ unanswered .noSuch) ∧
    ∀ i : SlotIx, selector = 1 → value.toNat = i.val → s.handset i = none → refused .noSuch

/-- UNBAR (R54): the flag and the count alone, whatever the record's state; the next state is given whole, so that no
notice is posted and an ENGAGED record goes on in its call as an unbarred one. -/
def Obligations.UnbarClearsFlagAndCount : Prop :=
  ∀ (tag selector : Byte) (value : BitVec 32) (s : State) (i : SlotIx) (h : Handset), s.portFree →
    s.names selector value i h →
    exec (.unbar tag selector value) s = .next
      ((s.fresh.setHandset i (some { h with barred := false, failures := 0 })).answered 0x23 tag (okay []))

/-- QUERY HANDSET (R55): the reply is a function of the record without its credential; the order of its fields is R55's.
That the access class and an enumerated value take one byte each is the model's choice (log entry 34). -/
def Obligations.QueryHandsetHidesCredential : Prop :=
  (∀ (tag selector : Byte) (value : BitVec 32) (s : State) (i : SlotIx) (h : Handset) (k : Credential), s.portFree →
    s.names selector value i h →
    exec (.queryHandset tag selector value) s = .next (s.fresh.answered 0x24 tag (okay (h.bytes i))) ∧
    exec (.queryHandset tag selector value) (s.setHandset i (some { h with credential := k })) =
      .next ((s.fresh.setHandset i (some { h with credential := k })).answered 0x24 tag (okay (h.bytes i)))) ∧
  ∀ (tag : Byte) (s : State) (i : SlotIx), s.portFree → s.handset i = none →
    exec (.queryHandset tag 1 (BitVec.ofNat 32 i.val)) s = .next (s.fresh.answered 0x24 tag (okay [0]))

/-- HOLD ADMISSION and OPEN ADMISSION (R26, R28, R29). RESTORE BASE (R25). That an enumerated value takes one byte is
the model's choice (log entry 34). -/
def Obligations.AdmissionAndRestoreBase : Prop :=
  (∀ (tag : Byte) (s : State) (b : BaseIx) (hold : Bool), s.portFree →
     let command := if hold then Instr.holdAdmission tag (BitVec.ofNat 8 b.val) else .openAdmission tag (BitVec.ofNat 8 b.val)
     let code : Byte := if hold then 0x30 else 0x31
     ((s.cfg b).enabled = false → exec command s = .next (s.fresh.answered code tag (refuse .noSuch))) ∧
     ((s.cfg b).enabled = true →
       ((s.base b).held = hold → exec command s = .next (s.fresh.answered code tag (okay [yesNo hold]))) ∧
       ((s.base b).held = !hold → (s.base b).state ≠ .inService → exec command s = .next
         ((s.fresh.setBase b { s.base b with held := hold }).answered code tag (okay [yesNo hold]))) ∧
       ((s.base b).held = !hold → (s.base b).state = .inService → 4 ≤ (s.base b).window.length → exec command s = .next
         ((s.fresh.setBase b { s.base b with held := hold, owedAdmission := true }).answered code tag
           (okay [yesNo hold]))) ∧
       ((s.base b).held = !hold → (s.base b).state = .inService → (s.base b).window.length < 4 → exec command s = .next
         ({ s.fresh.setBase b { s.base b with
             held := hold, nextSerial := (s.base b).nextSerial + 1
             window := (s.base b).window ++ [newEntry (s.base b) .admission .baseLink .none none s.settings.timers.echo] } with
           ordersOut := [{ base := b, serial := (s.base b).nextSerial, order := .admission hold }] }.answered code tag
           (okay [yesNo hold]))))) ∧
  (∀ (tag : Byte) (s : State) (b : BaseIx), s.portFree →
     ((s.cfg b).enabled = true → (s.base b).state = .fault →
       exec (.restoreBase tag (BitVec.ofNat 8 b.val)) s = .next
         ((s.fresh.setBase b { s.base b with
           state := .probing, settle := some s.settings.timers.settleWarm, heartbeat := some s.settings.timers.heartbeat
           noEcho := 0 }).answered 0x32 tag (okay [2]))) ∧
     ((s.cfg b).enabled = true → (s.base b).state ≠ .fault →
       exec (.restoreBase tag (BitVec.ofNat 8 b.val)) s = .next (s.fresh.answered 0x32 tag (refuse .wrongState))) ∧
     ((s.cfg b).enabled = false →
       exec (.restoreBase tag (BitVec.ofNat 8 b.val)) s = .next (s.fresh.answered 0x32 tag (refuse .noSuch))))

/-- OPEN CALL taken (R71, R75, R77, R28, R67): the whole next state. -/
def Obligations.OpenCallTakesContext : Prop :=
  ∀ (tag : Byte) (s : State) (slot : SlotIx) (h : Handset) (b : BaseIx) (lifetime : Nat) (origination : Option Nat)
    (originated : Bool) (c : CallIx) (ch : ChanIx), s.portFree → s.runState = .serving →
    s.names 0 (h.tag.setWidth 32) slot h → h.barred = false → h.status = .attached b lifetime origination →
    (originated = true → origination ≠ none) →
    (s.ctx c).call = none → (∀ d < c, (s.ctx d).call ≠ none) →
    (s.base b).state = .inService → (s.base b).held = false → (s.base b).degraded = false →
    (s.base b).window.length < 4 →
    ch ∈ s.freeChannels b → (∀ k ∈ s.freeChannels b, ch ≤ k) →
    ((s.freeChannels b).length = 1 → s.settings.evaluator.highClass ≤ h.cls.val) →
    exec (.openCall tag (h.tag.setWidth 32) (yesNo originated)) s = .next
      (({ (((s.fresh.setCtx c { s.ctx c with
          use := (s.ctx c).use + 1
          call := some { stage := .setup (some s.settings.timers.setup)
                         kind := .localCall (if originated then .originated else .terminating), slot := slot, tag := h.tag
                         cls := h.cls, serving := ⟨b, ch⟩, reachedActive := false }
          ring := [], nextSample := 0, lastAccepted := none, packed := 0, unlisted := 0, strays := 0, serving := none
          uplink := none, candidates := [], phase := .none, guard := none, attempts := 0 }).setChan ⟨b, ch⟩
            (.reserved ⟨c, (s.ctx c).use + 1⟩ h.tag)).setHandset slot (some { h with status := .engaged b c false })).setBase
            b { s.base b with
              nextSerial := (s.base b).nextSerial + 1
              window := (s.base b).window ++ [newEntry (s.base b) .assign .callUnit (.call c ((s.ctx c).use + 1) 0) (some ch) s.settings.timers.echo] } with
          ordersOut := [{ base := b, serial := (s.base b).nextSerial, order := .assign ch c h.tag }] }).answered 0x40 tag
        (okay [BitVec.ofNat 8 c.val, BitVec.ofNat 8 b.val, BitVec.ofNat 8 ch.val]))

/-- ADMIT CALL taken (R71, R75, R156, R157, R67): the whole next state. -/
def Obligations.AdmitCallTakesContext : Prop :=
  ∀ (tag : Byte) (s : State) (slot : SlotIx) (h : Handset) (b : BaseIx) (zone : ZoneIx) (c : CallIx) (ch : ChanIx),
    s.portFree → s.runState = .serving → s.names 0 (h.tag.setWidth 32) slot h → zone ≠ s.settings.zone →
    h.barred = false → h.status.state ≠ .engaged →
    (s.ctx c).call = none → (∀ d < c, (s.ctx d).call ≠ none) →
    (s.base b).state = .inService → (s.base b).held = false → (s.base b).degraded = false →
    (s.base b).window.length < 4 →
    ch ∈ s.freeChannels b → (∀ k ∈ s.freeChannels b, ch ≤ k) →
    exec (.admitCall tag (h.tag.setWidth 32) (BitVec.ofNat 8 b.val) (BitVec.ofNat 8 zone.val)) s = .next
      (({ (((s.fresh.setCtx c { s.ctx c with
          use := (s.ctx c).use + 1
          call := some { stage := .setup none, kind := .zoneIn zone, slot := slot, tag := h.tag
                         cls := h.cls, serving := ⟨b, ch⟩, reachedActive := false }
          ring := [], nextSample := 0, lastAccepted := none, packed := 0, unlisted := 0, strays := 0, serving := none
          uplink := none, candidates := [], phase := .none, guard := none, attempts := 0 }).setChan ⟨b, ch⟩
            (.reserved ⟨c, (s.ctx c).use + 1⟩ h.tag)).setHandset slot (some { h with status := .engaged b c false })).setBase
            b { s.base b with
              nextSerial := (s.base b).nextSerial + 1
              window := (s.base b).window ++ [newEntry (s.base b) .assign .callUnit (.call c ((s.ctx c).use + 1) 0) (some ch) s.settings.timers.echo] } with
          ordersOut := [{ base := b, serial := (s.base b).nextSerial, order := .assign ch c h.tag }] }).answered 0x50 tag
        (okay [BitVec.ofNat 8 c.val, BitVec.ofNat 8 b.val, BitVec.ofNat 8 ch.val]))

/-- CLOSE CALL (R82), with what the start of a clearing gives up (R83, R84). That an enumerated value takes one byte is
the model's choice (log entry 34). -/
def Obligations.CloseCallStartsClearing : Prop :=
  ∀ (tag : Byte) (s : State), s.portFree →
    (∀ x : Byte, 95 < x.toNat → exec (.closeCall tag x) s = .next (s.fresh.answered 0x41 tag (refuse .badArg))) ∧
    ∀ c : CallIx,
      ((s.ctx c).call = none →
        exec (.closeCall tag (BitVec.ofNat 8 c.val)) s = .next (s.fresh.answered 0x41 tag (refuse .noSuch))) ∧
      (∀ i cause, (s.ctx c).call = some i → i.stage = .clearing cause →
        exec (.closeCall tag (BitVec.ofNat 8 c.val)) s = .next (s.fresh.answered 0x41 tag (okay [3]))) ∧
      ∀ i, (s.ctx c).call = some i → (i.stage = .active ∨ ∃ d, i.stage = .setup d) →
        ∃ t, exec (.closeCall tag (BitVec.ofNat 8 c.val)) s = .next t ∧
          (if t.owned (s.ownerOf c) = [] then
              (t.ctx c).call = none ∧ t.link = (s.answered 0x41 tag (okay [0])).link
            else
              (t.ctx c).call = some { i with stage := .clearing .closed } ∧
                t.link = (s.answered 0x41 tag (okay [3])).link) ∧
          (t.ctx c).phase = .none ∧ (t.ctx c).guard = none ∧ (∀ p, (t.chan p).heldBy (s.ownerOf c) = false) ∧
          (∀ d, d ≠ c → t.ctx d = s.ctx d) ∧ t.settings = s.settings ∧ t.trains = s.trains ∧ t.tick = s.tick

/-- The end of a clearing (R30, R72, R84): the whole next state, for every clear cause and setup kind, with every row of
R68, and the end of a drain (R5). That the averages, candidates and guard of a context that becomes FREE are cleared
then is the model's reading (log entry 23). -/
def Obligations.ReleaseEchoEndsClearing : Prop :=
  ∀ (s : State) (o : Origin) (serial : Byte) (e : WindowEntry) (c : CallIx) (i : CallInfo) (h : Handset) (at_ : BaseIx)
    (ch : ChanIx) (cause : ClearCause) (pending last : Bool),
    let b := originBase o
    s.hears o = true → (s.base b).state = .inService →
    (s.base b).window.find? (fun x => x.serial == serial) = some e → (s.base b).owedAdmission = false →
    (s.base b).owedReleases = Table.fill 8 false →
    e.kind = .release → e.placer = .callUnit → e.owner = .call c (s.ctx c).use 0 → e.channel = some ch →
    (s.ctx c).call = some i → i.stage = .clearing cause →
    (∀ p, (s.chan p).ownedBy (s.ownerOf c) = true ↔ p = ⟨b, ch⟩) →
    s.handset i.slot = some h → h.status = .engaged at_ c pending →
    (last = true ↔ s.runState = .draining ∧ ∀ d, d ≠ c → (s.ctx d).call = none) →
    let freed := ((s.fresh.setBase b { s.base b with
        window := (s.base b).window.eraseP (fun x => x.serial == serial), noEcho := 0 }).setChan ⟨b, ch⟩ .free).setCtx c
      { s.ctx c with call := none, serving := none, uplink := none, candidates := [], divergeSticky := false
                     saturateSticky := false, phase := .none, guard := none }
    let becomes := fun status : HandsetStatus => freed.setHandset i.slot (some { h with status := status })
    let elsewhere := match cause, i.kind with
      | .handedOut zone, _ => some zone
      | _, .zoneIn zone => if i.reachedActive then none else some zone
      | _, _ => none
    let returned := match elsewhere with
      | some zone => becomes (.enrolled (some zone))
      | none =>
        if pending then (becomes (.enrolled none)).post (.detached i.slot h.tag at_)
        else if h.barred then (becomes (.enrolled none)).post (.withdrawn i.slot h.tag at_ false)
        else becomes (.attached at_ (s.settings.timers.lifetime * 6000) none)
    let noted := returned.post (match cause, i.kind with
      | .setupFailed reason, .localCall d => .setupFailed (i.ref c) i.serving d reason
      | .setupFailed reason, .zoneIn zone => .zoneInFailed (i.ref c) i.serving zone reason
      | _, _ => .cleared (i.ref c) i.serving cause i.reachedActive)
    exec (.echo o serial) s = .next
      (if last then ({ noted with runState := .standby }).post (.runState .draining .standby .drainDone) else noted)

/-- ZONE GO (R151), ZONE FAIL (R152, R132, R127) and ZONE COMPLETE (R155), with their refusals. The mark of a failed
attempt is `markFailure` (log entry 8). That an enumerated value takes one byte is the model's choice (log entry 34). -/
def Obligations.ZoneRequestsRunHandoverOut : Prop :=
  (∀ (tag call channel : Byte) (s : State), s.portFree →
    (7 < channel.toNat ∨ 95 < call.toNat →
      exec (.zoneGo tag call channel) s = .next (s.fresh.answered 0x51 tag (refuse .badArg))) ∧
    (95 < call.toNat → exec (.zoneFail tag call) s = .next (s.fresh.answered 0x52 tag (refuse .badArg)) ∧
      exec (.zoneComplete tag call) s = .next (s.fresh.answered 0x53 tag (refuse .badArg)))) ∧
  (∀ (tag : Byte) (s : State) (c : CallIx), s.portFree → (∀ i, (s.ctx c).call = some i → i.stage ≠ .active) →
    (∀ ch : ChanIx, exec (.zoneGo tag (BitVec.ofNat 8 c.val) (BitVec.ofNat 8 ch.val)) s =
      .next (s.fresh.answered 0x51 tag (refuse .wrongState))) ∧
    exec (.zoneFail tag (BitVec.ofNat 8 c.val)) s = .next (s.fresh.answered 0x52 tag (refuse .wrongState)) ∧
    exec (.zoneComplete tag (BitVec.ofNat 8 c.val)) s = .next (s.fresh.answered 0x53 tag (refuse .wrongState))) ∧
  ∀ (tag : Byte) (s : State) (c : CallIx) (i : CallInfo), s.portFree → (s.ctx c).call = some i → i.stage = .active →
    (∀ zone base rescue deadline, (s.ctx c).phase = .handingOut zone base rescue deadline →
      (∀ ch : ChanIx, (s.base i.serving.base).state = .inService → (s.base i.serving.base).window.length < 4 →
        exec (.zoneGo tag (BitVec.ofNat 8 c.val) (BitVec.ofNat 8 ch.val)) s = .next
          (({ (s.fresh.setCtx c { s.ctx c with
              orderNo := (s.ctx c).orderNo + 1
              phase := .switchingOut zone base ch rescue (some i.serving) 0 s.settings.timers.switch }).setBase
              i.serving.base { s.base i.serving.base with
                nextSerial := (s.base i.serving.base).nextSerial + 1
                window := (s.base i.serving.base).window ++ [newEntry (s.base i.serving.base) .move .sequencer (.call c (s.ctx c).use ((s.ctx c).orderNo + 1)) (some i.serving.channel) s.settings.timers.echo] } with
              ordersOut := [{ base := i.serving.base, serial := (s.base i.serving.base).nextSerial
                              order := .move i.serving.channel (.foreignBase zone base) ch }] }).answered 0x51 tag
            (okay [4]))) ∧
      (∀ ch : ChanIx, (s.base i.serving.base).state = .inService → 4 ≤ (s.base i.serving.base).window.length →
        exec (.zoneGo tag (BitVec.ofNat 8 c.val) (BitVec.ofNat 8 ch.val)) s = .next
          ((((s.fresh.setCtx c { s.ctx c with
              orderNo := (s.ctx c).orderNo + 1
              phase := .none
              candidates := (s.ctx c).candidates.map fun e =>
                if e.target = .foreignBase zone base ∧ s.settings.timers.penalty ≠ 0 then
                  { e with penalty := some s.settings.timers.penalty }
                else e }).post
            (.failed (i.ref c) i.serving (.foreignBase zone base) .orderWindowFull .handingOut rescue
              (s.ctx c).attempts)).markFailure).answered 0x51 tag (refuse .orderWindowFull))) ∧
      exec (.zoneFail tag (BitVec.ofNat 8 c.val)) s = .next
        ((((s.fresh.setCtx c { s.ctx c with
            phase := .none
            candidates := (s.ctx c).candidates.map fun e =>
              if e.target = .foreignBase zone base ∧ s.settings.timers.penalty ≠ 0 then
                { e with penalty := some s.settings.timers.penalty }
              else e }).post
          (.failed (i.ref c) i.serving (.foreignBase zone base) .zoneRefused .handingOut rescue
            (s.ctx c).attempts)).markFailure).answered 0x52 tag (okay []))) ∧
    (∀ zone base ch rescue old strays deadline,
      (s.ctx c).phase = .switchingOut zone base ch rescue old strays deadline →
      ∃ t, exec (.zoneComplete tag (BitVec.ofNat 8 c.val)) s = .next t ∧
        ((t.ctx c).call = none ∧ t.link = (s.answered 0x53 tag (okay [0])).link ∨
          (t.ctx c).call = some { i with stage := .clearing (.handedOut zone) } ∧
            t.link = (s.answered 0x53 tag (okay [3])).link) ∧
        t.classes.get 1 = (s.classes.get 1).file { tick := s.tick
                                                   body := .zoneOutDone (i.ref c) old zone base ch strays rescue (s.ctx c).attempts } ∧
        (t.ctx c).phase = .none ∧ (∀ d, d ≠ c → t.ctx d = s.ctx d) ∧ t.settings = s.settings) ∧
    ((s.ctx c).phase.name ≠ .handingOut →
      (∀ ch : ChanIx, exec (.zoneGo tag (BitVec.ofNat 8 c.val) (BitVec.ofNat 8 ch.val)) s =
        .next (s.fresh.answered 0x51 tag (refuse .wrongState))) ∧
      exec (.zoneFail tag (BitVec.ofNat 8 c.val)) s = .next (s.fresh.answered 0x52 tag (refuse .wrongState))) ∧
    ((s.ctx c).phase.name ≠ .switchingOut →
      exec (.zoneComplete tag (BitVec.ofNat 8 c.val)) s = .next (s.fresh.answered 0x53 tag (refuse .wrongState)))

/-- FETCH NOTICE (R163, R166). Posting (R161, R162) and ATTN (R167). The layout of the details is the model's where R183
leaves it open (log entries 11, 31, 33 and 34). -/
def Obligations.NoticesPostedAndFetched : Prop :=
  (∀ (tag : Byte) (s : State), s.portFree →
     (∀ (k : Fin 8) (n : Notice) (rest : List Notice), (s.classes.get k).masked = false →
       (s.classes.get k).fifo = n :: rest →
       (∀ j < k, (s.classes.get j).masked = true ∨ (s.classes.get j).fifo = []) →
       exec (.fetchNotice tag) s = .next
         ({ s.fresh with classes := s.classes.set k { s.classes.get k with fifo := rest, lost := false } }.answered 0x60 tag
           (okay (n.bytes (s.classes.get k).lost ++ (indices 8).map fun j =>
             BitVec.ofNat 8 (if j = k then rest.length else (s.classes.get j).fifo.length))))) ∧
     ((∀ j, (s.classes.get j).masked = true ∨ (s.classes.get j).fifo = []) →
       exec (.fetchNotice tag) s = .next (s.fresh.answered 0x60 tag
         { status := .none, results := (indices 8).map fun j => BitVec.ofNat 8 (s.classes.get j).fifo.length }))) ∧
  ((∀ (s : State) (n : NoticeBody),
     ((s.classes.get n.cls).fifo.length < 8 → s.post n = { s with classes := s.classes.set n.cls { s.classes.get n.cls with
       fifo := (s.classes.get n.cls).fifo ++ [{ tick := s.tick, body := n }] } }) ∧
     (8 ≤ (s.classes.get n.cls).fifo.length →
       s.post n = { s with classes := s.classes.set n.cls { s.classes.get n.cls with lost := true } })) ∧
   ∀ s : State, s.attn = true ↔ s.resetHeld = false ∧
     ∃ k, (s.classes.get k).masked = false ∧ (s.classes.get k).fifo ≠ [])

/-- MASK NOTICES (R165). CLEAR CONDITIONS (R169); other bits of the conditions byte are not read (log entry 26). -/
def Obligations.MasksAndConditionsCleared : Prop :=
  (∀ (tag mask : Byte) (s : State), s.portFree →
     ∃ classes : Table NoticeClass 8,
       (∀ k, classes.get k = { s.classes.get k with masked := decide (k ≠ 0) && mask.getLsbD k.val }) ∧
       exec (.maskNotices tag mask) s =
         .next ({ s.fresh with classes := classes }.answered 0x61 tag (okay [mask &&& 0xFE]))) ∧
  (∀ (tag conditions : Byte) (s : State), s.portFree →
     let diverge := conditions.getLsbD 0
     let saturate := conditions.getLsbD 1
     (diverge = true ∨ saturate = true →
       (∀ c : CallIx, exec (.clearConditions tag (BitVec.ofNat 8 c.val) conditions) s = .next
         ((s.fresh.setCtx c { s.ctx c with
           divergeSticky := (s.ctx c).divergeSticky && !diverge
           saturateSticky := (s.ctx c).saturateSticky && !saturate }).answered 0x63 tag
             (okay [yesNo s.divergeSticky, yesNo s.saturateSticky]))) ∧
       ∃ contexts : Table Context 96,
         (∀ c, contexts.get c = { s.ctx c with
           divergeSticky := (s.ctx c).divergeSticky && !diverge
           saturateSticky := (s.ctx c).saturateSticky && !saturate }) ∧
         exec (.clearConditions tag 0xFF conditions) s = .next
           ({ s.fresh with
             contexts := contexts, divergeSticky := s.divergeSticky && !diverge
             saturateSticky := s.saturateSticky && !saturate }.answered 0x63 tag
             (okay [yesNo (s.divergeSticky && !diverge), yesNo (s.saturateSticky && !saturate)]))) ∧
     (diverge = false → saturate = false → ∀ scope,
       exec (.clearConditions tag scope conditions) s = .next (s.fresh.answered 0x63 tag (refuse .badArg))))

/-- CAPTURE (R172) with its refusals in their order, and CANCEL CAPTURE (R175); the sample records keep the own zone of
the moment (R184). A call that leaves ACTIVE completes its armed slots with CALL_ENDED (R174), whatever the clear cause.
The code of a completion status is the model's reading of the list (log entry 33). That an enumerated value takes one
byte is the model's choice (log entry 34). -/
def Obligations.CaptureByMode : Prop :=
  (∀ (tag : Byte) (s : State) (k : CapIx) (c : CallIx) (i : CallInfo) (count : Fin 16) (n : BitVec 32), s.portFree →
     let want := count.val + 1
     let ring := (s.ctx c).ring
     let ask := fun mode : Byte =>
       Instr.capture tag (BitVec.ofNat 8 k.val) (BitVec.ofNat 8 c.val) (BitVec.ofNat 8 want) mode n
     let done := fun (mode : CaptureMode) (status : CaptureStatus) (samples : List Sample) =>
       Host.Outcome.next (φ := Fault) (ρ := Refusal)
         ((s.fresh.setSlot k (.complete { call := c, tag := i.tag, count := want, mode := mode } status samples
           s.settings.zone)).answered 0x70 tag (okay [BitVec.ofNat 8 status.code, BitVec.ofNat 8 samples.length]))
     ((s.ctx c).call = some i → i.stage = .active → (s.slots.get k).armed = false →
       exec (ask 0) s = done .now .ok (ring.drop (ring.length - want)) ∧
       (∀ before x after, ring = before ++ x :: after → x.number = n → (∀ y ∈ before, y.number ≠ n) →
         (∀ y, ring.getLast? = some y → n.toNat ≤ y.number.toNat) →
         exec (ask 1) s = done (.fromSample n) .ok ((x :: after).take want)) ∧
       ((∀ y ∈ ring, y.number ≠ n) → (∃ y, ring.getLast? = some y ∧ n.toNat ≤ y.number.toNat) →
         exec (ask 1) s = done (.fromSample n) .truncated (ring.take want)) ∧
       exec (ask 2) s = .next ((s.fresh.setSlot k (.armedNext
         { call := c, tag := i.tag, count := want, mode := .next })).answered 0x70 tag (okay [2])) ∧
       exec (ask 3) s = .next ((s.fresh.setSlot k (.armedMark
         { call := c, tag := i.tag, count := want, mode := .mark })).answered 0x70 tag (okay [1]))) ∧
     ((s.slots.get k).armed = true → ∀ mode : Byte, mode.toNat ≤ 3 →
       exec (ask mode) s = .next (s.fresh.answered 0x70 tag (refuse .slotArmed))) ∧
     exec (.cancelCapture tag (BitVec.ofNat 8 k.val)) s =
       .next ((s.fresh.setSlot k .empty).answered 0x71 tag (okay []))) ∧
  (∀ (tag slot call count mode : Byte) (n : BitVec 32) (s : State), s.portFree →
    let refused := fun st : Status =>
      exec (.capture tag slot call count mode n) s = .next (s.fresh.answered 0x70 tag (refuse st))
    (3 < slot.toNat ∨ 95 < call.toNat ∨ 3 < mode.toNat → refused .badArg) ∧
    ∀ (k : CapIx) (c : CallIx), slot.toNat = k.val → call.toNat = c.val → mode.toNat ≤ 3 →
      ((s.slots.get k).armed = true → refused .slotArmed) ∧
      ((s.slots.get k).armed = false →
        ((∀ i, (s.ctx c).call = some i → i.stage ≠ .active) → refused .noSuch) ∧
        ∀ i, (s.ctx c).call = some i → i.stage = .active →
          (count.toNat = 0 ∨ 16 < count.toNat → refused .badArg) ∧
          (1 ≤ count.toNat → count.toNat ≤ 16 → mode = 1 →
            ((s.ctx c).ring = [] ∨ ∃ x, (s.ctx c).ring.getLast? = some x ∧ x.number.toNat < n.toNat) → refused .badArg))) ∧
  ∀ (s : State) (c : CallIx) (i : CallInfo), (s.ctx c).call = some i → i.stage = .active →
    let ended := fun t : State =>
      (∀ k, t.slots.get k = match (s.slots.get k).armedOn c with
        | some h => .complete h .callEnded ((s.ctx c).ring.drop ((s.ctx c).ring.length - h.count)) s.settings.zone
        | none => s.slots.get k) ∧
      t.classes.get 6 = (s.classes.get 6).fileAll s.tick
        ((indices 4).filterMap fun k => ((s.slots.get k).armedOn c).map fun _ => .captureDone k c .callEnded)
    (∀ cause, ended (s.clearCall c cause)) ∧
    ∀ tag : Byte, s.portFree → ∃ t, exec (.closeCall tag (BitVec.ofNat 8 c.val)) s = .next t ∧ ended t

/-- The mark line (R176, R177). Whether a drive that begins makes an edge is a free value of Config (log entry 8): the
statement holds for either. That MARK_DRIVE_END changes nothing when it is not due is the model's choice (log entry 3).
-/
def Obligations.MarkLineDrivesAndEdges : Prop :=
  (∀ (tag : Byte) (s : State), s.portFree →
    (∀ d, s.markDrive = some d →
      exec (.mark tag) s = .next ({ s.fresh with markDrive := some 2 }.answered 0x73 tag (okay []))) ∧
    (s.markDrive = none → ∃ slots,
      (slots = s.slots ∨ s.runState ≠ .halted ∧ slots = s.slots.map CaptureSlot.edge) ∧
      exec (.mark tag) s = .next ({ s.fresh with
        markDrive := some 2, slots := slots, freeCount := s.freeCount + 1 }.answered 0x73 tag (okay [])))) ∧
  (∀ s : State, s.resetHeld = false → s.runState ≠ .halted → ∃ slots : Table CaptureSlot 4,
    (∀ k, slots.get k = match s.slots.get k with
      | .armedMark h => .armedNext h
      | x => x) ∧
    exec .markEdge s = .next { s.fresh with slots := slots }) ∧
  (∀ s : State, s.resetHeld = true ∨ s.runState = .halted → exec .markEdge s = .next s.fresh) ∧
  ∀ s : State, (s.markDrive = some 0 → exec .markDriveEnd s = .next { s.fresh with markDrive := none }) ∧
    (s.markDrive ≠ some 0 → exec .markDriveEnd s = .next s.fresh)

/-- What the port answers itself (R181, section 12.4), and RESET handed on (R7, R182). A catalogued code in the
UNKNOWN_REQUEST row is that request (log entry 27). That a frame discarded after RESET was handed on is counted nowhere
is the model's reading (log entry 25). That the access class of ENROL and an enumerated parameter take one byte each is
the model's choice (log entry 34). -/
def Obligations.PortAnswersUnknownAndReset : Prop :=
  (∀ (tag code : Byte) (params : List Byte) (s : State), s.portFree → requiredCount code params = none →
    exec (.unknownRequest tag code params) s = .next (s.fresh.answered code tag (refuse .unknownRequest))) ∧
  (∀ (tag code : Byte) (params : List Byte) (n : Nat) (s : State), s.portFree → requiredCount code params = some n →
    params.length ≠ n →
    exec (.unknownRequest tag code params) s = .next (s.fresh.answered code tag (refuse .badArg))) ∧
  (∀ (tag : Byte) (s : State), s.portFree → exec (.reset tag) s = .next
    ({ s.fresh with link := { s.link with resetting := true } }.answered 0x04 tag (okay []))) ∧
  ∀ (r : Request) (tag : Byte) (s : State), carried r → s.link.resetting = true → exec (commandOf tag r) s = .next s.fresh

/-- The request buffer and the refusal queue (R180), for every request of the catalogue. REPLY_SENT (R180, R181),
outside a RESET; that it changes nothing on an idle line is the model's choice (log entry 3). -/
def Obligations.TransmitterAndBuffers : Prop :=
  (∀ (r : Request) (tag : Byte) (s : State), carried r → s.resetHeld = false → s.link.resetting = false →
     s.link.executing ≠ none → s.link.sending ≠ .idle →
     (s.link.buffer.length < 4 → exec (commandOf tag r) s = .next { s.fresh with link := { s.link with
       buffer := s.link.buffer ++ [{ tag := tag, request := r }] } }) ∧
     (4 ≤ s.link.buffer.length → s.link.refusals.length < 4 → exec (commandOf tag r) s = .next { s.fresh with
       link := { s.link with refusals := s.link.refusals ++ [{ code := r.code, tag := tag }] } }) ∧
     (4 ≤ s.link.buffer.length → 4 ≤ s.link.refusals.length → exec (commandOf tag r) s = .next { s.fresh with
       link := { s.link with errors := min 65535 (s.link.errors + 1) } })) ∧
  ((∀ s : State, s.link.sending = .idle → exec .replySent s = .next s.fresh) ∧
   (∀ (s : State) (e : Executing) (q : Refused) (rest : List Refused), s.link.sending = .busy →
     s.link.executing = some e → s.link.refusals = q :: rest →
     exec .replySent s = .next { s.fresh with link := { s.link with
       refusals := rest, sending := if rest = [] then .reply else .busy } }) ∧
   (∀ s : State, s.link.sending = .reply → s.link.resetting = false → s.link.buffer = [] →
     exec .replySent s = .next { s.fresh with link := { s.link with
       executing := none, sending := if s.link.refusals = [] then .idle else .busy } }) ∧
   ∀ (s : State) (b : Buffered) (rest : List Buffered), s.link.sending = .reply → s.link.resetting = false →
     s.link.buffer = b :: rest → b.request ≠ .reset →
     let taken := takeRequest b.request { s.fresh with link := { s.link with
       executing := none, sending := .idle, buffer := rest } }
     exec .replySent s = .next { taken.2 with link := { s.link with
       buffer := rest, executing := some { code := b.request.code, tag := b.tag, reply := taken.1 }
       sending := if s.link.refusals = [] then .reply else .busy } })

/-- Bytes and requests agree (R178, R179, R181, section 12.4): the whole frame received byte by byte is the request.
That the access class of ENROL and an enumerated parameter take one byte each is the model's choice (log entry 34). -/
def Obligations.FrameBytesGiveTheRequest : Prop :=
  ∀ (r : Request) (tag : Byte) (s : State), carried r → s.resetHeld = false → s.link.receiver = .hunt →
    s.link.gap = none →
    ∃ t, exec (.requestFrame (r.frame tag)) s = .next t ∧ exec (commandOf tag r) s = .next t

/-- Decode of encode for the requests of the catalogue (section 12.4, R183): with every operand at every value. That the
access class of ENROL and an enumerated parameter take one byte each is the model's choice (log entry 34). -/
def Obligations.ParameterCodingRoundTrip : Prop :=
  ∀ r : Request, carried r → parseRequest r.code r.params = r

/-- A damaged frame (R178, R179): discarded without a reply, the receive error count raised, the receiver back in HUNT.
HRX_BYTE and GAP_COUNT_EXPIRY (R179), outside a held RESET pin; that a gap count not due changes nothing is the model's
choice (log entry 3). -/
def Obligations.ReceiverTakesBytesAndFrames : Prop :=
  (∀ (s : State) (body : List Byte) (x : Byte), s.resetHeld = false → s.link.receiver = .hunt → s.link.gap = none →
     2 ≤ body.length → body.length ≤ 250 → byteSum (BitVec.ofNat 8 body.length :: body) + x ≠ 0 →
     exec (.requestFrame (0xA5 :: BitVec.ofNat 8 body.length :: body ++ [x])) s =
       .next { s.fresh with link := { s.link with errors := min 65535 (s.link.errors + 1) } }) ∧
  ((∀ (s : State) (x : Byte) (stop : Bool), s.resetHeld = false →
     (s.link.receiver = .hunt → x = 0xA5 → stop = true →
       exec (.hrxByte x stop) s = .next { s.fresh with link := { s.link with receiver := .length, gap := some 3 } }) ∧
     (s.link.receiver = .hunt → x ≠ 0xA5 ∨ stop = false → exec (.hrxByte x stop) s = .next s.fresh) ∧
     (s.link.receiver ≠ .hunt → stop = false → exec (.hrxByte x stop) s = .next { s.fresh with link := { s.link with
       receiver := .hunt, gap := none, errors := min 65535 (s.link.errors + 1) } }) ∧
     (s.link.receiver = .length → stop = true → 2 ≤ x.toNat → x.toNat ≤ 250 → exec (.hrxByte x stop) s =
       .next { s.fresh with link := { s.link with receiver := .body x [], gap := some 3 } }) ∧
     (s.link.receiver = .length → stop = true → x.toNat < 2 ∨ 250 < x.toNat → exec (.hrxByte x stop) s =
       .next { s.fresh with link := { s.link with receiver := .hunt, gap := none } }) ∧
     ∀ length bytes, s.link.receiver = .body length bytes → stop = true → exec (.hrxByte x stop) s =
       .next { s.fresh with link := { s.link with
         receiver := if bytes.length + 1 < length.toNat then .body length (bytes ++ [x]) else .check length (bytes ++ [x])
         gap := some 3 } }) ∧
   ∀ s : State, (s.link.gap = some 0 → exec .gapCountExpiry s =
       .next { s.fresh with link := { s.link with receiver := .hunt, gap := none } }) ∧
     (s.link.gap ≠ some 0 → exec .gapCountExpiry s = .next s.fresh))

/-- STATUS (R18, R20, R21), but for FAILED from an IN_SERVICE base (`FailedHealthFaultsBase`). -/
def Obligations.StatusBeatsByBaseState : Prop :=
  ∀ (s : State) (o : Origin) (health : Health),
    let b := originBase o
    let beat := { s.base b with lastHealth := some health, lastBeat := some s.tick }
    let loaded := { beat with heartbeat := some s.settings.timers.heartbeat }
    (s.hears o = false → exec (.status o health) s = .next s.fresh) ∧
    (s.hears o = true →
      ((s.base b).state = .unused → exec (.status o health) s = .next s.fresh) ∧
      ((s.base b).state = .down → exec (.status o health) s = .next
        ((s.fresh.setBase b { loaded with
          state := .probing, seen := true, noEcho := 0, degraded := false
          settle := some (if (s.base b).seen then s.settings.timers.settleWarm else s.settings.timers.settleCold) }).post
          (.baseState b .down .probing .contact))) ∧
      ((s.base b).state = .probing → exec (.status o health) s = .next (s.fresh.setBase b loaded)) ∧
      ((s.base b).state = .fault → exec (.status o health) s = .next (s.fresh.setBase b beat)) ∧
      ((s.base b).state = .inService → health = .ok → exec (.status o health) s = .next
        (if (s.base b).degraded then (s.fresh.setBase b { loaded with degraded := false }).post (.health b false)
        else s.fresh.setBase b loaded)) ∧
      ((s.base b).state = .inService → health = .degraded → exec (.status o health) s = .next
        (if (s.base b).degraded then s.fresh.setBase b loaded
        else (s.fresh.setBase b { loaded with degraded := true }).post (.health b true))))

/-- A base leaving service (R21, R22, R23, R24, R73): what the loss leaves at the base, and of each context that owned a
channel there by its stage and phase (R81, R86, R137, R141, R150, R153). -/
def Obligations.BaseLossEmptiesBase : Prop :=
  ∀ (s : State) (b : BaseIx) (c : Instr) (new : BaseState) (cause : BaseCause),
    ((∃ o, c = .status o .failed ∧ originBase o = b ∧ s.hears o = true ∧ (s.base b).state = .inService ∧
        new = .fault ∧ cause = .healthFailed) ∨
      (c = .heartbeatExpiry b ∧ ((s.base b).state = .inService ∨ (s.base b).state = .probing) ∧
        (s.base b).heartbeat = some 0 ∧ new = .down ∧ cause = .heartbeatLost) ∨
      (c = .settleExpiry b ∧ (s.base b).state = .probing ∧ (s.base b).settle = some 0 ∧
        (s.base b).lastHealth ≠ some .ok ∧ new = .fault ∧ cause = .settleFault)) →
    ∃ t, exec c s = .next t ∧
      (t.base b).state = new ∧ (t.base b).window = [] ∧ (t.base b).owedReleases = Table.fill 8 false ∧
      (t.base b).owedAdmission = false ∧ (t.base b).settle = none ∧ (t.base b).heartbeat = none ∧
      (t.base b).degraded = false ∧ t.trains.get b = none ∧ (∀ ch, t.chan ⟨b, ch⟩ = .free) ∧
      (∀ a, a ≠ b → (t.base a).state = (s.base a).state) ∧
      t.classes.get 0 = (s.classes.get 0).file
        { tick := s.tick, body := .baseState b (s.base b).state new cause } ∧
      (∀ j, (t.handset j).map Handset.tag = (s.handset j).map Handset.tag) ∧
      (∀ d, ((s.ctx d).call = none ∨ ∀ ch, (s.chan ⟨b, ch⟩).ownedBy (s.ownerOf d) = false) → t.ctx d = s.ctx d) ∧
      (∀ d i, (s.ctx d).call = some i → (∃ ch, (s.chan ⟨b, ch⟩).ownedBy (s.ownerOf d) = true) →
        let x := s.ctx d
        let cleared := fun why : ClearCause =>
          ((t.ctx d).call = none ∨ (t.ctx d).call = some { i with stage := .clearing why }) ∧
          ((∀ p, (s.chan p).ownedBy (s.ownerOf d) = true → p.base = b) → (t.ctx d).call = none) ∧
          ∀ p, (t.chan p).heldBy (s.ownerOf d) = false
        (∀ deadline, i.stage = .setup deadline → i.serving.base = b → cleared (.setupFailed .baseLost)) ∧
        (∀ why, i.stage = .clearing why →
          ((∀ p, (s.chan p).ownedBy (s.ownerOf d) = true → p.base = b) → (t.ctx d).call = none) ∧
          ((∃ p, (s.chan p).ownedBy (s.ownerOf d) = true ∧ p.base ≠ b) → t.ctx d = x)) ∧
        (i.stage = .active → x.phase = .none →
          (i.serving.base = b → cleared .baseLost) ∧ (i.serving.base ≠ b → t.ctx d = x)) ∧
        (∀ p rescue, i.stage = .active → x.phase = .preparing p rescue →
          (p.base = b → i.serving.base ≠ b → (t.ctx d).call = some i ∧ (t.ctx d).phase = .none) ∧
          (p.base ≠ b → i.serving.base = b → cleared .lost) ∧
          (p.base ≠ b → i.serving.base ≠ b → t.ctx d = x)) ∧
        (∀ p rescue old strays deadline, i.stage = .active → x.phase = .switching p rescue old strays deadline →
          (p.base = b → cleared .lost) ∧
          (p.base ≠ b → old.map ChanRef.base = some b →
            t.ctx d = { x with phase := .switching p rescue none strays deadline }) ∧
          (p.base ≠ b → old.map ChanRef.base ≠ some b → t.ctx d = x)) ∧
        (∀ zone a rescue deadline, i.stage = .active → x.phase = .handingOut zone a rescue deadline →
          (i.serving.base = b → cleared .lost) ∧ (i.serving.base ≠ b → t.ctx d = x)) ∧
        ∀ zone a ch rescue old strays deadline, i.stage = .active →
          x.phase = .switchingOut zone a ch rescue old strays deadline →
          (old.map ChanRef.base = some b →
            t.ctx d = { x with phase := .switchingOut zone a ch rescue none strays deadline }) ∧
          (old.map ChanRef.base ≠ some b → t.ctx d = x)) ∧
      t.settings = s.settings ∧ t.tick = s.tick ∧ t.link = s.link

/-- SETTLE_EXPIRY into service (R22, R28). That a settle or heartbeat expiry which is not due changes nothing is the
model's choice (log entry 3). -/
def Obligations.SettledBaseEntersService : Prop :=
  (∀ (s : State) (b : BaseIx), (s.base b).state = .probing → (s.base b).settle = some 0 →
    (s.base b).lastHealth = some .ok → (s.base b).window.length < 4 →
    exec (.settleExpiry b) s = .next
      { (s.fresh.setBase b { s.base b with
          state := .inService, settle := none, degraded := false, nextSerial := (s.base b).nextSerial + 1
          window := (s.base b).window ++ [newEntry (s.base b) .admission .baseLink .none none s.settings.timers.echo] }).post
          (.baseState b .probing .inService .settled) with
        ordersOut := [{ base := b, serial := (s.base b).nextSerial, order := .admission (s.base b).held }] }) ∧
  (∀ (s : State) (b : BaseIx), (s.base b).settle ≠ some 0 → exec (.settleExpiry b) s = .next s.fresh) ∧
  ∀ (s : State) (b : BaseIx), (s.base b).heartbeat ≠ some 0 → exec (.heartbeatExpiry b) s = .next s.fresh

/-- ECHO (R18, R30, R32, R64). ECHO_DEADLINE_EXPIRY (R31): a deadline not due, or of a serial that no entry holds,
changes nothing (the model's choice, log entry 3). An entry that leaves a window lets an owed item be sent (R32,
`State.owedSent`). What the outcome of an ASSIGN does for the Call Unit (R78, R81, R158), that of a RELEASE (R72), and
that of an ASSIGN or a MOVE for the Handover Sequencer (R131, R132, R135, R136, R139, R153). -/
def Obligations.OrderOutcomesAtBase : Prop :=
  (∀ (s : State) (o : Origin) (serial : Byte),
     let b := originBase o
     let r := s.base b
     (s.hears o = false ∨ (r.state ≠ .probing ∧ r.state ≠ .inService) → exec (.echo o serial) s = .next s.fresh) ∧
     (s.hears o = true → r.state = .probing ∨ r.state = .inService →
       ((∀ e ∈ r.window, e.serial ≠ serial) → exec (.echo o serial) s =
         .next (s.fresh.setBase b { r with lateEchoes := min 65535 (r.lateEchoes + 1) })) ∧
       ∀ e, r.window.find? (fun x => x.serial == serial) = some e →
         let left := r.window.eraseP fun x => x.serial == serial
         (∃ t, exec (.echo o serial) s = .next t ∧ (t.base b).noEcho = 0) ∧
         (e.placer = .registration ∨ e.placer = .baseLink →
           (r.owedAdmission = false → r.owedReleases = Table.fill 8 false →
             exec (.echo o serial) s = .next (s.fresh.setBase b { r with window := left, noEcho := 0 })) ∧
           (r.owedAdmission = true → left.length < 4 → exec (.echo o serial) s = .next
             { s.fresh.setBase b { r with
                 noEcho := 0, owedAdmission := false, nextSerial := r.nextSerial + 1
                 window := left ++ [newEntry r .admission .baseLink .none none s.settings.timers.echo] } with
               ordersOut := [{ base := b, serial := r.nextSerial, order := .admission r.held }] }) ∧
           ∀ ch : ChanIx, r.owedAdmission = false → left.length < 4 → r.owedReleases.get ch = true →
             (∀ k < ch, r.owedReleases.get k = false) → exec (.echo o serial) s = .next
               (({ s.fresh.setBase b { r with
                   noEcho := 0, owedReleases := r.owedReleases.set ch false, nextSerial := r.nextSerial + 1
                   window := left ++ [newEntry r .release .callUnit .none (some ch) s.settings.timers.echo] } with
                 ordersOut := [{ base := b, serial := r.nextSerial, order := .release ch }] }).setChan ⟨b, ch⟩
                   (.releasing none))))) ∧
  (∀ (s : State) (b : BaseIx) (serial : Byte),
     let r := s.base b
     ((∀ e ∈ r.window, e.serial ≠ serial) → exec (.echoDeadlineExpiry b serial) s = .next s.fresh) ∧
     ∀ e, r.window.find? (fun x => x.serial == serial) = some e →
       (e.deadline ≠ 0 → exec (.echoDeadlineExpiry b serial) s = .next s.fresh) ∧
       (e.deadline = 0 → e.placer = .registration ∨ e.placer = .baseLink → r.owedAdmission = false →
         r.owedReleases = Table.fill 8 false →
         (r.noEcho < 2 → exec (.echoDeadlineExpiry b serial) s = .next (s.fresh.setBase b { r with
           window := r.window.eraseP fun x => x.serial == serial, noEcho := r.noEcho + 1 })) ∧
         (r.noEcho = 2 → ∃ t, exec (.echoDeadlineExpiry b serial) s = .next t ∧ (t.base b).state = .fault ∧
           (t.base b).window = [] ∧ (t.base b).noEcho = 3 ∧ (∀ ch, t.chan ⟨b, ch⟩ = .free) ∧
           t.classes.get 0 = (s.classes.get 0).file { tick := s.tick, body := .baseState b r.state .fault .noEcho }))) ∧
  (∀ (s u : State) (b : BaseIx) (serial : Byte) (e : WindowEntry) (echoed : Bool) (command : Instr) (c : CallIx)
      (use orderNo : BitVec 8),
     s.departs b serial e echoed command u → e.placer = .callUnit → e.kind = .assign → e.owner = .call c use orderNo →
     ((s.ctx c).call = none ∨ (s.ctx c).use ≠ use → exec command s = .next u) ∧
     ∀ i, (s.ctx c).call = some i → (s.ctx c).use = use →
       ((∀ d, i.stage ≠ .setup d) → exec command s = .next u) ∧
       ∀ d, i.stage = .setup d →
         (∀ direction, echoed = true → i.kind = .localCall direction → exec command s = .next u) ∧
         (∀ zone, echoed = true → i.kind = .zoneIn zone → exec command s = .next
           ((u.setCtx c { s.ctx c with call := some { i with stage := .setup (some s.settings.timers.setup) } }).post
             (.zoneInPrepared (i.ref c) i.serving zone))) ∧
         (echoed = false → ∃ t, exec command s = .next t ∧
           ((t.ctx c).call = none ∨ (t.ctx c).call = some { i with stage := .clearing (.setupFailed .noEcho) }) ∧
           (∀ p, (t.chan p).heldBy (s.ownerOf c) = false) ∧ ∀ d, d ≠ c → t.ctx d = s.ctx d)) ∧
  (∀ (s u : State) (b : BaseIx) (serial : Byte) (e : WindowEntry) (echoed : Bool) (command : Instr),
     s.departs b serial e echoed command u →
     (e.placer = .registration ∨ e.placer = .baseLink → exec command s = .next u) ∧
     ∀ ch, e.placer = .callUnit → e.kind = .release → e.channel = some ch →
       let freed := u.setChan ⟨b, ch⟩ .free
       ((∀ c use orderNo, e.owner ≠ .call c use orderNo) → exec command s = .next freed) ∧
       ∀ c use orderNo, e.owner = .call c use orderNo →
         ((s.ctx c).call = none ∨ (s.ctx c).use ≠ use → exec command s = .next freed) ∧
         ∀ i, (s.ctx c).call = some i → (s.ctx c).use = use →
           ((∀ cause, i.stage ≠ .clearing cause) ∨ (∃ p, (freed.chan p).ownedBy (s.ownerOf c) = true) →
             exec command s = .next freed) ∧
           ∀ cause, i.stage = .clearing cause → (∀ p, (freed.chan p).ownedBy (s.ownerOf c) = false) →
             ∃ t, exec command s = .next t ∧ (t.ctx c).call = none ∧ (∀ d, d ≠ c → t.ctx d = s.ctx d) ∧
               t.channels = freed.channels ∧ t.bases = freed.bases ∧ t.ordersOut = freed.ordersOut ∧
               t.settings = s.settings ∧ t.link = s.link) ∧
  ∀ (s u : State) (b : BaseIx) (serial : Byte) (e : WindowEntry) (echoed : Bool) (command : Instr) (c : CallIx)
      (use orderNo : BitVec 8),
    s.departs b serial e echoed command u → e.placer = .sequencer → e.owner = .call c use orderNo →
    let x := s.ctx c
    (x.call = none ∨ x.use ≠ use ∨ x.orderNo ≠ orderNo ∨
        ¬(x.phase.name = .preparing ∧ e.kind = .assign ∨
          (x.phase.name = .switching ∨ x.phase.name = .switchingOut) ∧ e.kind = .move) → exec command s = .next u) ∧
    ∀ i, x.call = some i → x.use = use → x.orderNo = orderNo →
      (∀ p rescue, x.phase = .preparing p rescue → e.kind = .assign →
        let from_ := s.base i.serving.base
        (echoed = true → i.serving.base ≠ b → from_.state = .inService → from_.window.length < 4 →
          exec command s = .next
            { (u.setCtx c { x with
                orderNo := orderNo + 1
                phase := .switching p rescue (some i.serving) 0 s.settings.timers.switch }).setBase i.serving.base
                { from_ with
                  nextSerial := from_.nextSerial + 1
                  window := from_.window ++ [newEntry from_ .move .sequencer (.call c use (orderNo + 1))
                    (some i.serving.channel) s.settings.timers.echo] } with
              ordersOut := u.ordersOut ++ [{ base := i.serving.base, serial := from_.nextSerial
                                             order := .move i.serving.channel (.localBase p.base) p.channel }] }) ∧
        (echoed = true → i.serving.base ≠ b → from_.state = .inService → 4 ≤ from_.window.length →
          ∃ t, exec command s = .next t ∧ (t.chan p).heldBy (s.ownerOf c) = false ∧ (t.ctx c).orderNo = orderNo + 1 ∧
            s.attemptFailed t c i (.localBase p.base) .orderWindowFull .preparing rescue) ∧
        (echoed = false → ∃ t, exec command s = .next t ∧ (t.chan p).heldBy (s.ownerOf c) = false ∧
          s.attemptFailed t c i (.localBase p.base) .noEchoTarget .preparing rescue)) ∧
      (∀ p rescue old strays deadline, x.phase = .switching p rescue old strays deadline → e.kind = .move →
        (echoed = true → exec command s = .next u) ∧
        (echoed = false → ∃ t, exec command s = .next t ∧ (t.chan p).heldBy (s.ownerOf c) = false ∧
          s.attemptFailed t c i (.localBase p.base) .noEchoServing .switching rescue)) ∧
      ∀ zone a ch rescue old strays deadline, x.phase = .switchingOut zone a ch rescue old strays deadline →
        e.kind = .move →
        (echoed = true → exec command s = .next u) ∧
        (echoed = false → ∃ t, exec command s = .next t ∧
          s.attemptFailed t c i (.foreignBase zone a) .noEchoServing .switchingOut rescue)

/-- CARRIER_LOST and CARRIER_REGAINED (R17, R24); the order of the losses on one port is a free value (log entry 7).
That CARRIER_LOST on a port already DOWN and CARRIER_REGAINED on one already UP change nothing is the model's choice
(log entry 3). -/
def Obligations.CarrierTakesPortDown : Prop :=
  ∀ (s : State) (p : PortIx),
    (s.carriers.get p = true → s.driven p = true → ∃ t, exec (.carrierLost p) s = .next t ∧
      t.carriers = s.carriers.set p false ∧
      (∀ b, portOf b = p → (t.base b).state = if (s.base b).state = .unused then .unused else .down) ∧
      (∀ b, portOf b ≠ p → (t.base b).state = (s.base b).state) ∧
      (∀ b, portOf b = p → (s.base b).state = .inService ∨ (s.base b).state = .probing →
        (∀ ch, t.chan ⟨b, ch⟩ = .free) ∧ (t.base b).window = [] ∧ t.trains.get b = none) ∧
      t.classes.get 0 = (s.classes.get 0).file { tick := s.tick, body := .port p false } ∧
      t.settings = s.settings ∧ t.tick = s.tick ∧ t.link = s.link) ∧
    (s.carriers.get p = false ∨ s.driven p = false →
      exec (.carrierLost p) s = .next { s.fresh with carriers := s.carriers.set p false }) ∧
    (s.carriers.get p = false → s.driven p = true → exec (.carrierRegained p) s =
      .next ({ s.fresh with carriers := s.carriers.set p true }.post (.port p true))) ∧
    (s.carriers.get p = true ∨ s.driven p = false →
      exec (.carrierRegained p) s = .next { s.fresh with carriers := s.carriers.set p true })

/-- FRAG frames and the gap deadline (R18, R37 to R43), and how a closed train is judged (R41, R42). A gap deadline that
is not due changes nothing (the model's choice, log entry 3). -/
def Obligations.FragmentsCollectIntoTrain : Prop :=
  (∀ (s : State) (o : Origin) (x : Byte),
     let b := originBase o
     let spoiled := s.fresh.setBase b { s.base b with spoiled := min 65535 ((s.base b).spoiled + 1) }
     let opened : Train := { fragments := [x], xor := x, vertical := !s.settings.parity.passes x, overlong := false
                             gap := s.settings.timers.gap }
     (s.hears o = false ∨ (s.base b).state ≠ .inService →
       exec (.fragFirst o x) s = .next s.fresh ∧ exec (.fragNext o x) s = .next s.fresh ∧
         exec (.fragClose o x) s = .next s.fresh) ∧
     (s.hears o = true → (s.base b).state = .inService →
       (s.trains.get b = none →
         exec (.fragFirst o x) s = .next (s.fresh.setTrain b (some opened)) ∧
         exec (.fragNext o x) s = .next s.fresh ∧ exec (.fragClose o x) s = .next s.fresh) ∧
       ∀ t, s.trains.get b = some t →
         exec (.fragFirst o x) s = .next (spoiled.setTrain b (some opened)) ∧
         exec (.fragNext o x) s = .next (s.fresh.setTrain b (some { t with
           fragments := if t.fragments.length < 9 then t.fragments ++ [x] else t.fragments
           overlong := t.overlong || decide (9 ≤ t.fragments.length)
           xor := t.xor ^^^ x, vertical := t.vertical || !s.settings.parity.passes x, gap := s.settings.timers.gap })) ∧
         (t.judge s.settings.parity x ≠ .good → exec (.fragClose o x) s = .next (spoiled.setTrain b none))) ∧
     ∀ t, s.trains.get b = some t →
       (t.gap = 0 → exec (.gapDeadlineExpiry b) s = .next (spoiled.setTrain b none)) ∧
       (t.gap ≠ 0 → exec (.gapDeadlineExpiry b) s = .next s.fresh)) ∧
  ∀ (t : Train) (sense : Parity) (x : Byte),
    (t.fragments.length < 5 → t.judge sense x = .short) ∧
    (5 ≤ t.fragments.length → t.overlong = true → t.judge sense x = .overlong) ∧
    (5 ≤ t.fragments.length → t.overlong = false → t.vertical = true → t.judge sense x = .vertical) ∧
    (5 ≤ t.fragments.length → t.overlong = false → t.vertical = false →
      (x ≠ t.xor → t.judge sense x = .longitudinal) ∧
      (x = t.xor → t.judge sense x =
        if (ones x % 2 = 1 ↔ sense = .odd ∧ t.fragments.length % 2 = 1) then .good else .closeParity))

/-- The sense of the closing fragment follows from XOR arithmetic (R42). -/
def Obligations.ClosingParityFollowsFromXor : Prop :=
  ∀ (sense : Parity) (fragments : List Byte), (∀ x ∈ fragments, sense.passes x = true) →
    (sense.closing fragments.length).passes (fragments.foldl (· ^^^ ·) 0) = true

/-- Decode of encode for registration trains (R37, R39, R41, R42, R44, R45): every kind, tag and credential. -/
def Obligations.TrainDecodesToItsRequest : Prop :=
  ∀ (sense : Parity) (kind : AccessKind) (tag : Tag) (credential : Credential) (b : BaseIx) (gap : Nat),
    kind ≠ .malformed →
    let data := (trainData kind tag credential).map (fragmentOf sense)
    ∀ first rest, data = first :: rest →
      let start : Train := { fragments := [first], xor := first, vertical := !sense.passes first, overlong := false
                             gap := gap }
      let train := rest.foldl (fun t x => t.next (sense.passes x) gap x) start
      train.judge sense (data.foldl (· ^^^ ·) 0) = .good ∧
        train.request b =
          { kind := kind, tag := tag, credential := if kind = .attach then some credential else none, base := b }

/-- FRAG_CLOSE of a good train (R41, R46, R56, R60, R61, R62, R63, R28): the whole next state, the ANSWER dropped and
counted where the window is full (R29); for a DETACH that starts a clearing (R83), the RELEASE orders of the clearing go
before the ANSWER. The decision on an ATTACH (R58, R59) is `AttachAcceptedOrDenied`. -/
def Obligations.GoodTrainIsAnswered : Prop :=
  ∀ (s : State) (o : Origin) (x : Byte) (train : Train) (i : SlotIx) (h : Handset),
    let b := originBase o
    let r := train.request b
    let seen := { h with lastAccess := some s.tick }
    let answered := fun (t : State) (cause : AnswerCause) =>
      Host.Outcome.next (φ := Fault) (ρ := Refusal)
        (if (s.base b).window.length < 4 then
          { t.setBase b { s.base b with
              nextSerial := (s.base b).nextSerial + 1
              window := (s.base b).window ++ [newEntry (s.base b) .answer .registration (.slot i) none s.settings.timers.echo] } with
            ordersOut := [{ base := b, serial := (s.base b).nextSerial, order := .answer h.tag cause }] }
        else t.setBase b { s.base b with droppedAnswers := min 65535 ((s.base b).droppedAnswers + 1) })
    let idle := s.fresh.setTrain b none
    let refused := fun cause : AnswerCause =>
      answered ((idle.setHandset i (some seen)).post (.refused i h.tag b r.kind cause)) cause
    let at_b := fun origination : Option Nat =>
      idle.setHandset i (some { seen with status := .attached b (s.settings.timers.lifetime * 6000) origination })
    let open_ := s.runState = .serving ∧ (s.base b).held = false ∧ (s.base b).degraded = false
    s.hears o = true → (s.base b).state = .inService → s.trains.get b = some train →
    train.judge s.settings.parity x = .good → s.names 0 (h.tag.setWidth 32) i h → r.tag = h.tag →
    (∀ lifetime origination, r.kind = .renew → h.status = .attached b lifetime origination →
      exec (.fragClose o x) s = answered (at_b origination) .accept) ∧
    (∀ at_ lifetime origination, h.status = .attached at_ lifetime origination →
      (r.kind = .locate ∨ (r.kind = .renew ∧ at_ ≠ b)) →
      exec (.fragClose o x) s = answered ((at_b origination).post (.located i h.tag at_ b)) .accept) ∧
    (∀ at_ lifetime origination, r.kind = .originate → open_ → h.status = .attached at_ lifetime origination →
      let kept := at_b (some s.settings.timers.hold)
      let moved := if at_ = b then kept else kept.post (.located i h.tag at_ b)
      exec (.fragClose o x) s = answered
        (if origination = none then moved.post (.originationRequest i h.tag b) else moved) .accept) ∧
    (r.kind = .originate → ¬open_ → exec (.fragClose o x) s = refused .closed) ∧
    (∀ at_ lifetime origination, r.kind = .detach → h.status = .attached at_ lifetime origination →
      exec (.fragClose o x) s = answered ((idle.setHandset i (some { seen with status := .enrolled none })).post
        (.detached i h.tag at_)) .accept) ∧
    (∀ zone, r.kind = .detach → h.status = .enrolled zone →
      exec (.fragClose o x) s = answered (idle.setHandset i (some seen)) .accept) ∧
    (∀ at_ c, r.kind = .detach → h.status = .engaged at_ c true →
      exec (.fragClose o x) s = answered (idle.setHandset i (some seen)) .accept) ∧
    (∀ at_ c k, r.kind = .detach → h.status = .engaged at_ c false → (s.ctx c).call = some k →
      let pending := { seen with status := .engaged at_ c true }
      (∀ cause, k.stage = .clearing cause →
        exec (.fragClose o x) s = answered (idle.setHandset i (some pending)) .accept) ∧
      ((∀ cause, k.stage ≠ .clearing cause) → ∃ t, exec (.fragClose o x) s = .next t ∧ t.trains.get b = none ∧
        (let released := s.givenUpAt b c
          let serial := fun n : Nat => (s.base b).nextSerial + BitVec.ofNat 8 n
          ((s.base b).window.length + released.length < 4 →
            (t.base b).window = (s.base b).window ++
              (released.mapIdx fun n ch => { newEntry (s.base b) .release .callUnit (.call c (s.ctx c).use 0) (some ch)
                s.settings.timers.echo with serial := serial n }) ++
              [{ newEntry (s.base b) .answer .registration (.slot i) none s.settings.timers.echo with
                serial := serial released.length }] ∧
            t.ordersOut.getLast? = some { base := b, serial := serial released.length, order := .answer h.tag .accept } ∧
            (t.base b).droppedAnswers = (s.base b).droppedAnswers) ∧
          (4 ≤ (s.base b).window.length + released.length →
            (∀ e ∈ (t.base b).window, e ∈ (s.base b).window ∨ e.kind = .release) ∧
            (∀ q ∈ t.ordersOut, ∀ tag cause, q.order ≠ .answer tag cause) ∧
            (t.base b).droppedAnswers = min 65535 ((s.base b).droppedAnswers + 1))) ∧
        (((t.ctx c).call = some { k with stage := .clearing .detach } ∧ t.handset i = some pending) ∨
          ((t.ctx c).call = none ∧ (k.slot = i → ∃ zone, t.handset i = some { seen with status := .enrolled zone }))) ∧
        (∀ p, (t.chan p).heldBy (s.ownerOf c) = false) ∧ (∀ d, d ≠ c → t.ctx d = s.ctx d) ∧
        t.settings = s.settings ∧ t.link = s.link)) ∧
    (∀ zone, h.status = .enrolled zone → (r.kind = .locate ∨ r.kind = .renew ∨ (r.kind = .originate ∧ open_)) →
      exec (.fragClose o x) s = refused .notAttached) ∧
    (∀ at_ c pending, h.status = .engaged at_ c pending →
      (r.kind = .locate ∨ r.kind = .renew ∨ (r.kind = .originate ∧ open_)) → exec (.fragClose o x) s = refused .inCall) ∧
    (r.kind = .attach →
      let decided := (idle.setHandset i (some seen)).decideAccess i seen r
      exec (.fragClose o x) s = answered decided.2 decided.1)

/-- Unknown tags and MALFORMED requests (R57): the whole next state, so that no notice is posted and nothing is counted.
-/
def Obligations.UnknownAndMalformedTrains : Prop :=
  ∀ (s : State) (o : Origin) (x : Byte) (train : Train),
    let b := originBase o
    let r := train.request b
    let idle := s.fresh.setTrain b none
    let answered := fun (t : State) (cause : AnswerCause) (owner : OrderOwner) =>
      Host.Outcome.next (φ := Fault) (ρ := Refusal)
        { t.setBase b { s.base b with
            nextSerial := (s.base b).nextSerial + 1
            window := (s.base b).window ++ [newEntry (s.base b) .answer .registration owner none s.settings.timers.echo] } with
          ordersOut := [{ base := b, serial := (s.base b).nextSerial, order := .answer r.tag cause }] }
    s.hears o = true → (s.base b).state = .inService → (s.base b).window.length < 4 → s.trains.get b = some train →
    train.judge s.settings.parity x = .good →
    ((∀ j k, s.handset j = some k → k.tag ≠ r.tag) → r.kind ≠ .malformed →
      exec (.fragClose o x) s = answered idle .unknown .none) ∧
    ((∀ j k, s.handset j = some k → k.tag ≠ r.tag) → r.kind = .malformed → exec (.fragClose o x) s = .next idle) ∧
    ∀ (i : SlotIx) (h : Handset), s.names 1 (BitVec.ofNat 32 i.val) i h → h.tag = r.tag →
      (∀ j k, s.handset j = some k → k.tag = r.tag → j = i) → r.kind = .malformed →
      exec (.fragClose o x) s =
        answered (idle.setHandset i (some { h with lastAccess := some s.tick })) .malformed (.slot i)

/-- The decision on an ATTACH (R58, R59). -/
def Obligations.AttachAcceptedOrDenied : Prop :=
  ∀ (s : State) (i : SlotIx) (h : Handset) (r : AccessRequest), r.kind = .attach →
    (s.closedAt r.base = true → s.decideAccess i h r = (.closed, s.post (.refused i r.tag r.base .attach .closed))) ∧
    (s.closedAt r.base = false →
      (h.barred = true → s.decideAccess i h r = (.barred, s.post (.refused i r.tag r.base .attach .barred))) ∧
      (h.barred = false → r.credential = some h.credential →
        (h.status.state = .engaged →
          s.decideAccess i h r = (.inCall, s.post (.refused i r.tag r.base .attach .inCall))) ∧
        (∀ zone, h.status = .enrolled zone → s.decideAccess i h r = (.accept,
          (s.setHandset i (some { h with failures := 0
                                         status := .attached r.base (s.settings.timers.lifetime * 6000) none })).post
            (.attached i r.tag r.base h.status.location))) ∧
        ∀ at_ lifetime origination, h.status = .attached at_ lifetime origination → s.decideAccess i h r = (.accept,
          let t := s.setHandset i (some { h with failures := 0
                                                 status := .attached r.base (s.settings.timers.lifetime * 6000) origination })
          if at_ = r.base then t else t.post (.attached i r.tag r.base (.base at_)))) ∧
      (h.barred = false → r.credential ≠ some h.credential →
        (h.failures < 2 → s.decideAccess i h r = (.denied,
          (s.setHandset i (some { h with failures := h.failures + 1 })).post
            (.refused i r.tag r.base .attach .denied))) ∧
        (h.failures = 2 →
          let after := { h with
            failures := 3, barred := true
            status := match h.status with
              | .attached _ _ _ => .enrolled none
              | x => x }
          s.decideAccess i h r = (.denied,
            (s.setHandset i (some after)).post (.barredByFailures i r.tag r.base after.status.state)))))

/-- LIFETIME_EXPIRY (R65) and ORIGINATION_EXPIRY (R66). That a deadline not due changes nothing is the model's choice
(log entry 3); that a due one also expires in HALTED is the model's reading (log entry 28). -/
def Obligations.HandsetDeadlinesLapse : Prop :=
  ∀ (s : State) (i : SlotIx),
    (∀ h b origination, s.handset i = some h → h.status = .attached b 0 origination →
      exec (.lifetimeExpiry i) s = .next ((s.fresh.setHandset i (some { h with status := .enrolled none })).post
        (.lapsed i h.tag b origination.isSome))) ∧
    ((∀ h b origination, s.handset i = some h → h.status ≠ .attached b 0 origination) →
      exec (.lifetimeExpiry i) s = .next s.fresh) ∧
    (∀ h b lifetime, s.handset i = some h → h.status = .attached b lifetime (some 0) →
      exec (.originationExpiry i) s = .next ((s.fresh.setHandset i (some { h with
        status := .attached b lifetime none })).post (.originationExpired i h.tag b))) ∧
    ((∀ h b lifetime, s.handset i = some h → h.status ≠ .attached b lifetime (some 0)) →
      exec (.originationExpiry i) s = .next s.fresh)

/-- ARRIVAL (R18, R72, R79, R158). -/
def Obligations.ArrivalConnectsCall : Prop :=
  ∀ (s : State) (o : Origin) (ch : ChanIx) (tag : Tag),
    let b := originBase o
    let p : ChanRef := ⟨b, ch⟩
    s.hears o = true → (s.base b).state = .inService → ch.val < (s.cfg b).channels →
    (∀ (owner : Owner) (i : CallInfo) (d : Option Nat), s.chan p = .reserved owner tag →
      (s.ctx owner.call).use = owner.use → (s.ctx owner.call).call = some i → i.stage = .setup d →
      exec (.arrival o ch tag) s = .next (((s.fresh.setChan p (.busy owner)).setCtx owner.call
        { s.ctx owner.call with call := some { i with stage := .active, reachedActive := true } }).post
        (match i.kind with
          | .localCall direction => .connected (i.ref owner.call) i.serving direction
          | .zoneIn zone => .zoneInArrived (i.ref owner.call) i.serving zone))) ∧
    (∀ owner expected, s.chan p = .reserved owner expected → expected ≠ tag →
      exec (.arrival o ch tag) s = .next s.fresh) ∧
    ((∃ owner, s.chan p = .busy owner ∨ s.chan p = .releasing (some owner)) ∨ s.chan p = .releasing none ∨
        s.chan p = .releaseOwed → exec (.arrival o ch tag) s = .next s.fresh) ∧
    (s.chan p = .free → (s.base b).window.length < 4 → exec (.arrival o ch tag) s = .next
      (({ s.fresh.setBase b { s.base b with
          nextSerial := (s.base b).nextSerial + 1
          window := (s.base b).window ++ [newEntry (s.base b) .release .callUnit .none (some ch) s.settings.timers.echo] } with
        ordersOut := [{ base := b, serial := (s.base b).nextSerial, order := .release ch }] }).setChan p
        (.releasing none)))

/-- The completion of a local handover from SWITCHING or PREPARING (R87, R137, R142, R143), the candidates it leaves by
`remainingEntries` and `offeredEntry` (R121). That the former serving base of the call is the one offered, also when it
was lost, is the model's reading (log entry 15). -/
def Obligations.TargetArrivalCompletesHandover : Prop :=
  ∀ (s : State) (o : Origin) (ch : ChanIx) (c : CallIx) (i : CallInfo) (h : Handset) (rescue detach : Bool)
    (old : Option ChanRef) (strays deadline : Nat) (at_ : BaseIx),
    let p : ChanRef := ⟨originBase o, ch⟩
    s.hears o = true → (s.base p.base).state = .inService → ch.val < (s.cfg p.base).channels →
    s.chan p = .reserved (s.ownerOf c) i.tag → (s.ctx c).call = some i → i.stage = .active →
    ((s.ctx c).phase = .switching p rescue old strays deadline ∨
      ((s.ctx c).phase = .preparing p rescue ∧ old = some i.serving ∧ strays = 0)) → i.serving.base ≠ p.base →
    s.handset i.slot = some h → h.status = .engaged at_ c detach →
    ∃ t, exec (.arrival o ch i.tag) s = .next t ∧
      t.chan p = .busy (s.ownerOf c) ∧ (t.chan i.serving).heldBy (s.ownerOf c) = false ∧
      (∀ q, q ≠ p → q ≠ i.serving → t.chan q = s.chan q) ∧
      (t.ctx c).call = some { i with serving := p } ∧ (t.ctx c).phase = .none ∧
      (t.ctx c).guard = (if s.settings.timers.guard = 0 then none else some s.settings.timers.guard) ∧
      (t.ctx c).serving =
        ((s.ctx c).candidates.find? fun e => e.target == .localBase p.base).map Candidate.average ∧
      (let list := (s.cfg p.base).neighbours
        let kept := remainingEntries list p.base (s.ctx c).candidates
        ((s.ctx c).serving = none ∨ placeOf list (.localBase i.serving.base) = none → (t.ctx c).candidates = kept) ∧
        ∀ noted k, (s.ctx c).serving = some noted → placeOf list (.localBase i.serving.base) = some k →
          offeredEntry kept { target := .localBase i.serving.base, position := k, average := noted, dwell := 0, misses := 0
                              lastCompare := .unordered, lastScore := none, penalty := none } (t.ctx c).candidates) ∧
      (t.ctx c).uplink = none ∧ (∀ e ∈ (t.ctx c).candidates, e.dwell = 0 ∧ e.misses = 0 ∧ e.lastScore = none ∧
        e.lastCompare = .unordered ∧ e.target ≠ .localBase p.base) ∧
      (t.ctx c).ring = (s.ctx c).ring ∧ (∀ d, d ≠ c → t.ctx d = s.ctx d) ∧
      t.handset i.slot = some { h with status := .engaged p.base c detach } ∧
      t.classes.get 1 = (s.classes.get 1).file
        { tick := s.tick, body := .completed (i.ref c) old p rescue strays (s.ctx c).attempts } ∧
      (∀ b, b ≠ i.serving.base → t.base b = s.base b) ∧ t.settings = s.settings

/-- LOSS (R18, R85). -/
def Obligations.RadioLossClearsCall : Prop :=
  ∀ (s : State) (o : Origin) (ch : ChanIx) (tag : Tag),
    let p : ChanRef := ⟨originBase o, ch⟩
    s.hears o = true → (s.base p.base).state = .inService → ch.val < (s.cfg p.base).channels →
    ((∀ c i, (s.ctx c).call = some i → ¬(i.stage = .active ∧ i.serving = p ∧ i.tag = tag)) →
      exec (.loss o ch tag) s = .next s.fresh) ∧
    ∀ c i, (s.ctx c).call = some i → i.stage = .active → i.serving = p → i.tag = tag →
      (∀ d j, (s.ctx d).call = some j → j.stage = .active → j.serving = p → j.tag = tag → d = c) →
      ((s.ctx c).phase.name = .switching ∨ (s.ctx c).phase.name = .switchingOut →
        exec (.loss o ch tag) s = .next s.fresh) ∧
      ((s.ctx c).phase.name ≠ .switching → (s.ctx c).phase.name ≠ .switchingOut →
        ∃ t, exec (.loss o ch tag) s = .next t ∧
          ((t.ctx c).call = none ∨ (t.ctx c).call = some { i with stage := .clearing .lost }) ∧
          (t.ctx c).phase = .none ∧ (∀ d, d ≠ c → t.ctx d = s.ctx d) ∧ t.settings = s.settings ∧ t.link = s.link)

/-- REPORT (R18, R92 to R102, R138): packed, a stray, or a sample, with what the evaluation of the sample decides
(`SmoothingMovesTowardsReading`, `ChoiceTakesBestScore`), the stickies and class 3 notices of its DIVERGE and SATURATE
conditions (R111, R112, R114, R168), the attempt that a TRIGGER or RESCUE starts (R126, R134, R149) and the captures
that the sample completes (R173). That an unlisted position named twice counts once is the model's reading (log entry
13). -/
def Obligations.ReportTakenPackedOrStray : Prop :=
  ∀ (s : State) (o : Origin) (f : ReportFrame),
    let b := originBase o
    s.hears o = true → (s.base b).state = .inService → f.count.toNat ≤ 4 →
    ((∀ (c : CallIx) (i : CallInfo), c.val = f.call.toNat → (s.ctx c).call = some i →
        ¬(i.stage = .active ∧ i.serving = ⟨b, f.channel⟩)) → exec (.report o f) s = .next s.fresh) ∧
    ∀ (c : CallIx) (i : CallInfo), c.val = f.call.toNat → (s.ctx c).call = some i → i.stage = .active →
      i.serving = ⟨b, f.channel⟩ →
      let x := s.ctx c
      ((∃ p r old n d, x.phase = .switching p r old n d ∧ exec (.report o f) s = .next (s.fresh.setCtx c { x with
          strays := min 255 (x.strays + 1), phase := .switching p r old (min 255 (n + 1)) d })) ∨
        (∃ z a ch r old n d, x.phase = .switchingOut z a ch r old n d ∧
          exec (.report o f) s = .next (s.fresh.setCtx c { x with
            strays := min 255 (x.strays + 1), phase := .switchingOut z a ch r old (min 255 (n + 1)) d })) ∨
        (x.phase.name ≠ .switching ∧ x.phase.name ≠ .switchingOut ∧
          ((∃ t, x.lastAccepted = some t ∧ (s.tick - t).toNat < s.settings.timers.spacing) →
            exec (.report o f) s = .next ((s.fresh.setCtx c { x with packed := min 255 (x.packed + 1) }).setBase b
              { s.base b with packed := min 65535 ((s.base b).packed + 1) })) ∧
          ((∀ t, x.lastAccepted = some t → s.settings.timers.spacing ≤ (s.tick - t).toNat) →
            ∃ t, exec (.report o f) s = .next t ∧ ∃ smp : Sample,
              (t.ctx c).ring = (x.ring ++ [smp]).drop (x.ring.length + 1 - 16) ∧
              (t.ctx c).nextSample = x.nextSample + 1 ∧ (t.ctx c).lastAccepted = some s.tick ∧
              smp.number = x.nextSample ∧ smp.tick = s.tick ∧ smp.downlink = classed f.downlink ∧
              (oddCheck f.readingA → smp.source = .a) ∧
              (¬oddCheck f.readingA → oddCheck f.readingB → smp.source = .b) ∧
              (¬oddCheck f.readingA → ¬oddCheck f.readingB →
                smp.source = .none ∧ smp.uplink = none ∧ smp.uplinkRange = false) ∧
              (∀ taken, (smp.source = .a ∧ taken = f.readingA.value) ∨ (smp.source = .b ∧ taken = f.readingB.value) →
                smp.uplink = (if taken.toNat ≤ 100 then some taken.toNat else none) ∧
                (smp.uplinkRange = true ↔ 100 < taken.toNat ∧ taken.toNat < 127)) ∧
              smp.neighbours = listedReadings (s.cfg b).neighbours f.neighbours ∧
              (t.ctx c).unlisted = min 255 (x.unlisted + unlistedReadings (s.cfg b).neighbours f.neighbours) ∧
              (smp.doubtful = true ↔ oddCheck f.readingA ∧ oddCheck f.readingB ∧
                f.readingA.value.toNat ≤ 100 ∧ f.readingB.value.toNat ≤ 100 ∧
                (f.readingA.value.toNat + s.settings.evaluator.diversity < f.readingB.value.toNat ∨
                  f.readingB.value.toNat + s.settings.evaluator.diversity < f.readingA.value.toNat)) ∧
              (let v := evaluate (s.evalContext c i) x.serving x.uplink x.candidates
                { smp with decision := .none, best := none }
              let moving := v.verdict.decision == .rescue
              smp.decision = v.verdict.decision ∧ smp.best = v.verdict.best ∧
              (t.ctx c).serving = v.serving ∧ (t.ctx c).uplink = v.uplink ∧ (t.ctx c).candidates = v.candidates ∧
              (let e := s.settings.evaluator
                let diverged := divergesMet e x.serving x.uplink x.candidates smp
                let saturated := saturatesMet (s.evalContext c i) x.serving x.candidates smp
                (t.ctx c).divergeSticky = (x.divergeSticky || (e.divergeMasked && !diverged.isEmpty)) ∧
                t.divergeSticky = (s.divergeSticky || (e.divergeMasked && !diverged.isEmpty)) ∧
                (t.ctx c).saturateSticky = (x.saturateSticky || (e.saturateMasked && !saturated.isEmpty)) ∧
                t.saturateSticky = (s.saturateSticky || (e.saturateMasked && !saturated.isEmpty)) ∧
                t.classes.get 3 = (s.classes.get 3).fileAll s.tick
                  ((if e.divergeMasked then [] else diverged.map fun q => .diverge c smp.number q.1 q.2.1 q.2.2) ++
                    if e.saturateMasked then [] else saturated.map fun q => .saturate c smp.number q.1 q.2)) ∧
              (t.ctx c).guard = x.guard ∧ (t.ctx c).use = x.use ∧
              (v.verdict.chosen = none → (t.ctx c).phase = x.phase ∧ (t.ctx c).orderNo = x.orderNo ∧
                (t.ctx c).attempts = x.attempts ∧ t.ordersOut = [] ∧ t.bases = s.bases ∧ t.channels = s.channels ∧
                t.classes.get 1 = s.classes.get 1) ∧
              (∀ entry n, v.verdict.chosen = some (entry, n) →
                (t.ctx c).attempts = min 255 (x.attempts + 1) ∧
                (∀ zone a, entry.target = .foreignBase zone a →
                  (t.ctx c).phase = .handingOut zone a moving s.settings.timers.zone ∧ (t.ctx c).orderNo = x.orderNo ∧
                  t.ordersOut = [] ∧ t.bases = s.bases ∧ t.channels = s.channels ∧
                  t.classes.get 1 = (s.classes.get 1).file
                    { tick := s.tick
                      body := .zoneOutRequest (i.ref c) i.serving zone a entry.average v.serving moving
                        (min 255 (x.attempts + 1)) }) ∧
                ∀ a, entry.target = .localBase a → ∃ ch, ch ∈ s.freeChannels a ∧ (∀ k ∈ s.freeChannels a, ch ≤ k) ∧
                  (t.ctx c).phase = .preparing ⟨a, ch⟩ moving ∧ (t.ctx c).orderNo = x.orderNo + 1 ∧
                  t.channels = (s.setChan ⟨a, ch⟩ (.reserved (s.ownerOf c) i.tag)).channels ∧
                  t.bases = (s.setBase a { s.base a with
                    nextSerial := (s.base a).nextSerial + 1
                    window := (s.base a).window ++ [newEntry (s.base a) .assign .sequencer
                      (.call c x.use (x.orderNo + 1)) (some ch) s.settings.timers.echo] }).bases ∧
                  t.ordersOut = [{ base := a, serial := (s.base a).nextSerial, order := .assign ch c i.tag }] ∧
                  t.classes.get 1 = s.classes.get 1)) ∧
              (∀ k, t.slots.get k = match (s.slots.get k).awaits c with
                | some h => .complete h .ok ((t.ctx c).ring.drop ((t.ctx c).ring.length - h.count)) s.settings.zone
                | none => s.slots.get k) ∧
              t.classes.get 6 = (s.classes.get 6).fileAll s.tick
                ((indices 4).filterMap fun k => ((s.slots.get k).awaits c).map fun _ => .captureDone k c .ok) ∧
              (∀ d, d ≠ c → t.ctx d = s.ctx d) ∧
              (t.ctx c).call = some i ∧ t.settings = s.settings ∧ t.handsets = s.handsets ∧ t.link = s.link)))

/-- Smoothing (R109): between the average and the term, and twice the step lies within half a unit of the exact
quotient, ties going away from the old average. An average after a reading (R110, R111, R112); score, compare and dwell
of an entry (R113, R114, R115, R116, R119); the DIVERGE and SATURATE conditions of a sample in place order (R111, R112,
R114); a doubtful sample (R118). -/
def Obligations.SmoothingMovesTowardsReading : Prop :=
  ((∀ a term : Nat, smooth 0 a term = term) ∧
   ∀ k a term : Nat, min a term ≤ smooth k a term ∧ smooth k a term ≤ max a term ∧
     (a ≤ term → 2 ^ k * (2 * (smooth k a term - a)) ≤ 2 * (term - a) + 2 ^ k ∧
       2 * (term - a) < 2 ^ k * (2 * (smooth k a term - a)) + 2 ^ k) ∧
     (term ≤ a → 2 ^ k * (2 * (a - smooth k a term)) ≤ 2 * (a - term) + 2 ^ k ∧
       2 * (a - term) < 2 ^ k * (2 * (a - smooth k a term)) + 2 ^ k)) ∧
  (∀ (e : EvaluatorSettings) (a : Option Nat),
    e.averageIf a none = { average := a, diverged := false, aside := false } ∧
    (∀ l, e.averageIf none (some l) = { average := some (4 * l), diverged := false, aside := false }) ∧
    ∀ (old l : Nat), a = some old →
      (4 * l ≤ old + 4 * e.divergence → old ≤ 4 * l + 4 * e.divergence →
        e.averageIf a (some l) = { average := some (smooth e.smoothing old (4 * l)), diverged := false, aside := false }) ∧
      (old + 4 * e.divergence < 4 * l ∨ 4 * l + 4 * e.divergence < old →
        (e.divergeMasked = false → e.averageIf a (some l) = { average := a, diverged := true, aside := true }) ∧
        (e.divergeMasked = true → e.averageIf a (some l) =
          { average := some (smooth e.smoothing old
              (if old < 4 * l then old + 4 * e.divergence else old - 4 * e.divergence))
            diverged := true, aside := false }))) ∧
  (∀ (e : EvaluatorSettings) (list : List Neighbour) (low : Target → Bool) (serving : Option Nat) (x : Sample)
      (entry : Candidate),
    ((∀ n ∈ x.neighbours, n.target ≠ entry.target) →
      e.weigh list low serving x entry = Weighed.untouched entry ∧ e.weighDoubtful x entry = Weighed.untouched entry) ∧
    ∀ before n after, x.neighbours = before ++ n :: after → (∀ m ∈ before, m.target ≠ entry.target) →
      n.target = entry.target →
      let w := e.weigh list low serving x entry
      let taken := e.averageIf (some entry.average) n.reading.level
      let offset := ((list[entry.position.val]?).map Neighbour.offset).getD 0
      e.weighDoubtful x entry =
        { entry := { entry with average := taken.average.getD entry.average }, named := true, before := entry.dwell
          score := none, diverged := if taken.diverged then n.reading.level else none, saturated := none } ∧
      w.named = true ∧ w.before = entry.dwell ∧ w.diverged = (if taken.diverged then n.reading.level else none) ∧
      w.entry = { entry with
        average := taken.average.getD entry.average, misses := 0, lastScore := w.score
        lastCompare := match w.score with
          | none => .unordered
          | some score => if 0 < score then .better else if score = 0 then .equal else .worse
        dwell := match w.score with
          | none => 0
          | some score => if 0 ≤ score then min 15 (entry.dwell + 1) else 0 } ∧
      (serving = none ∨ taken.aside = true ∨ (∀ l, n.reading ≠ .valid l) → w.score = none ∧ w.saturated = none) ∧
      ∀ l a, n.reading = .valid l → serving = some a → taken.aside = false →
        let raw : Int := (taken.average.getD entry.average : Int) + 4 * offset - a - 4 * e.hysteresis -
          (if low entry.target then 4 * e.loadPenalty else 0)
        (-256 ≤ raw → raw ≤ 255 → w.score = some raw ∧ w.saturated = none) ∧
        (255 < raw → w.score = (if e.saturateMasked then some 255 else none) ∧ w.saturated = some raw) ∧
        (raw < -256 → w.score = (if e.saturateMasked then some (-256) else none) ∧ w.saturated = some raw)) ∧
  ∀ (k : EvalContext) (serving uplink : Option Nat) (candidates : List Candidate) (x : Sample),
    let v := evaluate k serving uplink candidates x
    v.serving = (k.settings.averageIf serving x.downlink.level).average ∧
    v.uplink = (k.settings.averageIf uplink x.uplink).average ∧
    v.diverged = divergesMet k.settings serving uplink candidates x ∧
    v.saturated = saturatesMet k serving candidates x ∧
    (x.doubtful = true → v.candidates = candidates.map (fun e => (k.settings.weighDoubtful x e).entry) ∧
      v.verdict = { decision := .doubtful, best := none, chosen := none } ∧ v.saturated = [])

/-- The choice of a target (R124, R125), misses (R120), insertion (R121), the stages of a sample that is not doubtful
(R117), eligibility (R122), the load penalty's test (R113), and the decision with its best candidate (R123, R124, R125,
R126). That each insertion of a sample is judged against the list as the ones before it left it is the model's reading
(log entry 14). -/
def Obligations.ChoiceTakesBestScore : Prop :=
  (∀ (p : Weighed → Bool) (l : List Weighed),
     (choose p l = none ↔ ∀ w ∈ l, p w = true → w.score = none) ∧
     ∀ w n, choose p l = some (w, n) → ∃ before after, l = before ++ w :: after ∧ w.score = some n ∧ p w = true ∧
       (∀ v ∈ before, p v = true → ∀ m, v.score = some m → m < n ∨ (m = n ∧ v.entry.dwell < w.entry.dwell)) ∧
       ∀ v ∈ after, p v = true → ∀ m, v.score = some m → m < n ∨ (m = n ∧ v.entry.dwell ≤ w.entry.dwell)) ∧
  (∀ w : Weighed,
    (w.named = true → w.missed = some w) ∧
    (w.named = false → w.entry.misses < 2 →
      w.missed = some { w with entry := { w.entry with misses := w.entry.misses + 1 } }) ∧
    (w.named = false → 2 ≤ w.entry.misses → w.missed = none)) ∧
  (∀ (t : Target) (p : Fin 8) (average : Nat) (l : List Weighed),
    let fresh := Weighed.untouched { target := t, position := p, average := average, dwell := 0, misses := 0
                                     lastCompare := .unordered, lastScore := none, penalty := none }
    let result := insertRule Weighed.entry Weighed.untouched t p average l
    ((∃ w ∈ l, w.entry.target = t) → result = l) ∧
    ((∀ w ∈ l, w.entry.target ≠ t) → l.length < 6 → result = l ++ [fresh]) ∧
    ∀ before w after, l = before ++ w :: after → (∀ v ∈ l, v.entry.target ≠ t) → 6 ≤ l.length →
      (∀ v ∈ before, w.entry.average ≤ v.entry.average) → (∀ v ∈ after, w.entry.average < v.entry.average) →
      result = if w.entry.average < average then before ++ after ++ [fresh] else l) ∧
  (∀ (k : EvalContext) (serving uplink : Option Nat) (candidates : List Candidate) (x : Sample), x.doubtful = false →
    let entries := offeredEntries (weighedEntries k serving candidates x) x.neighbours
    (evaluate k serving uplink candidates x).candidates = entries.map Weighed.entry ∧
    (evaluate k serving uplink candidates x).verdict = k.settings.judge k.eligible k.idle k.guarded
      (k.settings.averageIf uplink x.uplink).average entries) ∧
  (∀ (e : EvaluatorSettings) (eligible : Candidate → Bool) (idle guarded : Bool) (uplink : Option Nat)
      (l : List Weighed),
    let v := e.judge eligible idle guarded uplink l
    let rescued := rescueApplies e uplink ∧ ∃ w ∈ l, passesRescue e w ∧ eligible w.entry = true
    let triggered := ∃ w ∈ l, passesTrigger e w ∧ eligible w.entry = true
    let rescuer := rescueApplies e uplink ∧ ∃ w ∈ l, passesRescue e w
    let trigger := ∃ w ∈ l, passesTrigger e w
    (idle = false → v.decision = .held) ∧
    (idle = true → rescued → v.decision = .rescue) ∧
    (idle = true → ¬rescued → guarded = true → v.decision = .guarded) ∧
    (idle = true → ¬rescued → guarded = false → triggered → v.decision = .trigger) ∧
    (idle = true → ¬rescued → guarded = false → ¬triggered → rescuer ∨ trigger → v.decision = .blocked) ∧
    (idle = true → ¬rescuer → guarded = false → ¬trigger → v.decision = .none) ∧
    (v.decision = .rescue → ∃ w n, comesFirst (fun w => passesRescue e w ∧ eligible w.entry = true) l w n ∧
      v.best = some (w.entry.target, n) ∧ v.chosen = some (w.entry, n)) ∧
    (v.decision = .trigger → ∃ w n, comesFirst (fun w => passesTrigger e w ∧ eligible w.entry = true) l w n ∧
      v.best = some (w.entry.target, n) ∧ v.chosen = some (w.entry, n)) ∧
    (v.decision = .blocked → v.chosen = none ∧ ∃ w n, v.best = some (w.entry.target, n) ∧
      (rescuer → comesFirst (passesRescue e) l w n) ∧ (¬rescuer → comesFirst (passesTrigger e) l w n)) ∧
    (v.decision = .held ∨ v.decision = .guarded ∨ v.decision = .none → v.chosen = none ∧
      ((∀ w ∈ l, w.score = none) → v.best = none) ∧
      ((∃ w ∈ l, w.score ≠ none) → ∃ w n, v.best = some (w.entry.target, n) ∧ comesFirst (fun _ => True) l w n))) ∧
  ∀ (s : State) (c : CallIx) (serving : BaseIx) (e : Candidate),
    (s.eligible c serving e = true ↔ e.penalty = none ∧
      ((∃ zone a, e.target = .foreignBase zone a) ∨
        ∃ a, e.target = .localBase a ∧ (s.base a).state = .inService ∧ (s.base a).held = false ∧
          (s.base a).degraded = false ∧ s.freeChannels a ≠ [] ∧ (s.base a).window.length < 4 ∧
          ∀ p, (s.chan p).ownedBy (s.ownerOf c) = true → p.base = serving)) ∧
    (s.lowFree e.target = true ↔ ∃ a, e.target = .localBase a ∧ (s.freeChannels a).length < 2)

/-- SETUP_DEADLINE_EXPIRY (R80, R81, R83, R158). ZONE_DEADLINE_EXPIRY (R152, R132), GUARD_EXPIRY (R144) and
PENALTY_EXPIRY (R127). That a deadline not due changes nothing is the model's choice (log entry 3). -/
def Obligations.CallDeadlinesExpire : Prop :=
  (∀ (s : State) (c : CallIx),
     (∀ i, (s.ctx c).call = some i → i.stage = .setup (some 0) → ∃ t, exec (.setupDeadlineExpiry c) s = .next t ∧
       ((t.ctx c).call = none ∨ (t.ctx c).call = some { i with stage := .clearing (.setupFailed .timeout) }) ∧
       (∀ p, (t.chan p).heldBy (s.ownerOf c) = false) ∧ (∀ d, d ≠ c → t.ctx d = s.ctx d) ∧
       t.settings = s.settings ∧ t.slots = s.slots ∧ t.link = s.link) ∧
     ((∀ i, (s.ctx c).call = some i → i.stage ≠ .setup (some 0)) →
       exec (.setupDeadlineExpiry c) s = .next s.fresh)) ∧
  (∀ (s : State) (c : CallIx),
     (∀ i zone base rescue, (s.ctx c).call = some i → (s.ctx c).phase = .handingOut zone base rescue 0 →
       exec (.zoneDeadlineExpiry c) s = .next
         (((s.fresh.setCtx c { s.ctx c with
             phase := .none
             candidates := (s.ctx c).candidates.map fun e =>
               if e.target = .foreignBase zone base ∧ s.settings.timers.penalty ≠ 0 then
                 { e with penalty := some s.settings.timers.penalty }
               else e }).post
           (.failed (i.ref c) i.serving (.foreignBase zone base) .zoneTimeout .handingOut rescue
             (s.ctx c).attempts)).markFailure)) ∧
     ((∀ zone base rescue, (s.ctx c).phase ≠ .handingOut zone base rescue 0) →
       exec (.zoneDeadlineExpiry c) s = .next s.fresh) ∧
     ((s.ctx c).guard = some 0 → exec (.guardExpiry c) s = .next (s.fresh.setCtx c { s.ctx c with guard := none })) ∧
     ((s.ctx c).guard ≠ some 0 → exec (.guardExpiry c) s = .next s.fresh) ∧
     ∀ target : Target,
       (∃ t, exec (.penaltyExpiry c target) s = .next t ∧ t = s.fresh.setCtx c { s.ctx c with
         candidates := (s.ctx c).candidates.map fun e =>
           if e.target = target ∧ e.penalty = some 0 then { e with penalty := none } else e }) ∧
       ((∀ e ∈ (s.ctx c).candidates, e.target = target → e.penalty ≠ some 0) →
         exec (.penaltyExpiry c target) s = .next s.fresh))

/-- SWITCH_DEADLINE_EXPIRY (R132, R133, R140, R154). That a deadline not due changes nothing is the model's choice (log
entry 3). -/
def Obligations.SwitchDeadlineRevertsOrLoses : Prop :=
  ∀ (s : State) (c : CallIx),
    (∀ (i : CallInfo) (target : Target) (rescue : Bool) (old : Option ChanRef) (strays : Nat),
      (s.ctx c).call = some i → i.stage = .active →
      ((∃ p : ChanRef, target = .localBase p.base ∧ (s.ctx c).phase = .switching p rescue old strays 0) ∨
        ∃ z b ch, target = .foreignBase z b ∧ (s.ctx c).phase = .switchingOut z b ch rescue old strays 0) →
      ∃ t, exec (.switchDeadlineExpiry c) s = .next t ∧ (t.ctx c).phase = .none ∧
        (∀ d, d ≠ c → t.ctx d = s.ctx d) ∧ t.settings = s.settings ∧
        (old ≠ none → strays ≠ 0 → (t.ctx c).call = some i ∧
          t.classes.get 1 = (s.classes.get 1).file { tick := s.tick
                                                     body := .failed (i.ref c) i.serving target .reverted (s.ctx c).phase.name rescue (s.ctx c).attempts }) ∧
        (old = none ∨ strays = 0 →
          ((t.ctx c).call = none ∨ (t.ctx c).call = some { i with stage := .clearing .lost }) ∧
          t.classes.get 1 = (s.classes.get 1).file { tick := s.tick
                                                     body := .lostInSwitch (i.ref c) old target (if old = none then .oldLinkGone else .noStrays) strays rescue
                                                       (s.ctx c).attempts })) ∧
    ((s.ctx c).phase.deadline ≠ some 0 ∨ (s.ctx c).phase.name = .handingOut →
      exec (.switchDeadlineExpiry c) s = .next s.fresh)

/-- Every step keeps each of the laws `State.windowsBounded` (R28), `State.classesBounded` (R161, R165),
`State.linkBounded` (R179, R180), `State.countersBounded` (R33, R91, R130), `State.settingsInRange` (R11 to R15) and
`State.switchStraysBounded` (R130). -/
def Obligations.BoundsKept : Prop :=
  (∀ s t : State, s.windowsBounded → Sys2Proof.Machine.step s = .next t → t.windowsBounded) ∧
  (∀ s t : State, s.classesBounded → Sys2Proof.Machine.step s = .next t → t.classesBounded) ∧
  (∀ s t : State, s.linkBounded → Sys2Proof.Machine.step s = .next t → t.linkBounded) ∧
  (∀ s t : State, s.countersBounded → Sys2Proof.Machine.step s = .next t → t.countersBounded) ∧
  (∀ s t : State, s.settingsInRange → Sys2Proof.Machine.step s = .next t → t.settingsInRange) ∧
  (∀ s t : State, s.switchStraysBounded → Sys2Proof.Machine.step s = .next t → t.switchStraysBounded)

/-- Every step keeps each of the laws `State.callsOnlyInService` (R5), `State.haltedIsOff` (R1, R6) and, with the base
link off in HALTED, `State.channelsInService` (R70); `State.ownersCurrent` (R70, R74) and, with it,
`State.twoBasesAtMost` (R70). -/
def Obligations.RunStateLawsKept : Prop :=
  (∀ s t : State, s.callsOnlyInService → Sys2Proof.Machine.step s = .next t → t.callsOnlyInService) ∧
  (∀ s t : State, s.haltedIsOff → Sys2Proof.Machine.step s = .next t → t.haltedIsOff) ∧
  (∀ s t : State, s.channelsInService → s.haltedIsOff → Sys2Proof.Machine.step s = .next t → t.channelsInService) ∧
  (∀ s t : State, s.ownersCurrent → Sys2Proof.Machine.step s = .next t → t.ownersCurrent) ∧
  (∀ s t : State, s.twoBasesAtMost → s.ownersCurrent → Sys2Proof.Machine.step s = .next t → t.twoBasesAtMost)

/-- Every step keeps each of the laws `State.tagsUnique` (R51) and `State.failuresBounded` (R59). -/
def Obligations.HandsetTableLawsKept : Prop :=
  (∀ s t : State, s.tagsUnique → Sys2Proof.Machine.step s = .next t → t.tagsUnique) ∧
  (∀ s t : State, s.failuresBounded → Sys2Proof.Machine.step s = .next t → t.failuresBounded)

/-- Every step keeps the law `State.engagedBound`. -/
def Obligations.EngagedBoundKept : Prop :=
  ∀ s t : State, s.engagedBound → Sys2Proof.Machine.step s = .next t → t.engagedBound

/-- Every step keeps each of the laws `State.ringsOrdered` (R102), `State.candidatesDistinct` (R108),
`State.averagesBounded` (R109) and `State.scoresBounded` (R114); `State.configChecked` (R2, R3, R11); with the base link
off in HALTED `State.unusedAreDisabled` (R13, R19); and with the latter two `State.servingNoCandidate` (R108). -/
def Obligations.ContextLawsKept : Prop :=
  (∀ s t : State, s.ringsOrdered → Sys2Proof.Machine.step s = .next t → t.ringsOrdered) ∧
  (∀ s t : State, s.candidatesDistinct → Sys2Proof.Machine.step s = .next t → t.candidatesDistinct) ∧
  (∀ s t : State, s.averagesBounded → Sys2Proof.Machine.step s = .next t → t.averagesBounded) ∧
  (∀ s t : State, s.scoresBounded → Sys2Proof.Machine.step s = .next t → t.scoresBounded) ∧
  (∀ s t : State, s.configChecked → Sys2Proof.Machine.step s = .next t → t.configChecked) ∧
  (∀ s t : State, s.unusedAreDisabled → s.haltedIsOff → Sys2Proof.Machine.step s = .next t → t.unusedAreDisabled) ∧
  (∀ s t : State, s.servingNoCandidate → s.configChecked → s.unusedAreDisabled →
    Sys2Proof.Machine.step s = .next t → t.servingNoCandidate)

/-- The laws of the device hold right after reset. -/
def Obligations.LawsHoldAtReset : Prop :=
  State.reset.lawful

end
end

