-- ==== Sys2Proof/Laws/Table.lean ====
section
/-! SUPPORT. Reading a table after each of its operations, and what a search in it finds. -/

namespace Sys2Proof

variable {α β γ : Type} {n : Nat}

@[ext] theorem Table.ext_get {t u : Table α n} (h : ∀ i, t.get i = u.get i) : t = u := by
  obtain ⟨l, hl⟩ := t
  obtain ⟨m, hm⟩ := u
  have : l = m := List.ext_getElem (hl.trans hm.symm) fun i hi _ => h ⟨i, hl ▸ hi⟩
  subst this
  rfl

@[simp] theorem Table.get_set_self (t : Table α n) (i : Fin n) (a : α) : (t.set i a).get i = a := by
  simp [Table.get, Table.set]

theorem Table.get_set_ne (t : Table α n) {i j : Fin n} (a : α) (h : i ≠ j) : (t.set i a).get j = t.get j := by
  have : i.val ≠ j.val := fun e => h (Fin.ext e)
  simp [Table.get, Table.set, List.getElem_set_ne this]

theorem Table.get_set (t : Table α n) (i j : Fin n) (a : α) :
    (t.set i a).get j = if i = j then a else t.get j := by
  split
  · next h => rw [h, Table.get_set_self]
  · next h => exact t.get_set_ne a h

@[simp] theorem Table.set_get_self (t : Table α n) (i : Fin n) : t.set i (t.get i) = t := by
  apply Table.ext_get
  intro j
  rw [Table.get_set]
  split
  · next h => rw [h]
  · rfl

@[simp] theorem Table.set_set (t : Table α n) (i : Fin n) (a b : α) : (t.set i a).set i b = t.set i b := by
  apply Table.ext_get
  intro j
  simp only [Table.get_set]
  split <;> rfl

@[simp] theorem Table.get_map (f : α → β) (t : Table α n) (i : Fin n) : (t.map f).get i = f (t.get i) := by
  simp [Table.get, Table.map]

@[simp] theorem Table.get_zip (f : α → β → γ) (t : Table α n) (u : Table β n) (i : Fin n) :
    (Table.zip f t u).get i = f (t.get i) (u.get i) := by
  simp [Table.get, Table.zip]

@[simp] theorem Table.get_fill (a : α) (i : Fin n) : (Table.fill n a).get i = a := by
  simp [Table.get, Table.fill]

theorem Table.mem_list_iff (t : Table α n) (a : α) : a ∈ t.list ↔ ∃ i, t.get i = a := by
  obtain ⟨l, hl⟩ := t
  subst hl
  rw [List.mem_iff_getElem]
  constructor
  · rintro ⟨i, hi, rfl⟩
    exact ⟨⟨i, hi⟩, rfl⟩
  · rintro ⟨i, rfl⟩
    exact ⟨i.val, i.isLt, rfl⟩

theorem Table.all_iff (p : α → Bool) (t : Table α n) : t.list.all p = true ↔ ∀ i, p (t.get i) = true := by
  simp only [List.all_eq_true, Table.mem_list_iff, forall_exists_index, forall_apply_eq_imp_iff]

theorem Table.any_iff (p : α → Bool) (t : Table α n) : t.list.any p = true ↔ ∃ i, p (t.get i) = true := by
  simp only [List.any_eq_true, Table.mem_list_iff]
  constructor
  · rintro ⟨_, ⟨i, rfl⟩, h⟩
    exact ⟨i, h⟩
  · rintro ⟨i, h⟩
    exact ⟨_, ⟨i, rfl⟩, h⟩

/-- The lowest index: its entry passes and no entry before it does. -/
theorem Table.lowest_eq_some_iff (p : α → Bool) (t : Table α n) (i : Fin n) :
    t.lowest p = some i ↔ p (t.get i) = true ∧ ∀ j < i, p (t.get j) = false := by
  obtain ⟨l, hl⟩ := t
  subst hl
  simp [Table.lowest, Table.get, List.findFinIdx?_eq_some_iff]

theorem Table.lowest_eq_none_iff (p : α → Bool) (t : Table α n) :
    t.lowest p = none ↔ ∀ i, p (t.get i) = false := by
  obtain ⟨l, hl⟩ := t
  subst hl
  simp only [Table.lowest, Option.map_eq_none_iff, List.findFinIdx?_eq_none_iff, Table.get]
  constructor
  · intro h i
    exact Bool.eq_false_iff.mpr (h _ (List.getElem_mem i.isLt))
  · intro h x hx
    obtain ⟨i, hi, rfl⟩ := List.mem_iff_getElem.mp hx
    exact Bool.eq_false_iff.mp (h ⟨i, hi⟩)

@[simp] theorem mem_indices (i : Fin n) : i ∈ indices n := List.mem_finRange i

theorem nodup_indices : (indices n).Nodup := List.nodup_finRange n

theorem toIndex_eq_some_iff (m k : Nat) (i : Fin m) : toIndex m k = some i ↔ i.val = k := by
  unfold toIndex
  split
  · next h => simp only [Option.some.injEq, Fin.ext_iff]; exact eq_comm
  · next h => simp only [false_iff, reduceCtorEq]; exact fun e => h (e ▸ i.isLt)

theorem toIndex_eq_none_iff (m k : Nat) : toIndex m k = none ↔ m ≤ k := by
  simp [toIndex]

@[simp] theorem toIndex_val (m : Nat) (i : Fin m) : toIndex m i.val = some i := by
  simp [toIndex]

end Sys2Proof
end

