-- ==== Sys2Proof/Laws/State.lean ====
section
/-! SUPPORT. One lemma per field per update of the state, and the read of each record after its own update. -/

namespace Sys2Proof.Machine

variable (s : State)

/-! ### fresh -/

@[simp] theorem State.fresh_pending : s.fresh.pending = s.pending := rfl
@[simp] theorem State.fresh_resetHeld : s.fresh.resetHeld = s.resetHeld := rfl
@[simp] theorem State.fresh_straps : s.fresh.straps = s.straps := rfl
@[simp] theorem State.fresh_runState : s.fresh.runState = s.runState := rfl
@[simp] theorem State.fresh_tick : s.fresh.tick = s.tick := rfl
@[simp] theorem State.fresh_settings : s.fresh.settings = s.settings := rfl
@[simp] theorem State.fresh_carriers : s.fresh.carriers = s.carriers := rfl
@[simp] theorem State.fresh_bases : s.fresh.bases = s.bases := rfl
@[simp] theorem State.fresh_trains : s.fresh.trains = s.trains := rfl
@[simp] theorem State.fresh_handsets : s.fresh.handsets = s.handsets := rfl
@[simp] theorem State.fresh_channels : s.fresh.channels = s.channels := rfl
@[simp] theorem State.fresh_contexts : s.fresh.contexts = s.contexts := rfl
@[simp] theorem State.fresh_divergeSticky : s.fresh.divergeSticky = s.divergeSticky := rfl
@[simp] theorem State.fresh_saturateSticky : s.fresh.saturateSticky = s.saturateSticky := rfl
@[simp] theorem State.fresh_classes : s.fresh.classes = s.classes := rfl
@[simp] theorem State.fresh_slots : s.fresh.slots = s.slots := rfl
@[simp] theorem State.fresh_markDrive : s.fresh.markDrive = s.markDrive := rfl
@[simp] theorem State.fresh_link : s.fresh.link = s.link := rfl
@[simp] theorem State.fresh_freeCount : s.fresh.freeCount = s.freeCount := rfl

/-! ### setBase -/

@[simp] theorem State.setBase_pending (b : BaseIx) (r : BaseRecord) : (s.setBase b r).pending = s.pending := rfl
@[simp] theorem State.setBase_resetHeld (b : BaseIx) (r : BaseRecord) : (s.setBase b r).resetHeld = s.resetHeld := rfl
@[simp] theorem State.setBase_straps (b : BaseIx) (r : BaseRecord) : (s.setBase b r).straps = s.straps := rfl
@[simp] theorem State.setBase_runState (b : BaseIx) (r : BaseRecord) : (s.setBase b r).runState = s.runState := rfl
@[simp] theorem State.setBase_tick (b : BaseIx) (r : BaseRecord) : (s.setBase b r).tick = s.tick := rfl
@[simp] theorem State.setBase_settings (b : BaseIx) (r : BaseRecord) : (s.setBase b r).settings = s.settings := rfl
@[simp] theorem State.setBase_carriers (b : BaseIx) (r : BaseRecord) : (s.setBase b r).carriers = s.carriers := rfl
@[simp] theorem State.setBase_trains (b : BaseIx) (r : BaseRecord) : (s.setBase b r).trains = s.trains := rfl
@[simp] theorem State.setBase_handsets (b : BaseIx) (r : BaseRecord) : (s.setBase b r).handsets = s.handsets := rfl
@[simp] theorem State.setBase_channels (b : BaseIx) (r : BaseRecord) : (s.setBase b r).channels = s.channels := rfl
@[simp] theorem State.setBase_contexts (b : BaseIx) (r : BaseRecord) : (s.setBase b r).contexts = s.contexts := rfl
@[simp] theorem State.setBase_divergeSticky (b : BaseIx) (r : BaseRecord) : (s.setBase b r).divergeSticky = s.divergeSticky := rfl
@[simp] theorem State.setBase_saturateSticky (b : BaseIx) (r : BaseRecord) : (s.setBase b r).saturateSticky = s.saturateSticky := rfl
@[simp] theorem State.setBase_classes (b : BaseIx) (r : BaseRecord) : (s.setBase b r).classes = s.classes := rfl
@[simp] theorem State.setBase_slots (b : BaseIx) (r : BaseRecord) : (s.setBase b r).slots = s.slots := rfl
@[simp] theorem State.setBase_markDrive (b : BaseIx) (r : BaseRecord) : (s.setBase b r).markDrive = s.markDrive := rfl
@[simp] theorem State.setBase_link (b : BaseIx) (r : BaseRecord) : (s.setBase b r).link = s.link := rfl
@[simp] theorem State.setBase_ordersOut (b : BaseIx) (r : BaseRecord) : (s.setBase b r).ordersOut = s.ordersOut := rfl
@[simp] theorem State.setBase_freeCount (b : BaseIx) (r : BaseRecord) : (s.setBase b r).freeCount = s.freeCount := rfl

/-! ### setCtx -/

@[simp] theorem State.setCtx_pending (c : CallIx) (x : Context) : (s.setCtx c x).pending = s.pending := rfl
@[simp] theorem State.setCtx_resetHeld (c : CallIx) (x : Context) : (s.setCtx c x).resetHeld = s.resetHeld := rfl
@[simp] theorem State.setCtx_straps (c : CallIx) (x : Context) : (s.setCtx c x).straps = s.straps := rfl
@[simp] theorem State.setCtx_runState (c : CallIx) (x : Context) : (s.setCtx c x).runState = s.runState := rfl
@[simp] theorem State.setCtx_tick (c : CallIx) (x : Context) : (s.setCtx c x).tick = s.tick := rfl
@[simp] theorem State.setCtx_settings (c : CallIx) (x : Context) : (s.setCtx c x).settings = s.settings := rfl
@[simp] theorem State.setCtx_carriers (c : CallIx) (x : Context) : (s.setCtx c x).carriers = s.carriers := rfl
@[simp] theorem State.setCtx_bases (c : CallIx) (x : Context) : (s.setCtx c x).bases = s.bases := rfl
@[simp] theorem State.setCtx_trains (c : CallIx) (x : Context) : (s.setCtx c x).trains = s.trains := rfl
@[simp] theorem State.setCtx_handsets (c : CallIx) (x : Context) : (s.setCtx c x).handsets = s.handsets := rfl
@[simp] theorem State.setCtx_channels (c : CallIx) (x : Context) : (s.setCtx c x).channels = s.channels := rfl
@[simp] theorem State.setCtx_divergeSticky (c : CallIx) (x : Context) : (s.setCtx c x).divergeSticky = s.divergeSticky := rfl
@[simp] theorem State.setCtx_saturateSticky (c : CallIx) (x : Context) : (s.setCtx c x).saturateSticky = s.saturateSticky := rfl
@[simp] theorem State.setCtx_classes (c : CallIx) (x : Context) : (s.setCtx c x).classes = s.classes := rfl
@[simp] theorem State.setCtx_slots (c : CallIx) (x : Context) : (s.setCtx c x).slots = s.slots := rfl
@[simp] theorem State.setCtx_markDrive (c : CallIx) (x : Context) : (s.setCtx c x).markDrive = s.markDrive := rfl
@[simp] theorem State.setCtx_link (c : CallIx) (x : Context) : (s.setCtx c x).link = s.link := rfl
@[simp] theorem State.setCtx_ordersOut (c : CallIx) (x : Context) : (s.setCtx c x).ordersOut = s.ordersOut := rfl
@[simp] theorem State.setCtx_freeCount (c : CallIx) (x : Context) : (s.setCtx c x).freeCount = s.freeCount := rfl

/-! ### setChan -/

@[simp] theorem State.setChan_pending (p : ChanRef) (k : Channel) : (s.setChan p k).pending = s.pending := rfl
@[simp] theorem State.setChan_resetHeld (p : ChanRef) (k : Channel) : (s.setChan p k).resetHeld = s.resetHeld := rfl
@[simp] theorem State.setChan_straps (p : ChanRef) (k : Channel) : (s.setChan p k).straps = s.straps := rfl
@[simp] theorem State.setChan_runState (p : ChanRef) (k : Channel) : (s.setChan p k).runState = s.runState := rfl
@[simp] theorem State.setChan_tick (p : ChanRef) (k : Channel) : (s.setChan p k).tick = s.tick := rfl
@[simp] theorem State.setChan_settings (p : ChanRef) (k : Channel) : (s.setChan p k).settings = s.settings := rfl
@[simp] theorem State.setChan_carriers (p : ChanRef) (k : Channel) : (s.setChan p k).carriers = s.carriers := rfl
@[simp] theorem State.setChan_bases (p : ChanRef) (k : Channel) : (s.setChan p k).bases = s.bases := rfl
@[simp] theorem State.setChan_trains (p : ChanRef) (k : Channel) : (s.setChan p k).trains = s.trains := rfl
@[simp] theorem State.setChan_handsets (p : ChanRef) (k : Channel) : (s.setChan p k).handsets = s.handsets := rfl
@[simp] theorem State.setChan_contexts (p : ChanRef) (k : Channel) : (s.setChan p k).contexts = s.contexts := rfl
@[simp] theorem State.setChan_divergeSticky (p : ChanRef) (k : Channel) : (s.setChan p k).divergeSticky = s.divergeSticky := rfl
@[simp] theorem State.setChan_saturateSticky (p : ChanRef) (k : Channel) : (s.setChan p k).saturateSticky = s.saturateSticky := rfl
@[simp] theorem State.setChan_classes (p : ChanRef) (k : Channel) : (s.setChan p k).classes = s.classes := rfl
@[simp] theorem State.setChan_slots (p : ChanRef) (k : Channel) : (s.setChan p k).slots = s.slots := rfl
@[simp] theorem State.setChan_markDrive (p : ChanRef) (k : Channel) : (s.setChan p k).markDrive = s.markDrive := rfl
@[simp] theorem State.setChan_link (p : ChanRef) (k : Channel) : (s.setChan p k).link = s.link := rfl
@[simp] theorem State.setChan_ordersOut (p : ChanRef) (k : Channel) : (s.setChan p k).ordersOut = s.ordersOut := rfl
@[simp] theorem State.setChan_freeCount (p : ChanRef) (k : Channel) : (s.setChan p k).freeCount = s.freeCount := rfl

/-! ### setHandset -/

@[simp] theorem State.setHandset_pending (i : SlotIx) (h : Option Handset) : (s.setHandset i h).pending = s.pending := rfl
@[simp] theorem State.setHandset_resetHeld (i : SlotIx) (h : Option Handset) : (s.setHandset i h).resetHeld = s.resetHeld := rfl
@[simp] theorem State.setHandset_straps (i : SlotIx) (h : Option Handset) : (s.setHandset i h).straps = s.straps := rfl
@[simp] theorem State.setHandset_runState (i : SlotIx) (h : Option Handset) : (s.setHandset i h).runState = s.runState := rfl
@[simp] theorem State.setHandset_tick (i : SlotIx) (h : Option Handset) : (s.setHandset i h).tick = s.tick := rfl
@[simp] theorem State.setHandset_settings (i : SlotIx) (h : Option Handset) : (s.setHandset i h).settings = s.settings := rfl
@[simp] theorem State.setHandset_carriers (i : SlotIx) (h : Option Handset) : (s.setHandset i h).carriers = s.carriers := rfl
@[simp] theorem State.setHandset_bases (i : SlotIx) (h : Option Handset) : (s.setHandset i h).bases = s.bases := rfl
@[simp] theorem State.setHandset_trains (i : SlotIx) (h : Option Handset) : (s.setHandset i h).trains = s.trains := rfl
@[simp] theorem State.setHandset_channels (i : SlotIx) (h : Option Handset) : (s.setHandset i h).channels = s.channels := rfl
@[simp] theorem State.setHandset_contexts (i : SlotIx) (h : Option Handset) : (s.setHandset i h).contexts = s.contexts := rfl
@[simp] theorem State.setHandset_divergeSticky (i : SlotIx) (h : Option Handset) : (s.setHandset i h).divergeSticky = s.divergeSticky := rfl
@[simp] theorem State.setHandset_saturateSticky (i : SlotIx) (h : Option Handset) : (s.setHandset i h).saturateSticky = s.saturateSticky := rfl
@[simp] theorem State.setHandset_classes (i : SlotIx) (h : Option Handset) : (s.setHandset i h).classes = s.classes := rfl
@[simp] theorem State.setHandset_slots (i : SlotIx) (h : Option Handset) : (s.setHandset i h).slots = s.slots := rfl
@[simp] theorem State.setHandset_markDrive (i : SlotIx) (h : Option Handset) : (s.setHandset i h).markDrive = s.markDrive := rfl
@[simp] theorem State.setHandset_link (i : SlotIx) (h : Option Handset) : (s.setHandset i h).link = s.link := rfl
@[simp] theorem State.setHandset_ordersOut (i : SlotIx) (h : Option Handset) : (s.setHandset i h).ordersOut = s.ordersOut := rfl
@[simp] theorem State.setHandset_freeCount (i : SlotIx) (h : Option Handset) : (s.setHandset i h).freeCount = s.freeCount := rfl

/-! ### setTrain -/

@[simp] theorem State.setTrain_pending (b : BaseIx) (t : Option Train) : (s.setTrain b t).pending = s.pending := rfl
@[simp] theorem State.setTrain_resetHeld (b : BaseIx) (t : Option Train) : (s.setTrain b t).resetHeld = s.resetHeld := rfl
@[simp] theorem State.setTrain_straps (b : BaseIx) (t : Option Train) : (s.setTrain b t).straps = s.straps := rfl
@[simp] theorem State.setTrain_runState (b : BaseIx) (t : Option Train) : (s.setTrain b t).runState = s.runState := rfl
@[simp] theorem State.setTrain_tick (b : BaseIx) (t : Option Train) : (s.setTrain b t).tick = s.tick := rfl
@[simp] theorem State.setTrain_settings (b : BaseIx) (t : Option Train) : (s.setTrain b t).settings = s.settings := rfl
@[simp] theorem State.setTrain_carriers (b : BaseIx) (t : Option Train) : (s.setTrain b t).carriers = s.carriers := rfl
@[simp] theorem State.setTrain_bases (b : BaseIx) (t : Option Train) : (s.setTrain b t).bases = s.bases := rfl
@[simp] theorem State.setTrain_handsets (b : BaseIx) (t : Option Train) : (s.setTrain b t).handsets = s.handsets := rfl
@[simp] theorem State.setTrain_channels (b : BaseIx) (t : Option Train) : (s.setTrain b t).channels = s.channels := rfl
@[simp] theorem State.setTrain_contexts (b : BaseIx) (t : Option Train) : (s.setTrain b t).contexts = s.contexts := rfl
@[simp] theorem State.setTrain_divergeSticky (b : BaseIx) (t : Option Train) : (s.setTrain b t).divergeSticky = s.divergeSticky := rfl
@[simp] theorem State.setTrain_saturateSticky (b : BaseIx) (t : Option Train) : (s.setTrain b t).saturateSticky = s.saturateSticky := rfl
@[simp] theorem State.setTrain_classes (b : BaseIx) (t : Option Train) : (s.setTrain b t).classes = s.classes := rfl
@[simp] theorem State.setTrain_slots (b : BaseIx) (t : Option Train) : (s.setTrain b t).slots = s.slots := rfl
@[simp] theorem State.setTrain_markDrive (b : BaseIx) (t : Option Train) : (s.setTrain b t).markDrive = s.markDrive := rfl
@[simp] theorem State.setTrain_link (b : BaseIx) (t : Option Train) : (s.setTrain b t).link = s.link := rfl
@[simp] theorem State.setTrain_ordersOut (b : BaseIx) (t : Option Train) : (s.setTrain b t).ordersOut = s.ordersOut := rfl
@[simp] theorem State.setTrain_freeCount (b : BaseIx) (t : Option Train) : (s.setTrain b t).freeCount = s.freeCount := rfl

/-! ### setSlot -/

@[simp] theorem State.setSlot_pending (k : CapIx) (x : CaptureSlot) : (s.setSlot k x).pending = s.pending := rfl
@[simp] theorem State.setSlot_resetHeld (k : CapIx) (x : CaptureSlot) : (s.setSlot k x).resetHeld = s.resetHeld := rfl
@[simp] theorem State.setSlot_straps (k : CapIx) (x : CaptureSlot) : (s.setSlot k x).straps = s.straps := rfl
@[simp] theorem State.setSlot_runState (k : CapIx) (x : CaptureSlot) : (s.setSlot k x).runState = s.runState := rfl
@[simp] theorem State.setSlot_tick (k : CapIx) (x : CaptureSlot) : (s.setSlot k x).tick = s.tick := rfl
@[simp] theorem State.setSlot_settings (k : CapIx) (x : CaptureSlot) : (s.setSlot k x).settings = s.settings := rfl
@[simp] theorem State.setSlot_carriers (k : CapIx) (x : CaptureSlot) : (s.setSlot k x).carriers = s.carriers := rfl
@[simp] theorem State.setSlot_bases (k : CapIx) (x : CaptureSlot) : (s.setSlot k x).bases = s.bases := rfl
@[simp] theorem State.setSlot_trains (k : CapIx) (x : CaptureSlot) : (s.setSlot k x).trains = s.trains := rfl
@[simp] theorem State.setSlot_handsets (k : CapIx) (x : CaptureSlot) : (s.setSlot k x).handsets = s.handsets := rfl
@[simp] theorem State.setSlot_channels (k : CapIx) (x : CaptureSlot) : (s.setSlot k x).channels = s.channels := rfl
@[simp] theorem State.setSlot_contexts (k : CapIx) (x : CaptureSlot) : (s.setSlot k x).contexts = s.contexts := rfl
@[simp] theorem State.setSlot_divergeSticky (k : CapIx) (x : CaptureSlot) : (s.setSlot k x).divergeSticky = s.divergeSticky := rfl
@[simp] theorem State.setSlot_saturateSticky (k : CapIx) (x : CaptureSlot) : (s.setSlot k x).saturateSticky = s.saturateSticky := rfl
@[simp] theorem State.setSlot_classes (k : CapIx) (x : CaptureSlot) : (s.setSlot k x).classes = s.classes := rfl
@[simp] theorem State.setSlot_markDrive (k : CapIx) (x : CaptureSlot) : (s.setSlot k x).markDrive = s.markDrive := rfl
@[simp] theorem State.setSlot_link (k : CapIx) (x : CaptureSlot) : (s.setSlot k x).link = s.link := rfl
@[simp] theorem State.setSlot_ordersOut (k : CapIx) (x : CaptureSlot) : (s.setSlot k x).ordersOut = s.ordersOut := rfl
@[simp] theorem State.setSlot_freeCount (k : CapIx) (x : CaptureSlot) : (s.setSlot k x).freeCount = s.freeCount := rfl

/-! ### post -/

@[simp] theorem State.post_pending (n : NoticeBody) : (s.post n).pending = s.pending := rfl
@[simp] theorem State.post_resetHeld (n : NoticeBody) : (s.post n).resetHeld = s.resetHeld := rfl
@[simp] theorem State.post_straps (n : NoticeBody) : (s.post n).straps = s.straps := rfl
@[simp] theorem State.post_runState (n : NoticeBody) : (s.post n).runState = s.runState := rfl
@[simp] theorem State.post_tick (n : NoticeBody) : (s.post n).tick = s.tick := rfl
@[simp] theorem State.post_settings (n : NoticeBody) : (s.post n).settings = s.settings := rfl
@[simp] theorem State.post_carriers (n : NoticeBody) : (s.post n).carriers = s.carriers := rfl
@[simp] theorem State.post_bases (n : NoticeBody) : (s.post n).bases = s.bases := rfl
@[simp] theorem State.post_trains (n : NoticeBody) : (s.post n).trains = s.trains := rfl
@[simp] theorem State.post_handsets (n : NoticeBody) : (s.post n).handsets = s.handsets := rfl
@[simp] theorem State.post_channels (n : NoticeBody) : (s.post n).channels = s.channels := rfl
@[simp] theorem State.post_contexts (n : NoticeBody) : (s.post n).contexts = s.contexts := rfl
@[simp] theorem State.post_divergeSticky (n : NoticeBody) : (s.post n).divergeSticky = s.divergeSticky := rfl
@[simp] theorem State.post_saturateSticky (n : NoticeBody) : (s.post n).saturateSticky = s.saturateSticky := rfl
@[simp] theorem State.post_slots (n : NoticeBody) : (s.post n).slots = s.slots := rfl
@[simp] theorem State.post_markDrive (n : NoticeBody) : (s.post n).markDrive = s.markDrive := rfl
@[simp] theorem State.post_link (n : NoticeBody) : (s.post n).link = s.link := rfl
@[simp] theorem State.post_ordersOut (n : NoticeBody) : (s.post n).ordersOut = s.ordersOut := rfl
@[simp] theorem State.post_freeCount (n : NoticeBody) : (s.post n).freeCount = s.freeCount := rfl

/-! ### setExecuting -/

@[simp] theorem State.setExecuting_pending (e : Option Executing) : (s.setExecuting e).pending = s.pending := rfl
@[simp] theorem State.setExecuting_resetHeld (e : Option Executing) : (s.setExecuting e).resetHeld = s.resetHeld := rfl
@[simp] theorem State.setExecuting_straps (e : Option Executing) : (s.setExecuting e).straps = s.straps := rfl
@[simp] theorem State.setExecuting_runState (e : Option Executing) : (s.setExecuting e).runState = s.runState := rfl
@[simp] theorem State.setExecuting_tick (e : Option Executing) : (s.setExecuting e).tick = s.tick := rfl
@[simp] theorem State.setExecuting_settings (e : Option Executing) : (s.setExecuting e).settings = s.settings := rfl
@[simp] theorem State.setExecuting_carriers (e : Option Executing) : (s.setExecuting e).carriers = s.carriers := rfl
@[simp] theorem State.setExecuting_bases (e : Option Executing) : (s.setExecuting e).bases = s.bases := rfl
@[simp] theorem State.setExecuting_trains (e : Option Executing) : (s.setExecuting e).trains = s.trains := rfl
@[simp] theorem State.setExecuting_handsets (e : Option Executing) : (s.setExecuting e).handsets = s.handsets := rfl
@[simp] theorem State.setExecuting_channels (e : Option Executing) : (s.setExecuting e).channels = s.channels := rfl
@[simp] theorem State.setExecuting_contexts (e : Option Executing) : (s.setExecuting e).contexts = s.contexts := rfl
@[simp] theorem State.setExecuting_divergeSticky (e : Option Executing) : (s.setExecuting e).divergeSticky = s.divergeSticky := rfl
@[simp] theorem State.setExecuting_saturateSticky (e : Option Executing) : (s.setExecuting e).saturateSticky = s.saturateSticky := rfl
@[simp] theorem State.setExecuting_classes (e : Option Executing) : (s.setExecuting e).classes = s.classes := rfl
@[simp] theorem State.setExecuting_slots (e : Option Executing) : (s.setExecuting e).slots = s.slots := rfl
@[simp] theorem State.setExecuting_markDrive (e : Option Executing) : (s.setExecuting e).markDrive = s.markDrive := rfl
@[simp] theorem State.setExecuting_ordersOut (e : Option Executing) : (s.setExecuting e).ordersOut = s.ordersOut := rfl
@[simp] theorem State.setExecuting_freeCount (e : Option Executing) : (s.setExecuting e).freeCount = s.freeCount := rfl

/-! ### setStatus -/

@[simp] theorem State.setStatus_pending (i : SlotIx) (h : Handset) (w : HandsetStatus) : (s.setStatus i h w).pending = s.pending := rfl
@[simp] theorem State.setStatus_resetHeld (i : SlotIx) (h : Handset) (w : HandsetStatus) : (s.setStatus i h w).resetHeld = s.resetHeld := rfl
@[simp] theorem State.setStatus_straps (i : SlotIx) (h : Handset) (w : HandsetStatus) : (s.setStatus i h w).straps = s.straps := rfl
@[simp] theorem State.setStatus_runState (i : SlotIx) (h : Handset) (w : HandsetStatus) : (s.setStatus i h w).runState = s.runState := rfl
@[simp] theorem State.setStatus_tick (i : SlotIx) (h : Handset) (w : HandsetStatus) : (s.setStatus i h w).tick = s.tick := rfl
@[simp] theorem State.setStatus_settings (i : SlotIx) (h : Handset) (w : HandsetStatus) : (s.setStatus i h w).settings = s.settings := rfl
@[simp] theorem State.setStatus_carriers (i : SlotIx) (h : Handset) (w : HandsetStatus) : (s.setStatus i h w).carriers = s.carriers := rfl
@[simp] theorem State.setStatus_bases (i : SlotIx) (h : Handset) (w : HandsetStatus) : (s.setStatus i h w).bases = s.bases := rfl
@[simp] theorem State.setStatus_trains (i : SlotIx) (h : Handset) (w : HandsetStatus) : (s.setStatus i h w).trains = s.trains := rfl
@[simp] theorem State.setStatus_channels (i : SlotIx) (h : Handset) (w : HandsetStatus) : (s.setStatus i h w).channels = s.channels := rfl
@[simp] theorem State.setStatus_contexts (i : SlotIx) (h : Handset) (w : HandsetStatus) : (s.setStatus i h w).contexts = s.contexts := rfl
@[simp] theorem State.setStatus_divergeSticky (i : SlotIx) (h : Handset) (w : HandsetStatus) : (s.setStatus i h w).divergeSticky = s.divergeSticky := rfl
@[simp] theorem State.setStatus_saturateSticky (i : SlotIx) (h : Handset) (w : HandsetStatus) : (s.setStatus i h w).saturateSticky = s.saturateSticky := rfl
@[simp] theorem State.setStatus_classes (i : SlotIx) (h : Handset) (w : HandsetStatus) : (s.setStatus i h w).classes = s.classes := rfl
@[simp] theorem State.setStatus_slots (i : SlotIx) (h : Handset) (w : HandsetStatus) : (s.setStatus i h w).slots = s.slots := rfl
@[simp] theorem State.setStatus_markDrive (i : SlotIx) (h : Handset) (w : HandsetStatus) : (s.setStatus i h w).markDrive = s.markDrive := rfl
@[simp] theorem State.setStatus_link (i : SlotIx) (h : Handset) (w : HandsetStatus) : (s.setStatus i h w).link = s.link := rfl
@[simp] theorem State.setStatus_ordersOut (i : SlotIx) (h : Handset) (w : HandsetStatus) : (s.setStatus i h w).ordersOut = s.ordersOut := rfl
@[simp] theorem State.setStatus_freeCount (i : SlotIx) (h : Handset) (w : HandsetStatus) : (s.setStatus i h w).freeCount = s.freeCount := rfl

/-! ### setBaseState -/

@[simp] theorem State.setBaseState_pending (b : BaseIx) (w : BaseState) : (s.setBaseState b w).pending = s.pending := rfl
@[simp] theorem State.setBaseState_resetHeld (b : BaseIx) (w : BaseState) : (s.setBaseState b w).resetHeld = s.resetHeld := rfl
@[simp] theorem State.setBaseState_straps (b : BaseIx) (w : BaseState) : (s.setBaseState b w).straps = s.straps := rfl
@[simp] theorem State.setBaseState_runState (b : BaseIx) (w : BaseState) : (s.setBaseState b w).runState = s.runState := rfl
@[simp] theorem State.setBaseState_tick (b : BaseIx) (w : BaseState) : (s.setBaseState b w).tick = s.tick := rfl
@[simp] theorem State.setBaseState_settings (b : BaseIx) (w : BaseState) : (s.setBaseState b w).settings = s.settings := rfl
@[simp] theorem State.setBaseState_carriers (b : BaseIx) (w : BaseState) : (s.setBaseState b w).carriers = s.carriers := rfl
@[simp] theorem State.setBaseState_trains (b : BaseIx) (w : BaseState) : (s.setBaseState b w).trains = s.trains := rfl
@[simp] theorem State.setBaseState_handsets (b : BaseIx) (w : BaseState) : (s.setBaseState b w).handsets = s.handsets := rfl
@[simp] theorem State.setBaseState_channels (b : BaseIx) (w : BaseState) : (s.setBaseState b w).channels = s.channels := rfl
@[simp] theorem State.setBaseState_contexts (b : BaseIx) (w : BaseState) : (s.setBaseState b w).contexts = s.contexts := rfl
@[simp] theorem State.setBaseState_divergeSticky (b : BaseIx) (w : BaseState) : (s.setBaseState b w).divergeSticky = s.divergeSticky := rfl
@[simp] theorem State.setBaseState_saturateSticky (b : BaseIx) (w : BaseState) : (s.setBaseState b w).saturateSticky = s.saturateSticky := rfl
@[simp] theorem State.setBaseState_classes (b : BaseIx) (w : BaseState) : (s.setBaseState b w).classes = s.classes := rfl
@[simp] theorem State.setBaseState_slots (b : BaseIx) (w : BaseState) : (s.setBaseState b w).slots = s.slots := rfl
@[simp] theorem State.setBaseState_markDrive (b : BaseIx) (w : BaseState) : (s.setBaseState b w).markDrive = s.markDrive := rfl
@[simp] theorem State.setBaseState_link (b : BaseIx) (w : BaseState) : (s.setBaseState b w).link = s.link := rfl
@[simp] theorem State.setBaseState_ordersOut (b : BaseIx) (w : BaseState) : (s.setBaseState b w).ordersOut = s.ordersOut := rfl
@[simp] theorem State.setBaseState_freeCount (b : BaseIx) (w : BaseState) : (s.setBaseState b w).freeCount = s.freeCount := rfl

/-! ### send -/

@[simp] theorem State.send_pending (b : BaseIx) (o : Order) (p : Placer) (w : OrderOwner) : (s.send b o p w).pending = s.pending := rfl
@[simp] theorem State.send_resetHeld (b : BaseIx) (o : Order) (p : Placer) (w : OrderOwner) : (s.send b o p w).resetHeld = s.resetHeld := rfl
@[simp] theorem State.send_straps (b : BaseIx) (o : Order) (p : Placer) (w : OrderOwner) : (s.send b o p w).straps = s.straps := rfl
@[simp] theorem State.send_runState (b : BaseIx) (o : Order) (p : Placer) (w : OrderOwner) : (s.send b o p w).runState = s.runState := rfl
@[simp] theorem State.send_tick (b : BaseIx) (o : Order) (p : Placer) (w : OrderOwner) : (s.send b o p w).tick = s.tick := rfl
@[simp] theorem State.send_settings (b : BaseIx) (o : Order) (p : Placer) (w : OrderOwner) : (s.send b o p w).settings = s.settings := rfl
@[simp] theorem State.send_carriers (b : BaseIx) (o : Order) (p : Placer) (w : OrderOwner) : (s.send b o p w).carriers = s.carriers := rfl
@[simp] theorem State.send_trains (b : BaseIx) (o : Order) (p : Placer) (w : OrderOwner) : (s.send b o p w).trains = s.trains := rfl
@[simp] theorem State.send_handsets (b : BaseIx) (o : Order) (p : Placer) (w : OrderOwner) : (s.send b o p w).handsets = s.handsets := rfl
@[simp] theorem State.send_channels (b : BaseIx) (o : Order) (p : Placer) (w : OrderOwner) : (s.send b o p w).channels = s.channels := rfl
@[simp] theorem State.send_contexts (b : BaseIx) (o : Order) (p : Placer) (w : OrderOwner) : (s.send b o p w).contexts = s.contexts := rfl
@[simp] theorem State.send_divergeSticky (b : BaseIx) (o : Order) (p : Placer) (w : OrderOwner) : (s.send b o p w).divergeSticky = s.divergeSticky := rfl
@[simp] theorem State.send_saturateSticky (b : BaseIx) (o : Order) (p : Placer) (w : OrderOwner) : (s.send b o p w).saturateSticky = s.saturateSticky := rfl
@[simp] theorem State.send_classes (b : BaseIx) (o : Order) (p : Placer) (w : OrderOwner) : (s.send b o p w).classes = s.classes := rfl
@[simp] theorem State.send_slots (b : BaseIx) (o : Order) (p : Placer) (w : OrderOwner) : (s.send b o p w).slots = s.slots := rfl
@[simp] theorem State.send_markDrive (b : BaseIx) (o : Order) (p : Placer) (w : OrderOwner) : (s.send b o p w).markDrive = s.markDrive := rfl
@[simp] theorem State.send_link (b : BaseIx) (o : Order) (p : Placer) (w : OrderOwner) : (s.send b o p w).link = s.link := rfl
@[simp] theorem State.send_freeCount (b : BaseIx) (o : Order) (p : Placer) (w : OrderOwner) : (s.send b o p w).freeCount = s.freeCount := rfl

/-! ### answered -/

@[simp] theorem State.answered_pending (code tag : Byte) (r : Reply) : (s.answered code tag r).pending = s.pending := rfl
@[simp] theorem State.answered_resetHeld (code tag : Byte) (r : Reply) : (s.answered code tag r).resetHeld = s.resetHeld := rfl
@[simp] theorem State.answered_straps (code tag : Byte) (r : Reply) : (s.answered code tag r).straps = s.straps := rfl
@[simp] theorem State.answered_runState (code tag : Byte) (r : Reply) : (s.answered code tag r).runState = s.runState := rfl
@[simp] theorem State.answered_tick (code tag : Byte) (r : Reply) : (s.answered code tag r).tick = s.tick := rfl
@[simp] theorem State.answered_settings (code tag : Byte) (r : Reply) : (s.answered code tag r).settings = s.settings := rfl
@[simp] theorem State.answered_carriers (code tag : Byte) (r : Reply) : (s.answered code tag r).carriers = s.carriers := rfl
@[simp] theorem State.answered_bases (code tag : Byte) (r : Reply) : (s.answered code tag r).bases = s.bases := rfl
@[simp] theorem State.answered_trains (code tag : Byte) (r : Reply) : (s.answered code tag r).trains = s.trains := rfl
@[simp] theorem State.answered_handsets (code tag : Byte) (r : Reply) : (s.answered code tag r).handsets = s.handsets := rfl
@[simp] theorem State.answered_channels (code tag : Byte) (r : Reply) : (s.answered code tag r).channels = s.channels := rfl
@[simp] theorem State.answered_contexts (code tag : Byte) (r : Reply) : (s.answered code tag r).contexts = s.contexts := rfl
@[simp] theorem State.answered_divergeSticky (code tag : Byte) (r : Reply) : (s.answered code tag r).divergeSticky = s.divergeSticky := rfl
@[simp] theorem State.answered_saturateSticky (code tag : Byte) (r : Reply) : (s.answered code tag r).saturateSticky = s.saturateSticky := rfl
@[simp] theorem State.answered_classes (code tag : Byte) (r : Reply) : (s.answered code tag r).classes = s.classes := rfl
@[simp] theorem State.answered_slots (code tag : Byte) (r : Reply) : (s.answered code tag r).slots = s.slots := rfl
@[simp] theorem State.answered_markDrive (code tag : Byte) (r : Reply) : (s.answered code tag r).markDrive = s.markDrive := rfl
@[simp] theorem State.answered_ordersOut (code tag : Byte) (r : Reply) : (s.answered code tag r).ordersOut = s.ordersOut := rfl
@[simp] theorem State.answered_freeCount (code tag : Byte) (r : Reply) : (s.answered code tag r).freeCount = s.freeCount := rfl

/-! ### enter -/

@[simp] theorem State.enter_pending (r : RunState) (w : RunCause) : (s.enter r w).pending = s.pending := rfl
@[simp] theorem State.enter_resetHeld (r : RunState) (w : RunCause) : (s.enter r w).resetHeld = s.resetHeld := rfl
@[simp] theorem State.enter_straps (r : RunState) (w : RunCause) : (s.enter r w).straps = s.straps := rfl
@[simp] theorem State.enter_tick (r : RunState) (w : RunCause) : (s.enter r w).tick = s.tick := rfl
@[simp] theorem State.enter_settings (r : RunState) (w : RunCause) : (s.enter r w).settings = s.settings := rfl
@[simp] theorem State.enter_carriers (r : RunState) (w : RunCause) : (s.enter r w).carriers = s.carriers := rfl
@[simp] theorem State.enter_bases (r : RunState) (w : RunCause) : (s.enter r w).bases = s.bases := rfl
@[simp] theorem State.enter_trains (r : RunState) (w : RunCause) : (s.enter r w).trains = s.trains := rfl
@[simp] theorem State.enter_handsets (r : RunState) (w : RunCause) : (s.enter r w).handsets = s.handsets := rfl
@[simp] theorem State.enter_channels (r : RunState) (w : RunCause) : (s.enter r w).channels = s.channels := rfl
@[simp] theorem State.enter_contexts (r : RunState) (w : RunCause) : (s.enter r w).contexts = s.contexts := rfl
@[simp] theorem State.enter_divergeSticky (r : RunState) (w : RunCause) : (s.enter r w).divergeSticky = s.divergeSticky := rfl
@[simp] theorem State.enter_saturateSticky (r : RunState) (w : RunCause) : (s.enter r w).saturateSticky = s.saturateSticky := rfl
@[simp] theorem State.enter_slots (r : RunState) (w : RunCause) : (s.enter r w).slots = s.slots := rfl
@[simp] theorem State.enter_markDrive (r : RunState) (w : RunCause) : (s.enter r w).markDrive = s.markDrive := rfl
@[simp] theorem State.enter_link (r : RunState) (w : RunCause) : (s.enter r w).link = s.link := rfl
@[simp] theorem State.enter_ordersOut (r : RunState) (w : RunCause) : (s.enter r w).ordersOut = s.ordersOut := rfl
@[simp] theorem State.enter_freeCount (r : RunState) (w : RunCause) : (s.enter r w).freeCount = s.freeCount := rfl

/-! ### setLink -/

@[simp] theorem State.setLink_pending (l : Link) : (s.setLink l).pending = s.pending := rfl
@[simp] theorem State.setLink_resetHeld (l : Link) : (s.setLink l).resetHeld = s.resetHeld := rfl
@[simp] theorem State.setLink_straps (l : Link) : (s.setLink l).straps = s.straps := rfl
@[simp] theorem State.setLink_runState (l : Link) : (s.setLink l).runState = s.runState := rfl
@[simp] theorem State.setLink_tick (l : Link) : (s.setLink l).tick = s.tick := rfl
@[simp] theorem State.setLink_settings (l : Link) : (s.setLink l).settings = s.settings := rfl
@[simp] theorem State.setLink_carriers (l : Link) : (s.setLink l).carriers = s.carriers := rfl
@[simp] theorem State.setLink_bases (l : Link) : (s.setLink l).bases = s.bases := rfl
@[simp] theorem State.setLink_trains (l : Link) : (s.setLink l).trains = s.trains := rfl
@[simp] theorem State.setLink_handsets (l : Link) : (s.setLink l).handsets = s.handsets := rfl
@[simp] theorem State.setLink_channels (l : Link) : (s.setLink l).channels = s.channels := rfl
@[simp] theorem State.setLink_contexts (l : Link) : (s.setLink l).contexts = s.contexts := rfl
@[simp] theorem State.setLink_divergeSticky (l : Link) : (s.setLink l).divergeSticky = s.divergeSticky := rfl
@[simp] theorem State.setLink_saturateSticky (l : Link) : (s.setLink l).saturateSticky = s.saturateSticky := rfl
@[simp] theorem State.setLink_classes (l : Link) : (s.setLink l).classes = s.classes := rfl
@[simp] theorem State.setLink_slots (l : Link) : (s.setLink l).slots = s.slots := rfl
@[simp] theorem State.setLink_markDrive (l : Link) : (s.setLink l).markDrive = s.markDrive := rfl
@[simp] theorem State.setLink_ordersOut (l : Link) : (s.setLink l).ordersOut = s.ordersOut := rfl
@[simp] theorem State.setLink_freeCount (l : Link) : (s.setLink l).freeCount = s.freeCount := rfl
@[simp] theorem State.setLink_link (l : Link) : (s.setLink l).link = l := rfl
@[simp] theorem State.setLink_setLink (l m : Link) : (s.setLink l).setLink m = s.setLink m := rfl
@[simp] theorem State.setLink_self : s.setLink s.link = s := rfl

/-! ### What an update changes -/

@[simp] theorem State.fresh_ordersOut : s.fresh.ordersOut = [] := rfl
@[simp] theorem State.fresh_fresh : s.fresh.fresh = s.fresh := rfl
@[simp] theorem State.enter_runState (r : RunState) (w : RunCause) : (s.enter r w).runState = r := rfl
@[simp] theorem State.answered_link (code tag : Byte) (r : Reply) : (s.answered code tag r).link =
    { s.link with executing := some { code := code, tag := tag, reply := r }, sending := .reply } := rfl
@[simp] theorem State.setExecuting_link (e : Option Executing) :
    (s.setExecuting e).link = { s.link with executing := e } := rfl
@[simp] theorem State.send_ordersOut (b : BaseIx) (o : Order) (p : Placer) (w : OrderOwner) :
    (s.send b o p w).ordersOut = s.ordersOut ++ [{ base := b, serial := (s.base b).nextSerial, order := o }] := rfl

@[simp] theorem State.base_setBase_self (b : BaseIx) (r : BaseRecord) : (s.setBase b r).base b = r :=
  Table.get_set_self _ _ _
theorem State.base_setBase_ne {b b' : BaseIx} (r : BaseRecord) (h : b ≠ b') : (s.setBase b r).base b' = s.base b' :=
  Table.get_set_ne _ _ h
@[simp] theorem State.ctx_setCtx_self (c : CallIx) (x : Context) : (s.setCtx c x).ctx c = x :=
  Table.get_set_self _ _ _
theorem State.ctx_setCtx_ne {c c' : CallIx} (x : Context) (h : c ≠ c') : (s.setCtx c x).ctx c' = s.ctx c' :=
  Table.get_set_ne _ _ h
@[simp] theorem State.handset_setHandset_self (i : SlotIx) (h : Option Handset) : (s.setHandset i h).handset i = h :=
  Table.get_set_self _ _ _
theorem State.handset_setHandset_ne {i j : SlotIx} (h : Option Handset) (n : i ≠ j) :
    (s.setHandset i h).handset j = s.handset j :=
  Table.get_set_ne _ _ n
@[simp] theorem State.handset_setStatus_self (i : SlotIx) (h : Handset) (w : HandsetStatus) :
    (s.setStatus i h w).handset i = some { h with status := w } :=
  Table.get_set_self _ _ _
theorem State.handset_setStatus_ne {i j : SlotIx} (h : Handset) (w : HandsetStatus) (n : i ≠ j) :
    (s.setStatus i h w).handset j = s.handset j :=
  Table.get_set_ne _ _ n
@[simp] theorem State.chan_setChan_self (p : ChanRef) (k : Channel) : (s.setChan p k).chan p = k := by
  simp [State.chan, State.setChan]
theorem State.chan_setChan_ne {p q : ChanRef} (k : Channel) (h : p ≠ q) : (s.setChan p k).chan q = s.chan q := by
  obtain ⟨b, c⟩ := p
  obtain ⟨b', c'⟩ := q
  simp only [State.chan, State.setChan, Table.get_set]
  split
  · next e =>
    subst e
    exact Table.get_set_ne _ _ fun e => h (e ▸ rfl)
  · rfl
@[simp] theorem State.trains_setTrain_self (b : BaseIx) (t : Option Train) : (s.setTrain b t).trains.get b = t :=
  Table.get_set_self _ _ _
@[simp] theorem State.slots_setSlot_self (k : CapIx) (x : CaptureSlot) : (s.setSlot k x).slots.get k = x :=
  Table.get_set_self _ _ _
theorem State.slots_setSlot_ne {k j : CapIx} (x : CaptureSlot) (h : k ≠ j) : (s.setSlot k x).slots.get j = s.slots.get j :=
  Table.get_set_ne _ _ h
@[simp] theorem State.post_class_self (n : NoticeBody) :
    (s.post n).classes.get n.cls = (s.classes.get n.cls).file { tick := s.tick, body := n } :=
  Table.get_set_self _ _ _
theorem State.post_class_ne (n : NoticeBody) {k : Fin 8} (h : n.cls ≠ k) : (s.post n).classes.get k = s.classes.get k :=
  Table.get_set_ne _ _ h

/-! ### Reads that an update leaves alone -/

@[simp] theorem State.base_fresh (b' : BaseIx) : s.fresh.base b' = s.base b' := rfl
@[simp] theorem State.ctx_fresh (c' : CallIx) : s.fresh.ctx c' = s.ctx c' := rfl
@[simp] theorem State.handset_fresh (i' : SlotIx) : s.fresh.handset i' = s.handset i' := rfl
@[simp] theorem State.chan_fresh (p' : ChanRef) : s.fresh.chan p' = s.chan p' := rfl
@[simp] theorem State.cfg_fresh (b' : BaseIx) : s.fresh.cfg b' = s.cfg b' := rfl
@[simp] theorem State.ctx_setBase (b : BaseIx) (r : BaseRecord) (c' : CallIx) : (s.setBase b r).ctx c' = s.ctx c' := rfl
@[simp] theorem State.handset_setBase (b : BaseIx) (r : BaseRecord) (i' : SlotIx) : (s.setBase b r).handset i' = s.handset i' := rfl
@[simp] theorem State.chan_setBase (b : BaseIx) (r : BaseRecord) (p' : ChanRef) : (s.setBase b r).chan p' = s.chan p' := rfl
@[simp] theorem State.cfg_setBase (b : BaseIx) (r : BaseRecord) (b' : BaseIx) : (s.setBase b r).cfg b' = s.cfg b' := rfl
@[simp] theorem State.base_setCtx (c : CallIx) (x : Context) (b' : BaseIx) : (s.setCtx c x).base b' = s.base b' := rfl
@[simp] theorem State.handset_setCtx (c : CallIx) (x : Context) (i' : SlotIx) : (s.setCtx c x).handset i' = s.handset i' := rfl
@[simp] theorem State.chan_setCtx (c : CallIx) (x : Context) (p' : ChanRef) : (s.setCtx c x).chan p' = s.chan p' := rfl
@[simp] theorem State.cfg_setCtx (c : CallIx) (x : Context) (b' : BaseIx) : (s.setCtx c x).cfg b' = s.cfg b' := rfl
@[simp] theorem State.base_setChan (p : ChanRef) (k : Channel) (b' : BaseIx) : (s.setChan p k).base b' = s.base b' := rfl
@[simp] theorem State.ctx_setChan (p : ChanRef) (k : Channel) (c' : CallIx) : (s.setChan p k).ctx c' = s.ctx c' := rfl
@[simp] theorem State.handset_setChan (p : ChanRef) (k : Channel) (i' : SlotIx) : (s.setChan p k).handset i' = s.handset i' := rfl
@[simp] theorem State.cfg_setChan (p : ChanRef) (k : Channel) (b' : BaseIx) : (s.setChan p k).cfg b' = s.cfg b' := rfl
@[simp] theorem State.base_setHandset (i : SlotIx) (h : Option Handset) (b' : BaseIx) : (s.setHandset i h).base b' = s.base b' := rfl
@[simp] theorem State.ctx_setHandset (i : SlotIx) (h : Option Handset) (c' : CallIx) : (s.setHandset i h).ctx c' = s.ctx c' := rfl
@[simp] theorem State.chan_setHandset (i : SlotIx) (h : Option Handset) (p' : ChanRef) : (s.setHandset i h).chan p' = s.chan p' := rfl
@[simp] theorem State.cfg_setHandset (i : SlotIx) (h : Option Handset) (b' : BaseIx) : (s.setHandset i h).cfg b' = s.cfg b' := rfl
@[simp] theorem State.base_setTrain (b : BaseIx) (t : Option Train) (b' : BaseIx) : (s.setTrain b t).base b' = s.base b' := rfl
@[simp] theorem State.ctx_setTrain (b : BaseIx) (t : Option Train) (c' : CallIx) : (s.setTrain b t).ctx c' = s.ctx c' := rfl
@[simp] theorem State.handset_setTrain (b : BaseIx) (t : Option Train) (i' : SlotIx) : (s.setTrain b t).handset i' = s.handset i' := rfl
@[simp] theorem State.chan_setTrain (b : BaseIx) (t : Option Train) (p' : ChanRef) : (s.setTrain b t).chan p' = s.chan p' := rfl
@[simp] theorem State.cfg_setTrain (b : BaseIx) (t : Option Train) (b' : BaseIx) : (s.setTrain b t).cfg b' = s.cfg b' := rfl
@[simp] theorem State.base_setSlot (k : CapIx) (x : CaptureSlot) (b' : BaseIx) : (s.setSlot k x).base b' = s.base b' := rfl
@[simp] theorem State.ctx_setSlot (k : CapIx) (x : CaptureSlot) (c' : CallIx) : (s.setSlot k x).ctx c' = s.ctx c' := rfl
@[simp] theorem State.handset_setSlot (k : CapIx) (x : CaptureSlot) (i' : SlotIx) : (s.setSlot k x).handset i' = s.handset i' := rfl
@[simp] theorem State.chan_setSlot (k : CapIx) (x : CaptureSlot) (p' : ChanRef) : (s.setSlot k x).chan p' = s.chan p' := rfl
@[simp] theorem State.cfg_setSlot (k : CapIx) (x : CaptureSlot) (b' : BaseIx) : (s.setSlot k x).cfg b' = s.cfg b' := rfl
@[simp] theorem State.base_post (n : NoticeBody) (b' : BaseIx) : (s.post n).base b' = s.base b' := rfl
@[simp] theorem State.ctx_post (n : NoticeBody) (c' : CallIx) : (s.post n).ctx c' = s.ctx c' := rfl
@[simp] theorem State.handset_post (n : NoticeBody) (i' : SlotIx) : (s.post n).handset i' = s.handset i' := rfl
@[simp] theorem State.chan_post (n : NoticeBody) (p' : ChanRef) : (s.post n).chan p' = s.chan p' := rfl
@[simp] theorem State.cfg_post (n : NoticeBody) (b' : BaseIx) : (s.post n).cfg b' = s.cfg b' := rfl
@[simp] theorem State.base_setExecuting (e : Option Executing) (b' : BaseIx) : (s.setExecuting e).base b' = s.base b' := rfl
@[simp] theorem State.ctx_setExecuting (e : Option Executing) (c' : CallIx) : (s.setExecuting e).ctx c' = s.ctx c' := rfl
@[simp] theorem State.handset_setExecuting (e : Option Executing) (i' : SlotIx) : (s.setExecuting e).handset i' = s.handset i' := rfl
@[simp] theorem State.chan_setExecuting (e : Option Executing) (p' : ChanRef) : (s.setExecuting e).chan p' = s.chan p' := rfl
@[simp] theorem State.cfg_setExecuting (e : Option Executing) (b' : BaseIx) : (s.setExecuting e).cfg b' = s.cfg b' := rfl
@[simp] theorem State.base_setStatus (i : SlotIx) (h : Handset) (w : HandsetStatus) (b' : BaseIx) : (s.setStatus i h w).base b' = s.base b' := rfl
@[simp] theorem State.ctx_setStatus (i : SlotIx) (h : Handset) (w : HandsetStatus) (c' : CallIx) : (s.setStatus i h w).ctx c' = s.ctx c' := rfl
@[simp] theorem State.chan_setStatus (i : SlotIx) (h : Handset) (w : HandsetStatus) (p' : ChanRef) : (s.setStatus i h w).chan p' = s.chan p' := rfl
@[simp] theorem State.cfg_setStatus (i : SlotIx) (h : Handset) (w : HandsetStatus) (b' : BaseIx) : (s.setStatus i h w).cfg b' = s.cfg b' := rfl
@[simp] theorem State.ctx_setBaseState (b : BaseIx) (w : BaseState) (c' : CallIx) : (s.setBaseState b w).ctx c' = s.ctx c' := rfl
@[simp] theorem State.handset_setBaseState (b : BaseIx) (w : BaseState) (i' : SlotIx) : (s.setBaseState b w).handset i' = s.handset i' := rfl
@[simp] theorem State.chan_setBaseState (b : BaseIx) (w : BaseState) (p' : ChanRef) : (s.setBaseState b w).chan p' = s.chan p' := rfl
@[simp] theorem State.cfg_setBaseState (b : BaseIx) (w : BaseState) (b' : BaseIx) : (s.setBaseState b w).cfg b' = s.cfg b' := rfl
@[simp] theorem State.ctx_send (b : BaseIx) (o : Order) (p : Placer) (w : OrderOwner) (c' : CallIx) : (s.send b o p w).ctx c' = s.ctx c' := rfl
@[simp] theorem State.handset_send (b : BaseIx) (o : Order) (p : Placer) (w : OrderOwner) (i' : SlotIx) : (s.send b o p w).handset i' = s.handset i' := rfl
@[simp] theorem State.chan_send (b : BaseIx) (o : Order) (p : Placer) (w : OrderOwner) (p' : ChanRef) : (s.send b o p w).chan p' = s.chan p' := rfl
@[simp] theorem State.cfg_send (b : BaseIx) (o : Order) (p : Placer) (w : OrderOwner) (b' : BaseIx) : (s.send b o p w).cfg b' = s.cfg b' := rfl
@[simp] theorem State.base_answered (code tag : Byte) (r : Reply) (b' : BaseIx) : (s.answered code tag r).base b' = s.base b' := rfl
@[simp] theorem State.ctx_answered (code tag : Byte) (r : Reply) (c' : CallIx) : (s.answered code tag r).ctx c' = s.ctx c' := rfl
@[simp] theorem State.handset_answered (code tag : Byte) (r : Reply) (i' : SlotIx) : (s.answered code tag r).handset i' = s.handset i' := rfl
@[simp] theorem State.chan_answered (code tag : Byte) (r : Reply) (p' : ChanRef) : (s.answered code tag r).chan p' = s.chan p' := rfl
@[simp] theorem State.cfg_answered (code tag : Byte) (r : Reply) (b' : BaseIx) : (s.answered code tag r).cfg b' = s.cfg b' := rfl
@[simp] theorem State.base_enter (r : RunState) (w : RunCause) (b' : BaseIx) : (s.enter r w).base b' = s.base b' := rfl
@[simp] theorem State.ctx_enter (r : RunState) (w : RunCause) (c' : CallIx) : (s.enter r w).ctx c' = s.ctx c' := rfl
@[simp] theorem State.handset_enter (r : RunState) (w : RunCause) (i' : SlotIx) : (s.enter r w).handset i' = s.handset i' := rfl
@[simp] theorem State.chan_enter (r : RunState) (w : RunCause) (p' : ChanRef) : (s.enter r w).chan p' = s.chan p' := rfl
@[simp] theorem State.cfg_enter (r : RunState) (w : RunCause) (b' : BaseIx) : (s.enter r w).cfg b' = s.cfg b' := rfl
@[simp] theorem State.base_setLink (l : Link) (b' : BaseIx) : (s.setLink l).base b' = s.base b' := rfl
@[simp] theorem State.ctx_setLink (l : Link) (c' : CallIx) : (s.setLink l).ctx c' = s.ctx c' := rfl
@[simp] theorem State.handset_setLink (l : Link) (i' : SlotIx) : (s.setLink l).handset i' = s.handset i' := rfl
@[simp] theorem State.chan_setLink (l : Link) (p' : ChanRef) : (s.setLink l).chan p' = s.chan p' := rfl
@[simp] theorem State.cfg_setLink (l : Link) (b' : BaseIx) : (s.setLink l).cfg b' = s.cfg b' := rfl

end Sys2Proof.Machine
end

