-- ==== Sys2Proof/Laws/Frame.lean ====
section
/-! SUPPORT. What the work of the units leaves alone: the queue, the pin, the straps, the tick counter, the settings, the
carriers and the host link. -/

namespace Sys2Proof.Machine

/-- `t` has the queue, pin, straps, tick, settings, carriers and host link of `s`. -/
structure State.Keeps (s t : State) : Prop where
  pending : t.pending = s.pending
  resetHeld : t.resetHeld = s.resetHeld
  straps : t.straps = s.straps
  tick : t.tick = s.tick
  settings : t.settings = s.settings
  carriers : t.carriers = s.carriers
  link : t.link = s.link

namespace State

variable {s t u : State}

theorem Keeps.refl (s : State) : s.Keeps s := ⟨rfl, rfl, rfl, rfl, rfl, rfl, rfl⟩

theorem Keeps.trans (h : s.Keeps t) (k : t.Keeps u) : s.Keeps u :=
  ⟨k.pending.trans h.pending, k.resetHeld.trans h.resetHeld, k.straps.trans h.straps, k.tick.trans h.tick,
    k.settings.trans h.settings, k.carriers.trans h.carriers, k.link.trans h.link⟩

theorem keeps_foldl {α : Type} (f : State → α → State) (h : ∀ (s : State) (a : α), s.Keeps (f s a)) (l : List α) (s : State) :
    s.Keeps (l.foldl f s) := by
  induction l generalizing s with
  | nil => exact Keeps.refl s
  | cons a l ih => exact (h s a).trans (ih _)

theorem keeps_ite {p : Prop} [Decidable p] (h : s.Keeps t) (k : s.Keeps u) : s.Keeps (if p then t else u) := by
  split
  · exact h
  · exact k

/-! ### Updates -/

theorem fresh_keeps (s : State) : s.Keeps s.fresh := ⟨rfl, rfl, rfl, rfl, rfl, rfl, rfl⟩
theorem setBase_keeps (s : State) (b : BaseIx) (r : BaseRecord) : s.Keeps (s.setBase b r) :=
  ⟨rfl, rfl, rfl, rfl, rfl, rfl, rfl⟩
theorem setCtx_keeps (s : State) (c : CallIx) (x : Context) : s.Keeps (s.setCtx c x) :=
  ⟨rfl, rfl, rfl, rfl, rfl, rfl, rfl⟩
theorem setChan_keeps (s : State) (p : ChanRef) (k : Channel) : s.Keeps (s.setChan p k) :=
  ⟨rfl, rfl, rfl, rfl, rfl, rfl, rfl⟩
theorem setHandset_keeps (s : State) (i : SlotIx) (h : Option Handset) : s.Keeps (s.setHandset i h) :=
  ⟨rfl, rfl, rfl, rfl, rfl, rfl, rfl⟩
theorem setStatus_keeps (s : State) (i : SlotIx) (h : Handset) (w : HandsetStatus) : s.Keeps (s.setStatus i h w) :=
  ⟨rfl, rfl, rfl, rfl, rfl, rfl, rfl⟩
theorem setTrain_keeps (s : State) (b : BaseIx) (x : Option Train) : s.Keeps (s.setTrain b x) :=
  ⟨rfl, rfl, rfl, rfl, rfl, rfl, rfl⟩
theorem setSlot_keeps (s : State) (k : CapIx) (x : CaptureSlot) : s.Keeps (s.setSlot k x) :=
  ⟨rfl, rfl, rfl, rfl, rfl, rfl, rfl⟩
theorem setBaseState_keeps (s : State) (b : BaseIx) (w : BaseState) : s.Keeps (s.setBaseState b w) :=
  ⟨rfl, rfl, rfl, rfl, rfl, rfl, rfl⟩
theorem post_keeps (s : State) (n : NoticeBody) : s.Keeps (s.post n) := ⟨rfl, rfl, rfl, rfl, rfl, rfl, rfl⟩
theorem enter_keeps (s : State) (r : RunState) (w : RunCause) : s.Keeps (s.enter r w) :=
  ⟨rfl, rfl, rfl, rfl, rfl, rfl, rfl⟩
theorem send_keeps (s : State) (b : BaseIx) (o : Order) (p : Placer) (w : OrderOwner) : s.Keeps (s.send b o p w) :=
  ⟨rfl, rfl, rfl, rfl, rfl, rfl, rfl⟩

/-! ### Orders and channels -/

theorem offer_keeps (s : State) (b : BaseIx) (o : Order) (p : Placer) (w : OrderOwner) :
    s.Keeps (s.offer b o p w).2 := by
  unfold offer
  dsimp only
  split
  · exact Keeps.refl s
  · split
    · exact send_keeps ..
    · exact setBase_keeps ..

theorem sendOwed_keeps (s : State) (b : BaseIx) : s.Keeps (s.sendOwed b) := by
  unfold sendOwed
  dsimp only
  split
  · exact Keeps.refl s
  · split
    · exact (setBase_keeps ..).trans (send_keeps ..)
    · split
      · exact Keeps.refl s
      · exact ((setBase_keeps ..).trans (send_keeps ..)).trans (setChan_keeps ..)

theorem release_keeps (s : State) (p : ChanRef) (o : Option Owner) : s.Keeps (s.release p o) := by
  unfold release
  dsimp only
  split <;> exact (offer_keeps ..).trans (setChan_keeps ..)

/-! ### The mark line and captures -/

theorem markEdge_keeps (s : State) : s.Keeps s.markEdge := by
  unfold markEdge
  split <;> exact ⟨rfl, rfl, rfl, rfl, rfl, rfl, rfl⟩

theorem driveMark_keeps (s : State) : s.Keeps s.driveMark := by
  unfold driveMark
  dsimp only
  split
  · exact ⟨rfl, rfl, rfl, rfl, rfl, rfl, rfl⟩
  · split
    · have h := markEdge_keeps { s with markDrive := some 2, freeCount := s.freeCount + 1 }
      exact ⟨h.pending, h.resetHeld, h.straps, h.tick, h.settings, h.carriers, h.link⟩
    · exact ⟨rfl, rfl, rfl, rfl, rfl, rfl, rfl⟩

theorem markFailure_keeps (s : State) : s.Keeps s.markFailure :=
  keeps_ite (driveMark_keeps s) (Keeps.refl s)

theorem completeSlot_keeps (s : State) (k : CapIx) (h : CaptureHeader) (w : CaptureStatus) :
    s.Keeps (s.completeSlot k h w) :=
  (setSlot_keeps ..).trans (post_keeps ..)

theorem endCapture_keeps (c : CallIx) (s : State) (k : CapIx) : s.Keeps (endCapture c s k) := by
  unfold endCapture
  split <;> first | exact Keeps.refl s | exact keeps_ite (completeSlot_keeps ..) (Keeps.refl s)

theorem endCaptures_keeps (s : State) (c : CallIx) : s.Keeps (s.endCaptures c) :=
  keeps_foldl _ (endCapture_keeps c) _ s

/-! ### Records, clearing and handover failures -/

theorem engage_keeps (s : State) (i : SlotIx) (b : BaseIx) (c : CallIx) : s.Keeps (s.engage i b c) := by
  unfold engage
  split
  · exact setStatus_keeps ..
  · exact Keeps.refl s

theorem relocate_keeps (s : State) (i : SlotIx) (b : BaseIx) : s.Keeps (s.relocate i b) := by
  unfold relocate
  split
  · split
    · exact setStatus_keeps ..
    · exact Keeps.refl s
  · exact Keeps.refl s

theorem returnRecord_keeps (s : State) (i : CallInfo) (w : ClearCause) : s.Keeps (s.returnRecord i w) := by
  unfold returnRecord
  split
  · exact Keeps.refl s
  · split
    · split
      · exact setStatus_keeps ..
      · split
        · exact (setStatus_keeps ..).trans (post_keeps ..)
        · split
          · exact (setStatus_keeps ..).trans (post_keeps ..)
          · exact setStatus_keeps ..
    · exact Keeps.refl s

theorem endDrain_keeps (s : State) : s.Keeps s.endDrain :=
  keeps_ite (enter_keeps ..) (Keeps.refl s)

theorem freeContext_keeps (s : State) (c : CallIx) (i : CallInfo) (w : ClearCause) : s.Keeps (s.freeContext c i w) :=
  (((setCtx_keeps ..).trans (returnRecord_keeps ..)).trans (post_keeps ..)).trans (endDrain_keeps _)

theorem freeIfDone_keeps (s : State) (c : CallIx) : s.Keeps (s.freeIfDone c) := by
  unfold freeIfDone
  split
  · exact Keeps.refl s
  · split
    · exact keeps_ite (freeContext_keeps ..) (Keeps.refl s)
    · exact Keeps.refl s

theorem clearCall_keeps (s : State) (c : CallIx) (w : ClearCause) : s.Keeps (s.clearCall c w) := by
  unfold clearCall
  split
  · exact Keeps.refl s
  · split
    · exact Keeps.refl s
    · dsimp only
      refine Keeps.trans ?_ (freeIfDone_keeps ..)
      refine Keeps.trans ?_ (keeps_foldl _ (fun s p => release_keeps s p _) _ _)
      exact keeps_ite ((setCtx_keeps ..).trans (endCaptures_keeps ..)) (setCtx_keeps ..)

theorem failSetup_keeps (s : State) (c : CallIx) (w : SetupReason) : s.Keeps (s.failSetup c w) :=
  clearCall_keeps ..

theorem failAttemptOn_keeps (s : State) (c : CallIx) (i : CallInfo) (t : Target) (p : Option ChanRef) (n : PhaseName)
    (r : Bool) (w : HandoverReason) : s.Keeps (s.failAttemptOn c i t p n r w) := by
  unfold failAttemptOn
  dsimp only
  refine Keeps.trans ?_ (markFailure_keeps _)
  refine Keeps.trans ?_ (post_keeps ..)
  refine Keeps.trans ?_ (setCtx_keeps ..)
  split
  · exact keeps_ite (release_keeps ..) (Keeps.refl s)
  · exact Keeps.refl s

theorem failAttempt_keeps (s : State) (c : CallIx) (w : HandoverReason) : s.Keeps (s.failAttempt c w) := by
  unfold failAttempt
  dsimp only
  split
  · exact failAttemptOn_keeps ..
  · exact Keeps.refl s

theorem loseSwitch_keeps (s : State) (c : CallIx) (w : LostCase) : s.Keeps (s.loseSwitch c w) := by
  unfold loseSwitch
  dsimp only
  split
  · exact ((post_keeps ..).trans (markFailure_keeps _)).trans (clearCall_keeps ..)
  · exact Keeps.refl s

/-! ### Base loss -/

theorem phaseLoss_keeps (s : State) (b : BaseIx) (c : CallIx) (i : CallInfo) : s.Keeps (s.phaseLoss b c i) := by
  unfold phaseLoss
  dsimp only
  split
  · exact Keeps.refl s
  · exact keeps_ite (failAttempt_keeps ..) (keeps_ite (clearCall_keeps ..) (Keeps.refl s))
  · exact keeps_ite (loseSwitch_keeps ..) (keeps_ite (setCtx_keeps ..) (Keeps.refl s))
  · exact keeps_ite (clearCall_keeps ..) (Keeps.refl s)
  · exact keeps_ite (setCtx_keeps ..) (Keeps.refl s)

theorem lossRule_keeps (b : BaseIx) (s : State) (c : CallIx) : s.Keeps (lossRule b s c) := by
  unfold lossRule
  dsimp only
  split
  · exact Keeps.refl s
  · split
    · exact keeps_ite (failSetup_keeps ..) (Keeps.refl s)
    · exact freeIfDone_keeps ..
    · exact keeps_ite (phaseLoss_keeps ..) (keeps_ite (clearCall_keeps ..) (Keeps.refl s))

theorem baseLoss_keeps (s : State) (b : BaseIx) : s.Keeps (s.baseLoss b) := by
  unfold baseLoss
  dsimp only
  refine Keeps.trans ?_ (keeps_foldl _ (lossRule_keeps b) _ _)
  exact ⟨rfl, rfl, rfl, rfl, rfl, rfl, rfl⟩

theorem leaveService_keeps (s : State) (b : BaseIx) (w : BaseState) (k : BaseCause) : s.Keeps (s.leaveService b w k) :=
  ((setBaseState_keeps ..).trans (post_keeps ..)).trans (baseLoss_keeps ..)

theorem dropBase_keeps (s : State) (b : BaseIx) : s.Keeps (s.dropBase b) := by
  unfold dropBase
  split
  · exact (setBaseState_keeps ..).trans (baseLoss_keeps ..)
  · exact (setBaseState_keeps ..).trans (baseLoss_keeps ..)
  · exact setBaseState_keeps ..
  · exact Keeps.refl s
  · exact Keeps.refl s

theorem openContext_keeps (s : State) (c : CallIx) (p : ChanRef) (i : CallInfo) : s.Keeps (s.openContext c p i) := by
  unfold openContext
  dsimp only
  exact (((setCtx_keeps ..).trans (setChan_keeps ..)).trans (engage_keeps ..)).trans (offer_keeps ..)

/-! ### The Handover Sequencer -/

theorem prepare_keeps (s : State) (c : CallIx) (i : CallInfo) (p : ChanRef) (r : Bool) : s.Keeps (s.prepare c i p r) := by
  unfold prepare
  dsimp only
  have h := ((setCtx_keeps s c { (s.ctx c).nextOrder with phase := .preparing p r }).trans
    (setChan_keeps _ p (.reserved (s.ownerOf c) i.tag))).trans
    (offer_keeps _ p.base (.assign p.channel c i.tag) .sequencer
      (({ (s.ctx c).nextOrder with phase := .preparing p r } : Context).sequencerOwner c))
  split
  · exact h
  · exact h.trans (failAttempt_keeps ..)
  · exact h.trans (failAttempt_keeps ..)

theorem startLocal_keeps (s : State) (c : CallIx) (i : CallInfo) (b : BaseIx) (r : Bool) :
    s.Keeps (s.startLocal c i b r) := by
  unfold startLocal
  dsimp only
  split
  · exact (setCtx_keeps ..).trans (failAttemptOn_keeps ..)
  · exact (setCtx_keeps ..).trans (failAttemptOn_keeps ..)
  · exact (setCtx_keeps ..).trans (prepare_keeps ..)

theorem startHandover_keeps (s : State) (c : CallIx) (i : CallInfo) (e : Candidate) (r : Bool) :
    s.Keeps (s.startHandover c i e r) := by
  unfold startHandover
  split
  · exact startLocal_keeps ..
  · exact (setCtx_keeps ..).trans (post_keeps ..)

theorem offerMove_keeps (s : State) (c : CallIx) (i : CallInfo) (t : Target) (ch : ChanIx) :
    s.Keeps (s.offerMove c i t ch).2 :=
  offer_keeps ..

theorem startSwitch_keeps (s : State) (c : CallIx) (i : CallInfo) (p : ChanRef) (r : Bool) :
    s.Keeps (s.startSwitch c i p r) := by
  unfold startSwitch
  dsimp only
  have h := (setCtx_keeps s c (s.ctx c).nextOrder).trans
    (offerMove_keeps _ c i (.localBase p.base) p.channel)
  split
  · exact h.trans (setCtx_keeps ..)
  · exact h.trans (failAttempt_keeps ..)
  · exact h.trans (failAttempt_keeps ..)

theorem sequencerOutcome_keeps (s : State) (c : CallIx) (u n : BitVec 8) (k : OrderKind) (e : Bool) :
    s.Keeps (s.sequencerOutcome c u n k e) := by
  unfold sequencerOutcome
  dsimp only
  split
  · exact Keeps.refl s
  · split
    · exact keeps_ite (startSwitch_keeps ..) (failAttempt_keeps ..)
    · exact keeps_ite (Keeps.refl s) (failAttempt_keeps ..)
    · exact keeps_ite (Keeps.refl s) (failAttempt_keeps ..)
    · exact Keeps.refl s

theorem releaseFormer_keeps (s : State) (p : ChanRef) (o : Owner) : s.Keeps (s.releaseFormer p o) :=
  keeps_ite (release_keeps ..) (Keeps.refl s)

theorem completeMove_keeps (s : State) (c : CallIx) (i : CallInfo) (p : ChanRef) (r : Bool) (o : Option ChanRef)
    (n : Nat) : s.Keeps (s.completeMove c i p r o n) := by
  unfold completeMove
  dsimp only
  exact (((((setChan_keeps ..).trans (setCtx_keeps ..)).trans (relocate_keeps ..)).trans
    (releaseFormer_keeps ..)).trans (setCtx_keeps ..)).trans (post_keeps ..)

theorem targetArrival_keeps (s : State) (c : CallIx) (i : CallInfo) (p : ChanRef) :
    s.Keeps (s.targetArrival c i p) := by
  unfold targetArrival
  split
  · exact keeps_ite (completeMove_keeps ..) (Keeps.refl s)
  · exact keeps_ite (completeMove_keeps ..) (Keeps.refl s)
  · exact Keeps.refl s

/-! ### The Call Unit -/

theorem setupOutcome_keeps (s : State) (c : CallIx) (e : Bool) : s.Keeps (s.setupOutcome c e) := by
  unfold setupOutcome
  dsimp only
  split
  · exact Keeps.refl s
  · split
    · exact keeps_ite (Keeps.refl s) (failSetup_keeps ..)
    · exact keeps_ite ((setCtx_keeps ..).trans (post_keeps ..)) (failSetup_keeps ..)
    · exact Keeps.refl s

theorem releaseOutcome_keeps (s : State) (p : ChanRef) (w : OrderOwner) : s.Keeps (s.releaseOutcome p w) := by
  unfold releaseOutcome
  dsimp only
  split
  · exact keeps_ite ((setChan_keeps ..).trans (freeIfDone_keeps ..)) (setChan_keeps ..)
  · exact setChan_keeps ..

theorem callUnitOutcome_keeps (s : State) (b : BaseIx) (e : WindowEntry) (k : Bool) :
    s.Keeps (s.callUnitOutcome b e k) := by
  unfold callUnitOutcome
  split
  · exact releaseOutcome_keeps ..
  · split
    · exact keeps_ite (setupOutcome_keeps ..) (Keeps.refl s)
    · exact Keeps.refl s
  · exact Keeps.refl s

theorem outcome_keeps (s : State) (b : BaseIx) (e : WindowEntry) (k : Bool) : s.Keeps (s.outcome b e k) := by
  unfold outcome
  split
  · exact callUnitOutcome_keeps ..
  · split
    · exact sequencerOutcome_keeps ..
    · exact Keeps.refl s
  · exact Keeps.refl s
  · exact Keeps.refl s

theorem connect_keeps (s : State) (c : CallIx) (i : CallInfo) (p : ChanRef) (o : Owner) : s.Keeps (s.connect c i p o) :=
  ((setChan_keeps ..).trans (setCtx_keeps ..)).trans (post_keeps ..)

theorem arrive_keeps (s : State) (p : ChanRef) (t : Tag) : s.Keeps (s.arrive p t) := by
  unfold arrive
  split
  · exact Keeps.refl s
  · split
    · exact release_keeps ..
    · split
      · exact Keeps.refl s
      · split
        · exact Keeps.refl s
        · split
          · exact connect_keeps ..
          · exact targetArrival_keeps ..
          · exact Keeps.refl s
    · exact Keeps.refl s
    · exact Keeps.refl s
    · exact Keeps.refl s

theorem lose_keeps (s : State) (p : ChanRef) (t : Tag) : s.Keeps (s.lose p t) := by
  unfold lose
  split
  · exact Keeps.refl s
  · split
    · exact Keeps.refl s
    · split <;> first | exact clearCall_keeps .. | exact Keeps.refl s

/-! ### Registration -/

theorem refuseAccess_keeps (s : State) (i : SlotIx) (r : AccessRequest) (w : AnswerCause) :
    s.Keeps (s.refuseAccess i r w).2 :=
  keeps_ite (post_keeps ..) (Keeps.refl s)

theorem deny_keeps (s : State) (i : SlotIx) (h : Handset) (r : AccessRequest) : s.Keeps (s.deny i h r).2 := by
  unfold deny
  dsimp only
  split
  · exact (setHandset_keeps ..).trans (refuseAccess_keeps ..)
  · exact (setHandset_keeps ..).trans (post_keeps ..)

theorem attach_keeps (s : State) (i : SlotIx) (h : Handset) (r : AccessRequest) : s.Keeps (s.attach i h r) := by
  unfold attach
  dsimp only
  exact keeps_ite (setHandset_keeps ..) ((setHandset_keeps ..).trans (post_keeps ..))

theorem decideAttach_keeps (s : State) (i : SlotIx) (h : Handset) (r : AccessRequest) :
    s.Keeps (s.decideAttach i h r).2 := by
  unfold decideAttach
  split
  · exact refuseAccess_keeps ..
  · split
    · exact refuseAccess_keeps ..
    · split
      · exact deny_keeps ..
      · split
        · exact refuseAccess_keeps ..
        · exact attach_keeps ..

theorem locate_keeps (s : State) (i : SlotIx) (h : Handset) (f : BaseIx) (o : Option Nat) (r : AccessRequest) :
    s.Keeps (s.locate i h f o r) :=
  (setStatus_keeps ..).trans (post_keeps ..)

theorem originate_keeps (s : State) (i : SlotIx) (h : Handset) (b : BaseIx) (o : Option Nat) (r : AccessRequest) :
    s.Keeps (s.originate i h b o r) := by
  unfold originate
  dsimp only
  have moved : s.Keeps (if b = r.base then
      s.setStatus i h (.attached r.base s.lifetimeTicks (some s.settings.timers.hold))
      else (s.setStatus i h (.attached r.base s.lifetimeTicks (some s.settings.timers.hold))).post
        (.located i r.tag b r.base)) :=
    keeps_ite (setStatus_keeps ..) ((setStatus_keeps ..).trans (post_keeps ..))
  exact keeps_ite (moved.trans (post_keeps ..)) moved

theorem decideAccess_keeps (s : State) (i : SlotIx) (h : Handset) (r : AccessRequest) :
    s.Keeps (s.decideAccess i h r).2 := by
  unfold decideAccess
  split
  · exact decideAttach_keeps ..
  · unfold decideLocate
    split
    · exact refuseAccess_keeps ..
    · exact refuseAccess_keeps ..
    · exact locate_keeps ..
  · unfold decideRenew
    split
    · exact refuseAccess_keeps ..
    · exact refuseAccess_keeps ..
    · split
      · exact setStatus_keeps ..
      · exact locate_keeps ..
  · unfold decideDetach
    split
    · exact (setStatus_keeps ..).trans (post_keeps ..)
    · split
      · exact Keeps.refl s
      · exact (setStatus_keeps ..).trans (clearCall_keeps ..)
    · exact Keeps.refl s
  · unfold decideOriginate
    split
    · exact refuseAccess_keeps ..
    · split
      · exact refuseAccess_keeps ..
      · exact refuseAccess_keeps ..
      · exact originate_keeps ..
  · exact Keeps.refl s

theorem answer_keeps (s : State) (r : AccessRequest) (w : OrderOwner) (k : AnswerCause) : s.Keeps (s.answer r w k) :=
  offer_keeps ..

theorem access_keeps (s : State) (r : AccessRequest) : s.Keeps (s.access r) := by
  unfold access
  split
  · exact keeps_ite (Keeps.refl s) (answer_keeps ..)
  · split
    · exact Keeps.refl s
    · exact ((setHandset_keeps ..).trans (decideAccess_keeps ..)).trans (answer_keeps ..)

/-! ### Trains and reports -/

theorem spoil_keeps (s : State) (b : BaseIx) : s.Keeps (s.spoil b) := setBase_keeps ..

theorem takeFirst_keeps (s : State) (b : BaseIx) (x : Byte) : s.Keeps (s.takeFirst b x) := by
  unfold takeFirst
  split
  · exact setTrain_keeps ..
  · exact (spoil_keeps ..).trans (setTrain_keeps ..)

theorem takeNext_keeps (s : State) (b : BaseIx) (x : Byte) : s.Keeps (s.takeNext b x) := by
  unfold takeNext
  split
  · exact Keeps.refl s
  · exact setTrain_keeps ..

theorem takeClose_keeps (s : State) (b : BaseIx) (x : Byte) : s.Keeps (s.takeClose b x) := by
  unfold takeClose
  split
  · exact Keeps.refl s
  · exact keeps_ite ((setTrain_keeps ..).trans (access_keeps ..)) ((setTrain_keeps ..).trans (spoil_keeps ..))

theorem keepSample_keeps (s : State) (c : CallIx) (x : Sample) (v : Evaluation) : s.Keeps (s.keepSample c x v) := by
  unfold keepSample
  dsimp only
  refine Keeps.trans ?_ (keeps_foldl _ post_keeps _ _)
  exact ⟨rfl, rfl, rfl, rfl, rfl, rfl, rfl⟩

theorem completeWaiting_keeps (s : State) (due : List (CapIx × CaptureHeader)) : s.Keeps (s.completeWaiting due) :=
  keeps_foldl _ (fun t _ => by
    split
    · exact completeSlot_keeps ..
    · exact Keeps.refl t) due s

theorem takeSample_keeps (s : State) (c : CallIx) (i : CallInfo) (x : Sample) : s.Keeps (s.takeSample c i x) := by
  unfold takeSample
  dsimp only
  refine Keeps.trans ?_ (completeWaiting_keeps ..)
  split
  · exact (keepSample_keeps ..).trans (startHandover_keeps ..)
  · exact keepSample_keeps ..

theorem acceptReport_keeps (s : State) (b : BaseIx) (c : CallIx) (i : CallInfo) (f : ReportFrame) :
    s.Keeps (s.acceptReport b c i f) := by
  unfold acceptReport
  dsimp only
  exact keeps_ite ((setCtx_keeps ..).trans (setBase_keeps ..)) ((setCtx_keeps ..).trans (takeSample_keeps ..))

theorem takeReport_keeps (s : State) (b : BaseIx) (f : ReportFrame) : s.Keeps (s.takeReport b f) := by
  unfold takeReport
  split
  · exact Keeps.refl s
  · split
    · exact Keeps.refl s
    · dsimp only
      split
      · exact Keeps.refl s
      · split
        · split <;> first | exact acceptReport_keeps .. | exact setCtx_keeps ..
        · exact Keeps.refl s

/-! ### Base frames -/

theorem fromService_keeps (s : State) (o : Origin) (act : BaseIx → State → State) (h : ∀ b t, Keeps t (act b t)) :
    s.Keeps (s.fromService o act) :=
  keeps_ite (h _ s) (Keeps.refl s)

theorem serviceBeat_keeps (s : State) (b : BaseIx) (h : Health) : s.Keeps (s.serviceBeat b h) := by
  unfold serviceBeat
  dsimp only
  split
  · exact keeps_ite ((setBase_keeps ..).trans (post_keeps ..)) (setBase_keeps ..)
  · exact keeps_ite (setBase_keeps ..) ((setBase_keeps ..).trans (post_keeps ..))
  · exact (setBase_keeps ..).trans (leaveService_keeps ..)

theorem takeStatus_keeps (s : State) (b : BaseIx) (h : Health) : s.Keeps (s.takeStatus b h) := by
  unfold takeStatus
  dsimp only
  split
  · exact Keeps.refl s
  · exact (setBase_keeps ..).trans (post_keeps ..)
  · exact setBase_keeps ..
  · exact serviceBeat_keeps ..
  · exact setBase_keeps ..

theorem takeEcho_keeps (s : State) (b : BaseIx) (x : Byte) : s.Keeps (s.takeEcho b x) := by
  unfold takeEcho
  dsimp only
  split
  · exact setBase_keeps ..
  · exact ((setBase_keeps ..).trans (sendOwed_keeps ..)).trans (outcome_keeps ..)

theorem faultIfSilent_keeps (s : State) (b : BaseIx) : s.Keeps (s.faultIfSilent b) :=
  keeps_ite (leaveService_keeps ..) (Keeps.refl s)

end State

end Sys2Proof.Machine
end

