-- ==== Sys2Proof/Laws/HostLink.lean ====
section
/-! SUPPORT. The host link: an idle port hands a request on at once; placing, starting and finishing frames. -/

namespace Sys2Proof.Machine

variable {s : State}

@[simp] theorem State.portFree_fresh : s.fresh.portFree ↔ s.portFree := Iff.rfl

theorem Link.startTx_of_executing {l : Link} {e : Executing} (hs : l.sending = .idle) (hr : l.refusals = [])
    (he : l.executing = some e) : l.startTx = { l with sending := .reply } := by
  simp [Link.startTx, hs, hr, he]

theorem Link.place_of_room {l : Link} {b : Buffered} (h : l.buffer.length < 4) :
    l.place b = { l with buffer := l.buffer ++ [b] } := by
  simp [Link.place, h]

theorem Link.place_of_full {l : Link} {b : Buffered} (h : 4 ≤ l.buffer.length) (hr : l.refusals.length < 4) :
    l.place b = { l with refusals := l.refusals ++ [{ code := b.request.code, tag := b.tag }] } := by
  simp [Link.place, Nat.not_lt.mpr h, hr]

/-- Everything `place` can do: it touches the buffer, or the refusal queue, or the error count. -/
theorem Link.place_cases (l : Link) (b : Buffered) :
    (l.buffer.length < 4 ∧ l.place b = { l with buffer := l.buffer ++ [b] }) ∨
    (4 ≤ l.buffer.length ∧ l.refusals.length < 4 ∧
      l.place b = { l with refusals := l.refusals ++ [{ code := b.request.code, tag := b.tag }] }) ∨
    (4 ≤ l.buffer.length ∧ 4 ≤ l.refusals.length ∧ l.place b = { l with errors := sat 65535 l.errors }) := by
  unfold Link.place
  split
  · next h => exact .inl ⟨h, rfl⟩
  · next h =>
    split
    · next hr => exact .inr (.inl ⟨Nat.not_lt.mp h, hr, rfl⟩)
    · next hr => exact .inr (.inr ⟨Nat.not_lt.mp h, Nat.not_lt.mp hr, rfl⟩)

/-- A busy port hands nothing on. -/
theorem State.handOn_of_executing {e : Executing} (h : s.link.executing = some e) : s.handOn = s := by
  simp [State.handOn, h]

theorem State.handOn_of_empty (h : s.link.buffer = []) : s.handOn = s := by
  unfold State.handOn
  split
  · next hb => simp [h] at hb
  · rfl

/-- An idle port: the request is executed at once, by its owner at the state as it stands, and its reply goes out, if the
owner leaves the link as it was. -/
theorem State.submit_of_portFree (h : s.portFree) (tag : Byte) (r : Request)
    (hl : (takeRequest r s).2.link = s.link) :
    s.submit tag r = (takeRequest r s).2.answered r.code tag (takeRequest r s).1 := by
  obtain ⟨hh, hr, hb, hq, he, hs⟩ := h
  have same : s.setLink { s.link with buffer := [] } = s := by
    rw [← hb]
    rfl
  have handed : (s.setLink (s.link.place { tag := tag, request := r })).handOn = s.execute { tag := tag, request := r } := by
    rw [Link.place_of_room (by simp [hb])]
    simp only [State.handOn, State.setLink_link, he, hb, List.nil_append, State.setLink_setLink]
    rw [← he, same]
  simp only [State.submit, hh, hr, Bool.or_self, Bool.false_eq_true, if_false, State.advance, handed, State.execute,
    State.setExecuting, State.setLink_link, State.setLink_setLink, hl, State.answered]
  rw [Link.startTx_of_executing (by exact hs) (by exact hq) rfl]

end Sys2Proof.Machine
end

