-- ==== Sys2Proof/Laws/Ops.lean ====
section
/-! SUPPORT. What each shared operation can do, said once: the provers cite these instead of unfolding it. -/

namespace Sys2Proof.Machine

/-- Filing (R162): appended to a class with room, dropped with the lost flag set otherwise. -/
theorem NoticeClass.file_cases (c : NoticeClass) (n : Notice) :
    (c.fifo.length < 8 ∧ c.file n = { c with fifo := c.fifo ++ [n] }) ∨
      (8 ≤ c.fifo.length ∧ c.file n = { c with lost := true }) := by
  unfold NoticeClass.file
  split
  · next h => exact .inl ⟨h, rfl⟩
  · next h => exact .inr ⟨Nat.not_lt.mp h, rfl⟩

/-- Offering (R27 to R29): unavailable with nothing changed, sent, or full with the base's own bookkeeping. -/
theorem State.offer_cases (s : State) (b : BaseIx) (o : Order) (placer : Placer) (owner : OrderOwner) :
    ((s.base b).state ≠ .inService ∧ s.offer b o placer owner = (.unavailable, s)) ∨
    ((s.base b).state = .inService ∧ (s.base b).window.length < 4 ∧
      s.offer b o placer owner = (.sent, s.send b o placer owner)) ∨
    ((s.base b).state = .inService ∧ 4 ≤ (s.base b).window.length ∧
      s.offer b o placer owner = (.full, s.setBase b ((s.base b).overflow o))) := by
  unfold State.offer
  dsimp only
  split
  · next h => exact .inl ⟨h, rfl⟩
  · next h =>
    split
    · next w => exact .inr (.inl ⟨not_not.mp h, w, rfl⟩)
    · next w => exact .inr (.inr ⟨not_not.mp h, Nat.not_lt.mp w, rfl⟩)

/-- The owner a release order names. -/
def releaseOwner : Option Owner → OrderOwner
  | some k => .call k.call k.use 0
  | none => .none

/-- A release (R72): FREE at once at an unavailable base, RELEASING when sent, RELEASE_OWED at a full window. -/
theorem State.release_cases (s : State) (p : ChanRef) (o : Option Owner) :
    ((s.base p.base).state ≠ .inService ∧ s.release p o = s.setChan p .free) ∨
    ((s.base p.base).state = .inService ∧ (s.base p.base).window.length < 4 ∧ s.release p o =
      (s.send p.base (.release p.channel) .callUnit (releaseOwner o)).setChan p (.releasing o)) ∨
    ((s.base p.base).state = .inService ∧ 4 ≤ (s.base p.base).window.length ∧ s.release p o =
      (s.setBase p.base ((s.base p.base).overflow (.release p.channel))).setChan p .releaseOwed) := by
  have r : s.release p o = match (s.offer p.base (.release p.channel) .callUnit (releaseOwner o)).1 with
      | .sent => (s.offer p.base (.release p.channel) .callUnit (releaseOwner o)).2.setChan p (.releasing o)
      | .full => (s.offer p.base (.release p.channel) .callUnit (releaseOwner o)).2.setChan p .releaseOwed
      | .unavailable => (s.offer p.base (.release p.channel) .callUnit (releaseOwner o)).2.setChan p .free := by
    cases o <;> rfl
  rcases s.offer_cases p.base (.release p.channel) .callUnit (releaseOwner o) with ⟨h, e⟩ | ⟨h, w, e⟩ | ⟨h, w, e⟩ <;>
    rw [e] at r
  · exact .inl ⟨h, r⟩
  · exact .inr (.inl ⟨h, w, r⟩)
  · exact .inr (.inr ⟨h, w, r⟩)

/-- Owed items (R32): none sent while the window is full or nothing is owed, else the admission, else the lowest release. -/
theorem State.sendOwed_cases (s : State) (b : BaseIx) :
    ((4 ≤ (s.base b).window.length ∨ ((s.base b).owedAdmission = false ∧ (s.base b).owedReleases.lowest id = none)) ∧
      s.sendOwed b = s) ∨
    ((s.base b).window.length < 4 ∧ (s.base b).owedAdmission = true ∧ s.sendOwed b =
      (s.setBase b { s.base b with owedAdmission := false }).send b (.admission (s.base b).held) .baseLink .none) ∨
    ∃ c, (s.base b).window.length < 4 ∧ (s.base b).owedAdmission = false ∧
      (s.base b).owedReleases.lowest id = some c ∧ s.sendOwed b =
        ((s.setBase b { s.base b with owedReleases := (s.base b).owedReleases.set c false }).send b (.release c)
          .callUnit .none).setChan ⟨b, c⟩ (.releasing none) := by
  by_cases w : 4 ≤ (s.base b).window.length
  · exact .inl ⟨.inl w, by simp [State.sendOwed, w]⟩
  · by_cases a : (s.base b).owedAdmission = true
    · exact .inr (.inl ⟨Nat.not_le.mp w, a, by simp [State.sendOwed, w, a]⟩)
    · have a' : (s.base b).owedAdmission = false := by simpa using a
      cases l : (s.base b).owedReleases.lowest id with
      | none => exact .inl ⟨.inr ⟨a', rfl⟩, by simp [State.sendOwed, w, a', l]⟩
      | some c => exact .inr (.inr ⟨c, Nat.not_le.mp w, a', rfl, by simp [State.sendOwed, w, a', l]⟩)

/-- A granted claim (R71): the base in service, the channel its lowest FREE one. -/
theorem State.judgeClaim_granted {s : State} {b : BaseIx} {kind : ClaimKind} {ch : ChanIx}
    (h : s.judgeClaim b kind = .granted ch) :
    (s.base b).state = .inService ∧ ∃ rest, s.freeChannels b = ch :: rest := by
  by_cases i : (s.base b).state = .inService
  · refine ⟨i, ?_⟩
    cases e : s.freeChannels b with
    | nil => cases kind <;> simp [State.judgeClaim, i, e] at h
    | cons c rest =>
      refine ⟨rest, ?_⟩
      cases kind <;> simp [State.judgeClaim, i, e] at h
      · split at h <;> simp_all
      · simp [h]
      · split at h <;> simp_all
  · simp [State.judgeClaim, i] at h

/-- A channel told gone (R84): the context becomes FREE when it is CLEARING and owns none, else nothing happens. -/
theorem State.freeIfDone_cases (s : State) (c : CallIx) :
    s.freeIfDone c = s ∨ ∃ i cause, (s.ctx c).call = some i ∧ i.stage = .clearing cause ∧
      s.owned (s.ownerOf c) = [] ∧ s.freeIfDone c = s.freeContext c i cause := by
  unfold State.freeIfDone
  split
  · exact .inl rfl
  · next i h =>
    split
    · next cause g =>
      split
      · next o => exact .inr ⟨i, cause, h, g, o, rfl⟩
      · exact .inl rfl
    · exact .inl rfl

/-- The end of a drain (R5): STANDBY with DRAIN_DONE, in DRAINING with every context FREE. -/
theorem State.endDrain_cases (s : State) :
    (s.runState = .draining ∧ s.allFree = true ∧ s.endDrain = s.enter .standby .drainDone) ∨
      (¬(s.runState = .draining ∧ s.allFree = true) ∧ s.endDrain = s) := by
  unfold State.endDrain
  split
  · next h => exact .inl ⟨h.1, h.2, rfl⟩
  · next h => exact .inr ⟨h, rfl⟩

/-- A clearing asked for (R83): nothing of a FREE or CLEARING context; of another one the whole start of a clearing. -/
theorem State.clearCall_cases (s : State) (c : CallIx) (cause : ClearCause) :
    (((s.ctx c).call = none ∨ ∃ i k, (s.ctx c).call = some i ∧ i.stage = .clearing k) ∧ s.clearCall c cause = s) ∨
    ∃ i, (s.ctx c).call = some i ∧ (∀ k, i.stage ≠ .clearing k) ∧
      s.clearCall c cause =
        let begun := s.setCtx c ((s.ctx c).clearing i cause)
        let told := if i.stage = .active then begun.endCaptures c else begun
        ((told.heldBy (told.ownerOf c)).foldl (fun t p => t.release p (some (told.ownerOf c))) told).freeIfDone c := by
  unfold State.clearCall
  split
  · next h => exact .inl ⟨.inl h, rfl⟩
  · next i h =>
    split
    · next k g => exact .inl ⟨.inr ⟨i, k, h, g⟩, rfl⟩
    · next n => exact .inr ⟨i, h, fun k g => n k g, rfl⟩

/-- A base taken DOWN (R6, R17): a base loss from IN_SERVICE and PROBING, a change of state from FAULT, else nothing. -/
theorem State.dropBase_cases (s : State) (b : BaseIx) :
    (((s.base b).state = .inService ∨ (s.base b).state = .probing) ∧
      s.dropBase b = (s.setBaseState b .down).baseLoss b) ∨
    ((s.base b).state = .fault ∧ s.dropBase b = s.setBaseState b .down) ∨
    (((s.base b).state = .down ∨ (s.base b).state = .unused) ∧ s.dropBase b = s) := by
  unfold State.dropBase
  cases h : (s.base b).state <;> simp

end Sys2Proof.Machine
end

