-- ==== Sys2Proof/Laws/Requests.lean ====
section
/-! SUPPORT. What taking a request leaves alone: the queue, the pin, the straps, the tick, the carriers, and (but for RESET)
the host link. -/

namespace Sys2Proof.Machine

open State

/-- `t` has the queue, pin, straps, tick, carriers and host link of `s`; the settings may differ. -/
structure State.KeepsLink (s t : State) : Prop where
  pending : t.pending = s.pending
  resetHeld : t.resetHeld = s.resetHeld
  straps : t.straps = s.straps
  tick : t.tick = s.tick
  carriers : t.carriers = s.carriers
  link : t.link = s.link

variable {s t u : State}

theorem State.Keeps.keepsLink (h : s.Keeps t) : s.KeepsLink t :=
  ⟨h.pending, h.resetHeld, h.straps, h.tick, h.carriers, h.link⟩

theorem State.KeepsLink.refl (s : State) : s.KeepsLink s := ⟨rfl, rfl, rfl, rfl, rfl, rfl⟩

theorem State.keepsLink_settings (h : s.Keeps t) (w : Settings) : s.KeepsLink { t with settings := w } :=
  ⟨h.pending, h.resetHeld, h.straps, h.tick, h.carriers, h.link⟩

/-! ### Requests that leave the settings alone too -/

theorem takeGo_keeps (s : State) : s.Keeps (takeGo s).2 := by
  unfold takeGo
  split
  · split
    · exact Keeps.refl s
    · exact enter_keeps ..
  · exact enter_keeps ..
  · exact enter_keeps ..
  · exact Keeps.refl s

theorem forceAll_keeps (s : State) : s.Keeps s.forceAll :=
  keeps_foldl _ (fun t c => clearCall_keeps t c _) _ s

theorem takeStop_keeps (o : Byte) (s : State) : s.Keeps (takeStop o s).2 := by
  unfold takeStop
  split
  · exact Keeps.refl s
  · dsimp only
    split
    · split
      · exact enter_keeps ..
      · split
        · exact (enter_keeps ..).trans (forceAll_keeps _)
        · exact enter_keeps ..
    · exact keeps_ite (forceAll_keeps s) (Keeps.refl s)
    · exact Keeps.refl s
    · exact Keeps.refl s

theorem haltAll_keeps (s : State) : s.Keeps s.haltAll := by
  have h := (enter_keeps s .halted .halt).trans (keeps_foldl dropBase dropBase_keeps (indices 32) _)
  unfold haltAll
  dsimp only
  generalize (indices 32).foldl dropBase (s.enter .halted .halt) = d at h ⊢
  exact ⟨h.pending, h.resetHeld, h.straps, h.tick, h.settings, h.carriers, h.link⟩

theorem takeHalt_keeps (s : State) : s.Keeps (takeHalt s).2 := by
  unfold takeHalt
  split
  · exact haltAll_keeps s
  · exact Keeps.refl s
  · exact Keeps.refl s
  · exact Keeps.refl s

theorem takeReadSettings_keeps (g b : Byte) (s : State) : s.Keeps (takeReadSettings g b s).2 := by
  unfold takeReadSettings
  repeat' split
  all_goals exact Keeps.refl s

theorem takeEnrol_keeps (t k : BitVec 32) (c : Byte) (s : State) : s.Keeps (takeEnrol t k c s).2 := by
  unfold takeEnrol
  split
  · split
    · exact Keeps.refl s
    · split
      · exact Keeps.refl s
      · exact setHandset_keeps ..
  · exact Keeps.refl s

theorem takeRemove_keeps (k : Byte) (v : BitVec 32) (s : State) : s.Keeps (takeRemove k v s).2 := by
  unfold takeRemove
  split
  · split
    · exact Keeps.refl s
    · exact setHandset_keeps ..
  · exact Keeps.refl s

theorem takeBar_keeps (k : Byte) (v : BitVec 32) (s : State) : s.Keeps (takeBar k v s).2 := by
  unfold takeBar
  split
  · split
    · exact Keeps.refl s
    · dsimp only
      split
      · exact (setHandset_keeps ..).trans (post_keeps ..)
      · exact setHandset_keeps ..
  · exact Keeps.refl s

theorem takeUnbar_keeps (k : Byte) (v : BitVec 32) (s : State) : s.Keeps (takeUnbar k v s).2 := by
  unfold takeUnbar
  split
  · exact setHandset_keeps ..
  · exact Keeps.refl s

theorem takeQueryHandset_keeps (k : Byte) (v : BitVec 32) (s : State) : s.Keeps (takeQueryHandset k v s).2 := by
  unfold takeQueryHandset
  split <;> exact Keeps.refl s

theorem takeAdmission_keeps (held : Bool) (b : Byte) (s : State) : s.Keeps (takeAdmission held b s).2 := by
  unfold takeAdmission
  split
  · exact Keeps.refl s
  · split
    · exact Keeps.refl s
    · split
      · exact Keeps.refl s
      · exact (setBase_keeps ..).trans (offer_keeps ..)

theorem takeRestoreBase_keeps (b : Byte) (s : State) : s.Keeps (takeRestoreBase b s).2 := by
  unfold takeRestoreBase
  split
  · exact Keeps.refl s
  · dsimp only
    split
    · exact Keeps.refl s
    · split
      · exact Keeps.refl s
      · exact setBase_keeps ..

theorem takeQueryBase_keeps (b o : Byte) (s : State) : s.Keeps (takeQueryBase b o s).2 := by
  unfold takeQueryBase
  split
  · exact keeps_ite (setBase_keeps ..) (Keeps.refl s)
  · exact Keeps.refl s

theorem takeOpenCall_keeps (t : BitVec 32) (d : Byte) (s : State) : s.Keeps (takeOpenCall t d s).2 := by
  unfold takeOpenCall
  repeat' split
  all_goals first | exact Keeps.refl s | exact openContext_keeps ..

theorem takeAdmitCall_keeps (t : BitVec 32) (b z : Byte) (s : State) : s.Keeps (takeAdmitCall t b z s).2 := by
  unfold takeAdmitCall
  repeat' split
  all_goals first | exact Keeps.refl s | exact openContext_keeps ..

theorem takeCloseCall_keeps (c : Byte) (s : State) : s.Keeps (takeCloseCall c s).2 := by
  unfold takeCloseCall
  split
  · exact Keeps.refl s
  · split
    · exact Keeps.refl s
    · exact clearCall_keeps ..

theorem takeQueryCall_keeps (c : Byte) (s : State) : s.Keeps (takeQueryCall c s).2 := by
  unfold takeQueryCall
  split
  · exact Keeps.refl s
  · split <;> exact Keeps.refl s

theorem takeZoneGo_keeps (c h : Byte) (s : State) : s.Keeps (takeZoneGo c h s).2 := by
  unfold takeZoneGo
  split
  · dsimp only
    split
    · split
      · next c ch _ _ _ _ i z b r d _ _ _ =>
        have k := (setCtx_keeps s c { (s.ctx c).nextOrder with phase := .handingOut z b r d }).trans
          (offerMove_keeps _ c i (.foreignBase z b) ch)
        split
        · exact k.trans (setCtx_keeps ..)
        · exact k.trans (failAttempt_keeps ..)
        · exact k.trans (failAttempt_keeps ..)
      · exact Keeps.refl s
    · exact Keeps.refl s
  · exact Keeps.refl s

theorem takeZoneFail_keeps (c : Byte) (s : State) : s.Keeps (takeZoneFail c s).2 := by
  unfold takeZoneFail
  split
  · exact Keeps.refl s
  · split
    · split
      · exact failAttempt_keeps ..
      · exact Keeps.refl s
    · exact Keeps.refl s

theorem takeZoneComplete_keeps (c : Byte) (s : State) : s.Keeps (takeZoneComplete c s).2 := by
  unfold takeZoneComplete
  split
  · exact Keeps.refl s
  · dsimp only
    split
    · split
      · exact (post_keeps ..).trans (clearCall_keeps ..)
      · exact Keeps.refl s
    · exact Keeps.refl s

theorem takeFetchNotice_keeps (s : State) : s.Keeps (takeFetchNotice s).2 := by
  unfold takeFetchNotice
  split
  · exact Keeps.refl s
  · dsimp only
    split
    · exact Keeps.refl s
    · exact ⟨rfl, rfl, rfl, rfl, rfl, rfl, rfl⟩

theorem takeMaskNotices_keeps (m : Byte) (s : State) : s.Keeps (takeMaskNotices m s).2 :=
  ⟨rfl, rfl, rfl, rfl, rfl, rfl, rfl⟩

theorem takeClearConditions_keeps (k c : Byte) (s : State) : s.Keeps (takeClearConditions k c s).2 := by
  unfold takeClearConditions
  dsimp only
  split
  · exact Keeps.refl s
  · split
    · exact ⟨rfl, rfl, rfl, rfl, rfl, rfl, rfl⟩
    · split
      · exact Keeps.refl s
      · exact setCtx_keeps ..

theorem startCapture_keeps (s : State) (k : CapIx) (h : CaptureHeader) (ring : List Sample) :
    s.Keeps (s.startCapture k h ring).2 := by
  unfold startCapture
  split <;> exact setSlot_keeps ..

theorem takeCapture_keeps (k c n m : Byte) (x : BitVec 32) (s : State) : s.Keeps (takeCapture k c n m x s).2 := by
  unfold takeCapture
  repeat' split
  all_goals first | exact Keeps.refl s | exact startCapture_keeps ..

theorem takeCancelCapture_keeps (k : Byte) (s : State) : s.Keeps (takeCancelCapture k s).2 := by
  unfold takeCancelCapture
  split
  · exact Keeps.refl s
  · exact setSlot_keeps ..

theorem takeReadCapture_keeps (k f : Byte) (s : State) : s.Keeps (takeReadCapture k f s).2 := by
  unfold takeReadCapture
  repeat' split
  all_goals exact Keeps.refl s

/-! ### Settings requests -/

theorem takeSetPart_keepsLink (z p : Byte) (s : State) : s.KeepsLink (takeSetPart z p s).2 := by
  unfold takeSetPart
  repeat' split
  all_goals first | exact KeepsLink.refl s | exact keepsLink_settings (Keeps.refl s) _

theorem takeSetBase_keepsLink (b e c : Byte) (s : State) : s.KeepsLink (takeSetBase b e c s).2 := by
  unfold takeSetBase
  split
  · exact KeepsLink.refl s
  · split
    · exact keepsLink_settings (setBase_keeps ..) _
    · exact KeepsLink.refl s

theorem takeSetNeighbours_keepsLink (b : Byte) (es : List (Byte × Byte)) (s : State) :
    s.KeepsLink (takeSetNeighbours b es s).2 := by
  unfold takeSetNeighbours
  repeat' split
  all_goals first | exact KeepsLink.refl s | exact keepsLink_settings (Keeps.refl s) _

theorem takeSetTimers_keepsLink (ps : List (Byte × BitVec 16)) (s : State) : s.KeepsLink (takeSetTimers ps s).2 := by
  unfold takeSetTimers
  split
  · exact KeepsLink.refl s
  · exact keepsLink_settings (Keeps.refl s) _

theorem takeSetEvaluator_keepsLink (ps : List (Byte × BitVec 16)) (s : State) :
    s.KeepsLink (takeSetEvaluator ps s).2 := by
  unfold takeSetEvaluator
  split
  · exact KeepsLink.refl s
  · exact keepsLink_settings (Keeps.refl s) _

/-- Every request but RESET leaves the queue, the pin, the straps, the tick, the carriers and the host link alone. -/
theorem takeRequest_keepsLink (r : Request) (h : r ≠ .reset) (s : State) : s.KeepsLink (takeRequest r s).2 := by
  cases r with
  | go => exact (takeGo_keeps s).keepsLink
  | stop o => exact (takeStop_keeps o s).keepsLink
  | halt => exact (takeHalt_keeps s).keepsLink
  | reset => exact absurd rfl h
  | identify => exact KeepsLink.refl s
  | setPart z p => exact takeSetPart_keepsLink z p s
  | setBase b e c => exact takeSetBase_keepsLink b e c s
  | setNeighbours b es => exact takeSetNeighbours_keepsLink b es s
  | setTimers ps => exact takeSetTimers_keepsLink ps s
  | setEvaluator ps => exact takeSetEvaluator_keepsLink ps s
  | readSettings g b => exact (takeReadSettings_keeps g b s).keepsLink
  | enrol t k c => exact (takeEnrol_keeps t k c s).keepsLink
  | remove k v => exact (takeRemove_keeps k v s).keepsLink
  | bar k v => exact (takeBar_keeps k v s).keepsLink
  | unbar k v => exact (takeUnbar_keeps k v s).keepsLink
  | queryHandset k v => exact (takeQueryHandset_keeps k v s).keepsLink
  | holdAdmission b => exact (takeAdmission_keeps true b s).keepsLink
  | openAdmission b => exact (takeAdmission_keeps false b s).keepsLink
  | restoreBase b => exact (takeRestoreBase_keeps b s).keepsLink
  | queryBase b o => exact (takeQueryBase_keeps b o s).keepsLink
  | openCall t d => exact (takeOpenCall_keeps t d s).keepsLink
  | closeCall c => exact (takeCloseCall_keeps c s).keepsLink
  | queryCall c => exact (takeQueryCall_keeps c s).keepsLink
  | admitCall t b z => exact (takeAdmitCall_keeps t b z s).keepsLink
  | zoneGo c k => exact (takeZoneGo_keeps c k s).keepsLink
  | zoneFail c => exact (takeZoneFail_keeps c s).keepsLink
  | zoneComplete c => exact (takeZoneComplete_keeps c s).keepsLink
  | fetchNotice => exact (takeFetchNotice_keeps s).keepsLink
  | maskNotices m => exact (takeMaskNotices_keeps m s).keepsLink
  | queryConditions => exact KeepsLink.refl s
  | clearConditions k c => exact (takeClearConditions_keeps k c s).keepsLink
  | capture k c n m x => exact (takeCapture_keeps k c n m x s).keepsLink
  | cancelCapture k => exact (takeCancelCapture_keeps k s).keepsLink
  | readCapture k f => exact (takeReadCapture_keeps k f s).keepsLink
  | mark => exact (driveMark_keeps s).keepsLink
  | unknown c => exact KeepsLink.refl s
  | badLength c => exact KeepsLink.refl s

end Sys2Proof.Machine
end

