-- ==== Sys2Proof/Tests/Slice0.lean ====
section
/-! SUPPORT. The tests: ill-formed commands refused, worked examples of the spec on one step each, and for every statement a
concrete state and operands that meet its hypotheses, clause by clause. -/

namespace Sys2Proof.Machine.Tests

-- One test at a time: elaborated side by side, each waits for the kernel in a thread of its own, and the threads use up memory.
set_option Elab.async false

/-! ### Well-formedness refuses -/

theorem test_refuses_long_neighbours :
    Instr.wellFormed (.setNeighbours 0 0 (List.replicate 124 (0, 0))) = false := by decide +kernel

theorem test_refuses_long_timers : Instr.wellFormed (.setTimers 0 (List.replicate 83 (0, 0))) = false := by
  decide +kernel

theorem test_refuses_long_evaluator : Instr.wellFormed (.setEvaluator 0 (List.replicate 83 (0, 0))) = false := by
  decide +kernel

theorem test_refuses_known_code_as_unknown : Instr.wellFormed (.unknownRequest 0 0x60 []) = false := by decide +kernel

theorem test_refuses_long_unknown : Instr.wellFormed (.unknownRequest 0 0xEE (List.replicate 249 0)) = false := by
  decide +kernel

theorem test_refuses_frame_without_start : Instr.wellFormed (.requestFrame [0x5A, 2, 0x60, 0x17, 0x87]) = false := by
  decide +kernel

theorem test_refuses_frame_of_wrong_length : Instr.wellFormed (.requestFrame [0xA5, 3, 0x60, 0x17, 0x87]) = false := by
  decide +kernel

/-- A reading without a parity error. -/
def reading (n : Nat) : UplinkReading := { value := BitVec.ofNat 7 n, check := ones (BitVec.ofNat 7 n) % 2 == 0 }

/-- A report of call 0 on channel 0 with no neighbour reading. -/
def plainReport : ReportFrame :=
  { call := 0, channel := 0, readingA := reading 38, readingB := reading 41, downlink := 40, count := 0, neighbours := [] }

theorem test_refuses_report_of_wrong_count :
    Instr.wellFormed (.report ⟨0, 0, true⟩ { plainReport with count := 1 }) = false := by decide +kernel

theorem test_accepts_fetch_frame : Instr.wellFormed (.requestFrame [0xA5, 2, 0x60, 0x17, 0x87]) = true := by
  decide +kernel

/-! ### Small states -/

/-- A record with tag 5, credential 9 and class 15. -/
def record (status : HandsetStatus) : Handset :=
  { tag := 5, credential := 9, cls := 15, barred := false, failures := 0, lastAccess := none, status := status }

/-- A base that has settled. -/
def settled : BaseRecord := { BaseRecord.cold with state := .inService, lastHealth := some .ok, seen := true }

/-- Bases 0 and 1 enabled, base 0 with base 1 and base 2 of zone 1 as neighbours. -/
def configured : State :=
  { State.reset with settings := { Settings.cold with bases := ((Settings.cold.bases.set 0
      { enabled := true, channels := 6, neighbours := [⟨.localBase 1, 2⟩, ⟨.foreignBase 1 2, 0⟩] }).set 1
      { enabled := true, channels := 6, neighbours := [] }) } }

/-- SERVING, bases 0 and 1 in service, the record of slot 0 attached at base 0 with an origination pending. -/
def serving : State :=
  ((({ configured with runState := .serving }).setBase 0 settled).setBase 1 settled).setHandset 0
    (some (record (.attached 0 6000 (some 200))))

/-- The state with the record of base 0 replaced. -/
def withBase (r : BaseRecord) : State := serving.setBase 0 r

/-- The state with the record of slot 0 replaced. -/
def withRecord (h : Handset) : State := serving.setHandset 0 (some h)

/-- A call of slot 0 served at channel 0 of base 0. -/
def callAt (stage : Stage) : CallInfo :=
  { stage := stage, kind := .localCall .terminating, slot := 0, tag := 5, cls := 15, serving := ⟨0, 0⟩
    reachedActive := true }

/-- Context 0 in use, in a phase. -/
def context (stage : Stage) (phase : Phase) : Context := { Context.cold with use := 1, call := some (callAt stage), phase := phase }

/-- SERVING with that call up. -/
def inCall (stage : Stage) (phase : Phase) : State :=
  ((serving.setHandset 0 (some (record (.engaged 0 0 false)))).setCtx 0 (context stage phase)).setChan ⟨0, 0⟩ (.busy ⟨0, 1⟩)

/-- The origin of a frame of base 0. -/
def from0 : Origin := ⟨0, 0, true⟩

/-- An entry of an order window. -/
def entry (kind : OrderKind) (placer : Placer) (owner : OrderOwner) (channel : Option ChanIx) (deadline : Nat) : WindowEntry :=
  { serial := 7, kind := kind, placer := placer, owner := owner, channel := channel, deadline := deadline }

/-- A window with no room. -/
def fullWindow : List WindowEntry := List.replicate 4 (entry .answer .registration .none none 3)

/-- A sample with a number. -/
def sampleOf (n : Nat) : Sample := { buildSample (BitVec.ofNat 32 n) 0 6 [] plainReport with number := BitVec.ofNat 32 n }

theorem reset_portFree : State.reset.portFree := ⟨rfl, rfl, rfl, rfl, rfl, rfl⟩

theorem serving_portFree : serving.portFree := ⟨rfl, rfl, rfl, rfl, rfl, rfl⟩

/-- A tag that the table holds in slot `i` alone, checked slot by slot. -/
theorem lone_of_all {s : State} {i : SlotIx} {t : Tag}
    (h : ∀ j, (s.handset j).all (fun k => k.tag != t || j == i) = true) (j : SlotIx) (k : Handset)
    (hj : s.handset j = some k) (ht : k.tag = t) : j = i := by
  have := h j
  simpa [hj, ht] using this

theorem names_by_slot (h : Handset) : (withRecord h).names 1 0 0 h := ⟨rfl, .inl ⟨rfl, rfl⟩⟩

theorem other_slots_vacant (h : Handset) (j : SlotIx) (e : j ≠ 0) : (withRecord h).handset j = none := by
  simp [withRecord, serving, configured, State.reset, State.handset, State.setHandset, Table.get_set_ne _ _ e.symm]

theorem names_by_tag_of (h : Handset) (five : h.tag = 5) : (withRecord h).names 0 5 0 h := by
  refine ⟨rfl, .inr ⟨rfl, by rw [five]; rfl, by rw [five]; decide, by rw [five]; decide, ?_⟩⟩
  rw [five]
  refine lone_of_all fun j => ?_
  by_cases e : j = 0
  · simp [e]
  · simp [other_slots_vacant _ j e]

theorem names_by_tag (status : HandsetStatus) : (withRecord (record status)).names 0 5 0 (record status) :=
  names_by_tag_of _ rfl

/-- No slot but slot 0 holds a tag. -/
theorem no_other_tag (h : Handset) (n : Nat) (other : h.tag.toNat ≠ n) (i : SlotIx) (k : Handset)
    (e : (withRecord h).handset i = some k) : k.tag.toNat ≠ n := by
  by_cases z : i = 0
  · subst z
    exact (Option.some.inj e) ▸ other
  · simp [other_slots_vacant _ i z] at e

/-! ### Worked examples of the spec -/

/-- R178: FETCH NOTICE with tag 17h is the frame A5h 02h 60h 17h 87h. -/
theorem test_fetch_frame : Request.fetchNotice.frame 0x17 = [0xA5, 0x02, 0x60, 0x17, 0x87] := by decide +kernel

/-- R178: the same frame, byte by byte, is answered with the READY notice of the cold reset, kind and lost mark first. -/
theorem test_fetch_frame_is_answered :
    ∃ t, exec (.requestFrame [0xA5, 0x02, 0x60, 0x17, 0x87]) State.reset = .next t ∧
      t.link.executing.map Executing.tag = some 0x17 ∧ (t.classes.get 7).fifo = [] := ⟨_, rfl, by decide +kernel⟩

/-- Chapter 3, "a RENEW train": the five fragments of tag 10,906,174 under ODD sense. -/
theorem test_renew_fragments :
    (trainData .renew 10906174 0).map (fragmentOf .odd) = [0xB0, 0x85, 0x19, 0x54, 0x3E] := by decide +kernel

/-- Its train as collected, with a fourth fragment of choice. -/
def renewTrain (fourth : Byte) : Train :=
  [0x85, 0x19, fourth, 0x3E].foldl (fun t x => t.next (Parity.odd.passes x) 5 x)
    { fragments := [0xB0], xor := 0xB0, vertical := false, overlong := false, gap := 5 }

theorem test_renew_train_is_good :
    (renewTrain 0x54).judge .odd 0x46 = .good ∧
      (renewTrain 0x54).request 21 = { kind := .renew, tag := 10906174, credential := none, base := 21 } := by
  decide +kernel

/-- Chapter 3, "the same train with one bit flipped": the outcome is VERTICAL. -/
theorem test_flipped_train_is_vertical : (renewTrain 0x55).judge .odd 0x46 = .vertical := by decide +kernel

/-- R111, "a clamped reading": 200 moves to 210 and not to 230. -/
theorem test_clamped_reading :
    ({ Settings.cold.evaluator with divergence := 10 }.averageIf (some 200) (some 80)).average = some 210 := by
  decide +kernel

/-- Section 7.9, "a candidate overtakes": 160 with a reading of 38 moves to 158, 150 with 46 to 159. -/
theorem test_smoothing_rounds_away : smooth 2 160 152 = 158 ∧ smooth 2 150 184 = 159 := by decide +kernel

/-- R114, the two limit cases: raw 328 and −552, stored as 255 and −256 when masked, and not at all unmasked. -/
theorem test_saturate_limits :
    ({ Settings.cold.evaluator with hysteresis := 0 }).rawScore 400 7 100 false = 328 ∧
      ({ Settings.cold.evaluator with hysteresis := 15, loadPenalty := 15 }).rawScore 0 (-8) 400 true = -552 ∧
      Settings.cold.evaluator.storedScore 328 = some 255 ∧ Settings.cold.evaluator.storedScore (-552) = some (-256) ∧
      ({ Settings.cold.evaluator with saturateMasked := false }).storedScore 328 = none := by decide +kernel

/-- Section 12.5, "a burst of requests": the fifth request in the buffer's way is refused BUSY. -/
theorem test_fifth_request_is_busy :
    ∃ t, exec (.requestFrame ((List.replicate 6 (Request.identify.frame 1)).flatten)) State.reset = .next t ∧
      t.link.buffer.length = 4 ∧ t.link.refusals = [{ code := 0x05, tag := 1 }] := ⟨_, rfl, by decide +kernel⟩

/-! ### Witnesses: run control, settings, reset -/

theorem witness_StepRunsOldestCommand : State.reset.pending = [] := rfl

theorem witness_CommandsLeaveQueueAndTick : ∃ t, exec .tick serving = .next t := ⟨_, rfl⟩

theorem witness_StructureFixedOutsideHalted :
    ∃ t, exec .tick serving = .next t ∧ serving.runState ≠ .halted ∧ serving.resetHeld = false ∧
      Instr.tick ≠ .coldReset := ⟨_, rfl, by decide, rfl, by decide⟩

theorem witness_ColdResetLeavesResetState : ∃ s, exec .coldReset serving = .next s ∧ s.resetHeld = true := ⟨_, rfl, rfl⟩

theorem witness_WarmResetKeepsSettingsAndHandsets :
    ∃ s, exec (.reset 1) serving = .next s ∧ s.link.resetting = true ∧ s.link.sending = .reply :=
  ⟨_, rfl, by decide +kernel⟩

theorem witness_TickCountsEveryDeadline :
    (State.reset.resetHeld = false ∧ State.reset.runState = .halted) ∧
      serving.resetHeld = false ∧ serving.runState ≠ .halted := ⟨⟨rfl, rfl⟩, rfl, by decide⟩

theorem witness_GoChecksAndStepsTowardsServing :
    (configured.portFree ∧ configured.runState = .halted ∧ configCheck configured.settings = none) ∧
    (State.reset.portFree ∧ State.reset.runState = .halted ∧
      configCheck State.reset.settings = some (.noBase, none, none)) ∧
    ({ serving with runState := .draining }).portFree ∧ ({ serving with runState := .standby }).portFree ∧
      serving.portFree ∧ serving.runState = .serving :=
  ⟨⟨⟨rfl, rfl, rfl, rfl, rfl, rfl⟩, rfl, by decide +kernel⟩, ⟨reset_portFree, rfl, by decide +kernel⟩,
    ⟨rfl, rfl, rfl, rfl, rfl, rfl⟩, ⟨rfl, rfl, rfl, rfl, rfl, rfl⟩, serving_portFree, rfl⟩

theorem witness_StopEndsServing :
    (serving.portFree ∧ serving.runState = .serving ∧ ∀ c, (serving.ctx c).call = none) ∧
    ((inCall .active .none).portFree ∧ (inCall .active .none).runState = .serving ∧
      ((inCall .active .none).ctx 0).call ≠ none) ∧
    (1 < (2 : Byte).toNat) :=
  ⟨⟨serving_portFree, rfl, by decide +kernel⟩, ⟨⟨rfl, rfl, rfl, rfl, rfl, rfl⟩, rfl, by decide +kernel⟩, by decide⟩

theorem witness_StopForceClearsEveryCall :
    (inCall .active .none).portFree ∧ (inCall .active .none).runState = .serving ∧
      ((inCall .active .none).ctx 0).call ≠ none := ⟨⟨rfl, rfl, rfl, rfl, rfl, rfl⟩, rfl, by decide +kernel⟩

theorem witness_HaltTakesBasesDown :
    ({ serving with runState := .standby }).portFree ∧ ∀ c, (({ serving with runState := .standby }).ctx c).call = none :=
  ⟨⟨rfl, rfl, rfl, rfl, rfl, rfl⟩, by decide +kernel⟩

theorem witness_StructuralSettingsStored :
    State.reset.portFree ∧ State.reset.runState = .halted ∧
      (List.replicate 8 ((Target.localBase 31, (0x80 : Byte)))).length ≤ 8 := ⟨reset_portFree, rfl, by decide⟩

/-- Every context in use. -/
def crowded : State := { serving with contexts := Table.fill 96 (context .active .none) }

/-- Base 0 with one channel FREE, or with none. -/
def scarce (spare : Channel) : State :=
  ({ serving with channels := Table.fill 32 (Table.fill 8 .releaseOwed) }).setChan ⟨0, 5⟩ spare

theorem witness_RequestsRefusedWithoutEffect :
    (serving.portFree ∧ serving.runState ≠ .halted ∧ serving.runState = .serving) ∧
    (State.reset.portFree ∧ State.reset.runState = .halted ∧ State.reset.runState ≠ .serving) ∧
    (3 < (4 : Byte).toNat ∧ 31 < (32 : Byte).toNat ∧ 1 < (2 : Byte).toNat ∧
      8 < (List.replicate 9 ((0 : Byte), (0 : Byte))).length ∧
      (∃ e ∈ [((0xA0 : Byte), (0 : Byte))], 0xA0 ≤ e.1.toNat) ∧ (95 < (96 : Byte).toNat ∧ (96 : Byte) ≠ 0xFF)) ∧
    ((0 : BitVec 32).toNat = 0 ∧ 268435455 ≤ (268435455 : BitVec 32).toNat ∧ 0 < (1 : BitVec 32).toNat ∧
      (268435454 : BitVec 32).toNat < 268435455 ∧ (1 : Byte).toNat ≤ 1 ∧
      (∀ i h, serving.handset i = some h → h.tag.toNat ≠ (268435454 : BitVec 32).toNat)) ∧
    (0 : Byte).toNat = serving.settings.zone.val ∧ (3 : Byte).toNat ≠ serving.settings.zone.val := by
  refine ⟨⟨serving_portFree, by decide, rfl⟩, ⟨reset_portFree, rfl, by decide⟩, by decide, ⟨by decide, by decide, by decide,
    by decide, by decide, no_other_tag (record (.attached 0 6000 (some 200))) _ (by decide)⟩, by decide, by decide⟩

/-- The handsets and bases that OPEN CALL and ADMIT CALL refuse, item by item. -/
theorem witness_RequestsRefusedWithoutEffect_items :
    (∀ h, h.tag = 5 → (withRecord h).portFree ∧ (withRecord h).runState = .serving ∧ (withRecord h).names 0 5 0 h) ∧
    ((record (.engaged 0 0 false)).status.state = .engaged ∧ (record (.enrolled none)).status.state = .enrolled ∧
      (record (.attached 0 1 none)).status = .attached 0 1 none ∧ (record (.enrolled none)).barred = false) ∧
    ((crowded.portFree ∧ ∀ c, (crowded.ctx c).call ≠ none) ∧
      crowded.names 0 5 0 (record (.attached 0 6000 (some 200)))) ∧
    (serving.ctx 95).call = none ∧
    ((withBase { settled with state := .fault }).base 0).state ≠ .inService ∧
      ((withBase { settled with held := true }).base 0).held = true ∧
      ((withBase { settled with degraded := true }).base 0).degraded = true ∧
    ((scarce .releaseOwed).freeChannels 0 = [] ∧ ((scarce .free).freeChannels 0).length = 1 ∧
      (11 : Fin 16).val < (scarce .free).settings.evaluator.highClass ∧
      (scarce .free).settings.evaluator.highClass ≤ (12 : Fin 16).val) ∧
    (4 ≤ ((withBase { settled with window := fullWindow }).base 0).window.length ∧
      (withBase { settled with window := fullWindow }).freeChannels 0 ≠ []) ∧
    ∀ s ∈ [withBase { settled with state := .fault }, withBase { settled with held := true },
        withBase { settled with degraded := true }, scarce .releaseOwed, scarce .free,
        withBase { settled with window := fullWindow }],
      s.portFree ∧ s.runState = .serving ∧ (s.ctx 0).call = none ∧
        s.names 0 5 0 (record (.attached 0 6000 (some 200))) := by
  refine ⟨fun h e => ⟨⟨rfl, rfl, rfl, rfl, rfl, rfl⟩, rfl, names_by_tag_of h e⟩, by decide,
    ⟨⟨⟨rfl, rfl, rfl, rfl, rfl, rfl⟩, fun c => by simp [crowded, State.ctx, context]⟩, names_by_tag _⟩, by decide +kernel,
    by decide +kernel, by decide +kernel, by decide +kernel, by decide +kernel, by decide +kernel, ?_⟩
  simp only [List.forall_mem_cons, List.not_mem_nil, false_implies, implies_true, and_true]
  refine ⟨?_, ?_, ?_, ?_, ?_, ?_⟩ <;>
    exact ⟨⟨rfl, rfl, rfl, rfl, rfl, rfl⟩, rfl, rfl, names_by_tag (.attached 0 6000 (some 200))⟩

theorem witness_NumberedSettingsStoredClamped :
    serving.portFree ∧
    ([(0, 0), (12, 0xFFFF)] : List (Fin 13 × BitVec 16)) ≠ [] ∧
      (([(0, 0), (12, 0xFFFF)] : List (Fin 13 × BitVec 16)).map Prod.fst).Nodup ∧
    ([(7, 0xFFFF), (10, 1)] : List (Fin 11 × BitVec 16)) ≠ [] ∧
      (([(7, 0xFFFF), (10, 1)] : List (Fin 11 × BitVec 16)).map Prod.fst).Nodup ∧
      (∀ p ∈ ([(7, 0xFFFF), (10, 1)] : List (Fin 11 × BitVec 16)), 8 ≤ p.1.val → p.2.toNat ≤ 1) ∧
    (∃ p ∈ ([(13, 0)] : List (Byte × BitVec 16)), 12 < p.1.toNat) ∧
      (∃ p ∈ ([(11, 0)] : List (Byte × BitVec 16)), 10 < p.1.toNat) ∧ ¬([3, 3] : List Byte).Nodup ∧
      ∃ p ∈ ([(10, 2)] : List (Byte × BitVec 16)), 8 ≤ p.1.toNat ∧ p.1.toNat ≤ 10 ∧ 1 < p.2.toNat :=
  ⟨serving_portFree, by decide, by decide, by decide, by decide, by simp, by decide, by decide, by decide, by decide⟩

theorem witness_IdentifySettingsAndQueriesReport :
    serving.portFree ∧ 3 < (4 : Byte).toNat ∧ (serving.ctx 95).call = none ∧ (inCall .active .none).portFree ∧
      ((inCall .active .none).ctx 0).call = some (callAt .active) :=
  ⟨serving_portFree, by decide, by decide +kernel, ⟨rfl, rfl, rfl, rfl, rfl, rfl⟩, by decide +kernel⟩

theorem witness_OwnerAnswersAtOnce : carried .fetchNotice ∧ Request.fetchNotice ≠ .reset ∧ State.reset.portFree :=
  ⟨trivial, by decide, reset_portFree⟩

/-! ### Witnesses: handsets -/

/-- A table with no VACANT slot, every record with tag 9. -/
def fullTable : State := { serving with handsets := Table.fill 512 (some { record (.enrolled none) with tag := 9 }) }

theorem witness_EnrolFillsLowestVacantSlot :
    (serving.portFree ∧ 0 < (1 : Tag).toNat ∧ (268435454 : Tag).toNat < 268435455) ∧
    (∃ i h, serving.handset i = some h ∧ h.tag = 5) ∧
    (fullTable.portFree ∧ ∀ i, ∃ h, fullTable.handset i = some h ∧ h.tag ≠ 1) ∧
    ((∀ j h, serving.handset j = some h → h.tag ≠ 1) ∧ serving.handset 1 = none ∧ ∀ j < 1, serving.handset j ≠ none) ∧
    (0 : BitVec 32).toNat = 0 ∧ 268435455 ≤ (268435455 : BitVec 32).toNat ∧ 2097151 < (2097152 : BitVec 32).toNat ∧
      15 < (16 : Byte).toNat := by
  refine ⟨⟨serving_portFree, by decide, by decide⟩, ⟨0, record (.attached 0 6000 (some 200)), rfl, rfl⟩,
    ⟨⟨rfl, rfl, rfl, rfl, rfl, rfl⟩, fun i => ⟨{ record (.enrolled none) with tag := 9 }, ?_, by decide⟩⟩, ⟨?_,
    rfl, fun j lt => ?_⟩, by decide, by decide, by decide, by decide⟩
  · simp [fullTable, State.handset]
  · intro j h e
    by_cases z : j = 0
    · subst z
      have : h = record (.attached 0 6000 (some 200)) := (Option.some.inj e).symm
      subst this
      decide
    · have vacant : serving.handset j = none := by
        simp [serving, configured, State.reset, State.handset, State.setHandset, Table.get_set_ne _ _ (Ne.symm z)]
      simp [vacant] at e
  · have : j = 0 := Fin.ext (Nat.lt_one_iff.mp lt)
    subst this
    exact Option.some_ne_none _

/-- A barred record. -/
def barred (status : HandsetStatus) : Handset := { record status with barred := true, failures := 3 }

theorem witness_RemoveAndBarByTagOrSlot :
    (withRecord (record (.enrolled none))).portFree ∧
    ((withRecord (record (.enrolled none))).names 0 5 0 (record (.enrolled none)) ∧
      (record (.enrolled none)).status.state ≠ .engaged ∧ (record (.enrolled none)).status.state ≠ .attached ∧
      (record (.enrolled none)).barred = false) ∧
    ((withRecord (record (.engaged 0 0 true))).names 1 0 0 (record (.engaged 0 0 true)) ∧
      (record (.engaged 0 0 true)).status.state = .engaged) ∧
    ((withRecord (barred (.enrolled none))).names 1 0 0 (barred (.enrolled none)) ∧
      (barred (.enrolled none)).barred = true) ∧
    ((withRecord (record (.attached 0 1 none))).names 0 5 0 (record (.attached 0 1 none)) ∧
      (record (.attached 0 1 none)).status = .attached 0 1 none) ∧
    (1 < (2 : Byte).toNat ∧ 511 < (512 : BitVec 32).toNat ∧ (0 : BitVec 32).toNat = 0 ∧
      268435455 ≤ (268435455 : BitVec 32).toNat) ∧
    (∀ i h, (withRecord (record (.enrolled none))).handset i = some h → h.tag.toNat ≠ (268435454 : BitVec 32).toNat) ∧
    (511 : BitVec 32).toNat = (511 : SlotIx).val ∧ (withRecord (record (.enrolled none))).handset 511 = none :=
  ⟨⟨rfl, rfl, rfl, rfl, rfl, rfl⟩, ⟨names_by_tag _, by decide, by decide, rfl⟩, ⟨names_by_slot _, rfl⟩,
    ⟨names_by_slot _, rfl⟩, ⟨names_by_tag _, rfl⟩, by decide, no_other_tag _ _ (by decide), rfl,
    other_slots_vacant _ _ (by decide)⟩

theorem witness_UnbarClearsFlagAndCount :
    (withRecord (barred (.engaged 0 0 false))).portFree ∧
      (withRecord (barred (.engaged 0 0 false))).names 1 0 0 (barred (.engaged 0 0 false)) :=
  ⟨⟨rfl, rfl, rfl, rfl, rfl, rfl⟩, names_by_slot _⟩

theorem witness_QueryHandsetHidesCredential :
    ((withRecord (record (.enrolled none))).portFree ∧
      (withRecord (record (.enrolled none))).names 0 5 0 (record (.enrolled none))) ∧
      serving.portFree ∧ serving.handset 511 = none :=
  ⟨⟨⟨rfl, rfl, rfl, rfl, rfl, rfl⟩, names_by_tag _⟩, serving_portFree, by decide +kernel⟩

theorem witness_AttachAcceptedOrDenied :
    serving.closedAt 0 = false ∧ State.reset.closedAt 0 = true ∧
      (∀ credential : Credential,
        ({ kind := .attach, tag := 5, credential := some credential, base := 0 } : AccessRequest).kind = .attach) ∧
      (record (.enrolled none)).barred = false ∧ (barred (.enrolled none)).barred = true ∧
      some (9 : Credential) = some (record (.enrolled none)).credential ∧
      some (8 : Credential) ≠ some (record (.enrolled none)).credential ∧
      (record (.engaged 0 0 false)).status.state = .engaged ∧ (record (.enrolled none)).failures < 2 ∧
      ({ record (.attached 0 1 none) with failures := 2 }).failures = 2 :=
  ⟨by decide +kernel, by decide +kernel, fun _ => rfl, rfl, rfl, rfl, by decide, rfl, by decide, rfl⟩

theorem witness_HandsetDeadlinesLapse :
    ((withRecord (record (.attached 0 0 (some 0)))).handset 0 = some (record (.attached 0 0 (some 0))) ∧
      (record (.attached 0 0 (some 0))).status = .attached 0 0 (some 0)) ∧
    (∀ h b origination, serving.handset 0 = some h → h.status ≠ .attached b 0 origination) ∧
    ∀ h b lifetime, serving.handset 0 = some h → h.status ≠ .attached b lifetime (some 0) := by
  have is : serving.handset 0 = some (record (.attached 0 6000 (some 200))) := rfl
  refine ⟨⟨rfl, rfl⟩, fun h b o e => ?_, fun h b l e => ?_⟩ <;> rw [is] at e <;> cases e <;> simp [record]

/-! ### Witnesses: bases and orders -/

theorem witness_AdmissionAndRestoreBase :
    (serving.portFree ∧ (serving.cfg 31).enabled = false) ∧
    ((serving.cfg 0).enabled = true ∧ (serving.base 0).held = false ∧ (serving.base 0).state = .inService ∧
      (serving.base 0).window.length < 4) ∧
    ((withBase { settled with held := true, window := fullWindow }).portFree ∧
      ((withBase { settled with held := true, window := fullWindow }).base 0).held = true ∧
      4 ≤ ((withBase { settled with held := true, window := fullWindow }).base 0).window.length) ∧
    ((withBase { settled with state := .fault }).portFree ∧
      ((withBase { settled with state := .fault }).cfg 0).enabled = true ∧
      ((withBase { settled with state := .fault }).base 0).state = .fault) := by
  refine ⟨⟨serving_portFree, ?_⟩, ?_, ⟨⟨rfl, rfl, rfl, rfl, rfl, rfl⟩, ?_⟩, ⟨rfl, rfl, rfl, rfl, rfl, rfl⟩, ?_⟩ <;>
    decide +kernel

theorem witness_StatusBeatsByBaseState :
    serving.hears from0 = true ∧ serving.hears ⟨0, 0, false⟩ = false ∧ originBase from0 = 0 ∧
      (∀ r : BaseState, ((withBase { settled with state := r }).hears from0 = true ∧
        ((withBase { settled with state := r }).base 0).state = r)) ∧
      ((withBase { settled with degraded := true }).base 0).degraded = true := by
  refine ⟨by decide +kernel, by decide +kernel, by decide, fun r => ⟨?_, ?_⟩, by decide +kernel⟩ <;>
    cases r <;> decide +kernel

/-- Bases 0, 1 and 2 in service with their heartbeats due, and a call that owns a channel of each. -/
def losing (stage : Stage) (phase : Phase) : State :=
  let due : BaseRecord := { settled with heartbeat := some 0 }
  ((((((inCall stage phase).setBase 0 due).setBase 1 due).setBase 2 due).setChan ⟨1, 0⟩ (.reserved ⟨0, 1⟩ 5)).setChan ⟨2, 0⟩
    (.releasing (some ⟨0, 1⟩)))

/-- A call that owns channels of base 0 alone. -/
def losingAll (stage : Stage) : State := (inCall stage .none).setBase 0 { settled with heartbeat := some 0 }

theorem witness_BaseLossEmptiesBase :
    (originBase from0 = 0 ∧ serving.hears from0 = true ∧ (serving.base 0).state = .inService) ∧
    (((withBase { settled with state := .probing, settle := some 0, lastHealth := some .failed }).base 0).state = .probing ∧
      ((withBase { settled with state := .probing, settle := some 0, lastHealth := some .failed }).base 0).settle = some 0 ∧
      ((withBase { settled with state := .probing, settle := some 0, lastHealth := some .failed }).base 0).lastHealth ≠
        some .ok) ∧
    (∀ stage ∈ [Stage.setup none, .active, .clearing .closed], ((losingAll stage).base 0).heartbeat = some 0 ∧
      ((losingAll stage).base 0).state = .inService ∧ ((losingAll stage).ctx 0).call = some (callAt stage) ∧
      ((losingAll stage).chan ⟨0, 0⟩).ownedBy ((losingAll stage).ownerOf 0) = true ∧
      (∀ b ch, ((losingAll stage).chan ⟨b, ch⟩).ownedBy ((losingAll stage).ownerOf 0) = true → b = 0)) ∧
    ∀ at_ ∈ [(Stage.clearing .closed, Phase.none), (.active, .none), (.active, .preparing ⟨1, 0⟩ true),
        (.active, .switching ⟨1, 0⟩ true (some ⟨0, 0⟩) 0 3), (.active, .handingOut 1 2 true 3),
        (.active, .switchingOut 1 2 7 true (some ⟨0, 0⟩) 0 3)],
      ∀ b ∈ [(0 : BaseIx), 1, 2], ((losing at_.1 at_.2).base b).heartbeat = some 0 ∧
        ((losing at_.1 at_.2).base b).state = .inService ∧ ((losing at_.1 at_.2).ctx 0).call = some (callAt at_.1) ∧
        ((losing at_.1 at_.2).ctx 0).phase = at_.2 ∧
        ((losing at_.1 at_.2).chan ⟨b, 0⟩).ownedBy ((losing at_.1 at_.2).ownerOf 0) = true := by decide +kernel

theorem witness_SettledBaseEntersService :
    (((withBase { settled with state := .probing, settle := some 0 }).base 0).state = .probing ∧
      ((withBase { settled with state := .probing, settle := some 0 }).base 0).settle = some 0 ∧
      ((withBase { settled with state := .probing, settle := some 0 }).base 0).lastHealth = some .ok ∧
      ((withBase { settled with state := .probing, settle := some 0 }).base 0).window.length < 4) ∧
    ((withBase { settled with settle := some 1 }).base 0).settle ≠ some 0 ∧
      ((withBase { settled with heartbeat := none }).base 0).heartbeat ≠ some 0 := by decide +kernel

/-- Base 0 with one ANSWER in its window, due. -/
def answering (noEcho : Nat) (owed : Bool) : State :=
  withBase { settled with window := [entry .answer .registration (.slot 0) none 0], noEcho := noEcho, owedAdmission := owed }

theorem witness_OrderOutcomesAtBase :
    (serving.hears ⟨0, 0, false⟩ = false ∧ serving.hears from0 = true ∧ (serving.base 0).state = .inService ∧
      ∀ e ∈ (serving.base 0).window, e.serial ≠ 7) ∧
    (∀ owed, ((answering 0 owed).hears from0 = true ∧
      ((answering 0 owed).base 0).window.find? (fun x => x.serial == 7) =
        some (entry .answer .registration (.slot 0) none 0) ∧
      (entry .answer .registration (.slot 0) none 0).placer = .registration ∧
      ((answering 0 owed).base 0).owedReleases = Table.fill 8 false ∧ ((answering 0 owed).base 0).owedAdmission = owed ∧
      (((answering 0 owed).base 0).window.eraseP fun x => x.serial == 7).length < 4)) ∧
    (entry .answer .registration (.slot 0) none 0).deadline = 0 ∧
    ((answering 1 false).base 0).noEcho < 2 ∧ ((answering 2 false).base 0).noEcho = 2 ∧
      (entry .answer .registration (.slot 0) none 1).deadline ≠ 0 := by
  refine ⟨by decide +kernel, fun owed => ?_, by decide +kernel⟩
  cases owed <;> decide +kernel

/-- Base `b` with one order in its window, its record as `r` otherwise. -/
def ordered (r : BaseRecord) (b : BaseIx) (e : WindowEntry) (noEcho : Nat) (stage : Stage) (phase : Phase) : State :=
  (inCall stage phase).setBase b { r with window := [e], noEcho := noEcho }

/-- What the departure of that order leaves before the placing block hears of it. -/
def emptied (r : BaseRecord) (b : BaseIx) (e : WindowEntry) (noEcho after : Nat) (stage : Stage) (phase : Phase) : State :=
  ((ordered r b e noEcho stage phase).fresh.setBase b { r with window := [], noEcho := after }).owedSent b

/-- A settled base that owes an ADMISSION, and one that owes the RELEASE of its channels 3 and 7. -/
def owing : List BaseRecord :=
  [settled, { settled with owedAdmission := true },
    { settled with owedReleases := ((Table.fill 8 false).set 3 true).set 7 true }]

theorem ordered_departs (r : BaseRecord) (up : r.state = .inService) (kind : OrderKind) (placer : Placer)
    (owner : OrderOwner) (stage : Stage) (phase : Phase) (b : Fin 2) :
    let e := entry kind placer owner (some 0) 0
    let a : BaseIx := ⟨b.val, by omega⟩
    (ordered r a e 1 stage phase).departs a 7 e true (.echo ⟨0, ⟨b.val, by omega⟩, true⟩ 7) (emptied r a e 1 0 stage phase) ∧
      (ordered r a e 1 stage phase).departs a 7 e false (.echoDeadlineExpiry a 7) (emptied r a e 1 2 stage phase) := by
  have either : b = 0 ∨ b = 1 := by omega
  rcases either with rfl | rfl <;>
    exact ⟨⟨rfl, .inl ⟨rfl, ⟨_, rfl, rfl, rfl⟩, .inr up, rfl⟩⟩,
      ⟨rfl, .inr ⟨rfl, rfl, rfl, Nat.lt_succ_self 1, rfl⟩⟩⟩

/-- What is owed goes out when the order leaves: nothing, the ADMISSION, the lowest RELEASE. -/
theorem witness_OrderOutcomesAtBase_owed :
    (∀ r ∈ owing, r.state = .inService) ∧
    owing.map (fun r => (emptied r 0 (entry .answer .registration (.slot 0) (some 0) 0) 1 0 .active .none).ordersOut) =
      [[], [{ base := 0, serial := 0, order := .admission false }], [{ base := 0, serial := 0, order := .release 3 }]] ∧
    (∀ k : ChanIx, k < 3 → (owing.getLast (by decide)).owedReleases.get k = false) := by decide +kernel

/-- RELEASE entries by their owner: none, a call ACTIVE or of another use, and a clearing with channel 0 of base 0 as its
last one (the order at base 0) or not (the order at base 1). -/
theorem witness_OrderOutcomesAtBase_releases :
    (∀ c use orderNo, (entry .release .callUnit .none (some 0) 0).owner ≠ .call c use orderNo) ∧
    (∀ stage ∈ [Stage.active, .clearing .closed], ∀ b ∈ [(0 : BaseIx), 1],
      let s := ordered settled b (entry .release .callUnit (.call 0 1 0) (some 0) 0) 1 stage .none
      (s.ctx 0).call = some (callAt stage) ∧ (s.ctx 0).use = 1 ∧ (s.ctx 0).use ≠ 2 ∧ (s.ctx 1).call = none) ∧
    (∀ cause, Stage.active ≠ .clearing cause) ∧
    (((emptied settled 1 (entry .release .callUnit (.call 0 1 0) (some 0) 0) 1 0 (.clearing .closed) .none).setChan ⟨1, 0⟩
      .free).chan ⟨0, 0⟩).ownedBy ⟨0, 1⟩ = true ∧
    ∀ b ch, (((emptied settled 0 (entry .release .callUnit (.call 0 1 0) (some 0) 0) 1 0 (.clearing .closed) .none).setChan
      ⟨0, 0⟩ .free).chan ⟨b, ch⟩).ownedBy ⟨0, 1⟩ = false := by
  refine ⟨fun c use orderNo e => (by cases e), by decide +kernel, fun cause e => (by cases e), by decide +kernel,
    by decide +kernel⟩

/-- The orders of the Call Unit and of the Handover Sequencer, by what they find. -/
theorem witness_OrderOutcomesAtBase_departures :
    (entry .assign .callUnit (.call 0 1 0) (some 0) 0).owner = .call 0 1 0 ∧
    (∀ stage ∈ [Stage.setup (some 3), .setup none, .active],
      ((ordered settled 0 (entry .assign .callUnit (.call 0 1 0) (some 0) 0) 1 stage .none).ctx 0).call = some (callAt stage) ∧
      ((ordered settled 0 (entry .assign .callUnit (.call 0 1 0) (some 0) 0) 1 stage .none).ctx 0).use = 1) ∧
    (({ callAt (.setup none) with kind := .zoneIn 1 }).kind = .zoneIn 1 ∧ (callAt .active).kind = .localCall .terminating ∧
      (∀ d, Stage.active ≠ .setup d)) ∧
    (∀ phase ∈ [Phase.preparing ⟨1, 0⟩ true, .switching ⟨1, 0⟩ true (some ⟨0, 0⟩) 0 3,
        .switchingOut 1 2 7 true (some ⟨0, 0⟩) 0 3],
      ((ordered settled 1 (entry .assign .sequencer (.call 0 1 0) (some 0) 0) 1 .active phase).ctx 0).phase = phase ∧
      ((ordered settled 1 (entry .assign .sequencer (.call 0 1 0) (some 0) 0) 1 .active phase).ctx 0).orderNo = 0 ∧
      (callAt .active).serving.base ≠ 1 ∧
      ((ordered settled 1 (entry .assign .sequencer (.call 0 1 0) (some 0) 0) 1 .active phase).base 0).state = .inService ∧
      ((ordered settled 1 (entry .assign .sequencer (.call 0 1 0) (some 0) 0) 1 .active phase).base 0).window.length < 4 ∧
      4 ≤ (((ordered settled 1 (entry .assign .sequencer (.call 0 1 0) (some 0) 0) 1 .active phase).setBase 0
        { settled with window := fullWindow }).base 0).window.length) ∧
    (Phase.preparing ⟨1, 0⟩ true).name ≠ .switching ∧ (serving.ctx 0).call = none := by
  refine ⟨rfl, by decide +kernel, ⟨rfl, rfl, fun d e => by cases e⟩, by decide +kernel, by decide, by decide +kernel⟩

theorem witness_CarrierTakesPortDown :
    (serving.carriers.get 0 = true ∧ serving.driven 0 = true) ∧ serving.driven 3 = false ∧ portOf 7 = 0 ∧
      portOf 8 ≠ 0 ∧ ((inCall .active .none).base 1).state = .inService ∧
      ({ serving with carriers := serving.carriers.set 0 false }).carriers.get 0 = false ∧
      ({ serving with carriers := serving.carriers.set 0 false }).driven 0 = true := by decide +kernel

/-! ### Witnesses: trains -/

/-- Base 0 with a train being collected. -/
def collecting (t : Train) : State := serving.setTrain 0 (some t)

theorem witness_FragmentsCollectIntoTrain :
    (State.reset.hears from0 = false ∨ (State.reset.base (originBase from0)).state ≠ .inService) ∧
    (serving.hears from0 = true ∧ (serving.base 0).state = .inService ∧ serving.trains.get 0 = none) ∧
    ((collecting (renewTrain 0x55)).trains.get 0 = some (renewTrain 0x55) ∧
      (renewTrain 0x55).judge (collecting (renewTrain 0x55)).settings.parity 0x46 ≠ .good ∧ (renewTrain 0x55).gap ≠ 0) ∧
      ({ renewTrain 0x55 with gap := 0 }).gap = 0 ∧
    ({ renewTrain 0x54 with fragments := [0xB0, 0x85, 0x19, 0x54] }).fragments.length < 5 ∧
      ((renewTrain 0x54).fragments.length = 5 ∧ (renewTrain 0x54).overlong = false ∧ (renewTrain 0x54).vertical = false ∧
        (renewTrain 0x54).xor = 0x46 ∧ (0x47 : Byte) ≠ (renewTrain 0x54).xor) ∧
      (renewTrain 0x55).vertical = true ∧ ({ renewTrain 0x54 with overlong := true }).overlong = true := by
  decide +kernel

theorem witness_ClosingParityFollowsFromXor : ∀ x ∈ ([0xB0, 0x85] : List Byte), Parity.odd.passes x = true := by
  decide +kernel

theorem witness_TrainDecodesToItsRequest :
    AccessKind.attach ≠ .malformed ∧ ∃ first rest, (trainData .attach 5 9).map (fragmentOf .even) = first :: rest :=
  ⟨by decide, _, _, rfl⟩

/-- A closed train of five fragments for tag 5, and what closes it. -/
def trainOf (kind : AccessKind) : Train :=
  match (trainData kind 5 9).map (fragmentOf .odd) with
  | first :: rest => rest.foldl (fun t x => t.next (Parity.odd.passes x) 5 x)
      { fragments := [first], xor := first, vertical := !Parity.odd.passes first, overlong := false, gap := 5 }
  | [] => { fragments := [], xor := 0, vertical := false, overlong := false, gap := 5 }

/-- That train at base 0, the record of slot 0 as given. -/
def closing (kind : AccessKind) (status : HandsetStatus) : State :=
  (withRecord (record status)).setTrain 0 (some (trainOf kind))

theorem closing_names (kind : AccessKind) (status : HandsetStatus) :
    (closing kind status).names 0 5 0 (record status) := names_by_tag status

/-- A DETACH at base 0, whose window is as given, in the call that holds channel 0 there. -/
def detaching (window : List WindowEntry) (stage : Stage) : State :=
  (((closing .detach (.engaged 0 0 false)).setCtx 0 (context stage .none)).setChan ⟨0, 0⟩ (.busy ⟨0, 1⟩)).setBase 0
    { settled with window := window }

theorem witness_GoodTrainIsAnswered_detach :
    (∀ window ∈ [fullWindow, fullWindow.take 2, fullWindow.take 3], ∀ stage ∈ [Stage.active, .setup none],
      let s := detaching window stage
      s.hears from0 = true ∧ (s.base 0).state = .inService ∧ s.trains.get 0 = some (trainOf .detach) ∧
        (s.ctx 0).call = some (callAt stage) ∧ s.givenUpAt 0 0 = [0]) ∧
    (fullWindow.take 2).length + 1 < 4 ∧ 4 ≤ (fullWindow.take 3).length + 1 ∧
    (∀ cause, Stage.active ≠ .clearing cause) ∧ ∀ cause, Stage.setup none ≠ .clearing cause := by
  refine ⟨by decide +kernel, by decide, by decide, fun cause e => (by cases e), fun cause e => (by cases e)⟩

theorem witness_GoodTrainIsAnswered :
    (∀ kind ∈ [AccessKind.attach, .renew, .detach, .locate, .originate],
      ∀ status ∈ [HandsetStatus.attached 0 1 none, .attached 1 1 (some 1), .enrolled none, .engaged 0 0 true,
        .engaged 0 0 false],
      (closing kind status).hears from0 = true ∧ ((closing kind status).base 0).state = .inService ∧
      ((closing kind status).base 0).window.length < 4 ∧ (closing kind status).trains.get 0 = some (trainOf kind) ∧
      (trainOf kind).judge (closing kind status).settings.parity (trainOf kind).xor = .good ∧
      ((trainOf kind).request 0).tag = (record status).tag ∧ ((trainOf kind).request 0).kind = kind ∧
      (closing kind status).runState = .serving ∧ ((closing kind status).base 0).held = false ∧
      ((closing kind status).base 0).degraded = false) ∧
    (∀ kind status, (closing kind status).names 0 ((record status).tag.setWidth 32) 0 (record status)) ∧
    ((({ closing .originate (.enrolled none) with runState := .draining }).runState ≠ .serving) ∧
      ((closing .originate (.enrolled none)).setBase 0 { settled with held := true }).hears from0 = true ∧
      (((closing .originate (.enrolled none)).setBase 0 { settled with held := true }).base 0).held = true) ∧
    (((closing .renew (.enrolled none)).setBase 0 { settled with window := fullWindow }).hears from0 = true ∧
      4 ≤ (((closing .renew (.enrolled none)).setBase 0 { settled with window := fullWindow }).base 0).window.length) ∧
    (∀ stage ∈ [Stage.active, .setup none, .clearing .forced],
      (((closing .detach (.engaged 0 0 false)).setCtx 0 (context stage .none)).ctx 0).call = some (callAt stage)) ∧
    ∀ cause, (callAt .active).stage ≠ .clearing cause := by
  refine ⟨by decide +kernel, fun _ _ => closing_names _ _, by decide +kernel, by decide +kernel, by decide +kernel,
    fun cause e => by cases e⟩

/-- A train of kind 6, which is not defined, that carries tag 5. -/
def oddTrain : Train :=
  ([0x60, 0, 0, 0, 5] : List (BitVec 7)).map (fragmentOf .odd) |>.drop 1 |>.foldl
    (fun t x => t.next (Parity.odd.passes x) 5 x)
    { fragments := [0xE0], xor := 0xE0, vertical := false, overlong := false, gap := 5 }

theorem witness_UnknownAndMalformedTrains :
    (∀ t ∈ [trainOf .renew, oddTrain], (collecting t).hears from0 = true ∧ ((collecting t).base 0).state = .inService ∧
      ((collecting t).base 0).window.length < 4 ∧ (collecting t).trains.get 0 = some t ∧
      t.judge (collecting t).settings.parity t.xor = .good ∧ (t.request 0).tag = 5) ∧
    ((trainOf .renew).request 0).kind ≠ .malformed ∧ (oddTrain.request 0).kind = .malformed ∧
    (∀ j k, (serving.setHandset 0 none).handset j = some k → k.tag ≠ 5) ∧
    (closing .malformed (.enrolled none)).names 1 (BitVec.ofNat 32 0) 0 (record (.enrolled none)) ∧
    ∀ j k, (withRecord (record (.enrolled none))).handset j = some k → k.tag = 5 → j = 0 := by
  refine ⟨by decide +kernel, by decide +kernel, by decide +kernel, ?_, ⟨rfl, .inl ⟨rfl, rfl⟩⟩, ?_⟩
  · intro j k e
    by_cases z : j = 0
    · subst z
      cases e
    · have vacant : (serving.setHandset 0 none).handset j = none := by
        simp [serving, configured, State.reset, State.handset, State.setHandset, Table.get_set_ne _ _ (Ne.symm z)]
      simp [vacant] at e
  · intro j k e _
    by_contra z
    simp [other_slots_vacant _ j z] at e

/-! ### Witnesses: calls, reports and handovers -/

theorem witness_OpenCallTakesContext :
    serving.portFree ∧ serving.runState = .serving ∧
    serving.names 0 ((record (.attached 0 6000 (some 200))).tag.setWidth 32) 0 (record (.attached 0 6000 (some 200))) ∧
    (record (.attached 0 6000 (some 200))).barred = false ∧ (true = true → some 200 ≠ (none : Option Nat)) ∧
    (serving.ctx 0).call = none ∧ (∀ d < 0, (serving.ctx d).call ≠ none) ∧ (serving.base 0).state = .inService ∧
    (serving.base 0).held = false ∧ (serving.base 0).degraded = false ∧ (serving.base 0).window.length < 4 ∧
    0 ∈ serving.freeChannels 0 ∧ (∀ k ∈ serving.freeChannels 0, 0 ≤ k) ∧
    ((serving.freeChannels 0).length = 1 →
      serving.settings.evaluator.highClass ≤ (record (.attached 0 6000 (some 200))).cls.val) := by
  refine ⟨serving_portFree, rfl, names_by_tag _, rfl, by decide, ?_⟩
  decide +kernel

theorem witness_AdmitCallTakesContext :
    serving.portFree ∧ serving.runState = .serving ∧ (1 : ZoneIx) ≠ serving.settings.zone ∧
    (record (.attached 0 6000 (some 200))).status.state ≠ .engaged ∧ (record (.attached 0 6000 (some 200))).barred = false ∧
    serving.names 0 ((record (.attached 0 6000 (some 200))).tag.setWidth 32) 0 (record (.attached 0 6000 (some 200))) ∧
    (serving.ctx 0).call = none ∧ (∀ d < 0, (serving.ctx d).call ≠ none) ∧ (serving.base 1).state = .inService ∧
    (serving.base 1).held = false ∧ (serving.base 1).degraded = false ∧ (serving.base 1).window.length < 4 ∧
    0 ∈ serving.freeChannels 1 ∧ ∀ k ∈ serving.freeChannels 1, 0 ≤ k := by
  refine ⟨serving_portFree, rfl, by decide, by decide, rfl, names_by_tag _, ?_⟩
  decide +kernel

theorem witness_CloseCallStartsClearing :
    serving.portFree ∧ 95 < (96 : Byte).toNat ∧ (serving.ctx 95).call = none ∧
    ((inCall (.clearing .lost) .none).portFree ∧
      ((inCall (.clearing .lost) .none).ctx 0).call = some (callAt (.clearing .lost))) ∧
    ((inCall (.setup (some 0)) .none).portFree ∧
      ((inCall (.setup (some 0)) .none).ctx 0).call = some (callAt (.setup (some 0)))) ∧
    ((inCall .active .none).ctx 0).call = some (callAt .active) := by
  refine ⟨serving_portFree, by decide, by decide +kernel, ⟨⟨rfl, rfl, rfl, rfl, rfl, rfl⟩, rfl⟩,
    ⟨⟨rfl, rfl, rfl, rfl, rfl, rfl⟩, rfl⟩, rfl⟩

/-- The call clearing, its RELEASE in the window, with its setup kind, whether it reached ACTIVE, and its record. -/
def releasing (kind : SetupKind) (reached : Bool) (cause : ClearCause) (h : Handset) : State :=
  ((((inCall .active .none).setCtx 0 { context .active .none with
    call := some { callAt (.clearing cause) with kind := kind, reachedActive := reached } }).setHandset 0
    (some h)).setChan ⟨0, 0⟩ (.releasing (some ⟨0, 1⟩))).setBase 0 { settled with window := [entry .release .callUnit (.call 0 1 0) (some 0) 3] }

theorem witness_ReleaseEchoEndsClearing :
    (∀ kind ∈ [SetupKind.localCall .originated, .zoneIn 3], ∀ reached : Bool,
      ∀ cause ∈ [ClearCause.closed, .handedOut 3, .setupFailed .noEcho],
      ∀ h ∈ [record (.engaged 0 0 true), barred (.engaged 0 0 false), record (.engaged 0 0 false)],
      let s := releasing kind reached cause h
      let e := entry .release .callUnit (.call 0 1 0) (some 0) 3
      (s.hears from0 = true ∧ (s.base 0).state = .inService ∧
        (s.base 0).window.find? (fun x => x.serial == 7) = some e ∧
        (s.base 0).owedAdmission = false ∧ (s.base 0).owedReleases = Table.fill 8 false) ∧
      e.owner = .call 0 (s.ctx 0).use 0 ∧
      (s.ctx 0).call = some { callAt (.clearing cause) with kind := kind, reachedActive := reached } ∧
      (∀ ch, (s.chan ⟨0, ch⟩).ownedBy (s.ownerOf 0) = true ↔ ch = 0) ∧ s.handset 0 = some h ∧
      h.status.state = .engaged) ∧
    (∀ b c, ((releasing (.zoneIn 3) false .closed (record (.engaged 0 0 true))).chan ⟨b, c⟩).ownedBy
      ((releasing (.zoneIn 3) false .closed (record (.engaged 0 0 true))).ownerOf 0) = true ↔
        (⟨b, c⟩ : ChanRef) = ⟨0, 0⟩) ∧
    ∀ d, d ≠ 0 → (({ releasing (.zoneIn 3) false .closed (record (.engaged 0 0 true)) with
      runState := .draining }).ctx d).call = none := by decide +kernel

theorem witness_ArrivalConnectsCall :
    (serving.hears from0 = true ∧ (serving.base 0).state = .inService ∧ (5 : ChanIx).val < (serving.cfg 0).channels ∧
      serving.chan ⟨0, 5⟩ = .free ∧ (serving.base 0).window.length < 4) ∧
    (((inCall (.setup (some 1)) .none).setChan ⟨0, 0⟩ (.reserved ⟨0, 1⟩ 5)).chan ⟨0, 0⟩ = .reserved ⟨0, 1⟩ 5 ∧
      ((inCall (.setup (some 1)) .none).ctx 0).use = 1 ∧
      ((inCall (.setup (some 1)) .none).ctx 0).call = some (callAt (.setup (some 1))) ∧ (5 : Tag) ≠ 6) ∧
    (inCall .active .none).chan ⟨0, 0⟩ = .busy ⟨0, 1⟩ := by decide +kernel

/-- Entries of a full candidate list, the lowest average twice. -/
def fullList : List Weighed :=
  [100, 90, 300, 90, 200, 400].mapIdx fun k a =>
    Weighed.untouched (Candidate.fresh (.foreignBase 1 ⟨k % 32, Nat.mod_lt _ (by decide)⟩) 0 a)

/-- A switch towards channel 0 of base 1 with its old link held. -/
def switching (strays deadline : Nat) : State :=
  (inCall .active (.switching ⟨1, 0⟩ false (some ⟨0, 0⟩) strays deadline)).setChan ⟨1, 0⟩ (.reserved ⟨0, 1⟩ 5)

theorem witness_TargetArrivalCompletesHandover :
    (switching 1 30).hears ⟨0, 1, true⟩ = true ∧ originBase ⟨0, 1, true⟩ = 1 ∧
    ((switching 1 30).base 1).state = .inService ∧ (0 : ChanIx).val < ((switching 1 30).cfg 1).channels ∧
    (switching 1 30).chan ⟨1, 0⟩ = .reserved ((switching 1 30).ownerOf 0) (callAt .active).tag ∧
    ((switching 1 30).ctx 0).call = some (callAt .active) ∧
    ((switching 1 30).ctx 0).phase = .switching ⟨1, 0⟩ false (some ⟨0, 0⟩) 1 30 ∧ (callAt .active).serving.base ≠ 1 ∧
    (switching 1 30).handset 0 = some (record (.engaged 0 0 false)) ∧
    let preparing := (inCall .active (.preparing ⟨1, 0⟩ true)).setChan ⟨1, 0⟩ (.reserved ⟨0, 1⟩ 5)
    preparing.hears ⟨0, 1, true⟩ = true ∧ preparing.chan ⟨1, 0⟩ = .reserved (preparing.ownerOf 0) 5 ∧
      (preparing.ctx 0).phase = .preparing ⟨1, 0⟩ true ∧ (preparing.ctx 0).call = some (callAt .active) ∧
      preparing.handset 0 = some (record (.engaged 0 0 false)) := by decide +kernel

/-- The switch towards base 1 with a serving average, and the neighbour list of base 1. -/
def switchingWith (list : List Neighbour) : State :=
  let s := (switching 1 30).setCtx 0 { context .active (.switching ⟨1, 0⟩ false (some ⟨0, 0⟩) 1 30) with
    serving := some 400, candidates := [Candidate.fresh (.localBase 1) 0 320, Candidate.fresh (.foreignBase 1 2) 1 100] }
  { s with settings := { s.settings with bases := (s.settings.bases.set 1
    { enabled := true, channels := 6, neighbours := list }) } }

/-- The list names the former serving base, at its last position, or does not. -/
theorem witness_TargetArrivalCompletesHandover_candidates :
    (∀ list ∈ [[], List.replicate 7 ⟨.foreignBase 1 2, 0⟩ ++ [⟨.localBase 0, 0⟩]],
      let s := switchingWith list
      s.hears ⟨0, 1, true⟩ = true ∧ s.chan ⟨1, 0⟩ = .reserved (s.ownerOf 0) 5 ∧ (s.ctx 0).serving = some 400 ∧
        (s.ctx 0).call = some (callAt .active) ∧ (s.cfg 1).neighbours = list) ∧
    placeOf [] (.localBase 0) = none ∧
    placeOf (List.replicate 7 ⟨.foreignBase 1 2, 0⟩ ++ [⟨.localBase 0, 0⟩]) (.localBase 0) = some 7 ∧
    (remainingEntries (List.replicate 7 ⟨.foreignBase 1 2, 0⟩ ++ [⟨.localBase 0, 0⟩]) 1
      ((switchingWith []).ctx 0).candidates).map Candidate.target = [.foreignBase 1 2] ∧
    (fullList.length = 6 ∧ ∀ w ∈ fullList, w.entry.target ≠ .localBase 0) := by decide +kernel

theorem witness_RadioLossClearsCall :
    ((inCall .active .none).hears from0 = true ∧ ((inCall .active .none).base 0).state = .inService ∧
      (0 : ChanIx).val < ((inCall .active .none).cfg 0).channels ∧
      ((inCall .active .none).ctx 0).call = some (callAt .active) ∧ ((inCall .active .none).ctx 0).phase = .none) ∧
    ((switching 0 30).ctx 0).phase.name = .switching ∧
    (∀ c i, (serving.ctx c).call = some i → ¬(i.stage = .active ∧ i.serving = ⟨0, 0⟩ ∧ i.tag = 5)) ∧
    ∀ d j, ((inCall .active .none).ctx d).call = some j → d = 0 := by
  refine ⟨by decide +kernel, by decide +kernel, fun c i e => ?_, fun d j e => ?_⟩
  · have all : ∀ c, (serving.ctx c).call = none := by decide +kernel
    simp [all c] at e
  · have all : ∀ d, d ≠ 0 → ((inCall .active .none).ctx d).call = none := by decide +kernel
    by_contra n
    simp [all d n] at e

theorem witness_ReportTakenPackedOrStray :
    ((inCall .active .none).hears from0 = true ∧ ((inCall .active .none).base 0).state = .inService ∧
      plainReport.count.toNat ≤ 4 ∧ (0 : CallIx).val = plainReport.call.toNat ∧
      ((inCall .active .none).ctx 0).call = some (callAt .active) ∧ ((inCall .active .none).ctx 0).phase.name = .none ∧
      ((inCall .active .none).ctx 0).lastAccepted = none) ∧
    ((switching 0 30).ctx 0).phase = .switching ⟨1, 0⟩ false (some ⟨0, 0⟩) 0 30 ∧
    ((0 : Tick) - 0).toNat < serving.settings.timers.spacing ∧ (serving.ctx 0).call = none := by decide +kernel

/-- A reading whose check does not hold. -/
def broken (n : Nat) : UplinkReading := { reading n with check := !(reading n).check }

/-- Both readings pass, only B does, none does; the limits of levels and range values; positions named twice, listed
(0, 1) and unlisted (2, 7). -/
theorem witness_ReportTakenPackedOrStray_sample :
    (∀ n ∈ [100, 101, 126, 127], oddCheck (reading n) ∧ ¬oddCheck (broken n)) ∧
    ((100 < (reading 101).value.toNat ∧ (reading 126).value.toNat < 127) ∧ (reading 100).value.toNat ≤ 100 ∧
      ¬(reading 127).value.toNat < 127) ∧
    (listedReadings (serving.cfg 0).neighbours [(1, 127), (0, 101), (1, 3), (2, 4)] =
      [⟨1, .foreignBase 1 2, .absent⟩, ⟨0, .localBase 1, .range 101⟩]) ∧
    unlistedReadings (serving.cfg 0).neighbours [(2, 4), (7, 0), (2, 5), (1, 9)] = 2 := by
  refine ⟨?_, by decide +kernel, by decide +kernel, by decide +kernel⟩
  unfold oddCheck
  decide +kernel

/-- A candidate that has led for two samples. -/
def leader (target : Target) (position : Fin 8) : Candidate :=
  { target := target, position := position, average := 320, dwell := 2, misses := 0, lastCompare := .better
    lastScore := some 100, penalty := none }

/-- The call with a slot that waits for its next sample, and one candidate. -/
def leading (target : Target) (position : Fin 8) : State :=
  ((inCall .active .none).setCtx 0 { context .active .none with
    serving := some 160, candidates := [leader target position] }).setSlot 3
    (.armedNext { call := 0, tag := 5, count := 16, mode := .next })

/-- A report that names the neighbour at a position. -/
def leadingReport (position : Fin 8) : ReportFrame := { plainReport with count := 1, neighbours := [(position, 80)] }

theorem witness_ReportTakenPackedOrStray_handsOn :
    (∀ q ∈ [(Target.localBase 1, (0 : Fin 8)), (.foreignBase 1 2, 1)],
      let s := leading q.1 q.2
      s.hears from0 = true ∧ (s.base 0).state = .inService ∧ (leadingReport q.2).count.toNat ≤ 4 ∧
        (s.ctx 0).call = some (callAt .active) ∧ (s.ctx 0).phase.name = .none ∧ (s.ctx 0).lastAccepted = none ∧
        ((evaluate (s.evalContext 0 (callAt .active)) (s.ctx 0).serving (s.ctx 0).uplink (s.ctx 0).candidates
          (buildSample (s.ctx 0).nextSample s.tick s.settings.evaluator.diversity (s.cfg 0).neighbours
            (leadingReport q.2))).verdict.chosen.map fun e => e.1.target) = some q.1 ∧
        ((s.slots.get 3).awaits 0).map CaptureHeader.count = some 16) := by decide +kernel

/-- A DIVERGE condition of the serving average, and a SATURATE condition, on the report that names the leader. -/
theorem witness_ReportTakenPackedOrStray_conditions :
    let s := leading (.localBase 1) 0
    let x := buildSample 0 0 s.settings.evaluator.diversity (s.cfg 0).neighbours (leadingReport 0)
    let diverging := { s.settings.evaluator with divergence := 10 }
    (divergesMet diverging (some 201) none [] x = [(.serving, 40, 201)] ∧
      divergesMet diverging (some 200) none [] x = []) ∧
    saturatesMet (s.evalContext 0 (callAt .active)) (some 0) [{ leader (.localBase 1) 0 with average := 400 }] x ≠ [] := by
  decide +kernel

/-- The leader weighed: named, with a score. -/
def scored (n : Int) : Weighed :=
  { Weighed.untouched (leader (.localBase 1) 0) with named := true, score := some n
                                                     entry := { leader (.localBase 1) 0 with dwell := 3 } }

theorem witness_ChoiceTakesBestScore :
    (∃ w : Weighed, choose (fun _ => true) [w] = some (w, 3)) ∧
    ((scored 3).named = true ∧ (Weighed.untouched (leader (.localBase 1) 0)).named = false ∧
      ({ leader (.localBase 1) 0 with misses := 1 }).misses < 2 ∧
      2 ≤ ({ leader (.localBase 1) 0 with misses := 2 }).misses) ∧
    (fullList.length = 6 ∧ (∀ w ∈ fullList, w.entry.target ≠ .localBase 1) ∧
      fullList = fullList.take 3 ++ Weighed.untouched (Candidate.fresh (.foreignBase 1 3) 0 90) :: fullList.drop 4 ∧
      (∀ v ∈ fullList.take 3, 90 ≤ v.entry.average) ∧ (∀ v ∈ fullList.drop 4, 90 < v.entry.average) ∧
      fullList.tail.length < 6) ∧
    (sampleOf 3).doubtful = false ∧
    (rescueApplies Settings.cold.evaluator (some 59) ∧ passesRescue Settings.cold.evaluator (scored (-15)) ∧
      ¬rescueApplies Settings.cold.evaluator (some 60) ∧ passesTrigger Settings.cold.evaluator (scored 3) ∧
      ¬passesTrigger { Settings.cold.evaluator with dwell := 4 } (scored 3)) ∧
    (serving.eligible 0 0 (leader (.localBase 1) 0) = true ∧ serving.eligible 0 0 (leader (.foreignBase 1 2) 0) = true ∧
      serving.lowFree (.localBase 1) = false ∧ (scarce .free).lowFree (.localBase 0) = true) := by
  refine ⟨⟨{ Weighed.untouched (Candidate.fresh (.localBase 1) 0 100) with score := some 3 }, rfl⟩, by decide +kernel,
    by decide +kernel, by decide +kernel, ⟨⟨59, rfl, by decide⟩, ⟨⟨-15, rfl, by decide⟩, by decide⟩, ?_,
      ⟨by decide, by decide, by decide⟩, ?_⟩, by decide +kernel⟩
  · rintro ⟨u, h, lt⟩
    cases h
    revert lt
    decide
  · rintro ⟨-, -, le⟩
    revert le
    decide +kernel

/-- A divergence limit of 10. -/
def nearLimit : EvaluatorSettings := { Settings.cold.evaluator with divergence := 10 }

/-- The one neighbour reading of `leadingReport 0`. -/
def leadingReading : NeighbourReading := ⟨0, .localBase 1, .valid 80⟩

/-- The sample of that report. -/
def leadingSample : Sample := buildSample 0 0 6 (configured.cfg 0).neighbours (leadingReport 0)

theorem witness_SmoothingMovesTowardsReading :
    ((150 ≤ 184) ∧ (152 ≤ 160)) ∧
    (4 * 60 ≤ 200 + 4 * nearLimit.divergence ∧ 200 ≤ 4 * 60 + 4 * nearLimit.divergence ∧
      200 + 4 * nearLimit.divergence < 4 * 61 ∧ 4 * 39 + 4 * nearLimit.divergence < 200 ∧ nearLimit.divergeMasked = true ∧
      ({ nearLimit with divergeMasked := false }).divergeMasked = false) ∧
    (leadingSample.neighbours = [] ++ leadingReading :: [] ∧ leadingReading.target = (leader (.localBase 1) 0).target ∧
      leadingReading.reading = .valid 80) ∧
    (∀ n ∈ leadingSample.neighbours, n.target ≠ (leader (.localBase 2) 0).target) ∧
    (∀ raw : Int, raw = -256 ∨ raw = 255 → -256 ≤ raw ∧ raw ≤ 255) ∧
    (buildSample 0 0 2 [] plainReport).doubtful = true := by
  refine ⟨by decide, by decide, by decide +kernel, by decide +kernel, fun raw h => ?_,
    by decide +kernel⟩
  rcases h with rfl | rfl <;> decide

/-- A request to another zone. -/
def handingOut (deadline : Nat) : State := inCall .active (.handingOut 1 2 false deadline)

theorem witness_ZoneRequestsRunHandoverOut :
    ((handingOut 60).portFree ∧ ((handingOut 60).ctx 0).call = some (callAt .active) ∧
      ((handingOut 60).ctx 0).phase = .handingOut 1 2 false 60 ∧ ((handingOut 60).base 0).state = .inService ∧
      ((handingOut 60).base 0).window.length < 4) ∧
    (inCall .active (.switchingOut 1 2 0 false (some ⟨0, 0⟩) 0 30)).portFree ∧
    ((inCall .active (.switchingOut 1 2 0 false (some ⟨0, 0⟩) 0 30)).ctx 0).phase =
      .switchingOut 1 2 0 false (some ⟨0, 0⟩) 0 30 ∧
    ((inCall .active .none).ctx 0).phase.name ≠ .handingOut ∧ ((inCall .active .none).ctx 0).phase.name ≠ .switchingOut := by
  refine ⟨⟨⟨rfl, rfl, rfl, rfl, rfl, rfl⟩, ?_⟩, ⟨rfl, rfl, rfl, rfl, rfl, rfl⟩, ?_⟩ <;> decide +kernel

/-- ZONE GO at a full window; the arguments out of range; contexts FREE, in SETUP and CLEARING. -/
theorem witness_ZoneRequestsRunHandoverOut_refusals :
    (∀ s, s = (handingOut 60).setBase 0 { settled with window := fullWindow } →
      s.portFree ∧ (s.ctx 0).call = some (callAt .active) ∧ (s.ctx 0).phase = .handingOut 1 2 false 60 ∧
        (s.base 0).state = .inService ∧ 4 ≤ (s.base 0).window.length) ∧
    (7 < (8 : Byte).toNat ∧ 95 < (96 : Byte).toNat) ∧
    (serving.portFree ∧ (serving.ctx 0).call = none) ∧
    ∀ stage ∈ [Stage.setup none, .clearing .closed], (inCall stage .none).portFree ∧
      ((inCall stage .none).ctx 0).call = some (callAt stage) ∧ (callAt stage).stage ≠ .active := by
  refine ⟨fun s e => (by subst e; exact ⟨⟨rfl, rfl, rfl, rfl, rfl, rfl⟩, by decide +kernel⟩), by decide, ⟨serving_portFree, by decide +kernel⟩,
    fun stage m => ⟨⟨rfl, rfl, rfl, rfl, rfl, rfl⟩, rfl, ?_⟩⟩
  fin_cases m <;> exact fun e => (by cases e)

theorem witness_CallDeadlinesExpire :
    (((inCall (.setup (some 0)) .none).ctx 0).call = some (callAt (.setup (some 0))) ∧
      (callAt (.setup (some 0))).stage = .setup (some 0)) ∧
    ((handingOut 0).ctx 0).phase = .handingOut 1 2 false 0 ∧ (callAt .active).stage ≠ .setup (some 0) ∧
    ((serving.setCtx 0 { context .active .none with guard := some 0 }).ctx 0).guard = some 0 ∧
    (serving.ctx 0).guard ≠ some 0 ∧ (serving.ctx 0).candidates = [] ∧ (serving.ctx 0).phase = .none := by decide +kernel

theorem witness_SwitchDeadlineRevertsOrLoses :
    (((switching 1 0).ctx 0).call = some (callAt .active) ∧
      ((switching 1 0).ctx 0).phase = .switching ⟨1, 0⟩ false (some ⟨0, 0⟩) 1 0) ∧
    ((switching 0 0).ctx 0).phase = .switching ⟨1, 0⟩ false (some ⟨0, 0⟩) 0 0 ∧
    ((inCall .active (.switchingOut 1 2 0 false none 3 0)).ctx 0).phase = .switchingOut 1 2 0 false none 3 0 ∧
    ((switching 1 1).ctx 0).phase.deadline ≠ some 0 ∧ ((handingOut 0).ctx 0).phase.name = .handingOut := by decide +kernel

/-! ### Witnesses: notices, captures, the host link -/

theorem witness_NoticesPostedAndFetched :
    (State.reset.portFree ∧ (State.reset.classes.get 7).masked = false ∧
      (State.reset.classes.get 7).fifo = [{ tick := 0, body := .ready false }] ∧
      ∀ j < 7, (State.reset.classes.get j).masked = true ∨ (State.reset.classes.get j).fifo = []) ∧
    (∀ j, (({ serving with classes := Table.fill 8 NoticeClass.cold }).classes.get j).fifo = []) ∧
    (State.reset.classes.get 0).fifo.length < 8 ∧
      8 ≤ ({ NoticeClass.cold with fifo := List.replicate 8 { tick := 0, body := .ready false } }).fifo.length := by
  refine ⟨⟨reset_portFree, ?_⟩, ?_⟩ <;> decide +kernel

theorem witness_MasksAndConditionsCleared :
    serving.portFree ∧ (1 : Byte).getLsbD 0 = true ∧ (2 : Byte).getLsbD 1 = true ∧
      (0 : Byte).getLsbD 0 = false ∧ (0 : Byte).getLsbD 1 = false :=
  ⟨serving_portFree, by decide, by decide, by decide, by decide⟩

/-- The call with samples 3 to 18 in its ring. -/
def measured : State :=
  (inCall .active .none).setCtx 0 { context .active .none with
    ring := (List.range 16).map fun n => sampleOf (n + 3), nextSample := 19 }

theorem witness_CaptureByMode :
    (measured.portFree ∧ (measured.ctx 0).call = some (callAt .active) ∧ (measured.slots.get 3).armed = false) ∧
    ((measured.ctx 0).ring = [] ++ sampleOf 3 :: (measured.ctx 0).ring.tail ∧ (sampleOf 3).number = 3 ∧
      ((measured.ctx 0).ring.getLast?).map Sample.number = some 18) ∧
    (∀ y ∈ (measured.ctx 0).ring, y.number ≠ 2) ∧
    (CaptureSlot.armedMark { call := 0, tag := 5, count := 16, mode := .mark }).armed = true ∧ (3 : Byte).toNat ≤ 3 ∧
    (3 < (4 : Byte).toNat ∧ 95 < (96 : Byte).toNat) ∧
    ((measured.ctx 95).call = none ∧ (callAt (.clearing .lost)).stage ≠ .active) ∧
    (16 < (17 : Byte).toNat ∧ (0 : Byte).toNat = 0 ∧ (16 : Byte).toNat ≤ 16) ∧ ((inCall .active .none).ctx 0).ring = [] ∧
      (∃ x, (measured.ctx 0).ring.getLast? = some x ∧ x.number.toNat < (19 : BitVec 32).toNat) ∧
    (∀ mode : Bool, ((if mode then CaptureSlot.armedMark else .armedNext)
      { call := 0, tag := 5, count := 16, mode := .next }).armedOn 0 =
        some { call := 0, tag := 5, count := 16, mode := .next }) := by
  refine ⟨⟨⟨rfl, rfl, rfl, rfl, rfl, rfl⟩, ?_⟩, ?_, ?_, ?_, ?_, ?_, ?_, ?_, ?_, ⟨sampleOf 18, ?_⟩, ?_⟩ <;> decide +kernel

theorem witness_MarkLineDrivesAndEdges :
    serving.portFree ∧ serving.markDrive = none ∧ (serving.resetHeld = false ∧ serving.runState ≠ .halted) ∧
      State.reset.runState = .halted ∧ ({ serving with markDrive := some 0 }).markDrive = some 0 ∧
      ({ serving with markDrive := some 2 }).portFree :=
  ⟨serving_portFree, rfl, ⟨rfl, by decide⟩, rfl, rfl, ⟨rfl, rfl, rfl, rfl, rfl, rfl⟩⟩

theorem witness_PortAnswersUnknownAndReset :
    serving.portFree ∧ requiredCount 0xEE [] = none ∧ (requiredCount 0x60 [0] = some 0 ∧ [(0 : Byte)].length ≠ 0) ∧
    (requiredCount 0x12 [0, 1] = some 4 ∧ [(0 : Byte), 1].length ≠ 4) ∧
      (requiredCount 0x13 [] = some 1 ∧ ([] : List Byte).length ≠ 1) ∧ carried .go ∧
      ∃ s, exec (.reset 1) serving = .next s ∧ s.link.resetting = true :=
  ⟨serving_portFree, by decide +kernel, by decide +kernel, by decide +kernel, by decide +kernel, trivial, _, rfl,
    by decide +kernel⟩

/-- A link busy with a request, `n` requests in the buffer and `m` BUSY replies queued. -/
def busyLink (n m : Nat) (sending : Sending) : State :=
  serving.setLink { serving.link with
    executing := some { code := 5, tag := 1, reply := okay [] }, sending := sending
    buffer := List.replicate n { tag := 2, request := .go }, refusals := List.replicate m { code := 1, tag := 3 } }

theorem witness_TransmitterAndBuffers :
    (carried .go ∧ ∀ n ∈ [3, 4], ∀ m ∈ [3, 4], (busyLink n m .reply).resetHeld = false ∧
      (busyLink n m .reply).link.resetting = false ∧ (busyLink n m .reply).link.executing ≠ none ∧
      (busyLink n m .reply).link.sending ≠ .idle ∧ (busyLink n m .reply).link.buffer.length = n ∧
      (busyLink n m .reply).link.refusals.length = m) ∧
    serving.link.sending = .idle ∧ (busyLink 0 1 .busy).link.refusals = [{ code := 1, tag := 3 }] ∧
    (busyLink 0 0 .reply).link.buffer = [] ∧ (busyLink 1 0 .reply).link.buffer = [{ tag := 2, request := .go }] ∧
    Request.go ≠ .reset := by
  refine ⟨⟨trivial, ?_⟩, ?_⟩ <;> decide +kernel

theorem witness_FrameBytesGiveTheRequest :
    carried (.setNeighbours 0 (List.replicate 123 (0, 0))) ∧ serving.resetHeld = false ∧ serving.link.receiver = .hunt ∧
      serving.link.gap = none := ⟨by unfold carried; decide +kernel, rfl, rfl, rfl⟩

theorem witness_ParameterCodingRoundTrip : carried (.setTimers (List.replicate 82 (12, 0xFFFF))) := by
  unfold carried
  decide +kernel

theorem witness_ReceiverTakesBytesAndFrames :
    (∀ n ∈ [2, 250], 2 ≤ (List.replicate n (0 : Byte)).length ∧ (List.replicate n (0 : Byte)).length ≤ 250 ∧
      byteSum (BitVec.ofNat 8 n :: List.replicate n 0) + 0 ≠ 0) ∧
    serving.link.receiver = .hunt ∧ (0x5A : Byte) ≠ 0xA5 ∧
    ({ serving.link with receiver := .length }).receiver ≠ .hunt ∧
    (2 ≤ (2 : Byte).toNat ∧ (250 : Byte).toNat ≤ 250 ∧ (1 : Byte).toNat < 2 ∧ 250 < (251 : Byte).toNat) ∧
    ({ serving.link with gap := some 0 }).gap = some 0 ∧ serving.link.gap ≠ some 0 := by decide +kernel

/-! ### Witnesses: the laws of the device -/

theorem serving_steps : ∃ t, step serving = .next t := ⟨_, rfl⟩

theorem witness_RunStateLawsKept :
    State.callsOnlyInService serving ∧ State.haltedIsOff (inCall .active .none) ∧
      State.channelsInService (inCall .active .none) ∧ ∃ t, step (inCall .active .none) = .next t := by
  refine ⟨fun h => ?_, fun h => ?_, fun p o h => ?_, _, rfl⟩
  · rcases h with h | h <;> cases h
  · cases h
  · have all : ∀ b c, ((inCall .active .none).chan ⟨b, c⟩ ≠ .free → ((inCall .active .none).base b).state = .inService) := by
      decide +kernel
    refine all p.base p.channel fun f => ?_
    rw [show (⟨p.base, p.channel⟩ : ChanRef) = p from rfl] at f
    simp [f, Channel.heldBy] at h

/-- The call in `inCall` owns its serving channel alone. -/
theorem owned_is_serving (p : ChanRef) (o : Owner) (h : ((inCall .active .none).chan p).ownedBy o = true) :
    p = ⟨0, 0⟩ ∧ o = ⟨0, 1⟩ := by
  have all : ∀ b c, (⟨b, c⟩ : ChanRef) = ⟨0, 0⟩ ∨ (inCall .active .none).chan ⟨b, c⟩ = .free := by decide +kernel
  rcases all p.base p.channel with e | e
  · have is : p = ⟨0, 0⟩ := e
    subst is
    have busy : (inCall .active .none).chan ⟨0, 0⟩ = .busy ⟨0, 1⟩ := by decide +kernel
    rw [busy] at h
    exact ⟨rfl, (eq_of_beq h).symm⟩
  · have free : (inCall .active .none).chan p = .free := e
    simp [free, Channel.ownedBy] at h

theorem witness_RunStateLawsKept_owners :
    State.ownersCurrent (inCall .active .none) ∧ State.twoBasesAtMost (inCall .active .none) := by
  refine ⟨fun p o h => ?_, fun c p q r hp hq _ => .inl ?_⟩
  · rw [(owned_is_serving p o h).2]
    exact ⟨rfl, Option.some_ne_none _⟩
  · rw [(owned_is_serving p _ hp).1, (owned_is_serving q _ hq).1]

theorem witness_HandsetTableLawsKept :
    State.tagsUnique (withRecord (barred (.enrolled none))) ∧ State.failuresBounded (withRecord (barred (.enrolled none))) := by
  constructor
  · intro i j h k hi hj _
    by_cases e : i = 0 <;> by_cases f : j = 0
    · rw [e, f]
    · simp [other_slots_vacant _ j f] at hj
    · simp [other_slots_vacant _ i e] at hi
    · simp [other_slots_vacant _ i e] at hi
  · intro i h hi
    by_cases e : i = 0
    · have : h = barred (.enrolled none) := by
        subst e
        exact (Option.some.inj hi).symm
      subst this
      decide
    · simp [other_slots_vacant _ i e] at hi

theorem witness_EngagedBoundKept : State.engagedBound (inCall .active .none) := by
  constructor
  · intro i h b c d hi hs
    by_cases e : i = 0
    · subst e
      have : h = record (.engaged 0 0 false) := (Option.some.inj hi).symm
      subst this
      cases hs
      exact ⟨callAt .active, rfl, rfl⟩
    · have vacant : (inCall .active .none).handset i = none := other_slots_vacant (record (.engaged 0 0 false)) i e
      simp [vacant] at hi
  · intro c k hk
    have all : ∀ c, ((inCall .active .none).ctx c).call.all (fun k => k.slot == 0 && c == 0) = true := by decide +kernel
    have zero : k.slot = 0 ∧ c = 0 := by simpa [hk] using all c
    rw [zero.1, zero.2]
    exact ⟨record (.engaged 0 0 false), 0, false, rfl, rfl⟩

theorem witness_ContextLawsKept :
    State.ringsOrdered serving ∧ State.candidatesDistinct serving ∧ State.averagesBounded serving ∧
      State.scoresBounded serving := by
  have all : ∀ c, (serving.ctx c) = Context.cold := by decide +kernel
  refine ⟨fun c => ?_, fun c => ?_, fun c => ?_, fun c => ?_⟩ <;> rw [all c] <;> simp [Context.cold]

theorem witness_ContextLawsKept_structure :
    State.configChecked (leading (.localBase 1) 0) ∧ State.unusedAreDisabled (leading (.localBase 1) 0) ∧
      State.haltedIsOff (leading (.localBase 1) 0) ∧ State.servingNoCandidate (leading (.localBase 1) 0) := by
  refine ⟨fun _ => by decide +kernel, by unfold State.unusedAreDisabled; decide +kernel,
    (fun h => by cases h), fun c i e => ?_⟩
  have all : ∀ c, ((leading (.localBase 1) 0).ctx c).call.all (fun i => ((leading (.localBase 1) 0).ctx c).candidates.all
      fun e => e.target != .localBase i.serving.base) = true := by decide +kernel
  simpa [e] using all c

theorem witness_BoundsKept :
    State.windowsBounded (withBase { settled with window := fullWindow }) ∧ State.classesBounded State.reset ∧
      State.linkBounded (busyLink 4 4 .busy) ∧ State.countersBounded serving ∧ State.settingsInRange configured ∧
      State.switchStraysBounded (switching 255 30) := by
  refine ⟨?_, ?_, ?_, ?_, ?_, ?_⟩ <;>
    simp only [State.windowsBounded, State.classesBounded, State.linkBounded, State.countersBounded,
      State.settingsInRange, State.switchStraysBounded, within] <;> decide +kernel

end Sys2Proof.Machine.Tests
end

