-- ==== Sys2Proof/Proofs/Port.lean ====
section
/-! The host link's port as a whole: what a property must survive to survive every frame, byte and reply there. At most one
request is executed between two replies. -/

namespace Sys2Proof.Machine

open State

variable {P : State → Prop} {s t : State}

/-- A property that survives the port: the link's own changes, and the executing of a request while none is executed. -/
structure PortKeeps (P : State → Prop) : Prop where
  link : ∀ {s : State} (l : Link), l.executing = s.link.executing → P s → P (s.setLink l)
  execute : ∀ {s : State} (b : Buffered), s.link.executing = none → P s → P (s.execute b)

theorem Link.startTx_executing (l : Link) : l.startTx.executing = l.executing := by
  unfold Link.startTx
  repeat' split
  all_goals rfl

theorem Link.place_executing (l : Link) (b : Buffered) : (l.place b).executing = l.executing := by
  rcases l.place_cases b with ⟨_, e⟩ | ⟨_, _, e⟩ | ⟨_, _, e⟩ <;> rw [e]

theorem PortKeeps.handOn (K : PortKeeps P) (h : P s) : P s.handOn := by
  unfold State.handOn
  split
  · next none _ => exact K.execute _ none (K.link _ rfl h)
  · exact h

theorem PortKeeps.advance (K : PortKeeps P) (h : P s) : P s.advance :=
  K.link _ (Link.startTx_executing _) (K.handOn h)

theorem PortKeeps.submit (K : PortKeeps P) (h : P s) (tag : Byte) (r : Request) : P (s.submit tag r) := by
  unfold State.submit
  split
  · exact h
  · exact K.advance (K.link _ (Link.place_executing ..) h)

theorem PortKeeps.receive (K : PortKeeps P) (h : P s) (x : Byte) (stop : Bool) : P (s.receive x stop) := by
  unfold State.receive checkFrame submitBody
  repeat' split
  all_goals first
    | exact h
    | exact K.link _ rfl h
    | exact K.submit (K.link s.link.hunting rfl h) _ _

theorem PortKeeps.hrxByte (K : PortKeeps P) (h : P s) (x : Byte) (stop : Bool) : P (takeHrxByte x stop s) := by
  unfold takeHrxByte
  split
  · exact h
  · exact K.receive h x stop

theorem PortKeeps.bytes (K : PortKeeps P) (bytes : List Byte) (h : P s) :
    P (bytes.foldl (fun t x => takeHrxByte x true t) s) := by
  induction bytes generalizing s with
  | nil => exact h
  | cons x bytes ih => exact ih (K.hrxByte h x true)

theorem PortKeeps.gapCountExpiry (K : PortKeeps P) (h : P s) : P (takeGapCountExpiry s) := by
  unfold takeGapCountExpiry
  split
  · exact K.link _ rfl h
  · exact h

/-- A frame finishing on HTX: it brings the warm reset, or its end makes room for the next request. -/
theorem PortKeeps.replySent (K : PortKeeps P) (h : P s)
    (ended : P (s.setLink { s.link with sending := .idle, executing := none })) :
    takeReplySent s = s.warmReset ∨ P (takeReplySent s) := by
  unfold takeReplySent
  dsimp only
  split
  · exact .inr h
  · exact .inr (K.advance (K.link _ rfl (K.link _ rfl h)))
  · split
    · exact .inl rfl
    · exact .inr (K.advance ended)

/-! ### Commands that leave the queue, the tick and the settings alone -/

/-- `t` has the queue, tick, settings and host link of `s`. -/
structure State.KeepsCore (s t : State) : Prop where
  pending : t.pending = s.pending
  tick : t.tick = s.tick
  settings : t.settings = s.settings
  link : t.link = s.link

theorem State.Keeps.core (h : s.Keeps t) : s.KeepsCore t := ⟨h.pending, h.tick, h.settings, h.link⟩

theorem takeCarrierLost_keepsCore (p : PortIx) (s : State) : s.KeepsCore (takeCarrierLost p s) := by
  unfold takeCarrierLost
  dsimp only
  split
  · have dropped := keeps_foldl (fun u i => u.dropBase (baseAt p i)) (fun u i => dropBase_keeps u (baseAt p i))
      (Config.lossOrder s.freeCount ++ indices 8)
      { ({ s with carriers := s.carriers.set p false } : State).post (.port p false) with freeCount := s.freeCount + 1 }
    exact ⟨dropped.pending, dropped.tick, dropped.settings, dropped.link⟩
  · exact ⟨rfl, rfl, rfl, rfl⟩

theorem takeCarrierRegained_keepsCore (p : PortIx) (s : State) : s.KeepsCore (takeCarrierRegained p s) := by
  unfold takeCarrierRegained
  dsimp only
  split <;> exact ⟨rfl, rfl, rfl, rfl⟩

theorem takeMarkDriveEnd_keeps (s : State) : s.Keeps (takeMarkDriveEnd s) :=
  keeps_ite ⟨rfl, rfl, rfl, rfl, rfl, rfl, rfl⟩ (Keeps.refl s)

theorem takeEchoExpiry_keeps (b : BaseIx) (serial : Byte) (s : State) : s.Keeps (takeEchoExpiry b serial s) := by
  unfold takeEchoExpiry
  dsimp only
  split
  · exact Keeps.refl s
  · exact keeps_ite ((((setBase_keeps ..).trans (sendOwed_keeps ..)).trans (outcome_keeps ..)).trans
      (faultIfSilent_keeps ..)) (Keeps.refl s)

theorem takeSettleExpiry_keeps (b : BaseIx) (s : State) : s.Keeps (takeSettleExpiry b s) := by
  unfold takeSettleExpiry
  dsimp only
  split
  · exact keeps_ite (((setBase_keeps ..).trans (post_keeps ..)).trans (offer_keeps ..)) (leaveService_keeps ..)
  · exact Keeps.refl s

theorem takeHeartbeatExpiry_keeps (b : BaseIx) (s : State) : s.Keeps (takeHeartbeatExpiry b s) :=
  keeps_ite (leaveService_keeps ..) (Keeps.refl s)

theorem takeGapExpiry_keeps (b : BaseIx) (s : State) : s.Keeps (takeGapExpiry b s) := by
  unfold takeGapExpiry
  split
  · exact Keeps.refl s
  · exact keeps_ite ((setTrain_keeps ..).trans (spoil_keeps ..)) (Keeps.refl s)

theorem takeLifetimeExpiry_keeps (i : SlotIx) (s : State) : s.Keeps (takeLifetimeExpiry i s) := by
  unfold takeLifetimeExpiry
  split
  · exact Keeps.refl s
  · split
    · exact (setStatus_keeps ..).trans (post_keeps ..)
    · exact Keeps.refl s

theorem takeOriginationExpiry_keeps (i : SlotIx) (s : State) : s.Keeps (takeOriginationExpiry i s) := by
  unfold takeOriginationExpiry
  split
  · exact Keeps.refl s
  · split
    · exact (setStatus_keeps ..).trans (post_keeps ..)
    · exact Keeps.refl s

theorem takeSetupExpiry_keeps (c : CallIx) (s : State) : s.Keeps (takeSetupExpiry c s) := by
  unfold takeSetupExpiry
  split
  · exact Keeps.refl s
  · exact keeps_ite (failSetup_keeps ..) (Keeps.refl s)

theorem takeSwitchExpiry_keeps (c : CallIx) (s : State) : s.Keeps (takeSwitchExpiry c s) := by
  have ends (o : Option ChanRef) (n : Nat) : s.Keeps (s.endSwitch c o n) := by
    unfold endSwitch
    split
    · exact loseSwitch_keeps ..
    · exact keeps_ite (loseSwitch_keeps ..) (failAttempt_keeps ..)
  unfold takeSwitchExpiry
  split
  · exact ends ..
  · exact ends ..
  · exact Keeps.refl s

theorem takeZoneExpiry_keeps (c : CallIx) (s : State) : s.Keeps (takeZoneExpiry c s) := by
  unfold takeZoneExpiry
  split
  · exact failAttempt_keeps ..
  · exact Keeps.refl s

/-- The commands that count, reset or end a reply: what they do to the queue, the tick and the settings is said of each. -/
def special : Instr → Bool
  | .tick | .coldReset | .resetRelease _ | .replySent | .warmReset => true
  | _ => false

/-- Every ordinary command leaves the queue, the tick, the settings and the host link alone, or is the port's: then it
keeps what survives the port. -/
theorem exec_ordinary (c : Instr) (ordinary : special c = false) (s t : State) (e : exec c s = .next t) :
    s.KeepsCore t ∨ ∀ {P : State → Prop}, PortKeeps P → P s.fresh → P t := by
  have run {u : State} (k : s.fresh.KeepsCore u) (e : Host.Outcome.next u = (.next t : Result)) :
      s.KeepsCore t ∨ ∀ {P : State → Prop}, PortKeeps P → P s.fresh → P t := by
    cases e; exact .inl ⟨k.pending, k.tick, k.settings, k.link⟩
  have port {u : State} (k : ∀ {P : State → Prop}, PortKeeps P → P s.fresh → P u)
      (e : Host.Outcome.next u = (.next t : Result)) :
      s.KeepsCore t ∨ ∀ {P : State → Prop}, PortKeeps P → P s.fresh → P t := by
    cases e; exact .inr k
  cases c with
  | requestFrame bytes => exact port (fun K h => K.bytes bytes h) e
  | gapCountExpiry => exact port (fun K h => K.gapCountExpiry h) e
  | hrxByte x stop => exact port (fun K h => K.hrxByte h x stop) e
  | replySent => cases ordinary
  | warmReset => cases ordinary
  | coldReset => cases ordinary
  | resetRelease straps => cases ordinary
  | tick => cases ordinary
  | carrierLost p => exact run (takeCarrierLost_keepsCore ..) e
  | carrierRegained p => exact run (takeCarrierRegained_keepsCore ..) e
  | markEdge => exact run (keeps_ite (Keeps.refl _) (markEdge_keeps _)).core e
  | status o w => exact run (keeps_ite (takeStatus_keeps ..) (Keeps.refl _)).core e
  | echo o serial => exact run (keeps_ite (takeEcho_keeps ..) (Keeps.refl _)).core e
  | fragFirst o x => exact run (fromService_keeps _ _ _ fun b u => takeFirst_keeps u b x).core e
  | fragNext o x => exact run (fromService_keeps _ _ _ fun b u => takeNext_keeps u b x).core e
  | fragClose o x => exact run (fromService_keeps _ _ _ fun b u => takeClose_keeps u b x).core e
  | report o x => exact run (fromService_keeps _ _ _ fun b u => takeReport_keeps u b x).core e
  | arrival o ch x => exact run (fromService_keeps _ _ _ fun b u => arrive_keeps u ⟨b, ch⟩ x).core e
  | loss o ch x => exact run (fromService_keeps _ _ _ fun b u => lose_keeps u ⟨b, ch⟩ x).core e
  | settleExpiry b => exact run (takeSettleExpiry_keeps ..).core e
  | heartbeatExpiry b => exact run (takeHeartbeatExpiry_keeps ..).core e
  | echoDeadlineExpiry b serial => exact run (takeEchoExpiry_keeps ..).core e
  | gapDeadlineExpiry b => exact run (takeGapExpiry_keeps ..).core e
  | lifetimeExpiry i => exact run (takeLifetimeExpiry_keeps ..).core e
  | originationExpiry i => exact run (takeOriginationExpiry_keeps ..).core e
  | setupDeadlineExpiry c => exact run (takeSetupExpiry_keeps ..).core e
  | switchDeadlineExpiry c => exact run (takeSwitchExpiry_keeps ..).core e
  | zoneDeadlineExpiry c => exact run (takeZoneExpiry_keeps ..).core e
  | guardExpiry c => exact run (keeps_ite (setCtx_keeps ..) (Keeps.refl _)).core e
  | penaltyExpiry c x => exact run (setCtx_keeps ..).core e
  | markDriveEnd => exact run (takeMarkDriveEnd_keeps _).core e
  | _ => exact port (fun K h => K.submit h _ _) e

end Sys2Proof.Machine
end

