-- ==== Sys2Proof/Proofs/Changes.lean ====
section
/-! The elementary changes of the block, for the laws about run state, bases, channels and contexts. Every operation of the
units is a run of them (`Moves`), so a law is kept by every operation once each elementary change keeps it. -/

namespace Sys2Proof.Machine

/-! ### Bases that are off -/

/-- A base record off as the law of HALTED has it (R1, R6). -/
def BaseRecord.off (r : BaseRecord) : Prop :=
  (r.state = .unused ∨ r.state = .down) ∧ r.window = [] ∧ r.owedReleases = Table.fill 8 false ∧
    r.owedAdmission = false ∧ r.settle = none ∧ r.heartbeat = none

/-- A base that is neither heard nor sent to: UNUSED or DOWN. -/
def BaseRecord.idle (r : BaseRecord) : Prop := r.state = .unused ∨ r.state = .down

theorem BaseRecord.off.idle {r : BaseRecord} (h : r.off) : r.idle := h.1

theorem BaseRecord.not_idle_of_inService {r : BaseRecord} (h : r.state = .inService) : ¬r.idle := by
  simp [BaseRecord.idle, h]

theorem BaseRecord.emptied_off {r : BaseRecord} (h : r.idle) : r.emptied.off := ⟨h, rfl, rfl, rfl, rfl, rfl⟩

theorem State.linkOff_iff (s : State) : s.linkOff ↔ ∀ b, (s.base b).off ∧ s.trains.get b = none := by
  simp only [State.linkOff, BaseRecord.off, and_assoc]

/-- What a change of a base record and its assembly context may do: a base in service stays in service, and in HALTED an
idle base stays idle and a base that is off stays off. -/
structure BaseStep (halted : Prop) (r r' : BaseRecord) (x x' : Option Train) : Prop where
  service : r.state = .inService → r'.state = .inService
  idle : halted → r.idle → r'.idle
  off : halted → r.off → x = none → r'.off ∧ x' = none

theorem BaseStep.refl (halted : Prop) (r : BaseRecord) (x : Option Train) : BaseStep halted r r x x :=
  ⟨id, fun _ => id, fun _ h e => ⟨h, e⟩⟩

/-- A base record replaced by one in the same state. -/
theorem BaseStep.of_state {halted : Prop} {r r' : BaseRecord} {x : Option Train} (e : r'.state = r.state)
    (h : r.off → r'.off) : BaseStep halted r r' x x :=
  ⟨fun k => e.trans k, fun _ k => by simpa only [BaseRecord.idle, e] using k, fun _ k n => ⟨h k, n⟩⟩

/-- A base record in service with anything but its state replaced. -/
theorem BaseStep.of_inService {halted : Prop} {r r' : BaseRecord} {x x' : Option Train} (h : r.state = .inService)
    (e : r'.state = .inService) : BaseStep halted r r' x x' :=
  ⟨fun _ => e, fun _ k => absurd k (BaseRecord.not_idle_of_inService h),
    fun _ k => absurd k.idle (BaseRecord.not_idle_of_inService h)⟩

/-! ### Who owns a channel -/

theorem Channel.ownedBy_of_heldBy {k : Channel} {o : Owner} (h : k.heldBy o = true) : k.ownedBy o = true := by
  cases k <;> simp_all [Channel.heldBy, Channel.ownedBy]

/-- A channel that may replace `k`: no owner owns it, and none holds it, that did not before. -/
def Channel.within (k k' : Channel) : Prop :=
  (∀ o, k'.ownedBy o = true → k.ownedBy o = true) ∧ ∀ o, k'.heldBy o = true → k.heldBy o = true

theorem Channel.within_free (k : Channel) : k.within .free := by simp [within, ownedBy, heldBy]
theorem Channel.within_releaseOwed (k : Channel) : k.within .releaseOwed := by simp [within, ownedBy, heldBy]

theorem Channel.within_releasing {k : Channel} {o : Option Owner} (h : ∀ w, o = some w → k.ownedBy w = true) :
    k.within (.releasing o) := by
  cases o with
  | none => simp [within, ownedBy, heldBy]
  | some w =>
    refine ⟨fun v e => ?_, fun v e => by simp [heldBy] at e⟩
    have : w = v := by simpa [ownedBy] using e
    exact this ▸ h w rfl

theorem Channel.within_busy {k : Channel} {o : Owner} (h : k.heldBy o = true) : k.within (.busy o) := by
  refine ⟨fun v e => ?_, fun v e => ?_⟩
  · have : o = v := by simpa [ownedBy] using e
    exact this ▸ ownedBy_of_heldBy h
  · have : o = v := by simpa [heldBy] using e
    exact this ▸ h

/-! ### Changes and moves -/

/-- An elementary change. `watched` says that changes of bases are held to `BaseStep`. -/
inductive Change (watched : Prop) (s : State) : State → Prop
  /-- anything but the run state, the bases, the trains, the channels and the contexts -/
  | frame {t : State} (runState : t.runState = s.runState) (bases : t.bases = s.bases) (trains : t.trains = s.trains)
      (channels : t.channels = s.channels) (contexts : t.contexts = s.contexts) : Change watched s t
  /-- a run state other than HALTED; STANDBY from HALTED or with every context FREE -/
  | runState (r : RunState) (running : r ≠ .halted)
      (free : r = .standby → s.runState = .halted ∨ ∀ c, (s.ctx c).call = none) :
      Change watched s { s with runState := r }
  /-- contexts that keep their use number and do not leave or enter FREE -/
  | contexts (xs : Table Context 96)
      (same : ∀ c, (xs.get c).use = (s.ctx c).use ∧ ((xs.get c).call = none ↔ (s.ctx c).call = none)) :
      Change watched s { s with contexts := xs }
  /-- a context without channels becomes FREE -/
  | freed (c : CallIx) (x : Context) (use : x.use = (s.ctx c).use) (call : x.call = none)
      (owned : s.owned (s.ownerOf c) = []) :
      Change watched s (s.setCtx c x)
  /-- a context leaves FREE in SERVING with a channel of a base in service -/
  | opened (c : CallIx) (x : Context) (p : ChanRef) (tag : Tag) (serving : s.runState = .serving)
      (free : (s.ctx c).call = none) (call : x.call ≠ none) (service : (s.base p.base).state = .inService) :
      Change watched s ((s.setCtx c x).setChan p (.reserved ⟨c, x.use⟩ tag))
  /-- a channel gets no new owner -/
  | channel (p : ChanRef) (k : Channel) (le : (s.chan p).within k) : Change watched s (s.setChan p k)
  /-- a context in use whose channels lie on one base claims a channel of a base in service -/
  | claimed (c : CallIx) (p : ChanRef) (tag : Tag) (b : BaseIx) (call : (s.ctx c).call ≠ none)
      (service : (s.base p.base).state = .inService)
      (one : ∀ q, (s.chan q).ownedBy (s.ownerOf c) = true → q.base = b) :
      Change watched s (s.setChan p (.reserved (s.ownerOf c) tag))
  /-- base records and assembly contexts -/
  | bases (rs : Table BaseRecord 32) (xs : Table (Option Train) 32)
      (step : watched → ∀ b, BaseStep (s.runState = .halted) (s.base b) (rs.get b) (s.trains.get b) (xs.get b)) :
      Change watched s { s with bases := rs, trains := xs }
  /-- a base leaves service: record and train emptied, channels FREE -/
  | lost (b : BaseIx) (new : BaseState)
      (idle : watched → s.runState = .halted → (s.base b).idle → new = .unused ∨ new = .down) :
      Change watched s { (s.setBase b { s.base b with state := new }.emptied).setTrain b none with
        channels := s.channels.set b (Table.fill 8 Channel.free) }

/-- A run of elementary changes. -/
def Moves (watched : Prop) : State → State → Prop := Relation.ReflTransGen (Change watched)

theorem Moves.refl {watched : Prop} (s : State) : Moves watched s s := Relation.ReflTransGen.refl

theorem Moves.trans {watched : Prop} {s t u : State} (h : Moves watched s t) (k : Moves watched t u) :
    Moves watched s u :=
  Relation.ReflTransGen.trans h k

theorem Change.moves {watched : Prop} {s t : State} (c : Change watched s t) : Moves watched s t :=
  Relation.ReflTransGen.single c

/-- A law that every elementary change keeps is kept by every run of them. -/
theorem Moves.keeps {watched : Prop} {P : State → Prop} (step : ∀ {s t}, P s → Change watched s t → P t) {s t : State}
    (m : Moves watched s t) (h : P s) : P t := by
  induction m with
  | refl => exact h
  | tail _ c ih => exact step ih c

theorem Moves.frame {watched : Prop} {s t : State} (runState : t.runState = s.runState) (bases : t.bases = s.bases)
    (trains : t.trains = s.trains) (channels : t.channels = s.channels) (contexts : t.contexts = s.contexts) :
    Moves watched s t :=
  (Change.frame runState bases trains channels contexts).moves

theorem moves_ite {watched p : Prop} [Decidable p] {s t u : State} (h : Moves watched s t) (k : Moves watched s u) :
    Moves watched s (if p then t else u) := by
  split
  · exact h
  · exact k

theorem moves_foldl {watched : Prop} {α : Type} (f : State → α → State) (h : ∀ s a, Moves watched s (f s a)) (l : List α)
    (s : State) : Moves watched s (l.foldl f s) := by
  induction l generalizing s with
  | nil => exact .refl s
  | cons a l ih => exact (h s a).trans (ih _)

/-- Outside HALTED no elementary change enters HALTED. -/
theorem Change.running {watched : Prop} {s t : State} (h : s.runState ≠ .halted) (c : Change watched s t) :
    t.runState ≠ .halted := by
  cases c with
  | frame e => rwa [e]
  | runState r running => exact running
  | _ => exact h

end Sys2Proof.Machine
end

