-- ==== Sys2Proof/Proofs/Laws.lean ====
section
/-! The laws of run state, base link, channels and contexts, each kept by every elementary change. -/

namespace Sys2Proof.Machine

variable {watched : Prop} {s t : State}

theorem State.mem_allChannels (p : ChanRef) : p ∈ allChannels := by
  simp [allChannels]

theorem State.owned_eq_nil_iff (o : Owner) : s.owned o = [] ↔ ∀ p, (s.chan p).ownedBy o = false := by
  simp [State.owned, List.filter_eq_nil_iff, State.mem_allChannels]

/-! ### A base that has left service -/

/-- What a base's leaving service makes of the base records. -/
theorem State.base_lost (s : State) (b d : BaseIx) (new : BaseState) :
    ({ (s.setBase b { s.base b with state := new }.emptied).setTrain b none with
        channels := s.channels.set b (Table.fill 8 Channel.free) } : State).base d =
      if b = d then { s.base b with state := new }.emptied else s.base d :=
  Table.get_set _ _ _ _

/-- Who owns a channel after a base has left service: as before on the other bases, none on that base. -/
theorem State.chan_lost (s : State) (b : BaseIx) (new : BaseState) (p : ChanRef) :
    ({ (s.setBase b { s.base b with state := new }.emptied).setTrain b none with
        channels := s.channels.set b (Table.fill 8 Channel.free) } : State).chan p =
      if b = p.base then .free else s.chan p := by
  simp only [State.chan, Table.get_set]
  split <;> simp

/-! ### No call in HALTED or STANDBY (R5) -/

theorem Change.keeps_callsOnlyInService (h : s.callsOnlyInService) (m : Change watched s t) : t.callsOnlyInService := by
  cases m with
  | frame r _ _ _ x => simpa only [State.callsOnlyInService, State.ctx, r, x] using h
  | runState r running free =>
    rintro (e | e) c
    · exact absurd e running
    · rcases free e with k | k
      · exact h (.inl k) c
      · exact k c
  | contexts xs same => exact fun e c => (same c).2.mpr (h e c)
  | freed c x _ call =>
    intro e d
    by_cases n : c = d
    · subst n; simpa using call
    · rw [State.ctx_setCtx_ne _ _ n]; exact h e d
  | opened c x p tag serving =>
    intro e
    simp only [State.setChan_runState, State.setCtx_runState, serving, reduceCtorEq, or_self] at e
  | channel p k => exact h
  | claimed c p tag => exact h
  | bases rs xs => exact h
  | lost b new => exact h

/-! ### The base link off in HALTED (R1) -/

theorem Change.keeps_haltedIsOff (h : s.haltedIsOff) (m : Change True s t) : t.haltedIsOff := by
  cases m with
  | frame r b x => simpa only [State.haltedIsOff, State.linkOff, State.base, r, b, x] using h
  | runState r running => exact fun e => absurd e running
  | contexts xs => exact h
  | freed c x => exact h
  | opened c x p tag => exact h
  | channel p k => exact h
  | claimed c p tag => exact h
  | bases rs xs step =>
    intro e
    have off := s.linkOff_iff.mp (h e)
    exact (State.linkOff_iff _).mpr fun b => (step trivial b).off e (off b).1 (off b).2
  | lost b new idle =>
    intro e
    have off := s.linkOff_iff.mp (h e)
    refine (State.linkOff_iff _).mpr fun d => ?_
    rw [State.base_lost]
    split
    · next n =>
      subst n
      exact ⟨BaseRecord.emptied_off (idle trivial e (off b).1.idle), State.trains_setTrain_self _ _ _⟩
    · next n => exact ⟨(off d).1, (Table.get_set_ne _ _ n).trans (off d).2⟩

/-- In HALTED an idle base stays idle. -/
theorem Change.keeps_idle {b : BaseIx} (h : s.runState = .halted → (s.base b).idle) (m : Change True s t)
    (halted : t.runState = .halted) : (t.base b).idle := by
  have e : s.runState = .halted := by_contra fun n => Change.running n m halted
  have i := h e
  cases m with
  | frame r x => simpa only [State.base, x] using i
  | runState r running => exact absurd halted running
  | contexts xs => exact i
  | freed c x => exact i
  | opened c x p tag => exact i
  | channel p k => exact i
  | claimed c p tag => exact i
  | bases rs xs step => exact (step trivial b).idle e i
  | lost d new idle =>
    rw [State.base_lost]
    split
    · next n => exact idle trivial e (n ▸ i)
    · exact i

/-! ### RESERVED and BUSY channels belong to bases in service (R70) -/

theorem State.channelsInService_setChan (h : s.channelsInService) (p : ChanRef) (k : Channel)
    (hk : ∀ o, k.heldBy o = true → (s.base p.base).state = .inService) : (s.setChan p k).channelsInService := by
  intro q o e
  by_cases n : p = q
  · subst n; exact hk o (by simpa using e)
  · exact h q o (by rwa [State.chan_setChan_ne _ _ n] at e)

theorem Change.keeps_channelsInService (h : s.channelsInService) (m : Change True s t) : t.channelsInService := by
  cases m with
  | frame r b _ c => simpa only [State.channelsInService, State.chan, State.base, b, c] using h
  | runState r => exact h
  | contexts xs => exact h
  | freed c x => exact h
  | opened c x p tag _ _ _ service => exact State.channelsInService_setChan (s := s.setCtx c x) h p _ fun _ _ => service
  | channel p k le => exact State.channelsInService_setChan h p k fun o e => h p o (le.2 o e)
  | claimed c p tag b _ service => exact State.channelsInService_setChan h p _ fun _ _ => service
  | bases rs xs step => exact fun p o e => (step trivial p.base).service (h p o e)
  | lost b new idle =>
    intro p o e
    rw [State.chan_lost] at e
    split at e
    · simp [Channel.heldBy] at e
    · next n => rw [State.base_lost, if_neg n]; exact h p o e

/-! ### Owners are current uses of contexts not FREE (R70, R74) -/

theorem State.ownersCurrent_setChan (h : s.ownersCurrent) (p : ChanRef) (k : Channel)
    (hk : ∀ o, k.ownedBy o = true → (s.ctx o.call).use = o.use ∧ (s.ctx o.call).call ≠ none) :
    (s.setChan p k).ownersCurrent := by
  intro q o e
  by_cases n : p = q
  · subst n; exact hk o (by simpa using e)
  · exact h q o (by rwa [State.chan_setChan_ne _ _ n] at e)

/-- Where every owner is current, a FREE context owns nothing. -/
theorem State.ownersCurrent.not_owned (h : s.ownersCurrent) {c : CallIx} (free : (s.ctx c).call = none) {p : ChanRef}
    {o : Owner} (e : (s.chan p).ownedBy o = true) : c ≠ o.call :=
  fun n => (h p o e).2 (n ▸ free)

theorem Channel.eq_of_reserved_ownedBy {o w : Owner} {tag : Tag} (e : (Channel.reserved o tag).ownedBy w = true) :
    o = w := by
  simpa [Channel.ownedBy] using e

theorem Change.keeps_ownersCurrent (h : s.ownersCurrent) (m : Change watched s t) : t.ownersCurrent := by
  cases m with
  | frame _ _ _ k x => simpa only [State.ownersCurrent, State.chan, State.ctx, k, x] using h
  | runState r => exact h
  | contexts xs same =>
    intro p o e
    obtain ⟨use, call⟩ := h p o e
    exact ⟨(same o.call).1.trans use, fun n => call ((same o.call).2.mp n)⟩
  | freed c x use _ owned =>
    intro p o e
    have n : c ≠ o.call := by
      rintro rfl
      have : s.ownerOf o.call = o := congrArg (Owner.mk o.call) (h p o e).1
      rw [this] at owned
      exact Bool.eq_false_iff.mp ((State.owned_eq_nil_iff o).mp owned p) e
    rw [State.ctx_setCtx_ne _ _ n]
    exact h p o e
  | opened c x p tag _ free call =>
    refine State.ownersCurrent_setChan (s := s.setCtx c x) (fun q o e => ?_) p _ fun o e => ?_
    · rw [State.ctx_setCtx_ne _ _ (h.not_owned free e)]
      exact h q o e
    · obtain rfl := Channel.eq_of_reserved_ownedBy e
      simpa using call
  | channel p k le => exact State.ownersCurrent_setChan h p k fun o e => h p o (le.1 o e)
  | claimed c p tag b call =>
    refine State.ownersCurrent_setChan h p _ fun o e => ?_
    obtain rfl := Channel.eq_of_reserved_ownedBy e
    exact ⟨rfl, call⟩
  | bases rs xs => exact h
  | lost b new =>
    intro p o e
    rw [State.chan_lost] at e
    split at e
    · simp [Channel.ownedBy] at e
    · exact h p o e

/-! ### Channels on at most two bases (R70) -/

/-- An owner's channels lie on two bases at most. -/
def State.spans (s : State) (o : Owner) : Prop :=
  ∀ p q r : ChanRef, (s.chan p).ownedBy o = true → (s.chan q).ownedBy o = true → (s.chan r).ownedBy o = true →
    p.base = q.base ∨ p.base = r.base ∨ q.base = r.base

theorem State.spans.of_le {o w : Owner} (h : s.spans o)
    (le : ∀ p, (t.chan p).ownedBy w = true → (s.chan p).ownedBy o = true) : t.spans w :=
  fun p q r hp hq hr => h p q r (le p hp) (le q hq) (le r hr)

/-- An owner whose channels lie on one base, but for one channel, spans two bases at most. -/
theorem State.spans_of_but_one {o : Owner} (p : ChanRef) (b : BaseIx)
    (h : ∀ q, p ≠ q → (s.chan q).ownedBy o = true → q.base = b) : s.spans o := by
  intro x y z hx hy hz
  by_cases nx : p = x <;> by_cases ny : p = y
  · exact .inl (nx ▸ ny ▸ rfl)
  · by_cases nz : p = z
    · exact .inr (.inl (nx ▸ nz ▸ rfl))
    · exact .inr (.inr ((h y ny hy).trans (h z nz hz).symm))
  · by_cases nz : p = z
    · exact .inr (.inr (ny ▸ nz ▸ rfl))
    · exact .inr (.inl ((h x nx hx).trans (h z nz hz).symm))
  · exact .inl ((h x nx hx).trans (h y ny hy).symm)

theorem State.spans_setChan_reserved {o w : Owner} {p : ChanRef} {tag : Tag} (h : s.spans o)
    (one : w = o → ∃ b, ∀ q, (s.chan q).ownedBy o = true → q.base = b) : (s.setChan p (.reserved w tag)).spans o := by
  by_cases n : w = o
  · obtain ⟨b, hb⟩ := one n
    refine State.spans_of_but_one p b fun q k e => hb q ?_
    rwa [State.chan_setChan_ne _ _ k] at e
  · refine h.of_le fun q e => ?_
    by_cases k : p = q
    · subst k
      exact absurd (Channel.eq_of_reserved_ownedBy (by simpa using e)) n
    · rwa [State.chan_setChan_ne _ _ k] at e

theorem Change.keeps_twoBasesAtMost (h : s.twoBasesAtMost ∧ s.ownersCurrent) (m : Change watched s t) :
    t.twoBasesAtMost ∧ t.ownersCurrent := by
  refine ⟨?_, m.keeps_ownersCurrent h.2⟩
  obtain ⟨two, current⟩ := h
  have two : ∀ c, s.spans (s.ownerOf c) := two
  show ∀ c, t.spans (t.ownerOf c)
  intro c
  cases m with
  | frame _ _ _ k x => simpa only [State.spans, State.chan, State.ownerOf, k, x] using two c
  | runState r => exact two c
  | contexts xs same =>
    have : ({ s with contexts := xs } : State).ownerOf c = s.ownerOf c := by
      simpa [State.ownerOf, State.ctx] using (same c).1
    rw [this]
    exact two c
  | freed d x use =>
    have : (s.setCtx d x).ownerOf c = s.ownerOf c := by
      by_cases n : d = c
      · subst n; simpa [State.ownerOf, State.setCtx, State.ctx] using use
      · simp [State.ownerOf, State.setCtx, Table.get_set_ne _ _ n]
    rw [this]
    exact two c
  | opened d x p tag _ free =>
    by_cases n : d = c
    · subst n
      have none (q : ChanRef) (u : BitVec 8) : ¬(s.chan q).ownedBy ⟨d, u⟩ = true :=
        fun e => current.not_owned free e rfl
      exact State.spans_setChan_reserved (s := s.setCtx d x) (fun q _ _ e => absurd e (none q _))
        fun _ => ⟨0, fun q e => absurd e (none q _)⟩
    · have same : ((s.setCtx d x).setChan p (.reserved ⟨d, x.use⟩ tag)).ownerOf c = s.ownerOf c := by
        simp [State.ownerOf, State.setCtx, State.setChan, Table.get_set_ne _ _ n]
      rw [same]
      exact State.spans_setChan_reserved (s := s.setCtx d x) (two c) fun e => absurd (congrArg Owner.call e) n
  | channel p k le =>
    refine (two c).of_le fun q e => ?_
    by_cases n : p = q
    · subst n; rw [State.chan_setChan_self] at e; exact le.1 _ e
    · rwa [State.chan_setChan_ne _ _ n] at e
  | claimed d p tag b _ _ one =>
    exact State.spans_setChan_reserved (two c) fun e => ⟨b, fun q k => one q (e ▸ k)⟩
  | bases rs xs => exact two c
  | lost b new =>
    refine (two c).of_le fun q e => ?_
    rw [State.chan_lost] at e
    split at e
    · simp [Channel.ownedBy] at e
    · exact e

end Sys2Proof.Machine
end

