-- ==== Sys2Proof/Proofs/Moves.lean ====
section
/-! Every operation of the units is a run of elementary changes, in the order of the definitions. -/

namespace Sys2Proof.Machine

open State

variable {watched : Prop} {s t : State}

/-! ### Updates -/

theorem moves_fresh (s : State) : Moves watched s s.fresh := .frame rfl rfl rfl rfl rfl
theorem moves_setHandset (s : State) (i : SlotIx) (h : Option Handset) : Moves watched s (s.setHandset i h) :=
  .frame rfl rfl rfl rfl rfl
theorem moves_setStatus (s : State) (i : SlotIx) (h : Handset) (w : HandsetStatus) :
    Moves watched s (s.setStatus i h w) :=
  .frame rfl rfl rfl rfl rfl
theorem moves_post (s : State) (n : NoticeBody) : Moves watched s (s.post n) := .frame rfl rfl rfl rfl rfl
theorem Moves.post (h : Moves watched s t) (n : NoticeBody) : Moves watched s (t.post n) := h.trans (moves_post t n)
theorem moves_setLink (s : State) (l : Link) : Moves watched s (s.setLink l) := .frame rfl rfl rfl rfl rfl

theorem moves_enter (s : State) (r : RunState) (w : RunCause) (running : r ≠ .halted)
    (free : r = .standby → s.runState = .halted ∨ ∀ c, (s.ctx c).call = none) : Moves watched s (s.enter r w) :=
  (Change.runState r running free).moves.trans (.frame rfl rfl rfl rfl rfl)

theorem moves_setCtx (c : CallIx) (x : Context) (use : x.use = (s.ctx c).use)
    (call : x.call = none ↔ (s.ctx c).call = none) : Moves watched s (s.setCtx c x) := by
  refine (Change.contexts _ fun d => ?_).moves
  by_cases n : c = d
  · subst n; simpa using ⟨use, call⟩
  · simp [Table.get_set_ne _ _ n, State.ctx]

/-- A context replaced that keeps its use number and its call. -/
theorem moves_setCtx_same (c : CallIx) (x : Context) (use : x.use = (s.ctx c).use) (call : x.call = (s.ctx c).call) :
    Moves watched s (s.setCtx c x) :=
  moves_setCtx c x use (by rw [call])

/-- A context in use replaced by one in use. -/
theorem moves_setCtx_inUse (c : CallIx) (x : Context) (use : x.use = (s.ctx c).use) (call : x.call ≠ none)
    (inUse : (s.ctx c).call ≠ none) : Moves watched s (s.setCtx c x) :=
  moves_setCtx c x use (by simp only [call, inUse])

/-- One base record and its assembly context replaced. -/
theorem moves_of_base (b : BaseIx) (r : BaseRecord) (x : Option Train) (bases : t.bases = s.bases.set b r)
    (trains : t.trains = s.trains.set b x) (runState : t.runState = s.runState) (channels : t.channels = s.channels)
    (contexts : t.contexts = s.contexts)
    (step : watched → BaseStep (s.runState = .halted) (s.base b) r (s.trains.get b) x) : Moves watched s t := by
  refine (Change.bases (s.bases.set b r) (s.trains.set b x) fun w d => ?_).moves.trans
    (.frame runState bases trains channels contexts)
  by_cases n : b = d
  · subst n; simpa using step w
  · rw [Table.get_set_ne _ _ n, Table.get_set_ne _ _ n]; exact .refl ..

theorem moves_setBase (b : BaseIx) (r : BaseRecord)
    (step : watched → BaseStep (s.runState = .halted) (s.base b) r (s.trains.get b) (s.trains.get b)) :
    Moves watched s (s.setBase b r) :=
  moves_of_base b r _ rfl (Table.set_get_self ..).symm rfl rfl rfl step

/-- A base record replaced by one in the same state that is off if it was. -/
theorem moves_setBase_same (b : BaseIx) (r : BaseRecord) (state : r.state = (s.base b).state)
    (off : (s.base b).off → r.off) : Moves watched s (s.setBase b r) :=
  moves_setBase b r fun _ => .of_state state off

theorem moves_setTrain (b : BaseIx) (x : Option Train)
    (step : watched → BaseStep (s.runState = .halted) (s.base b) (s.base b) (s.trains.get b) x) :
    Moves watched s (s.setTrain b x) :=
  moves_of_base b _ x (Table.set_get_self ..).symm rfl rfl rfl rfl step

theorem moves_setTrain_none (s : State) (b : BaseIx) : Moves watched s (s.setTrain b none) :=
  moves_setTrain b none fun _ => ⟨id, fun _ => id, fun _ h _ => ⟨h, rfl⟩⟩

/-! ### Orders and channels -/

theorem BaseRecord.not_off_of_inService {r : BaseRecord} (h : r.state = .inService) : ¬r.off :=
  fun k => not_idle_of_inService h k.idle

theorem BaseRecord.overflow_state (r : BaseRecord) (o : Order) : (r.overflow o).state = r.state := by
  cases o <;> rfl

theorem moves_offer (s : State) (b : BaseIx) (o : Order) (p : Placer) (w : OrderOwner) :
    Moves watched s (s.offer b o p w).2 := by
  rcases s.offer_cases b o p w with ⟨_, e⟩ | ⟨h, _, e⟩ | ⟨h, _, e⟩ <;> rw [e]
  · exact .refl s
  · exact moves_of_base b _ _ rfl (Table.set_get_self ..).symm rfl rfl rfl
      fun _ => .of_state rfl fun k => absurd k (BaseRecord.not_off_of_inService h)
  · exact moves_setBase_same b _ (BaseRecord.overflow_state ..) fun k => absurd k (BaseRecord.not_off_of_inService h)

@[simp] theorem State.chan_offer (s : State) (b : BaseIx) (o : Order) (p : Placer) (w : OrderOwner) (q : ChanRef) :
    (s.offer b o p w).2.chan q = s.chan q := by
  rcases s.offer_cases b o p w with ⟨_, e⟩ | ⟨_, _, e⟩ | ⟨_, _, e⟩ <;> simp [e]

@[simp] theorem State.ctx_offer (s : State) (b : BaseIx) (o : Order) (p : Placer) (w : OrderOwner) (c : CallIx) :
    (s.offer b o p w).2.ctx c = s.ctx c := by
  rcases s.offer_cases b o p w with ⟨_, e⟩ | ⟨_, _, e⟩ | ⟨_, _, e⟩ <;> simp [e]

theorem moves_sendOwed (s : State) (b : BaseIx) : Moves watched s (s.sendOwed b) := by
  rcases s.sendOwed_cases b with ⟨_, e⟩ | ⟨_, owed, e⟩ | ⟨c, _, _, owed, e⟩ <;> rw [e]
  · exact .refl s
  · have on : ¬(s.base b).off := fun ⟨_, _, _, no, _⟩ => by simp [no] at owed
    exact moves_of_base b _ _ (Table.set_set ..) (Table.set_get_self ..).symm rfl rfl rfl
      fun _ => .of_state (by simp) fun k => absurd k on
  · have on : ¬(s.base b).off := fun ⟨_, _, no, _⟩ => by
      simp [no, Table.lowest_eq_some_iff] at owed
    refine Moves.trans (t := (s.setBase b { s.base b with
      owedReleases := (s.base b).owedReleases.set c false }).send b (.release c) .callUnit .none) ?_
      (Change.channel _ _ (Channel.within_releasing (by simp))).moves
    exact moves_of_base b _ _ (Table.set_set ..) (Table.set_get_self ..).symm rfl rfl rfl
      fun _ => .of_state (by simp) fun k => absurd k on

/-- A release leaves every other channel and every context as it was. -/
theorem State.chan_release_ne (s : State) {p q : ChanRef} (o : Option Owner) (n : p ≠ q) :
    (s.release p o).chan q = s.chan q := by
  rcases s.release_cases p o with ⟨_, e⟩ | ⟨_, _, e⟩ | ⟨_, _, e⟩ <;> rw [e, State.chan_setChan_ne _ _ n] <;> simp

@[simp] theorem State.ctx_release (s : State) (p : ChanRef) (o : Option Owner) (c : CallIx) :
    (s.release p o).ctx c = s.ctx c := by
  rcases s.release_cases p o with ⟨_, e⟩ | ⟨_, _, e⟩ | ⟨_, _, e⟩ <;> simp [e]

theorem moves_release (s : State) (p : ChanRef) (o : Option Owner)
    (owned : ∀ w, o = some w → (s.chan p).ownedBy w = true) : Moves watched s (s.release p o) := by
  have move := moves_offer (watched := watched) s p.base (.release p.channel) .callUnit (releaseOwner o)
  rcases s.release_cases p o with ⟨_, e⟩ | ⟨h, w, e⟩ | ⟨h, w, e⟩ <;> rw [e]
  · exact (Change.channel _ _ (Channel.within_free _)).moves
  · simp only [State.offer, h, w, ne_eq, not_true_eq_false, if_false, if_true] at move
    exact move.trans (Change.channel _ _ (Channel.within_releasing (by simpa using owned))).moves
  · simp only [State.offer, h, Nat.not_lt.mpr w, ne_eq, not_true_eq_false, if_false] at move
    exact move.trans (Change.channel _ _ (Channel.within_releaseOwed _)).moves

/-- Channels that an owner holds, each released once. -/
theorem moves_releases (o : Owner) (l : List ChanRef) (nodup : l.Nodup) (s : State)
    (held : ∀ p ∈ l, (s.chan p).heldBy o = true) : Moves watched s (l.foldl (fun t p => t.release p (some o)) s) := by
  induction l generalizing s with
  | nil => exact .refl s
  | cons p l ih =>
    obtain ⟨fresh, nodup⟩ := List.nodup_cons.mp nodup
    refine (moves_release s p (some o) ?_).trans (ih nodup _ fun q hq => ?_)
    · rintro _ ⟨⟩
      exact Channel.ownedBy_of_heldBy (held p List.mem_cons_self)
    · have n : p ≠ q := by rintro rfl; exact fresh hq
      rw [State.chan_release_ne _ _ n]
      exact held q (List.mem_cons_of_mem _ hq)

theorem nodup_allChannels : allChannels.Nodup := by
  refine List.nodup_flatMap.mpr ⟨fun b _ => nodup_indices.map fun c d e => (ChanRef.mk.inj e).2, ?_⟩
  refine nodup_indices.imp fun {b d} n => ?_
  simp only [Function.onFun, List.disjoint_left, List.mem_map]
  rintro _ ⟨c, _, rfl⟩ ⟨e, _, k⟩
  exact n (ChanRef.mk.inj k).1.symm

theorem State.mem_heldBy (s : State) (o : Owner) (p : ChanRef) : p ∈ s.heldBy o ↔ (s.chan p).heldBy o = true := by
  simp [State.heldBy, State.mem_allChannels]

/-! ### The mark line and captures -/

theorem moves_markEdge (s : State) : Moves watched s s.markEdge := moves_ite (.refl s) (.frame rfl rfl rfl rfl rfl)

theorem moves_driveMark (s : State) : Moves watched s s.driveMark := by
  unfold driveMark
  dsimp only
  split
  · exact .frame rfl rfl rfl rfl rfl
  · have taken : Moves watched s { s with markDrive := some 2, freeCount := s.freeCount + 1 } :=
      .frame rfl rfl rfl rfl rfl
    exact moves_ite (taken.trans (moves_markEdge _)) taken

theorem moves_markFailure (s : State) : Moves watched s s.markFailure := moves_ite (moves_driveMark s) (.refl s)

theorem moves_completeSlot (s : State) (k : CapIx) (h : CaptureHeader) (w : CaptureStatus) :
    Moves watched s (s.completeSlot k h w) :=
  .frame rfl rfl rfl rfl rfl

theorem moves_endCaptures (s : State) (c : CallIx) : Moves watched s (s.endCaptures c) :=
  moves_foldl _ (fun s k => by
    unfold endCapture
    split
    · exact moves_ite (moves_completeSlot ..) (.refl s)
    · exact moves_ite (moves_completeSlot ..) (.refl s)
    · exact .refl s) _ s

/-! ### Records and clearing -/

theorem moves_engage (s : State) (i : SlotIx) (b : BaseIx) (c : CallIx) : Moves watched s (s.engage i b c) := by
  unfold engage
  split
  · exact moves_setStatus ..
  · exact .refl s

theorem moves_relocate (s : State) (i : SlotIx) (b : BaseIx) : Moves watched s (s.relocate i b) := by
  unfold relocate
  split
  · split
    · exact moves_setStatus ..
    · exact .refl s
  · exact .refl s

theorem moves_returnRecord (s : State) (i : CallInfo) (w : ClearCause) : Moves watched s (s.returnRecord i w) := by
  unfold returnRecord
  split
  · exact .refl s
  · split
    · split
      · exact moves_setStatus ..
      · exact moves_ite (.frame rfl rfl rfl rfl rfl) (moves_ite (.frame rfl rfl rfl rfl rfl) (moves_setStatus ..))
    · exact .refl s

theorem State.allFree_iff (s : State) : s.allFree = true ↔ ∀ c, (s.ctx c).call = none := by
  simp only [State.allFree, Table.all_iff, Option.isNone_iff_eq_none, State.ctx]

theorem moves_endDrain (s : State) : Moves watched s s.endDrain := by
  rcases s.endDrain_cases with ⟨_, free, e⟩ | ⟨_, e⟩ <;> rw [e]
  · exact moves_enter s _ _ (by decide) fun _ => .inr (s.allFree_iff.mp free)
  · exact .refl s

theorem moves_freeContext (s : State) (c : CallIx) (i : CallInfo) (w : ClearCause)
    (owned : s.owned (s.ownerOf c) = []) : Moves watched s (s.freeContext c i w) :=
  (((Change.freed c (s.ctx c).freed rfl rfl owned).moves.trans (moves_returnRecord ..)).trans (moves_post ..)).trans
    (moves_endDrain _)

theorem moves_freeIfDone (s : State) (c : CallIx) : Moves watched s (s.freeIfDone c) := by
  rcases s.freeIfDone_cases c with e | ⟨i, w, _, _, owned, e⟩ <;> rw [e]
  · exact .refl s
  · exact moves_freeContext s c i w owned

theorem moves_clearCall (s : State) (c : CallIx) (w : ClearCause) : Moves watched s (s.clearCall c w) := by
  rcases s.clearCall_cases c w with ⟨_, e⟩ | ⟨i, call, _, e⟩ <;> rw [e]
  · exact .refl s
  · have begun : Moves watched s (s.setCtx c ((s.ctx c).clearing i w)) :=
      moves_setCtx_inUse c _ rfl (by simp [Context.clearing]) (by simp [call])
    dsimp only
    refine Moves.trans (moves_ite (p := i.stage = .active) (begun.trans (moves_endCaptures _ c)) begun) ?_
    refine (moves_releases _ _ ?_ _ fun p hp => (State.mem_heldBy ..).mp hp).trans (moves_freeIfDone ..)
    exact nodup_allChannels.filter _

/-! ### Handover failures and base loss -/

theorem moves_failAttemptOn (s : State) (c : CallIx) (i : CallInfo) (x : Target) (p : Option ChanRef) (n : PhaseName)
    (r : Bool) (w : HandoverReason) : Moves watched s (s.failAttemptOn c i x p n r w) := by
  unfold failAttemptOn
  dsimp only
  refine Moves.trans ?_ (moves_markFailure _)
  refine Moves.trans ?_ (moves_post ..)
  refine Moves.trans ?_ (moves_setCtx_same c _ rfl rfl)
  split
  · split
    · next held => exact moves_release s _ _ (by rintro _ ⟨⟩; exact Channel.ownedBy_of_heldBy held)
    · exact .refl s
  · exact .refl s

theorem moves_failAttempt (s : State) (c : CallIx) (w : HandoverReason) : Moves watched s (s.failAttempt c w) := by
  unfold failAttempt
  dsimp only
  split
  · exact moves_failAttemptOn ..
  · exact .refl s

theorem moves_loseSwitch (s : State) (c : CallIx) (w : LostCase) : Moves watched s (s.loseSwitch c w) := by
  unfold loseSwitch
  dsimp only
  split
  · exact ((moves_post ..).trans (moves_markFailure _)).trans (moves_clearCall ..)
  · exact .refl s

theorem moves_phaseLoss (s : State) (b : BaseIx) (c : CallIx) (i : CallInfo) : Moves watched s (s.phaseLoss b c i) := by
  unfold phaseLoss
  dsimp only
  split
  · exact .refl s
  · exact moves_ite (moves_failAttempt ..) (moves_ite (moves_clearCall ..) (.refl s))
  · exact moves_ite (moves_loseSwitch ..) (moves_ite (moves_setCtx_same c _ rfl rfl) (.refl s))
  · exact moves_ite (moves_clearCall ..) (.refl s)
  · exact moves_ite (moves_setCtx_same c _ rfl rfl) (.refl s)

theorem moves_lossRule (b : BaseIx) (s : State) (c : CallIx) : Moves watched s (lossRule b s c) := by
  unfold lossRule
  dsimp only
  split
  · exact .refl s
  · split
    · exact moves_ite (moves_clearCall ..) (.refl s)
    · exact moves_freeIfDone ..
    · exact moves_ite (moves_phaseLoss ..) (moves_ite (moves_clearCall ..) (.refl s))

/-- A base loss right after the change of the base's state: the base left, then the loss rule for each owner there. -/
theorem State.baseLoss_setBaseState (s : State) (b : BaseIx) (new : BaseState) :
    (s.setBaseState b new).baseLoss b = ((s.setBaseState b new).ownersAt b).foldl (lossRule b)
      { (s.setBase b { s.base b with state := new }.emptied).setTrain b none with
        channels := s.channels.set b (Table.fill 8 Channel.free) } := by
  simp only [State.baseLoss, State.setBaseState, State.base_setBase_self]
  simp only [State.setBase, State.setTrain, Table.set_set]

theorem moves_baseLoss (s : State) (b : BaseIx) (new : BaseState)
    (idle : watched → s.runState = .halted → (s.base b).idle → new = .unused ∨ new = .down) :
    Moves watched s ((s.setBaseState b new).baseLoss b) := by
  rw [State.baseLoss_setBaseState]
  exact (Change.lost b new idle).moves.trans (moves_foldl _ (moves_lossRule b) _ _)

theorem moves_leaveService (s : State) (b : BaseIx) (new : BaseState) (w : BaseCause)
    (idle : watched → s.runState = .halted → (s.base b).idle → new = .unused ∨ new = .down) :
    Moves watched s (s.leaveService b new w) :=
  (moves_post s (.baseState b (s.base b).state new w)).trans (moves_baseLoss _ b new idle)

theorem moves_dropBase (s : State) (b : BaseIx) : Moves watched s (s.dropBase b) := by
  rcases s.dropBase_cases b with ⟨_, e⟩ | ⟨fault, e⟩ | ⟨_, e⟩ <;> rw [e]
  · exact moves_baseLoss s b .down fun _ _ _ => .inr rfl
  · have on : ¬(s.base b).idle := by simp [BaseRecord.idle, fault]
    exact moves_setBase b _ fun _ => ⟨fun k => by simp [fault] at k, fun _ k => absurd k on, fun _ k => absurd k.idle on⟩
  · exact .refl s

/-! ### Calls taken in -/

theorem moves_openContext (s : State) (c : CallIx) (p : ChanRef) (i : CallInfo) (serving : s.runState = .serving)
    (free : (s.ctx c).call = none) (service : (s.base p.base).state = .inService) :
    Moves watched s (s.openContext c p i) := by
  have owner : (s.setCtx c ((s.ctx c).opened i)).ownerOf c = ⟨c, ((s.ctx c).opened i).use⟩ := by
    simp [State.ownerOf, State.setCtx]
  unfold openContext
  dsimp only
  rw [owner]
  exact ((Change.opened c _ p i.tag serving free (by simp [Context.opened]) service).moves.trans (moves_engage ..)).trans
    (moves_offer ..)

/-! ### The Handover Sequencer -/

theorem moves_prepare (s : State) (c : CallIx) (i : CallInfo) (p : ChanRef) (r : Bool) (b : BaseIx)
    (call : (s.ctx c).call ≠ none) (service : (s.base p.base).state = .inService)
    (one : ∀ q, (s.chan q).ownedBy (s.ownerOf c) = true → q.base = b) : Moves watched s (s.prepare c i p r) := by
  have owner (x : Context) (hx : x.use = (s.ctx c).use) : (s.setCtx c x).ownerOf c = s.ownerOf c := by
    simp [State.ownerOf, State.setCtx, hx, State.ctx]
  have claim (x : Context) (use : x.use = (s.ctx c).use) (same : x.call = (s.ctx c).call) :
      Moves watched s ((s.setCtx c x).setChan p (.reserved (s.ownerOf c) i.tag)) := by
    refine (moves_setCtx_same c x use same).trans ?_
    rw [← owner x use]
    exact (Change.claimed (s := s.setCtx c x) c p i.tag b (by simpa [same] using call) service
      fun q e => one q (owner x use ▸ e)).moves
  unfold prepare
  dsimp only
  have claimed := claim { (s.ctx c).nextOrder with phase := .preparing p r } rfl rfl
  split
  · exact claimed.trans (moves_offer ..)
  · exact (claimed.trans (moves_offer ..)).trans (moves_failAttempt ..)
  · exact (claimed.trans (moves_offer ..)).trans (moves_failAttempt ..)

/-- A granted claim of a target: all the context owns lies on its serving base. -/
theorem State.judgeClaim_target_granted {b serving : BaseIx} {c : CallIx} {ch : ChanIx}
    (h : s.judgeClaim b (.target c serving) = .granted ch) (q : ChanRef)
    (e : (s.chan q).ownedBy (s.ownerOf c) = true) : q.base = serving := by
  have near : s.ownsElsewhere c serving = false := by
    refine Bool.eq_false_iff.mpr fun n => ?_
    obtain ⟨service, _⟩ := State.judgeClaim_granted h
    simp [State.judgeClaim, service, n] at h
  have := List.any_eq_false.mp near q (by simpa [State.owned, State.mem_allChannels] using e)
  simpa using this

theorem moves_startLocal (s : State) (c : CallIx) (i : CallInfo) (b : BaseIx) (r : Bool) (call : (s.ctx c).call ≠ none) :
    Moves watched s (s.startLocal c i b r) := by
  unfold startLocal
  dsimp only
  have begun := moves_setCtx_same (watched := watched) (s := s) c { s.ctx c with attempts := sat 255 (s.ctx c).attempts }
    rfl rfl
  split
  · exact begun.trans (moves_failAttemptOn ..)
  · exact begun.trans (moves_failAttemptOn ..)
  · next ch granted =>
    exact begun.trans (moves_prepare _ c i ⟨b, ch⟩ r i.serving.base (by simpa using call)
      (State.judgeClaim_granted granted).1 (State.judgeClaim_target_granted granted))

theorem moves_startHandover (s : State) (c : CallIx) (i : CallInfo) (e : Candidate) (r : Bool)
    (call : (s.ctx c).call ≠ none) : Moves watched s (s.startHandover c i e r) := by
  unfold startHandover
  split
  · exact moves_startLocal s c i _ r call
  · unfold startZoneOut
    dsimp only
    refine Moves.post ?_ _
    exact moves_setCtx_same c _ rfl rfl

theorem moves_startSwitch (s : State) (c : CallIx) (i : CallInfo) (p : ChanRef) (r : Bool) :
    Moves watched s (s.startSwitch c i p r) := by
  unfold startSwitch offerMove
  dsimp only
  have offered := (moves_setCtx_same (watched := watched) (s := s) c (s.ctx c).nextOrder rfl rfl).trans
    (moves_offer _ i.serving.base (.move i.serving.channel (.localBase p.base) p.channel) .sequencer
      (((s.setCtx c (s.ctx c).nextOrder).ctx c).sequencerOwner c))
  split
  · exact offered.trans (moves_setCtx_same c _ rfl rfl)
  · exact offered.trans (moves_failAttempt ..)
  · exact offered.trans (moves_failAttempt ..)

theorem moves_sequencerOutcome (s : State) (c : CallIx) (u n : BitVec 8) (k : OrderKind) (e : Bool) :
    Moves watched s (s.sequencerOutcome c u n k e) := by
  unfold sequencerOutcome
  dsimp only
  split
  · exact .refl s
  · split
    · exact moves_ite (moves_startSwitch ..) (moves_failAttempt ..)
    · exact moves_ite (.refl s) (moves_failAttempt ..)
    · exact moves_ite (.refl s) (moves_failAttempt ..)
    · exact .refl s

theorem moves_completeMove (s : State) (c : CallIx) (i : CallInfo) (p : ChanRef) (r : Bool) (o : Option ChanRef) (n : Nat)
    (call : (s.ctx c).call ≠ none) (held : (s.chan p).heldBy (s.ownerOf c) = true) :
    Moves watched s (s.completeMove c i p r o n) := by
  unfold completeMove releaseFormer
  dsimp only
  refine Moves.trans ?_ (moves_post ..)
  refine Moves.trans ?_ (moves_setCtx_same c _ rfl rfl)
  refine Moves.trans (t := ((s.setChan p (.busy (s.ownerOf c))).setCtx c
    { s.ctx c with call := some { i with serving := p } }).relocate i.slot p.base) ?_ ?_
  · refine Moves.trans ?_ (moves_relocate ..)
    refine (Change.channel p _ (Channel.within_busy held)).moves.trans ?_
    exact moves_setCtx_inUse c _ rfl (by simp) call
  · split
    · next held => exact moves_release _ _ _ (by rintro _ ⟨⟩; exact Channel.ownedBy_of_heldBy held)
    · exact .refl _

theorem moves_targetArrival (s : State) (c : CallIx) (i : CallInfo) (p : ChanRef) (call : (s.ctx c).call ≠ none)
    (held : (s.chan p).heldBy (s.ownerOf c) = true) : Moves watched s (s.targetArrival c i p) := by
  unfold targetArrival
  split
  · split
    · next e => exact moves_completeMove s c i _ _ _ _ call (e ▸ held)
    · exact .refl s
  · split
    · next e => exact moves_completeMove s c i _ _ _ _ call (e ▸ held)
    · exact .refl s
  · exact .refl s

theorem moves_endSwitch (s : State) (c : CallIx) (o : Option ChanRef) (n : Nat) : Moves watched s (s.endSwitch c o n) := by
  unfold endSwitch
  split
  · exact moves_loseSwitch ..
  · exact moves_ite (moves_loseSwitch ..) (moves_failAttempt ..)

/-! ### The Call Unit -/

theorem moves_setupOutcome (s : State) (c : CallIx) (e : Bool) : Moves watched s (s.setupOutcome c e) := by
  unfold setupOutcome
  dsimp only
  split
  · exact .refl s
  · next i call =>
    split
    · exact moves_ite (.refl s) (moves_clearCall ..)
    · refine moves_ite ?_ (moves_clearCall ..)
      refine Moves.post ?_ _
      exact moves_setCtx_inUse c _ rfl (by simp) (by simp [call])
    · exact .refl s

theorem moves_releaseOutcome (s : State) (p : ChanRef) (w : OrderOwner) : Moves watched s (s.releaseOutcome p w) := by
  unfold releaseOutcome
  dsimp only
  have freed : Moves watched s (s.setChan p .free) := (Change.channel p _ (Channel.within_free _)).moves
  split
  · exact moves_ite (freed.trans (moves_freeIfDone ..)) freed
  · exact freed

theorem moves_callUnitOutcome (s : State) (b : BaseIx) (e : WindowEntry) (k : Bool) :
    Moves watched s (s.callUnitOutcome b e k) := by
  unfold callUnitOutcome
  split
  · exact moves_releaseOutcome ..
  · split
    · exact moves_ite (moves_setupOutcome ..) (.refl s)
    · exact .refl s
  · exact .refl s

theorem moves_outcome (s : State) (b : BaseIx) (e : WindowEntry) (k : Bool) : Moves watched s (s.outcome b e k) := by
  unfold outcome
  split
  · exact moves_callUnitOutcome ..
  · split
    · exact moves_sequencerOutcome ..
    · exact .refl s
  · exact .refl s
  · exact .refl s

theorem moves_connect (s : State) (c : CallIx) (i : CallInfo) (p : ChanRef) (o : Owner) (call : (s.ctx c).call ≠ none)
    (held : (s.chan p).heldBy o = true) : Moves watched s (s.connect c i p o) := by
  refine Moves.trans ?_ (moves_post ..)
  refine (Change.channel p _ (Channel.within_busy held)).moves.trans ?_
  exact moves_setCtx_inUse c _ rfl (by simp) call

theorem moves_arrive (s : State) (p : ChanRef) (x : Tag) : Moves watched s (s.arrive p x) := by
  unfold arrive
  split
  · exact .refl s
  · split
    · exact moves_release s p none (by simp)
    · next o expected reserved =>
      split
      · exact .refl s
      · next known =>
        have use : (s.ctx o.call).use = o.use := by
          by_contra n
          exact known (.inr n)
        have owner : s.ownerOf o.call = o := congrArg (Owner.mk o.call) use
        have held : (s.chan p).heldBy o = true := by simp [reserved, Channel.heldBy]
        split
        · exact .refl s
        · next i call =>
          have inUse : (s.ctx o.call).call ≠ none := by simp [call]
          split
          · exact moves_connect s o.call i p o inUse held
          · exact moves_targetArrival s o.call i p inUse (owner.symm ▸ held)
          · exact .refl s
    · exact .refl s
    · exact .refl s
    · exact .refl s

theorem moves_lose (s : State) (p : ChanRef) (x : Tag) : Moves watched s (s.lose p x) := by
  unfold lose
  split
  · exact .refl s
  · split
    · exact .refl s
    · split
      · exact moves_clearCall ..
      · exact moves_clearCall ..
      · exact moves_clearCall ..
      · exact .refl s
      · exact .refl s

end Sys2Proof.Machine
end

