-- ==== Sys2Proof/Proofs/MovesOfFrames.lean ====
section
/-! Registration, trains, reports, base frames, deadlines, the tick and the run-state requests are runs of elementary
changes. -/

namespace Sys2Proof.Machine

open State

variable {watched : Prop} {s t : State}

/-! ### Registration -/

theorem moves_refuseAccess (s : State) (i : SlotIx) (r : AccessRequest) (w : AnswerCause) :
    Moves watched s (s.refuseAccess i r w).2 :=
  moves_ite (moves_post ..) (.refl s)

theorem moves_decideAttach (s : State) (i : SlotIx) (h : Handset) (r : AccessRequest) :
    Moves watched s (s.decideAttach i h r).2 := by
  unfold decideAttach
  split
  · exact moves_refuseAccess ..
  · split
    · exact moves_refuseAccess ..
    · split
      · unfold deny
        dsimp only
        split
        · exact (moves_setHandset ..).trans (moves_refuseAccess ..)
        · exact .frame rfl rfl rfl rfl rfl
      · split
        · exact moves_refuseAccess ..
        · unfold attach
          dsimp only
          exact moves_ite (moves_setHandset ..) ((moves_setHandset ..).trans (moves_post ..))

theorem moves_locate (s : State) (i : SlotIx) (h : Handset) (f : BaseIx) (o : Option Nat) (r : AccessRequest) :
    Moves watched s (s.locate i h f o r) :=
  .frame rfl rfl rfl rfl rfl

theorem moves_originate (s : State) (i : SlotIx) (h : Handset) (b : BaseIx) (o : Option Nat) (r : AccessRequest) :
    Moves watched s (s.originate i h b o r) := by
  unfold originate
  dsimp only
  split <;> split <;> exact .frame rfl rfl rfl rfl rfl

theorem moves_decideAccess (s : State) (i : SlotIx) (h : Handset) (r : AccessRequest) :
    Moves watched s (s.decideAccess i h r).2 := by
  unfold decideAccess
  split
  · exact moves_decideAttach ..
  · unfold decideLocate
    split
    · exact moves_refuseAccess ..
    · exact moves_refuseAccess ..
    · exact moves_locate ..
  · unfold decideRenew
    split
    · exact moves_refuseAccess ..
    · exact moves_refuseAccess ..
    · split
      · exact moves_setStatus ..
      · exact moves_locate ..
  · unfold decideDetach
    split
    · exact .frame rfl rfl rfl rfl rfl
    · split
      · exact .refl s
      · exact (moves_setStatus ..).trans (moves_clearCall ..)
    · exact .refl s
  · unfold decideOriginate
    split
    · exact moves_refuseAccess ..
    · split
      · exact moves_refuseAccess ..
      · exact moves_refuseAccess ..
      · exact moves_originate ..
  · exact .refl s

theorem moves_access (s : State) (r : AccessRequest) : Moves watched s (s.access r) := by
  unfold access
  split
  · exact moves_ite (.refl s) (moves_offer ..)
  · split
    · exact .refl s
    · exact ((moves_setHandset ..).trans (moves_decideAccess ..)).trans (moves_offer ..)

/-! ### Trains and reports -/

theorem moves_spoil (s : State) (b : BaseIx) : Moves watched s (s.spoil b) := moves_setBase_same b _ rfl id

theorem moves_takeFirst (s : State) (b : BaseIx) (x : Byte) (service : (s.base b).state = .inService) :
    Moves watched s (s.takeFirst b x) := by
  have opened (s : State) (x : Train) (service : (s.base b).state = .inService) :
      Moves watched s (s.setTrain b (some x)) :=
    moves_setTrain b _ fun _ => .of_inService service service
  unfold takeFirst
  split
  · exact opened s _ service
  · exact (moves_spoil s b).trans (opened _ _ (by simpa [spoil] using service))

theorem moves_takeNext (s : State) (b : BaseIx) (x : Byte) : Moves watched s (s.takeNext b x) := by
  unfold takeNext
  split
  · exact .refl s
  · next t e => exact moves_setTrain b _ fun _ => ⟨id, fun _ => id, fun _ _ n => by simp [e] at n⟩

theorem moves_takeClose (s : State) (b : BaseIx) (x : Byte) : Moves watched s (s.takeClose b x) := by
  unfold takeClose
  split
  · exact .refl s
  · exact moves_ite ((moves_setTrain_none ..).trans (moves_access ..)) ((moves_setTrain_none ..).trans (moves_spoil ..))

theorem posts_contexts (l : List NoticeBody) (s : State) : (l.foldl post s).contexts = s.contexts := by
  induction l generalizing s with
  | nil => rfl
  | cons n l ih => exact ih _

/-- The context whose sample is kept: the sample appended to its ring, its evaluation kept. -/
theorem ctx_keepSample (s : State) (c : CallIx) (x : Sample) (v : Evaluation) :
    (s.keepSample c x v).ctx c = (s.ctx c).appended (x.decided v.verdict) v s.settings.evaluator := by
  simp [State.keepSample, State.ctx, posts_contexts, State.setCtx]

theorem moves_keepSample (s : State) (c : CallIx) (x : Sample) (v : Evaluation) : Moves watched s (s.keepSample c x v) := by
  unfold keepSample
  dsimp only
  refine Moves.trans ?_ (moves_foldl _ moves_post _ _)
  refine Moves.trans (t := s.setCtx c ((s.ctx c).appended (x.decided v.verdict) v s.settings.evaluator)) ?_
    (.frame rfl rfl rfl rfl rfl)
  exact moves_setCtx_same c _ rfl rfl

theorem moves_completeWaiting (s : State) (due : List (CapIx × CaptureHeader)) : Moves watched s (s.completeWaiting due) :=
  moves_foldl _ (fun t _ => moves_ite (moves_completeSlot ..) (.refl t)) due s

theorem moves_takeSample (s : State) (c : CallIx) (i : CallInfo) (x : Sample) (call : (s.ctx c).call ≠ none) :
    Moves watched s (s.takeSample c i x) := by
  unfold takeSample
  dsimp only
  refine Moves.trans ?_ (moves_completeWaiting ..)
  split
  · exact (moves_keepSample ..).trans
      (moves_startHandover _ c i _ _ (by simpa [ctx_keepSample, Context.appended] using call))
  · exact moves_keepSample ..

theorem moves_acceptReport (s : State) (b : BaseIx) (c : CallIx) (i : CallInfo) (f : ReportFrame)
    (call : (s.ctx c).call ≠ none) : Moves watched s (s.acceptReport b c i f) := by
  unfold acceptReport
  dsimp only
  split
  · refine Moves.trans (t := s.setCtx c _) ?_ (moves_setBase_same b _ rfl id)
    exact moves_setCtx_same c _ rfl rfl
  · refine Moves.trans (t := s.setCtx c _) ?_ (moves_takeSample _ c i _ ?_)
    · exact moves_setCtx_same c _ rfl rfl
    · simpa using call

theorem moves_takeReport (s : State) (b : BaseIx) (f : ReportFrame) : Moves watched s (s.takeReport b f) := by
  unfold takeReport
  split
  · exact .refl s
  · split
    · exact .refl s
    · dsimp only
      split
      · exact .refl s
      · next c _ _ _ i call =>
        have inUse : (s.ctx c).call ≠ none := by simp [call]
        split
        · split
          · exact moves_acceptReport s b c i f inUse
          · exact moves_acceptReport s b c i f inUse
          · exact moves_acceptReport s b c i f inUse
          · exact moves_setCtx_same c _ rfl rfl
          · exact moves_setCtx_same c _ rfl rfl
        · exact .refl s

/-! ### Base frames -/

/-- A frame that is heard comes in outside HALTED (R17). -/
theorem running_of_hears {o : Origin} (h : s.hears o = true) : s.runState ≠ .halted := by
  simp only [State.hears, State.driven, Bool.and_eq_true, decide_eq_true_eq] at h
  exact h.1.2.1

theorem moves_fromService (s : State) (o : Origin) (act : BaseIx → State → State)
    (h : ∀ b, (s.base b).state = .inService → Moves watched s (act b s)) : Moves watched s (s.fromService o act) := by
  unfold fromService
  split
  · next e =>
    simp only [Bool.and_eq_true, decide_eq_true_eq] at e
    exact h _ e.2
  · exact .refl s

theorem moves_serviceBeat (s : State) (b : BaseIx) (h : Health) (service : (s.base b).state = .inService) :
    Moves watched s (s.serviceBeat b h) := by
  have beat (r : BaseRecord) (e : r.state = .inService) : Moves watched s (s.setBase b r) :=
    moves_setBase b r fun _ => .of_inService service e
  unfold serviceBeat
  dsimp only
  split
  · exact moves_ite (.post (beat _ (by exact service)) _) (beat _ service)
  · exact moves_ite (beat _ service) (.post (beat _ (by exact service)) _)
  · refine Moves.trans (t := s.setBase b _) (beat _ ?_) (moves_leaveService _ b _ _ fun _ _ k => ?_)
    · exact service
    · rw [State.base_setBase_self] at k
      exact absurd k (BaseRecord.not_idle_of_inService service)

theorem moves_takeStatus (s : State) (b : BaseIx) (h : Health) (running : s.runState ≠ .halted) :
    Moves watched s (s.takeStatus b h) := by
  have heard (r : BaseRecord) (e : (s.base b).state = .inService → r.state = .inService) :
      Moves watched s (s.setBase b r) :=
    moves_setBase b r fun _ => ⟨e, fun k => absurd k running, fun k => absurd k running⟩
  unfold takeStatus
  dsimp only
  split
  · exact .refl s
  · next down =>
    unfold firstContact
    dsimp only
    exact .post (heard _ fun k => by simp [down] at k) _
  · exact heard _ fun k => k
  · next service => exact moves_serviceBeat s b h service
  · exact heard _ fun k => k

theorem moves_depart (s : State) (b : BaseIx) (serial : Byte) (n : Nat) :
    Moves watched s (s.setBase b ((s.base b).depart serial n)) :=
  moves_setBase_same b _ rfl fun ⟨state, window, rest⟩ => ⟨state, by simp [BaseRecord.depart, window], rest⟩

theorem moves_takeEcho (s : State) (b : BaseIx) (x : Byte) : Moves watched s (s.takeEcho b x) := by
  unfold takeEcho
  dsimp only
  split
  · exact moves_setBase_same b _ rfl id
  · exact ((moves_depart ..).trans (moves_sendOwed ..)).trans (moves_outcome ..)

theorem moves_faultIfSilent (s : State) (b : BaseIx) (running : watched → s.runState ≠ .halted) :
    Moves watched s (s.faultIfSilent b) :=
  moves_ite (moves_leaveService s b _ _ fun w k => absurd k (running w)) (.refl s)

/-- With the base link off in HALTED, an order that waits for its echo waits outside HALTED. -/
theorem running_of_window (off : s.haltedIsOff) {b : BaseIx} (h : (s.base b).window ≠ []) : s.runState ≠ .halted :=
  fun e => h ((s.linkOff_iff.mp (off e) b).1.2.1)

theorem moves_takeEchoExpiry (b : BaseIx) (serial : Byte) (s : State) (off : watched → s.haltedIsOff) :
    Moves watched s (takeEchoExpiry b serial s) := by
  unfold takeEchoExpiry
  dsimp only
  split
  · exact .refl s
  · next e found =>
    refine moves_ite ?_ (.refl s)
    have told := ((moves_depart (watched := watched) s b serial (sat 3 (s.base b).noEcho)).trans
      (moves_sendOwed _ b)).trans (moves_outcome _ b e false)
    refine told.trans (moves_faultIfSilent _ b fun w => told.keeps Change.running ?_)
    exact running_of_window (off w) (b := b) fun n => by simp [n] at found

theorem moves_takeSettleExpiry (b : BaseIx) (s : State) : Moves watched s (takeSettleExpiry b s) := by
  unfold takeSettleExpiry
  dsimp only
  split
  · next due =>
    have on : ¬(s.base b).idle := by simp [BaseRecord.idle, due.1]
    split
    · refine Moves.trans ?_ (moves_offer ..)
      exact .post (moves_setBase b _ fun _ => ⟨fun _ => rfl, fun _ k => absurd k on, fun _ k => absurd k.idle on⟩) _
    · exact moves_leaveService s b _ _ fun _ _ k => absurd k on
  · exact .refl s

theorem moves_takeHeartbeatExpiry (b : BaseIx) (s : State) : Moves watched s (takeHeartbeatExpiry b s) :=
  moves_ite (moves_leaveService s b _ _ fun _ _ _ => .inr rfl) (.refl s)

theorem moves_takeGapExpiry (b : BaseIx) (s : State) : Moves watched s (takeGapExpiry b s) := by
  unfold takeGapExpiry
  split
  · exact .refl s
  · exact moves_ite ((moves_setTrain_none ..).trans (moves_spoil ..)) (.refl s)

theorem moves_takeCarrierLost (p : PortIx) (s : State) : Moves watched s (takeCarrierLost p s) := by
  unfold takeCarrierLost
  dsimp only
  split
  · refine Moves.trans ?_ (moves_foldl _ (fun s i => moves_dropBase s (baseAt p i)) _ _)
    exact .frame rfl rfl rfl rfl rfl
  · exact .frame rfl rfl rfl rfl rfl

theorem moves_takeCarrierRegained (p : PortIx) (s : State) : Moves watched s (takeCarrierRegained p s) := by
  unfold takeCarrierRegained
  dsimp only
  split <;> exact .frame rfl rfl rfl rfl rfl

/-! ### Other deadlines and the tick -/

theorem moves_takeSwitchExpiry (c : CallIx) (s : State) : Moves watched s (takeSwitchExpiry c s) := by
  unfold takeSwitchExpiry
  split
  · exact moves_endSwitch ..
  · exact moves_endSwitch ..
  · exact .refl s

theorem moves_takeZoneExpiry (c : CallIx) (s : State) : Moves watched s (takeZoneExpiry c s) := by
  unfold takeZoneExpiry
  split
  · exact moves_failAttempt ..
  · exact .refl s

theorem moves_takeGuardExpiry (c : CallIx) (s : State) : Moves watched s (takeGuardExpiry c s) :=
  moves_ite (moves_setCtx_same c _ rfl rfl) (.refl s)

theorem moves_takePenaltyExpiry (c : CallIx) (x : Target) (s : State) : Moves watched s (takePenaltyExpiry c x s) :=
  moves_setCtx_same c _ rfl rfl

theorem moves_takeSetupExpiry (c : CallIx) (s : State) : Moves watched s (takeSetupExpiry c s) := by
  unfold takeSetupExpiry
  split
  · exact .refl s
  · exact moves_ite (moves_clearCall ..) (.refl s)

theorem moves_takeLifetimeExpiry (i : SlotIx) (s : State) : Moves watched s (takeLifetimeExpiry i s) := by
  unfold takeLifetimeExpiry
  split
  · exact .refl s
  · split
    · exact .frame rfl rfl rfl rfl rfl
    · exact .refl s

theorem moves_takeOriginationExpiry (i : SlotIx) (s : State) : Moves watched s (takeOriginationExpiry i s) := by
  unfold takeOriginationExpiry
  split
  · exact .refl s
  · split
    · exact .frame rfl rfl rfl rfl rfl
    · exact .refl s

theorem BaseRecord.ticked_off {r : BaseRecord} (h : r.off) : r.ticked.off := by
  obtain ⟨state, window, releases, admission, settle, heartbeat⟩ := h
  exact ⟨state, by simp [ticked, window], releases, admission, by simp [ticked, settle, countDown],
    by simp [ticked, heartbeat, countDown]⟩

theorem moves_countDeadlines (s : State) : Moves watched s s.countDeadlines := by
  have contexts : Moves watched s { s with contexts := s.contexts.map Context.ticked } :=
    (Change.contexts _ fun c => by simp [Context.ticked, State.ctx]).moves
  refine (contexts.trans (Change.bases (s.bases.map BaseRecord.ticked) (s.trains.map (Option.map Train.ticked))
    fun _ b => ?_).moves).trans (.frame rfl rfl rfl rfl rfl)
  simp only [Table.get_map]
  exact ⟨id, fun _ => id, fun _ h e => ⟨BaseRecord.ticked_off h, by simp [show s.trains.get b = none from e]⟩⟩

theorem moves_takeTick (s : State) : Moves watched s (takeTick s) := by
  have always : Moves watched s s.countAlways := .frame rfl rfl rfl rfl rfl
  exact moves_ite (.refl s) (moves_ite always (always.trans (moves_countDeadlines _)))

/-! ### Requests -/

theorem moves_takeGo (s : State) : Moves watched s (takeGo s).2 := by
  unfold takeGo
  split
  · next halted =>
    split
    · exact .refl s
    · exact moves_enter s _ _ (by decide) fun _ => .inl halted
  · exact moves_enter s _ _ (by decide) (by simp)
  · exact moves_enter s _ _ (by decide) (by simp)
  · exact .refl s

theorem moves_forceAll (s : State) : Moves watched s s.forceAll :=
  moves_foldl _ (fun s c => moves_clearCall s c _) _ s

theorem moves_takeStop (o : Byte) (s : State) : Moves watched s (takeStop o s).2 := by
  unfold takeStop
  split
  · exact .refl s
  · dsimp only
    split
    · split
      · next free => exact moves_enter s _ _ (by decide) fun _ => .inr (s.allFree_iff.mp free)
      · have draining (w : RunCause) : Moves watched s (s.enter .draining w) := moves_enter s _ _ (by decide) (by simp)
        exact moves_ite ((draining _).trans (moves_forceAll _)) (draining _)
    · exact moves_ite (moves_forceAll s) (.refl s)
    · exact .refl s
    · exact .refl s

theorem BaseRecord.enabling_off {r : BaseRecord} (was now : Bool) (h : r.off) : (r.enabling was now).off := by
  obtain ⟨state, rest⟩ := h
  cases was <;> cases now
  · exact ⟨state, rest⟩
  · exact ⟨.inr rfl, rest⟩
  · exact ⟨.inl rfl, rest⟩
  · exact ⟨state, rest⟩

theorem moves_takeSetBase (b e n : Byte) (s : State) (off : watched → s.haltedIsOff) :
    Moves watched s (takeSetBase b e n s).2 := by
  unfold takeSetBase
  split
  · exact .refl s
  · next halted =>
    split
    · next b on _ _ =>
      refine moves_of_base b ((s.base b).enabling (s.cfg b).enabled on) (s.trains.get b) rfl
        (Table.set_get_self ..).symm rfl rfl rfl fun w => ?_
      have gone := (s.linkOff_iff.mp (off w (not_not.mp halted)) b).1
      have kept := BaseRecord.enabling_off (s.cfg b).enabled on gone
      exact ⟨fun k => absurd gone (BaseRecord.not_off_of_inService k), fun _ _ => kept.idle, fun _ _ n => ⟨kept, n⟩⟩
    · exact .refl s

theorem moves_takeAdmission (held : Bool) (b : Byte) (s : State) : Moves watched s (takeAdmission held b s).2 := by
  unfold takeAdmission
  split
  · exact .refl s
  · split
    · exact .refl s
    · split
      · exact .refl s
      · refine Moves.trans ?_ (moves_offer ..)
        exact moves_setBase_same _ _ rfl id

theorem moves_takeRestoreBase (b : Byte) (s : State) : Moves watched s (takeRestoreBase b s).2 := by
  unfold takeRestoreBase
  split
  · exact .refl s
  · next b _ =>
    dsimp only
    split
    · exact .refl s
    · split
      · exact .refl s
      · next fault =>
        have fault := not_not.mp fault
        have on : ¬(s.base b).idle := by simp [BaseRecord.idle, fault]
        exact moves_setBase b _ fun _ =>
          ⟨fun k => by simp [fault] at k, fun _ k => absurd k on, fun _ k => absurd k.idle on⟩

theorem State.lowestFree_free {c : CallIx} (h : s.lowestFree = some c) : (s.ctx c).call = none := by
  simpa [State.ctx] using ((Table.lowest_eq_some_iff ..).mp h).1

theorem moves_takeOpenCall (x : BitVec 32) (d : Byte) (s : State) : Moves watched s (takeOpenCall x d s).2 := by
  unfold takeOpenCall
  split
  · exact .refl s
  · next serving =>
    repeat' split
    all_goals first
      | exact .refl s
      | next c free _ _ _ granted _ =>
        exact moves_openContext s c _ _ (not_not.mp serving) (State.lowestFree_free free)
          (State.judgeClaim_granted granted).1

theorem moves_takeAdmitCall (x : BitVec 32) (b z : Byte) (s : State) : Moves watched s (takeAdmitCall x b z s).2 := by
  unfold takeAdmitCall
  split
  · exact .refl s
  · next serving =>
    repeat' split
    all_goals first
      | exact .refl s
      | next c free _ _ _ granted _ =>
        exact moves_openContext s c _ _ (not_not.mp serving) (State.lowestFree_free free)
          (State.judgeClaim_granted granted).1

theorem moves_takeCloseCall (c : Byte) (s : State) : Moves watched s (takeCloseCall c s).2 := by
  unfold takeCloseCall
  split
  · exact .refl s
  · split
    · exact .refl s
    · exact moves_clearCall ..

end Sys2Proof.Machine
end

