-- ==== Sys2Proof/Proofs/RunStateLaws.lean ====
section
/-! The other requests are runs of elementary changes, and so every command keeps the laws of run state, base link,
channels and owners (O56). -/

namespace Sys2Proof.Machine

open State

variable {watched : Prop} {s t : State}

theorem moves_takeZoneGo (c h : Byte) (s : State) : Moves watched s (takeZoneGo c h s).2 := by
  unfold takeZoneGo offerMove
  split
  · next c ch _ _ =>
    dsimp only
    split
    · next i z b r d _ _ =>
      split
      · have offered := (moves_setCtx_same (watched := watched) (s := s) c
          { (s.ctx c).nextOrder with phase := .handingOut z b r d } rfl rfl).trans
          (moves_offer _ i.serving.base (.move i.serving.channel (.foreignBase z b) ch) .sequencer
            (((s.setCtx c { (s.ctx c).nextOrder with phase := .handingOut z b r d }).ctx c).sequencerOwner c))
        split
        · exact offered.trans (moves_setCtx_same c _ rfl rfl)
        · exact offered.trans (moves_failAttempt ..)
        · exact offered.trans (moves_failAttempt ..)
      · exact .refl s
    · exact .refl s
  · exact .refl s

theorem moves_takeZoneFail (c : Byte) (s : State) : Moves watched s (takeZoneFail c s).2 := by
  unfold takeZoneFail
  split
  · exact .refl s
  · split
    · split
      · exact moves_failAttempt ..
      · exact .refl s
    · exact .refl s

theorem moves_takeZoneComplete (c : Byte) (s : State) : Moves watched s (takeZoneComplete c s).2 := by
  unfold takeZoneComplete
  split
  · exact .refl s
  · dsimp only
    split
    · split
      · exact (moves_post ..).trans (moves_clearCall ..)
      · exact .refl s
    · exact .refl s

theorem moves_takeClearConditions (k c : Byte) (s : State) : Moves watched s (takeClearConditions k c s).2 := by
  unfold takeClearConditions
  dsimp only
  split
  · exact .refl s
  · split
    · refine Moves.trans (t := { s with contexts := s.contexts.map _ }) ?_ (.frame rfl rfl rfl rfl rfl)
      exact (Change.contexts _ fun d => by simp [Context.unstick, State.ctx]).moves
    · split
      · exact .refl s
      · exact moves_setCtx_same _ _ rfl rfl

theorem moves_takeEnrol (x k : BitVec 32) (c : Byte) (s : State) : Moves watched s (takeEnrol x k c s).2 := by
  unfold takeEnrol
  repeat' split
  all_goals exact .frame rfl rfl rfl rfl rfl

theorem moves_takeRemove (k : Byte) (v : BitVec 32) (s : State) : Moves watched s (takeRemove k v s).2 := by
  unfold takeRemove
  repeat' split
  all_goals exact .frame rfl rfl rfl rfl rfl

theorem moves_takeBar (k : Byte) (v : BitVec 32) (s : State) : Moves watched s (takeBar k v s).2 := by
  unfold takeBar
  repeat' split
  all_goals exact .frame rfl rfl rfl rfl rfl

theorem moves_takeUnbar (k : Byte) (v : BitVec 32) (s : State) : Moves watched s (takeUnbar k v s).2 := by
  unfold takeUnbar
  split <;> exact .frame rfl rfl rfl rfl rfl

theorem moves_takeQueryHandset (k : Byte) (v : BitVec 32) (s : State) : Moves watched s (takeQueryHandset k v s).2 := by
  unfold takeQueryHandset
  split <;> exact .refl s

theorem moves_takeQueryBase (b o : Byte) (s : State) : Moves watched s (takeQueryBase b o s).2 := by
  unfold takeQueryBase
  split
  · exact moves_ite (moves_setBase_same _ _ rfl id) (.refl s)
  · exact .refl s

theorem moves_takeSetPart (z p : Byte) (s : State) : Moves watched s (takeSetPart z p s).2 := by
  unfold takeSetPart
  repeat' split
  all_goals exact .frame rfl rfl rfl rfl rfl

theorem moves_takeSetNeighbours (b : Byte) (es : List (Byte × Byte)) (s : State) :
    Moves watched s (takeSetNeighbours b es s).2 := by
  unfold takeSetNeighbours
  repeat' split
  all_goals exact .frame rfl rfl rfl rfl rfl

theorem moves_takeSetTimers (ps : List (Byte × BitVec 16)) (s : State) : Moves watched s (takeSetTimers ps s).2 := by
  unfold takeSetTimers
  split <;> exact .frame rfl rfl rfl rfl rfl

theorem moves_takeSetEvaluator (ps : List (Byte × BitVec 16)) (s : State) :
    Moves watched s (takeSetEvaluator ps s).2 := by
  unfold takeSetEvaluator
  split <;> exact .frame rfl rfl rfl rfl rfl

theorem moves_takeReadSettings (g b : Byte) (s : State) : Moves watched s (takeReadSettings g b s).2 := by
  unfold takeReadSettings
  repeat' split
  all_goals exact .refl s

theorem moves_takeQueryCall (c : Byte) (s : State) : Moves watched s (takeQueryCall c s).2 := by
  unfold takeQueryCall
  repeat' split
  all_goals exact .refl s

theorem moves_takeMarkDriveEnd (s : State) : Moves watched s (takeMarkDriveEnd s) :=
  moves_ite (.frame rfl rfl rfl rfl rfl) (.refl s)

theorem moves_takeFetchNotice (s : State) : Moves watched s (takeFetchNotice s).2 := by
  unfold takeFetchNotice
  dsimp only
  repeat' split
  all_goals exact .frame rfl rfl rfl rfl rfl

theorem moves_takeCapture (k c n m : Byte) (x : BitVec 32) (s : State) : Moves watched s (takeCapture k c n m x s).2 := by
  unfold takeCapture startCapture
  repeat' split
  all_goals exact .frame rfl rfl rfl rfl rfl

theorem moves_takeCancelCapture (k : Byte) (s : State) : Moves watched s (takeCancelCapture k s).2 := by
  unfold takeCancelCapture
  split <;> exact .frame rfl rfl rfl rfl rfl

theorem moves_takeReadCapture (k f : Byte) (s : State) : Moves watched s (takeReadCapture k f s).2 := by
  unfold takeReadCapture
  repeat' split
  all_goals exact .refl s

/-- Every request but HALT is a run of elementary changes. -/
theorem moves_takeRequest (r : Request) (halt : r ≠ .halt) (s : State) (off : watched → s.haltedIsOff) :
    Moves watched s (takeRequest r s).2 := by
  cases r with
  | go => exact moves_takeGo s
  | stop o => exact moves_takeStop o s
  | halt => exact absurd rfl halt
  | reset => exact moves_setLink ..
  | identify => exact .refl s
  | setPart z p => exact moves_takeSetPart z p s
  | setBase b e c => exact moves_takeSetBase b e c s off
  | setNeighbours b es => exact moves_takeSetNeighbours b es s
  | setTimers ps => exact moves_takeSetTimers ps s
  | setEvaluator ps => exact moves_takeSetEvaluator ps s
  | readSettings g b => exact moves_takeReadSettings g b s
  | enrol x k c => exact moves_takeEnrol x k c s
  | remove k v => exact moves_takeRemove k v s
  | bar k v => exact moves_takeBar k v s
  | unbar k v => exact moves_takeUnbar k v s
  | queryHandset k v => exact moves_takeQueryHandset k v s
  | holdAdmission b => exact moves_takeAdmission true b s
  | openAdmission b => exact moves_takeAdmission false b s
  | restoreBase b => exact moves_takeRestoreBase b s
  | queryBase b o => exact moves_takeQueryBase b o s
  | openCall x d => exact moves_takeOpenCall x d s
  | closeCall c => exact moves_takeCloseCall c s
  | queryCall c => exact moves_takeQueryCall c s
  | admitCall x b z => exact moves_takeAdmitCall x b z s
  | zoneGo c k => exact moves_takeZoneGo c k s
  | zoneFail c => exact moves_takeZoneFail c s
  | zoneComplete c => exact moves_takeZoneComplete c s
  | fetchNotice => exact moves_takeFetchNotice s
  | maskNotices m => exact .frame rfl rfl rfl rfl rfl
  | queryConditions => exact .refl s
  | clearConditions k c => exact moves_takeClearConditions k c s
  | capture k c n m x => exact moves_takeCapture k c n m x s
  | cancelCapture k => exact moves_takeCancelCapture k s
  | readCapture k f => exact moves_takeReadCapture k f s
  | mark => exact moves_driveMark s
  | unknown c => exact .refl s
  | badLength c => exact .refl s

/-- HALT from the moment HALTED is entered: every base dropped, every record and train emptied. -/
theorem moves_haltAll (s : State) : Moves watched (s.enter .halted .halt) s.haltAll := by
  have dropped := moves_foldl (watched := watched) dropBase moves_dropBase (indices 32) (s.enter .halted .halt)
  unfold haltAll
  dsimp only
  generalize (indices 32).foldl dropBase (s.enter .halted .halt) = d at dropped ⊢
  refine dropped.trans (Change.bases _ (Table.fill 32 none) fun _ b => ?_).moves
  simp only [Table.get_map, Table.get_fill]
  exact ⟨id, fun _ k => k, fun _ k _ => ⟨BaseRecord.emptied_off k.idle, rfl⟩⟩

/-! ### Laws kept by whole commands -/

/-- What keeps a law under every command: elementary changes, HALT and the resets keep it. -/
structure Lawful (watched : Prop) (P : State → Prop) : Prop where
  change : ∀ {s t}, P s → Change watched s t → P t
  off : watched → ∀ {s}, P s → s.haltedIsOff
  halt : ∀ {s}, P s → s.runState = .standby → P s.haltAll
  warm : ∀ {s}, P s → P s.warmReset
  cold : ∀ s, P (State.cold s)

variable {P : State → Prop}

theorem Lawful.moves (L : Lawful watched P) (h : P s) (m : Moves watched s t) : P t := m.keeps L.change h

theorem Lawful.request (L : Lawful watched P) (h : P s) (r : Request) : P (takeRequest r s).2 := by
  by_cases e : r = .halt
  · subst e
    show P (takeHalt s).2
    unfold takeHalt
    split
    · next standby => exact L.halt h standby
    · exact h
    · exact h
    · exact h
  · exact L.moves h (moves_takeRequest r e s fun w => L.off w h)

/-- A lawful property survives the port. -/
theorem Lawful.port (L : Lawful watched P) : PortKeeps P where
  link l _ h := L.moves h (moves_setLink _ l)
  execute _ _ h := L.moves (L.request h _) (moves_setLink ..)

theorem Lawful.replySent (L : Lawful watched P) (h : P s) : P (takeReplySent s) := by
  rcases L.port.replySent h (L.moves h (moves_setLink ..)) with e | k
  · exact e ▸ L.warm h
  · exact k

theorem Lawful.resetRelease (L : Lawful watched P) (h : P s) (straps : Fin 8) : P (takeResetRelease straps s) := by
  unfold takeResetRelease
  split
  · exact L.moves (L.cold s) (.frame rfl rfl rfl rfl rfl)
  · exact h

/-- A lawful property is kept by every command. -/
theorem Lawful.exec (L : Lawful watched P) (c : Instr) (h : P s) (e : exec c s = .next t) : P t := by
  have f : P s.fresh := L.moves h (moves_fresh s)
  have run {u : State} (m : Moves watched s.fresh u) (k : Host.Outcome.next u = (.next t : Result)) : P t := by
    cases k; exact L.moves f m
  cases c with
  | requestFrame bytes => cases e; exact L.port.bytes bytes f
  | gapCountExpiry => cases e; exact L.port.gapCountExpiry f
  | replySent => cases e; exact L.replySent f
  | warmReset =>
    cases e
    show P (takeWarmReset s.fresh)
    unfold takeWarmReset
    split
    · exact L.warm f
    · exact f
  | coldReset => cases e; exact L.moves (L.cold s) (.frame rfl rfl rfl rfl rfl)
  | resetRelease straps => cases e; exact L.resetRelease f straps
  | carrierLost p => exact run (moves_takeCarrierLost p _) e
  | carrierRegained p => exact run (moves_takeCarrierRegained p _) e
  | markEdge => exact run (moves_ite (.refl _) (moves_markEdge _)) e
  | tick => exact run (moves_takeTick _) e
  | status o w =>
    refine run ?_ e
    split
    · next hears => exact moves_takeStatus _ _ _ (running_of_hears hears)
    · exact .refl _
  | echo o serial => exact run (moves_ite (moves_takeEcho ..) (.refl _)) e
  | fragFirst o x => exact run (moves_fromService _ _ _ fun b => moves_takeFirst _ b x) e
  | fragNext o x => exact run (moves_fromService _ _ _ fun b _ => moves_takeNext _ b x) e
  | fragClose o x => exact run (moves_fromService _ _ _ fun b _ => moves_takeClose _ b x) e
  | report o x => exact run (moves_fromService _ _ _ fun b _ => moves_takeReport _ b x) e
  | arrival o ch x => exact run (moves_fromService _ _ _ fun b _ => moves_arrive _ ⟨b, ch⟩ x) e
  | loss o ch x => exact run (moves_fromService _ _ _ fun b _ => moves_lose _ ⟨b, ch⟩ x) e
  | settleExpiry b => exact run (moves_takeSettleExpiry b _) e
  | heartbeatExpiry b => exact run (moves_takeHeartbeatExpiry b _) e
  | echoDeadlineExpiry b serial => exact run (moves_takeEchoExpiry b serial _ fun w => L.off w f) e
  | gapDeadlineExpiry b => exact run (moves_takeGapExpiry b _) e
  | lifetimeExpiry i => exact run (moves_takeLifetimeExpiry i _) e
  | originationExpiry i => exact run (moves_takeOriginationExpiry i _) e
  | setupDeadlineExpiry c => exact run (moves_takeSetupExpiry c _) e
  | switchDeadlineExpiry c => exact run (moves_takeSwitchExpiry c _) e
  | zoneDeadlineExpiry c => exact run (moves_takeZoneExpiry c _) e
  | guardExpiry c => exact run (moves_takeGuardExpiry c _) e
  | penaltyExpiry c x => exact run (moves_takePenaltyExpiry c x _) e
  | markDriveEnd => exact run (moves_takeMarkDriveEnd _) e
  | hrxByte x stop => cases e; exact L.port.hrxByte f x stop
  | _ => cases e; exact L.port.submit f _ _

/-- A lawful property is kept by every step. -/
theorem Lawful.step (L : Lawful watched P) (h : P s) (e : step s = .next t) : P t := by
  unfold Machine.step at e
  split at e
  · cases e; exact h
  · next c rest _ => exact L.exec c (L.moves h (t := { s with pending := rest }) (.frame rfl rfl rfl rfl rfl)) e

/-! ### The five laws -/

theorem State.linkOff_cold (s : State) : s.cold.linkOff :=
  (State.linkOff_iff _).mpr fun b => by simp [State.cold, State.reset, State.base, BaseRecord.off, BaseRecord.cold]

theorem BaseRecord.warm_off (c : BaseSettings) (r : BaseRecord) : (r.warm c).off := by
  refine ⟨?_, rfl, rfl, rfl, rfl, rfl⟩
  cases h : c.enabled <;> simp [BaseRecord.warm, h]

theorem State.linkOff_warmReset (s : State) : s.warmReset.linkOff :=
  (State.linkOff_iff _).mpr fun b => by
    simpa [State.warmReset, State.post, State.base] using BaseRecord.warm_off ..

/-- A property that one round of a fold gives to its element, and that every other round keeps, holds of every element
of the list after the fold. -/
theorem foldl_each {α : Type} {Q : α → State → Prop} {f : State → α → State} (gives : ∀ s a, Q a (f s a))
    (keeps : ∀ s a b, Q a s → Q a (f s b)) {l : List α} {a : α} (mem : a ∈ l) (s : State) : Q a (l.foldl f s) := by
  have kept (l : List α) (s : State) (h : Q a s) : Q a (l.foldl f s) := by
    induction l generalizing s with
    | nil => exact h
    | cons b l ih => exact ih _ (keeps s a b h)
  induction l generalizing s with
  | nil => simp at mem
  | cons b l ih =>
    rcases List.mem_cons.mp mem with rfl | m
    · exact kept l _ (gives s a)
    · exact ih m _

/-- While HALTED lasts, a base is idle once it has been dropped. -/
theorem State.dropBase_idle (s : State) (b : BaseIx) :
    (s.dropBase b).runState = .halted → ((s.dropBase b).base b).idle := by
  rcases s.dropBase_cases b with ⟨_, e⟩ | ⟨_, e⟩ | ⟨h, e⟩ <;> rw [e]
  · rw [State.baseLoss_setBaseState]
    refine (moves_foldl _ (moves_lossRule b) _ _).keeps (P := fun u => u.runState = .halted → (u.base b).idle)
      Change.keeps_idle fun _ => ?_
    rw [State.base_lost, if_pos rfl]
    exact .inr rfl
  · intro _
    simp [State.setBaseState, BaseRecord.idle]
  · exact fun _ => h.symm

theorem State.haltedIsOff_haltAll (s : State) : s.haltAll.haltedIsOff := by
  have dropped (b : BaseIx) := foldl_each (Q := fun b u => u.runState = .halted → (u.base b).idle) dropBase_idle
    (fun s b d h => (moves_dropBase (watched := True) s d).keeps Change.keeps_idle h) (mem_indices b)
    (s.enter .halted .halt)
  unfold haltAll
  dsimp only
  generalize (indices 32).foldl dropBase (s.enter .halted .halt) = d at dropped ⊢
  intro halted
  refine (State.linkOff_iff _).mpr fun b => ?_
  simpa [State.base] using BaseRecord.emptied_off (dropped b halted)

theorem lawful_callsOnlyInService : Lawful False State.callsOnlyInService where
  change := Change.keeps_callsOnlyInService
  off := False.elim
  halt h standby := (moves_haltAll (watched := False) _).keeps Change.keeps_callsOnlyInService
    fun _ => h (.inr standby)
  warm _ := fun _ c => by simp [State.warmReset, State.post, State.ctx, Context.warm, Context.cold]
  cold s := fun _ c => by simp [State.cold, State.reset, State.ctx, Context.cold]

theorem lawful_haltedIsOff : Lawful True State.haltedIsOff where
  change := Change.keeps_haltedIsOff
  off _ _ h := h
  halt _ _ := State.haltedIsOff_haltAll _
  warm _ := fun _ => State.linkOff_warmReset _
  cold s := fun _ => State.linkOff_cold s

theorem State.chan_warmReset (s : State) (p : ChanRef) : s.warmReset.chan p = .free := by
  simp [State.warmReset, State.post, State.chan]

theorem State.chan_cold (s : State) (p : ChanRef) : s.cold.chan p = .free := by
  simp [State.cold, State.reset, State.chan]

theorem lawful_channelsInService : Lawful True fun s => s.channelsInService ∧ s.haltedIsOff where
  change h c := ⟨c.keeps_channelsInService h.1, c.keeps_haltedIsOff h.2⟩
  off _ _ h := h.2
  halt h _ := ⟨(moves_haltAll (watched := True) _).keeps Change.keeps_channelsInService h.1,
    State.haltedIsOff_haltAll _⟩
  warm _ := ⟨fun p o e => by simp [State.chan_warmReset, Channel.heldBy] at e, fun _ => State.linkOff_warmReset _⟩
  cold s := ⟨fun p o e => by simp [State.chan_cold, Channel.heldBy] at e, fun _ => State.linkOff_cold s⟩

theorem State.ownersCurrent_of_free (h : ∀ p, s.chan p = .free) : s.ownersCurrent :=
  fun p o e => by simp [h p, Channel.ownedBy] at e

theorem State.twoBasesAtMost_of_free (h : ∀ p, s.chan p = .free) : s.twoBasesAtMost :=
  fun c p q r e => by simp [h p, Channel.ownedBy] at e

theorem lawful_ownersCurrent : Lawful False State.ownersCurrent where
  change := Change.keeps_ownersCurrent
  off := False.elim
  halt h _ := (moves_haltAll (watched := False) _).keeps Change.keeps_ownersCurrent h
  warm _ := State.ownersCurrent_of_free (State.chan_warmReset _)
  cold s := State.ownersCurrent_of_free (State.chan_cold s)

theorem lawful_twoBasesAtMost : Lawful False fun s => s.twoBasesAtMost ∧ s.ownersCurrent where
  change := Change.keeps_twoBasesAtMost
  off := False.elim
  halt h _ := (moves_haltAll (watched := False) _).keeps Change.keeps_twoBasesAtMost h
  warm _ := ⟨State.twoBasesAtMost_of_free (State.chan_warmReset _), State.ownersCurrent_of_free (State.chan_warmReset _)⟩
  cold s := ⟨State.twoBasesAtMost_of_free (State.chan_cold s), State.ownersCurrent_of_free (State.chan_cold s)⟩

/-- Settles O56: each law is kept by every elementary change, by HALT and by the resets, and every step is made of
these. -/
theorem runStateLawsKept : Obligations.RunStateLawsKept :=
  ⟨fun _ _ h e => lawful_callsOnlyInService.step h e, fun _ _ h e => lawful_haltedIsOff.step h e,
    fun _ _ h off e => (lawful_channelsInService.step ⟨h, off⟩ e).1, fun _ _ h e => lawful_ownersCurrent.step h e,
    fun _ _ h current e => (lawful_twoBasesAtMost.step ⟨h, current⟩ e).1⟩

end Sys2Proof.Machine
end

