-- ==== Sys2Proof/Proofs/QueueTickStructure.lean ====
section
/-! What no command touches: the queue, the tick but for TICK and cold reset (O2), and outside HALTED the structural
settings (O3). -/

namespace Sys2Proof.Machine

open State

variable {s t : State}

/-! ### The queue and the tick -/

/-- Every request, RESET too, leaves the queue and the tick alone. -/
theorem takeRequest_pending_tick (r : Request) (s : State) :
    (takeRequest r s).2.pending = s.pending ∧ (takeRequest r s).2.tick = s.tick := by
  by_cases e : r = .reset
  · subst e; exact ⟨rfl, rfl⟩
  · have k := takeRequest_keepsLink r e s
    exact ⟨k.pending, k.tick⟩

theorem portKeeps_pending_tick (p : List Instr) (n : Tick) : PortKeeps fun u => u.pending = p ∧ u.tick = n where
  link _ _ h := h
  execute b _ h := by
    obtain ⟨pending, tick⟩ := takeRequest_pending_tick b.request _
    exact ⟨pending.trans h.1, tick.trans h.2⟩

/-- An ordinary command leaves the queue and the tick alone. -/
theorem exec_pending_tick {c : Instr} (ordinary : special c = false) (e : exec c s = .next t) :
    t.pending = s.pending ∧ t.tick = s.tick := by
  rcases exec_ordinary c ordinary s t e with k | port
  · exact ⟨k.pending, k.tick⟩
  · exact port (portKeeps_pending_tick s.pending s.tick) ⟨rfl, rfl⟩

theorem takeReplySent_pending_tick (s : State) :
    (takeReplySent s).pending = s.pending ∧ (takeReplySent s).tick = s.tick := by
  rcases (portKeeps_pending_tick s.pending s.tick).replySent (s := s) ⟨rfl, rfl⟩ ⟨rfl, rfl⟩ with e | k
  · exact e ▸ ⟨rfl, rfl⟩
  · exact k

theorem takeWarmReset_pending_tick (s : State) :
    (takeWarmReset s).pending = s.pending ∧ (takeWarmReset s).tick = s.tick := by
  unfold takeWarmReset
  split <;> exact ⟨rfl, rfl⟩

theorem takeResetRelease_pending_tick (straps : Fin 8) (s : State) : (takeResetRelease straps s).pending = s.pending ∧
    (takeResetRelease straps s).tick = if s.resetHeld then 0 else s.tick := by
  unfold takeResetRelease
  cases s.resetHeld <;> exact ⟨rfl, rfl⟩

theorem takeTick_pending_tick (s : State) :
    (takeTick s).pending = s.pending ∧ (takeTick s).tick = if s.resetHeld then s.tick else s.tick + 1 := by
  unfold takeTick
  cases s.resetHeld
  · simp only [Bool.false_eq_true, if_false]
    split <;> exact ⟨rfl, rfl⟩
  · exact ⟨rfl, rfl⟩

/-- Settles O2: ordinary commands leave both alone, and each special one is named. -/
theorem commandsLeaveQueueAndTick : Obligations.CommandsLeaveQueueAndTick := by
  unfold Obligations.CommandsLeaveQueueAndTick
  refine ⟨fun c s t e => ?_, fun c s t e => ?_⟩
  · cases c with
    | tick => cases e; exact (takeTick_pending_tick _).1
    | coldReset => cases e; rfl
    | resetRelease straps => cases e; exact (takeResetRelease_pending_tick ..).1
    | replySent => cases e; exact (takeReplySent_pending_tick _).1
    | warmReset => cases e; exact (takeWarmReset_pending_tick _).1
    | _ => exact (exec_pending_tick rfl e).1
  · cases c with
    | tick => cases e; exact (takeTick_pending_tick _).2
    | coldReset => cases e; rfl
    | resetRelease straps => cases e; exact (takeResetRelease_pending_tick ..).2
    | replySent => cases e; exact (takeReplySent_pending_tick _).2
    | warmReset => cases e; exact (takeWarmReset_pending_tick _).2
    | _ => exact (exec_pending_tick rfl e).2

/-! ### The structural settings -/

/-- `u` has the structural settings of `st` (R11 item 1). -/
def Settings.sameStructure (st u : Settings) : Prop := u.zone = st.zone ∧ u.parity = st.parity ∧ u.bases = st.bases

theorem Settings.sameStructure_of_eq {st u : Settings} (h : u = st) : st.sameStructure u := h ▸ ⟨rfl, rfl, rfl⟩

/-- Outside HALTED no request changes the structural settings. -/
theorem takeRequest_sameStructure (r : Request) (h : s.runState ≠ .halted) :
    s.settings.sameStructure (takeRequest r s).2.settings := by
  have same {t : State} (k : s.Keeps t) : s.settings.sameStructure t.settings :=
    Settings.sameStructure_of_eq k.settings
  cases r with
  | setPart z p => simp [takeRequest, takeSetPart, h, Settings.sameStructure]
  | setBase b e c => simp [takeRequest, takeSetBase, h, Settings.sameStructure]
  | setNeighbours b es => simp [takeRequest, takeSetNeighbours, h, Settings.sameStructure]
  | setTimers ps =>
    show s.settings.sameStructure (takeSetTimers ps s).2.settings
    unfold takeSetTimers
    split <;> exact ⟨rfl, rfl, rfl⟩
  | setEvaluator ps =>
    show s.settings.sameStructure (takeSetEvaluator ps s).2.settings
    unfold takeSetEvaluator
    split <;> exact ⟨rfl, rfl, rfl⟩
  | go => exact same (takeGo_keeps s)
  | stop o => exact same (takeStop_keeps o s)
  | halt => exact same (takeHalt_keeps s)
  | readSettings g b => exact same (takeReadSettings_keeps g b s)
  | enrol t k c => exact same (takeEnrol_keeps t k c s)
  | remove k v => exact same (takeRemove_keeps k v s)
  | bar k v => exact same (takeBar_keeps k v s)
  | unbar k v => exact same (takeUnbar_keeps k v s)
  | queryHandset k v => exact same (takeQueryHandset_keeps k v s)
  | holdAdmission b => exact same (takeAdmission_keeps true b s)
  | openAdmission b => exact same (takeAdmission_keeps false b s)
  | restoreBase b => exact same (takeRestoreBase_keeps b s)
  | queryBase b o => exact same (takeQueryBase_keeps b o s)
  | openCall t d => exact same (takeOpenCall_keeps t d s)
  | closeCall c => exact same (takeCloseCall_keeps c s)
  | queryCall c => exact same (takeQueryCall_keeps c s)
  | admitCall t b z => exact same (takeAdmitCall_keeps t b z s)
  | zoneGo c k => exact same (takeZoneGo_keeps c k s)
  | zoneFail c => exact same (takeZoneFail_keeps c s)
  | zoneComplete c => exact same (takeZoneComplete_keeps c s)
  | fetchNotice => exact same (takeFetchNotice_keeps s)
  | clearConditions k c => exact same (takeClearConditions_keeps k c s)
  | capture k c n m x => exact same (takeCapture_keeps k c n m x s)
  | cancelCapture k => exact same (takeCancelCapture_keeps k s)
  | readCapture k f => exact same (takeReadCapture_keeps k f s)
  | mark => exact same (driveMark_keeps s)
  | reset | identify | maskNotices | queryConditions | unknown | badLength => exact ⟨rfl, rfl, rfl⟩

/-- The structure stands and no request can change it any more: the run state is not HALTED, or a request is being
executed, so that no other one is before its reply has gone out. -/
def State.structureHeld (st : Settings) (u : State) : Prop :=
  st.sameStructure u.settings ∧ (u.link.executing = none → u.runState ≠ .halted)

theorem portKeeps_structureHeld (st : Settings) : PortKeeps (State.structureHeld st) where
  link l same h := ⟨h.1, fun none => h.2 (same ▸ none)⟩
  execute b none h := by
    obtain ⟨⟨zone, parity, bases⟩, running⟩ := h
    obtain ⟨zone', parity', bases'⟩ := takeRequest_sameStructure b.request (running none)
    exact ⟨⟨zone'.trans zone, parity'.trans parity, bases'.trans bases⟩, fun idle => by simp [State.execute] at idle⟩

/-- Settles O3: a port command executes one request at most, from outside HALTED, and no other command but cold reset
touches the settings. -/
theorem structureFixedOutsideHalted : Obligations.StructureFixedOutsideHalted := by
  unfold Obligations.StructureFixedOutsideHalted
  intro c s t e running free cold
  have held : s.fresh.structureHeld s.settings := ⟨⟨rfl, rfl, rfl⟩, fun _ => running⟩
  have kept : s.settings.sameStructure t.settings := by
    cases c with
    | tick =>
      cases e
      unfold takeTick
      repeat' split
      all_goals exact ⟨rfl, rfl, rfl⟩
    | coldReset => exact absurd rfl cold
    | resetRelease straps =>
      cases e
      simp [takeResetRelease, free, Settings.sameStructure]
    | replySent =>
      cases e
      rcases (portKeeps_structureHeld s.settings).replySent held ⟨held.1, fun _ => running⟩ with w | k
      · exact w ▸ ⟨rfl, rfl, rfl⟩
      · exact k.1
    | warmReset =>
      cases e
      unfold takeWarmReset
      split <;> exact ⟨rfl, rfl, rfl⟩
    | _ =>
      rcases exec_ordinary _ rfl s t e with k | port
      · exact Settings.sameStructure_of_eq k.settings
      · exact (port (portKeeps_structureHeld _) held).1
  exact kept

end Sys2Proof.Machine
end

