-- ==== Sys2Proof/Proofs/Resets.lean ====
section
/-! The state right after reset, cold and warm reset, and the tick (O4, O5, O6, O60). -/

namespace Sys2Proof.Machine

open State

variable {s t : State}

/-! ### Right after reset -/

@[simp] theorem State.reset_base (b : BaseIx) : State.reset.base b = BaseRecord.cold := Table.get_fill ..
@[simp] theorem State.reset_cfg (b : BaseIx) : State.reset.cfg b = BaseSettings.cold := Table.get_fill ..
@[simp] theorem State.reset_ctx (c : CallIx) : State.reset.ctx c = Context.cold := Table.get_fill ..
@[simp] theorem State.reset_handset (i : SlotIx) : State.reset.handset i = none := Table.get_fill ..
@[simp] theorem State.reset_train (b : BaseIx) : State.reset.trains.get b = none := Table.get_fill ..
@[simp] theorem State.reset_slot (k : CapIx) : State.reset.slots.get k = .empty := Table.get_fill ..
@[simp] theorem State.reset_chan (p : ChanRef) : State.reset.chan p = .free := by
  simp [State.chan, State.reset]

theorem State.reset_class (k : Fin 8) :
    State.reset.classes.get k = if k = 7 then NoticeClass.coldState else NoticeClass.cold := by
  simp only [State.reset, Table.get_set, Table.get_fill, eq_comm]

theorem State.reset_attn : State.reset.attn = true := by
  have ready : (!(State.reset.classes.get 7).masked && !(State.reset.classes.get 7).fifo.isEmpty) = true := by
    simp [State.reset_class, NoticeClass.coldState]
  simp only [State.attn, Bool.and_eq_true]
  exact ⟨rfl, (Table.any_iff ..).mpr ⟨7, ready⟩⟩

/-- Settles O60: every table is empty, so that most laws say nothing, and the defaults lie within their ranges. -/
theorem lawsHoldAtReset : Obligations.LawsHoldAtReset := by
  have free : ∀ p, State.reset.chan p = .free := State.reset_chan
  refine ⟨?windows, ?calls, ?tags, ?failures, ?engaged, ?rings, ?candidates, ?averages, ?scores, ?classes, ?link,
    ?counters, ?settings, ?halted, ?channels, ?strays, State.ownersCurrent_of_free free, State.twoBasesAtMost_of_free free,
    fun h => absurd rfl h, ?unused, ?serving⟩
  case windows => intro b; simp [BaseRecord.cold]
  case calls => intro _ c; simp [Context.cold]
  case tags => intro i j h k e; simp at e
  case failures => intro i h e; simp at e
  case engaged => exact ⟨fun i h b c d e => by simp at e, fun c k e => by simp [Context.cold] at e⟩
  case rings => intro c; simp [Context.cold]
  case candidates => intro c; simp [Context.cold]
  case averages => intro c; simp [Context.cold]
  case scores => intro c; simp [Context.cold]
  case classes =>
    refine ⟨fun k => ?_, ?_⟩
    · rw [State.reset_class]
      split <;> simp [NoticeClass.coldState, NoticeClass.cold]
    · simp [State.reset_class, NoticeClass.cold]
  case link => simp [State.linkBounded, State.reset, Link.cold]
  case counters => simp [State.countersBounded, BaseRecord.cold, Context.cold]
  case settings =>
    refine ⟨fun b => by simp [BaseSettings.cold, Machine.within], ?_, ?_⟩ <;>
      simp [State.reset, Settings.cold, TimerSettings.cold, EvaluatorSettings.cold, Machine.within]
  case halted =>
    intro _
    exact (State.linkOff_iff _).mpr fun b => by simp [BaseRecord.off, BaseRecord.cold]
  case channels => intro p o e; simp [Channel.heldBy] at e
  case strays => intro c; simp [Context.cold, Phase.strays]
  case unused => intro b; simp [BaseRecord.cold, BaseSettings.cold]
  case serving => intro c i e; simp [Context.cold] at e

/-! ### Cold reset -/

theorem State.not_driven_of_halted (h : s.runState = .halted) (p : PortIx) : s.driven p = false := by
  simp [State.driven, h]

/-- The release of the pin leaves the state right after reset, but for what the outside holds and the free values. -/
theorem takeResetRelease_held (straps : Fin 8) (h : s.resetHeld = true) : takeResetRelease straps s = { State.reset with
    pending := s.pending, carriers := s.carriers, straps := straps, freeCount := s.freeCount } := by
  have classes : (({ s.cold with straps := straps } : State).post (.ready false)).classes = State.reset.classes := by
    simp [State.post, State.cold, State.reset, NoticeBody.cls, NoticeClass.file, NoticeClass.cold, NoticeClass.coldState]
  unfold takeResetRelease
  rw [if_pos h]
  exact State.mk.injEq .. ▸ ⟨rfl, rfl, rfl, rfl, rfl, rfl, rfl, rfl, rfl, rfl, rfl, rfl, rfl, rfl, classes, rfl, rfl, rfl,
    rfl, rfl⟩

/-- Settles O4, table by table, and then the pin: held, and released. -/
theorem coldResetLeavesResetState : Obligations.ColdResetLeavesResetState := by
  refine ⟨⟨rfl, rfl, ⟨rfl, rfl, by decide, by decide⟩, fun b => ⟨State.reset_cfg b, State.reset_base b,
    State.reset_train b⟩, State.reset_handset, State.reset_chan, State.reset_ctx, State.reset_slot, State.reset_class,
    State.reset_attn, rfl, ⟨rfl, rfl, rfl, rfl, rfl, rfl⟩, rfl, rfl⟩, ?pin, ?deaf, ?release⟩
  case pin =>
    intro s
    exact ⟨_, rfl, rfl, rfl, rfl, State.not_driven_of_halted rfl, rfl, rfl⟩
  case deaf =>
    intro s x stop held
    have deaf : takeHrxByte x stop s.fresh = s.fresh := if_pos held
    exact congrArg _ deaf
  case release =>
    intro s straps held
    exact congrArg _ (takeResetRelease_held (s := s.fresh) straps held)

/-! ### Warm reset -/

theorem State.warmReset_class (s : State) (k : Fin 8) : s.warmReset.classes.get k =
    { fifo := if k = 7 then [{ tick := s.tick, body := .ready true }] else [], lost := false, masked := false } := by
  simp only [State.warmReset, State.post, NoticeBody.cls, Table.get_set, Table.get_fill, eq_comm (a := (7 : Fin 8))]
  split <;> simp [NoticeClass.file, NoticeClass.cold]

/-- Settles O5: both commands take the warm reset, whose tables are read entry by entry. -/
theorem warmResetKeepsSettingsAndHandsets : Obligations.WarmResetKeepsSettingsAndHandsets := by
  intro s resetting sending
  have sent : takeReplySent s.fresh = s.fresh.warmReset := by
    simp [takeReplySent, resetting, sending]
  have warm : takeWarmReset s.fresh = s.fresh.warmReset := if_pos ⟨resetting, sending⟩
  refine ⟨s.fresh.warmReset, congrArg _ sent, congrArg _ warm, rfl, rfl, rfl, rfl, fun b => ?bases, fun b => ?trains,
    fun i => ?handsets, State.chan_warmReset _, fun c => ?contexts, rfl, rfl, State.warmReset_class _, fun k => ?slots, rfl,
    rfl⟩
  case bases => exact Table.get_zip ..
  case trains => exact Table.get_fill ..
  case handsets => exact Table.get_map ..
  case contexts =>
    have c' : s.fresh.warmReset.ctx c = (s.ctx c).warm := Table.get_map ..
    simp [c', Context.warm, Context.cold]
  case slots => exact Table.get_fill ..

/-! ### The tick -/

theorem takeTick_halted (free : s.resetHeld = false) (halted : s.runState = .halted) : takeTick s = s.countAlways := by
  simp [takeTick, free, halted]

theorem takeTick_running (free : s.resetHeld = false) (running : s.runState ≠ .halted) :
    takeTick s = s.countAlways.countDeadlines := by
  simp [takeTick, free, running]

/-- Settles O6: in HALTED the tick counts what always counts, and outside it every table entry by entry. -/
theorem tickCountsEveryDeadline : Obligations.TickCountsEveryDeadline := by
  intro s free
  refine ⟨fun halted => congrArg Host.Outcome.next (takeTick_halted (s := s.fresh) free halted), fun running => ?running⟩
  case running =>
    refine ⟨s.fresh.countAlways.countDeadlines,
      congrArg Host.Outcome.next (takeTick_running (s := s.fresh) free running), fun b => Table.get_map .., fun b => Table.get_map .., fun i => ?_, fun c => ?_, rfl⟩
    · refine (Table.get_map ..).trans ?_
      show (s.handset i).map Handset.ticked = _
      cases s.handset i with
      | none => rfl
      | some h =>
        simp only [Option.map_some, Handset.ticked]
        cases h.status <;> rfl
    · refine (Table.get_map ..).trans ?_
      show (s.ctx c).ticked = _
      have call : ((s.ctx c).call.map fun i => { i with stage := i.stage.ticked }) = (s.ctx c).call.map fun i =>
          match i.stage with
          | .setup d => { i with stage := .setup (d.map (· - 1)) }
          | _ => i := by
        congr 1
        funext i
        obtain ⟨stage, _⟩ := i
        cases stage <;> rfl
      have phase : (s.ctx c).phase.ticked = match (s.ctx c).phase with
          | .switching p r o n d => .switching p r o n (d - 1)
          | .handingOut z b r d => .handingOut z b r (d - 1)
          | .switchingOut z b ch r o n d => .switchingOut z b ch r o n (d - 1)
          | x => x := by
        cases (s.ctx c).phase <;> rfl
      simp only [Context.ticked, call, phase, countDown] <;> rfl

end Sys2Proof.Machine
end

