-- ==== Sys2Proof/Proofs/RunRequests.lean ====
section
/-! The requests on the run state: GO with the configuration check (O7), and STOP without a clearing (O8). -/

namespace Sys2Proof.Machine

open State

variable {s t : State}

/-! ### A request on an idle host link -/

/-- On an idle host link a request other than RESET is answered at once with what its owner makes of it. -/
theorem answer_of_portFree (h : s.portFree) (tag : Byte) {r : Request} {q : Taken} (taken : takeRequest r s.fresh = q)
    (owner : r ≠ .reset := by nofun) :
    (Host.Outcome.next (s.fresh.submit tag r) : Result) = .next (q.2.answered r.code tag q.1) := by
  subst taken
  exact congrArg _ (State.submit_of_portFree (State.portFree_fresh.mpr h) tag r (takeRequest_keepsLink r owner _).link)

@[simp] theorem asFlag_yesNo (on : Bool) : asFlag (yesNo on) = some on := by
  cases on <;> rfl

theorem asFlag_eq_none {x : Byte} (h : 1 < x.toNat) : asFlag x = none := by
  have zero : x ≠ 0 := by rintro rfl; simp at h
  have one : x ≠ 1 := by rintro rfl; simp at h
  rw [asFlag, if_neg zero, if_neg one]

/-! ### The configuration check (R3) -/

/-- A neighbour entry of base `b` names another enabled base, or a base of another zone. -/
def Settings.reaches (st : Settings) (b : BaseIx) (n : Neighbour) : Prop :=
  match n.target with
  | .localBase t => t ≠ b ∧ (st.bases.get t).enabled = true
  | .foreignBase z _ => z ≠ st.zone

theorem checkEntry_eq_none_iff (st : Settings) (b : BaseIx) (earlier : List Neighbour) (n : Neighbour) :
    checkEntry st b earlier n = none ↔ st.reaches b n ∧ ∀ m ∈ earlier, m.target ≠ n.target := by
  obtain ⟨target, offset⟩ := n
  have duplicate : (if earlier.any (fun m => m.target == target) then some CheckItem.duplicateTarget else none) = none ↔
      ∀ m ∈ earlier, m.target ≠ target := by
    simp only [ite_eq_right_iff, reduceCtorEq, imp_false, Bool.not_eq_true, List.any_eq_false, beq_iff_eq, ne_eq]
  cases target with
  | localBase t =>
    simp only [checkEntry, Settings.reaches]
    by_cases same : t = b
    · simp [same]
    · by_cases on : (st.bases.get t).enabled = true
      · rw [if_neg same, if_pos on, duplicate]
        exact (and_iff_right ⟨same, on⟩).symm
      · simp [same, on]
  | foreignBase z t =>
    simp only [checkEntry, Settings.reaches]
    by_cases own : z = st.zone
    · simp [own]
    · rw [if_neg own, duplicate]
      exact (and_iff_right own).symm

theorem checkList_eq_none_iff (st : Settings) (b : BaseIx) (earlier l : List Neighbour) :
    checkList st b earlier l = none ↔ (∀ n ∈ l, st.reaches b n) ∧ (l.map Neighbour.target).Nodup ∧
      ∀ m ∈ earlier, ∀ n ∈ l, m.target ≠ n.target := by
  induction l generalizing earlier with
  | nil => simp [checkList]
  | cons n l ih =>
    have head := checkEntry_eq_none_iff st b earlier n
    unfold checkList
    cases e : checkEntry st b earlier n with
    | some item =>
      simp only [e, reduceCtorEq, false_iff, not_and] at head ⊢
      intro reaches _ apart
      exact head (reaches n List.mem_cons_self) fun m hm => apart m hm n List.mem_cons_self
    | none =>
      obtain ⟨reached, apart⟩ := head.mp e
      simp only [ih, List.forall_mem_cons, List.map_cons, List.nodup_cons, List.mem_append, List.mem_singleton,
        List.mem_map, not_exists, not_and]
      constructor
      · rintro ⟨reaches, nodup, sep⟩
        exact ⟨⟨reached, reaches⟩, ⟨fun m hm same => sep n (.inr rfl) m hm same.symm, nodup⟩,
          fun m hm => ⟨apart m hm, fun k hk => sep m (.inl hm) k hk⟩⟩
      · rintro ⟨⟨_, reaches⟩, ⟨fresh, nodup⟩, sep⟩
        refine ⟨reaches, nodup, fun m hm k hk => ?_⟩
        rcases hm with hm | rfl
        · exact (sep m hm).2 k hk
        · exact fun same => fresh k hk same.symm

/-- The check of one base's list: nothing of a base that is not enabled. -/
def checkBase (st : Settings) (b : BaseIx) : Option (CheckItem × Option BaseIx × Option Nat) :=
  if (st.bases.get b).enabled then
    (checkList st b [] (st.bases.get b).neighbours).map fun r => (r.1, some b, some r.2)
  else none

theorem checkBase_base {st : Settings} {b : BaseIx} {r : CheckItem × Option BaseIx × Option Nat}
    (h : checkBase st b = some r) : r.2.1 = some b := by
  unfold checkBase at h
  split at h
  · obtain ⟨q, _, rfl⟩ := Option.map_eq_some_iff.mp h
    rfl
  · cases h

theorem configCheck_of_enabled {st : Settings} (h : ∃ b, (st.bases.get b).enabled = true) :
    configCheck st = (indices 32).findSome? (checkBase st) :=
  if_pos (by simpa using h)

theorem configCheck_of_disabled {st : Settings} (h : ∀ b, (st.bases.get b).enabled = false) :
    configCheck st = some (.noBase, none, none) :=
  if_neg (by simpa using h)

/-- The check passes exactly when each of its items holds (R3). -/
theorem configCheck_eq_none_iff (st : Settings) : configCheck st = none ↔
    (∃ b, (st.bases.get b).enabled = true) ∧ ∀ b, (st.bases.get b).enabled = true →
      (∀ n ∈ (st.bases.get b).neighbours, st.reaches b n) ∧ ((st.bases.get b).neighbours.map Neighbour.target).Nodup := by
  by_cases on : ∃ b, (st.bases.get b).enabled = true
  · rw [configCheck_of_enabled on]
    simp only [List.findSome?_eq_none_iff, mem_indices, true_implies, on, true_and]
    refine forall_congr' fun b => ?_
    unfold checkBase
    split
    · next e => simp [e, checkList_eq_none_iff]
    · next e => simp [e]
  · simp [on, configCheck_of_disabled (by simpa using on)]

/-- NO_BASE is the answer exactly with no base enabled; it comes without base and position. -/
theorem configCheck_eq_noBase_iff (st : Settings) :
    configCheck st = some (.noBase, none, none) ↔ ∀ b, (st.bases.get b).enabled = false := by
  by_cases on : ∃ b, (st.bases.get b).enabled = true
  · rw [configCheck_of_enabled on]
    refine ⟨fun e => ?_, fun off => ?_⟩
    · obtain ⟨b, _, found⟩ := List.exists_of_findSome?_eq_some e
      cases checkBase_base found
    · obtain ⟨b, e⟩ := on
      simp [off b] at e
  · have off : ∀ b, (st.bases.get b).enabled = false := by simpa using on
    exact iff_of_true (configCheck_of_disabled off) off

/-! ### GO (R2) -/

theorem takeGo_checked (halted : s.runState = .halted) (check : configCheck s.settings = none) :
    takeGo s = (okay [1], s.enter .standby .go) := by
  simp only [takeGo, halted, check]
  rfl

theorem takeGo_failed {item : CheckItem} {base : Option BaseIx} {position : Option Nat} (halted : s.runState = .halted)
    (check : configCheck s.settings = some (item, base, position)) :
    takeGo s = ({ status := .checkFailed, results := [BitVec.ofNat 8 item.code,
      (base.map fun b : BaseIx => BitVec.ofNat 8 b.val).getD 0xFF, (position.map (BitVec.ofNat 8)).getD 0xFF] }, s) := by
  simp only [takeGo, halted, check]
  cases base <;> cases position <;> rfl

theorem takeGo_towardsServing (h : s.runState = .standby ∨ s.runState = .draining) :
    takeGo s = (okay [2], s.enter .serving .go) := by
  rcases h with h | h <;> simp only [takeGo, h] <;> rfl

theorem takeGo_serving (h : s.runState = .serving) : takeGo s = (okay [2], s) := by
  simp only [takeGo, h, okRunState]
  rfl

/-- Settles O7: GO by run state, and the check as the conjunction of its items. -/
theorem goChecksAndStepsTowardsServing : Obligations.GoChecksAndStepsTowardsServing := by
  refine ⟨fun tag s idle => ⟨fun halted check => ?_, fun item base position halted check => ?_, fun h => ?_, fun h => ?_⟩,
    configCheck_eq_none_iff, configCheck_eq_noBase_iff⟩
  · exact answer_of_portFree idle tag (r := .go) (takeGo_checked (s := s.fresh) halted check)
  · exact answer_of_portFree idle tag (r := .go) (takeGo_failed (s := s.fresh) halted check)
  · exact answer_of_portFree idle tag (r := .go) (takeGo_towardsServing (s := s.fresh) h)
  · exact answer_of_portFree idle tag (r := .go) (takeGo_serving (s := s.fresh) h)

/-! ### STOP without a clearing (R4) -/

theorem takeStop_free {x : Byte} {force : Bool} (flag : asFlag x = some force) (serving : s.runState = .serving)
    (free : s.allFree = true) :
    takeStop x s = (okay [1], s.enter .standby (if force then .stopForce else .stop)) := by
  simp only [takeStop, flag, serving, free, if_true]
  rfl

theorem takeStop_drain (serving : s.runState = .serving) (used : s.allFree = false) :
    takeStop 0 s = (okay [3], s.enter .draining .stop) := by
  simp only [takeStop, show asFlag 0 = some false from rfl, serving, used, Bool.false_eq_true, if_false, okRunState,
    State.enter_runState]
  rfl

theorem takeStop_draining (draining : s.runState = .draining) : takeStop 0 s = (okay [3], s) := by
  simp only [takeStop, show asFlag 0 = some false from rfl, draining, Bool.false_eq_true, if_false, okRunState]
  rfl

theorem takeStop_standby {x : Byte} {force : Bool} (flag : asFlag x = some force) (standby : s.runState = .standby) :
    takeStop x s = (okay [1], s) := by
  simp only [takeStop, flag, standby, okRunState]
  rfl

theorem takeStop_halted {x : Byte} {force : Bool} (flag : asFlag x = some force) (halted : s.runState = .halted) :
    takeStop x s = (okay [0], s) := by
  simp only [takeStop, flag, halted, okRunState]
  rfl

theorem takeStop_outOfRange {x : Byte} (large : 1 < x.toNat) : takeStop x s = (refuse .badArg, s) := by
  simp only [takeStop, asFlag_eq_none large]

/-- Settles O8: the four run states with no context to clear, and an option out of range. -/
theorem stopEndsServing : Obligations.StopEndsServing := by
  intro tag s idle
  have answer {x : Byte} {q : Taken} (taken : takeStop x s.fresh = q) :
      exec (.stop tag x) s = .next (q.2.answered 0x02 tag q.1) :=
    answer_of_portFree idle tag (r := .stop x) taken
  refine ⟨fun serving free => ?_, fun c serving used => ?_, fun draining => answer (takeStop_draining draining),
    fun force standby => answer (takeStop_standby (asFlag_yesNo force) standby),
    fun force halted => answer (takeStop_halted (asFlag_yesNo force) halted),
    fun x large => answer (takeStop_outOfRange large)⟩
  · have free := (State.allFree_iff s.fresh).mpr free
    exact ⟨answer (takeStop_free (force := false) rfl serving free), answer (takeStop_free (force := true) rfl serving free)⟩
  · have used : s.fresh.allFree = false := Bool.eq_false_iff.mpr fun free => used ((State.allFree_iff _).mp free c)
    exact answer (takeStop_drain serving used)

end Sys2Proof.Machine
end

