-- ==== Sys2Proof/Proofs/Clearing.lean ====
section
/-! What a clearing leaves alone and what it makes of its own context, and with it STOP FORCE (O9). -/

namespace Sys2Proof.Machine

open State

variable {s t u : State}

/-! ### Operations that leave run state, contexts and trains alone -/

/-- `t` has the run state, contexts and trains of `s`. -/
structure State.Still (s t : State) : Prop where
  runState : t.runState = s.runState
  contexts : t.contexts = s.contexts
  trains : t.trains = s.trains

theorem State.Still.refl (s : State) : s.Still s := ⟨rfl, rfl, rfl⟩

theorem State.Still.trans (h : s.Still t) (k : t.Still u) : s.Still u :=
  ⟨k.runState.trans h.runState, k.contexts.trans h.contexts, k.trains.trans h.trains⟩

theorem State.Still.ctx (h : s.Still t) (c : CallIx) : t.ctx c = s.ctx c := by
  simp only [State.ctx, h.contexts]

theorem still_foldl {α : Type} (f : State → α → State) (h : ∀ s a, State.Still s (f s a)) (l : List α) (s : State) :
    s.Still (l.foldl f s) := by
  induction l generalizing s with
  | nil => exact .refl s
  | cons a l ih => exact (h s a).trans (ih _)

theorem still_ite {p : Prop} [Decidable p] (h : s.Still t) (k : s.Still u) : s.Still (if p then t else u) := by
  split
  · exact h
  · exact k

theorem release_still (s : State) (p : ChanRef) (o : Option Owner) : s.Still (s.release p o) := by
  rcases s.release_cases p o with ⟨_, e⟩ | ⟨_, _, e⟩ | ⟨_, _, e⟩ <;> rw [e] <;> exact ⟨rfl, rfl, rfl⟩

theorem endCaptures_still (s : State) (c : CallIx) : s.Still (s.endCaptures c) :=
  still_foldl _ (fun s k => by
    unfold endCapture
    split
    · exact still_ite ⟨rfl, rfl, rfl⟩ (.refl s)
    · exact still_ite ⟨rfl, rfl, rfl⟩ (.refl s)
    · exact .refl s) _ s

theorem returnRecord_still (s : State) (i : CallInfo) (w : ClearCause) : s.Still (s.returnRecord i w) := by
  unfold returnRecord
  split
  · exact .refl s
  · split
    · split
      · exact ⟨rfl, rfl, rfl⟩
      · exact still_ite ⟨rfl, rfl, rfl⟩ (still_ite ⟨rfl, rfl, rfl⟩ ⟨rfl, rfl, rfl⟩)
    · exact .refl s

/-! ### A clearing -/

/-- A context told that it owns no channel any more: nothing happens, or it becomes FREE and a drain may end. -/
theorem State.freeIfDone_still (s : State) (c : CallIx) :
    s.freeIfDone c = s ∨ ∃ u, (s.setCtx c (s.ctx c).freed).Still u ∧ s.freeIfDone c = u.endDrain := by
  rcases s.freeIfDone_cases c with e | ⟨i, w, _, _, _, e⟩
  · exact .inl e
  · exact .inr ⟨((s.setCtx c (s.ctx c).freed).returnRecord i w).post (i.endNotice c w),
      (returnRecord_still _ i w).trans ⟨rfl, rfl, rfl⟩, e⟩

/-- A clearing asked for (R83): nothing of a FREE or CLEARING context; another one is CLEARING with the cause, its
captures ended and its channels released, and then perhaps FREE. -/
theorem State.clearCall_still (s : State) (c : CallIx) (w : ClearCause) :
    (((s.ctx c).call = none ∨ ∃ i k, (s.ctx c).call = some i ∧ i.stage = .clearing k) ∧ s.clearCall c w = s) ∨
    ∃ i u, (s.ctx c).call = some i ∧ (∀ k, i.stage ≠ .clearing k) ∧
      (s.setCtx c ((s.ctx c).clearing i w)).Still u ∧ s.clearCall c w = u.freeIfDone c := by
  rcases s.clearCall_cases c w with h | ⟨i, call, stage, e⟩
  · exact .inl h
  · exact .inr ⟨i, _, call, stage, (still_ite (p := i.stage = .active) (endCaptures_still ..) (.refl _)).trans
      (still_foldl _ (fun u p => release_still u p _) _ _), e⟩

theorem State.endDrain_contexts (s : State) : s.endDrain.contexts = s.contexts := by
  rcases s.endDrain_cases with ⟨_, _, e⟩ | ⟨_, e⟩ <;> rw [e]
  rfl

theorem State.endDrain_trains (s : State) : s.endDrain.trains = s.trains := by
  rcases s.endDrain_cases with ⟨_, _, e⟩ | ⟨_, e⟩ <;> rw [e]
  rfl

theorem State.clearCall_trains (s : State) (c : CallIx) (w : ClearCause) : (s.clearCall c w).trains = s.trains := by
  rcases s.clearCall_still c w with ⟨_, e⟩ | ⟨i, u, _, _, still, e⟩
  · rw [e]
  · rcases u.freeIfDone_still c with f | ⟨v, freed, f⟩
    · rw [e, f, still.trains]; rfl
    · rw [e, f, State.endDrain_trains, freed.trains]; exact still.trains

/-- Clearing one context leaves every other one as it was. -/
theorem State.ctx_clearCall_ne (s : State) {c d : CallIx} (w : ClearCause) (n : c ≠ d) :
    (s.clearCall c w).ctx d = s.ctx d := by
  rcases s.clearCall_still c w with ⟨_, e⟩ | ⟨i, u, _, _, still, e⟩
  · rw [e]
  · have begun : u.ctx d = s.ctx d := by rw [still.ctx, State.ctx_setCtx_ne _ _ n]
    rcases u.freeIfDone_still c with f | ⟨v, freed, f⟩
    · rw [e, f, begun]
    · rw [e, f, ← begun, ← State.ctx_setCtx_ne u _ n, ← freed.ctx]
      simp only [State.ctx, State.endDrain_contexts]

/-- A context in SETUP or ACTIVE that is cleared is FREE or CLEARING with the cause. -/
theorem State.call_clearCall (s : State) {c : CallIx} {i : CallInfo} (w : ClearCause) (call : (s.ctx c).call = some i)
    (stage : ∀ k, i.stage ≠ .clearing k) :
    ((s.clearCall c w).ctx c).call = none ∨ ((s.clearCall c w).ctx c).call = some { i with stage := .clearing w } := by
  rcases s.clearCall_still c w with ⟨h, _⟩ | ⟨j, u, callj, _, still, e⟩
  · rcases h with h | ⟨j, k, h, clearing⟩
    · simp [call] at h
    · cases call.symm.trans h
      exact absurd clearing (stage k)
  · cases call.symm.trans callj
    rcases u.freeIfDone_still c with f | ⟨v, freed, f⟩
    · right
      rw [e, f, still.ctx, State.ctx_setCtx_self]
      rfl
    · left
      have : v.ctx c = (u.ctx c).freed := by rw [freed.ctx, State.ctx_setCtx_self]
      rw [e, f]
      simp only [State.ctx, State.endDrain_contexts]
      exact (congrArg Context.call this).trans rfl

/-! ### STOP FORCE (R4, R5) -/

/-- A context is FREE or CLEARING. -/
def State.settled (s : State) (c : CallIx) : Prop :=
  ∀ i, (s.ctx c).call = some i → ∃ k, i.stage = .clearing k

/-- What clearing with cause FORCED may have made of a call, in SETUP and ACTIVE alone. -/
def Forced (x y : Option CallInfo) : Prop :=
  y = x ∨ ∃ i, x = some i ∧ (∀ k, i.stage ≠ .clearing k) ∧ (y = none ∨ y = some { i with stage := .clearing .forced })

theorem State.clearCall_settles (s : State) (c : CallIx) (w : ClearCause) : (s.clearCall c w).settled c := by
  intro j e
  cases call : (s.ctx c).call with
  | none =>
    rcases s.clearCall_still c w with ⟨_, same⟩ | ⟨_, _, used, _⟩
    · simp [same, call] at e
    · simp [call] at used
  | some i =>
    by_cases stage : ∃ k, i.stage = .clearing k
    · rcases s.clearCall_still c w with ⟨_, same⟩ | ⟨i', _, used, other, _⟩
      · rw [same, call] at e
        exact Option.some.inj e ▸ stage
      · cases call.symm.trans used
        exact absurd stage (not_exists.mpr other)
    · rcases s.call_clearCall w call (not_exists.mp stage) with h | h <;> rw [h] at e
      · simp at e
      · exact ⟨w, (Option.some.inj e) ▸ rfl⟩

theorem State.clearCall_keeps_settled (s : State) (c d : CallIx) (w : ClearCause) (h : s.settled c) :
    (s.clearCall d w).settled c := by
  by_cases n : d = c
  · exact n ▸ s.clearCall_settles d w
  · unfold State.settled
    rwa [State.ctx_clearCall_ne s w n]

theorem State.clearCall_forced {x : Option CallInfo} (s : State) (c d : CallIx) (h : Forced x (s.ctx d).call) :
    Forced x ((s.clearCall c .forced).ctx d).call := by
  by_cases n : c = d
  · subst n
    rcases s.clearCall_still c .forced with ⟨_, e⟩ | ⟨i, _, call, stage, _⟩
    · rwa [e]
    · rcases h with h | ⟨j, _, _, h | h⟩
      · exact .inr ⟨i, h ▸ call, stage, s.call_clearCall .forced call stage⟩
      · simp [call] at h
      · cases call.symm.trans h
        exact absurd rfl (stage .forced)
  · rwa [State.ctx_clearCall_ne s _ n]

/-- The run state of a drain: DRAINING while a context is in use, then STANDBY. -/
def State.drains (s : State) : Prop :=
  (s.runState = .draining ∧ s.allFree = false) ∨ (s.runState = .standby ∧ s.allFree = true)

theorem State.drains_endDrain (h : s.runState = .draining) : s.endDrain.drains := by
  rcases s.endDrain_cases with ⟨_, free, e⟩ | ⟨used, e⟩ <;> rw [e]
  · exact .inr ⟨rfl, free⟩
  · exact .inl ⟨h, Bool.eq_false_iff.mpr fun free => used ⟨h, free⟩⟩

theorem State.allFree_eq_false {c : CallIx} (h : (s.ctx c).call ≠ none) : s.allFree = false :=
  Bool.eq_false_iff.mpr fun free => h ((State.allFree_iff s).mp free c)

theorem State.clearCall_keeps_drains (s : State) (c : CallIx) (w : ClearCause) (h : s.drains) :
    (s.clearCall c w).drains := by
  rcases s.clearCall_still c w with ⟨_, e⟩ | ⟨i, u, call, _, still, e⟩ <;> rw [e]
  · exact h
  · have draining : s.runState = .draining := by
      rcases h with ⟨run, _⟩ | ⟨_, free⟩
      · exact run
      · have used : s.allFree = false := State.allFree_eq_false (c := c) (by simp [call])
        simp [used] at free
    rcases u.freeIfDone_still c with f | ⟨v, freed, f⟩ <;> rw [f]
    · refine .inl ⟨still.runState.trans draining, State.allFree_eq_false (c := c) ?_⟩
      rw [still.ctx, State.ctx_setCtx_self]
      simp [Context.clearing]
    · exact State.drains_endDrain (freed.runState.trans (still.runState.trans draining))

theorem State.forceAll_keeps {P : State → Prop} (step : ∀ s c, P s → P (State.clearCall s c .forced)) (h : P s) :
    P s.forceAll := by
  have kept (l : List CallIx) (s : State) (h : P s) : P (l.foldl (fun t c => t.clearCall c .forced) s) := by
    induction l generalizing s with
    | nil => exact h
    | cons c l ih => exact ih _ (step s c h)
  exact kept _ s h

/-- Every call is cleared (R4): a FREE context stays FREE, a CLEARING one keeps its cause, any other is FREE or CLEARING
with cause FORCED. -/
theorem State.forceAll_call (s : State) (c : CallIx) : match (s.ctx c).call with
    | none => (s.forceAll.ctx c).call = none
    | some i => (s.forceAll.ctx c).call = none ∨ ∃ j, (s.forceAll.ctx c).call = some j ∧ j.slot = i.slot ∧ j.tag = i.tag ∧
      j.stage = (match i.stage with
        | .clearing cause => .clearing cause
        | _ => .clearing .forced) := by
  have forced : Forced (s.ctx c).call (s.forceAll.ctx c).call :=
    State.forceAll_keeps (P := fun u => Forced (s.ctx c).call (u.ctx c).call) (fun u d => u.clearCall_forced d c) (.inl rfl)
  have settled : s.forceAll.settled c :=
    foldl_each (Q := fun c u => u.settled c) (fun u c => u.clearCall_settles c .forced)
      (fun u c d => u.clearCall_keeps_settled c d .forced) (mem_indices c) s
  cases call : (s.ctx c).call with
  | none =>
    rcases forced with e | ⟨i, e, _⟩
    · exact e.trans call
    · simp [call] at e
  | some i =>
    rcases forced with e | ⟨j, e, stage, h | h⟩
    · obtain ⟨k, clearing⟩ := settled i (e.trans call)
      exact .inr ⟨i, e.trans call, rfl, rfl, by rw [clearing]⟩
    · exact .inl h
    · cases call.symm.trans e
      refine .inr ⟨_, h, rfl, rfl, ?_⟩
      show Stage.clearing .forced = _
      cases w : i.stage with
      | clearing k => exact absurd w (stage k)
      | setup | active => rfl

/-- STOP FORCE with a context in use clears every call from DRAINING on. -/
theorem takeStop_force {inUse : CallIx} (run : s.runState = .serving ∨ s.runState = .draining)
    (used : (s.ctx inUse).call ≠ none) : ∃ d, d.runState = .draining ∧ d.contexts = s.contexts ∧ d.trains = s.trains ∧
      s.Keeps d ∧ takeStop 1 s = (okRunState d.forceAll, d.forceAll) := by
  have force : asFlag 1 = some true := rfl
  rcases run with serving | draining
  · refine ⟨s.enter .draining .stopForce, rfl, rfl, rfl, enter_keeps .., ?_⟩
    simp only [takeStop, force, serving, State.allFree_eq_false used, Bool.false_eq_true, if_false, if_true]
  · refine ⟨s, draining, rfl, rfl, Keeps.refl s, ?_⟩
    simp only [takeStop, force, draining, if_true]

/-- Settles O9: each call is cleared in its turn, and the last context that becomes FREE ends the drain. -/
theorem stopForceClearsEveryCall : Obligations.StopForceClearsEveryCall := by
  intro tag s inUse idle run used
  obtain ⟨d, draining, contexts, trains, keeps, taken⟩ := takeStop_force (s := s.fresh) run used
  have same (c : CallIx) : d.ctx c = s.ctx c := by simp only [State.ctx, contexts]; rfl
  have all := keeps.trans (forceAll_keeps d)
  have drains : d.forceAll.drains := State.forceAll_keeps (P := State.drains)
    (fun u c => u.clearCall_keeps_drains c .forced) (.inl ⟨draining, State.allFree_eq_false (c := inUse) (by rwa [same])⟩)
  have trains : d.forceAll.trains = s.trains := State.forceAll_keeps (P := fun u => u.trains = s.trains)
    (fun u c e => (u.clearCall_trains c .forced).trans e) trains
  have calls := d.forceAll_call
  simp only [same] at calls
  generalize d.forceAll = t at taken all drains trains calls
  refine ⟨_, answer_of_portFree idle tag (r := .stop 1) taken, calls, ?_, ?_, all.settings, all.tick, trains⟩
  · rcases drains with ⟨run, free⟩ | ⟨run, free⟩
    · exact run.trans (if_neg (Bool.eq_false_iff.mp free)).symm
    · exact run.trans (if_pos free).symm
  · simp only [State.answered_link, all.link]
    rfl

end Sys2Proof.Machine
end

