-- ==== Sys2Proof/Proofs/Halt.lean ====
section
/-! HALT with every context FREE: every base taken DOWN, one after the other, and nothing cleared (O10). -/

namespace Sys2Proof.Machine

open State

variable {s t : State} {tag : Byte}

/-- Whether a base's leaving is a base loss (R24): it was in service or probing. -/
def BaseRecord.linked (r : BaseRecord) : Prop := r.state = .inService ∨ r.state = .probing

/-- A base record as it is dropped and then emptied (R6, R35). -/
def BaseRecord.halted (r : BaseRecord) : BaseRecord :=
  { r with
    state := if r.state = .unused then .unused else .down
    window := [], owedReleases := Table.fill 8 false, owedAdmission := false, settle := none, heartbeat := none
    degraded := false }

/-- With every context FREE a base loss clears nothing. -/
theorem State.lossRules_free (free : ∀ c, (s.ctx c).call = none) (b : BaseIx) (l : List CallIx) :
    l.foldl (lossRule b) s = s := by
  induction l with
  | nil => rfl
  | cons c l ih =>
    have none : lossRule b s c = s := by simp only [lossRule, free c]
    rw [List.foldl_cons, none, ih]

/-- What dropping bases makes of a state with every context FREE: the bases `done` are dropped, the channels of the linked
ones FREE, and nothing but bases, trains and channels is touched. -/
structure Dropped (s t : State) (done : List BaseIx) : Prop where
  rest : t = { s with bases := t.bases, trains := t.trains, channels := t.channels }
  undone : ∀ b, b ∉ done → t.base b = s.base b
  base : ∀ b ∈ done, (t.base b).emptied = (s.base b).halted
  chan : ∀ p : ChanRef, p.base ∉ done ∨ ¬(s.base p.base).linked → t.chan p = s.chan p
  freed : ∀ p : ChanRef, p.base ∈ done → (s.base p.base).linked → t.chan p = .free

theorem dropBase_dropped (free : ∀ c, (s.ctx c).call = none) (b : BaseIx) : Dropped s (s.dropBase b) [b] := by
  rcases s.dropBase_cases b with ⟨linked, e⟩ | ⟨fault, e⟩ | ⟨idle, e⟩
  · have lost := State.baseLoss_setBaseState s b .down
    rw [State.lossRules_free (by exact free)] at lost
    rw [e, lost]
    have used : (s.base b).state ≠ .unused := by rcases linked with h | h <;> simp [h]
    refine ⟨rfl, fun d n => ?_, fun d m => ?_, fun p h => ?_, fun p m _ => ?_⟩
    · rw [State.base_lost, if_neg (by simpa [eq_comm] using n)]
    · obtain rfl := List.mem_singleton.mp m
      rw [State.base_lost, if_pos rfl]
      simp [BaseRecord.emptied, BaseRecord.halted, used]
    · rw [State.chan_lost, if_neg]
      rintro rfl
      exact h.elim (fun n => n (List.mem_singleton_self _)) fun n => n linked
    · rw [State.chan_lost, if_pos (List.mem_singleton.mp m).symm]
  · rw [e]
    refine ⟨rfl, fun d n => ?_, fun d m => ?_, fun p _ => rfl, fun p m linked => ?_⟩
    · exact State.base_setBase_ne _ _ (by simpa [eq_comm] using n)
    · obtain rfl := List.mem_singleton.mp m
      simp [State.setBaseState, BaseRecord.emptied, BaseRecord.halted, fault]
    · obtain e := List.mem_singleton.mp m
      simp [BaseRecord.linked, e, fault] at linked
  · rw [e]
    refine ⟨rfl, fun d _ => rfl, fun d m => ?_, fun p _ => rfl, fun p m linked => ?_⟩
    · obtain rfl := List.mem_singleton.mp m
      rcases idle with h | h <;> simp [BaseRecord.emptied, BaseRecord.halted, h]
    · obtain e := List.mem_singleton.mp m
      rcases idle with h | h <;> simp [BaseRecord.linked, e, h] at linked

theorem Dropped.ctx {done : List BaseIx} (h : Dropped s t done) (c : CallIx) : t.ctx c = s.ctx c := by
  rw [h.rest]
  rfl

/-- Every base of a list dropped once. -/
theorem dropBases_dropped (l : List BaseIx) (nodup : l.Nodup) (s : State) (free : ∀ c, (s.ctx c).call = none) :
    Dropped s (l.foldl dropBase s) l := by
  induction l generalizing s with
  | nil => exact ⟨rfl, fun _ _ => rfl, by simp, fun _ _ => rfl, by simp⟩
  | cons b l ih =>
    obtain ⟨fresh, nodup⟩ := List.nodup_cons.mp nodup
    have one := dropBase_dropped free b
    have more := ih nodup (s.dropBase b) fun c => (one.ctx c).symm ▸ free c
    have same (d : BaseIx) (n : d ≠ b) : (s.dropBase b).base d = s.base d := one.undone d (by simpa using n)
    have other {d : BaseIx} (m : d ∈ l) : d ≠ b := by rintro rfl; exact fresh m
    rw [List.foldl_cons]
    refine ⟨more.rest.trans ?_, fun d n => ?_, fun d m => ?_, fun p h => ?_, fun p m linked => ?_⟩
    · rw [one.rest]
    · obtain ⟨n, k⟩ := not_or.mp (List.mem_cons.not.mp n)
      exact (more.undone d k).trans (same d n)
    · rcases List.mem_cons.mp m with rfl | m
      · rw [more.undone _ fresh]
        exact one.base _ List.mem_cons_self
      · rw [more.base d m, same d (other m)]
    · by_cases e : p.base = b
      · have whole : p.base ∉ l := e ▸ fresh
        rw [more.chan p (.inl whole)]
        refine one.chan p (.inr ?_)
        exact h.elim (fun n => absurd (e ▸ List.mem_cons_self) n) id
      · rw [more.chan p]
        · exact one.chan p (.inl (by simpa using e))
        · rw [same _ e]
          exact h.imp (fun n m => n (List.mem_cons_of_mem _ m)) id
    · rcases List.mem_cons.mp m with e | m
      · rw [more.chan p (.inl (e ▸ fresh))]
        exact one.freed p (by simp [e]) linked
      · exact more.freed p m (by rwa [same _ (other m)])

/-- The last write of HALT, over the state with its bases dropped (R6, R35). -/
theorem Dropped.halted {d : State} (dropped : Dropped s d (indices 32))
    (rest : t = { d with bases := t.bases, trains := t.trains }) (bases : t.bases = d.bases.map BaseRecord.emptied)
    (trains : t.trains = Table.fill 32 none) :
    (∀ b, t.base b = (s.base b).halted) ∧ (∀ b, t.trains.get b = none) ∧
      (∀ p : ChanRef, t.chan p =
        if (s.base p.base).state = .inService ∨ (s.base p.base).state = .probing then .free else s.chan p) ∧
      t = { s with bases := t.bases, trains := t.trains, channels := t.channels } := by
  have chan (p : ChanRef) : t.chan p = d.chan p := by rw [rest]; rfl
  refine ⟨fun b => ?_, fun b => ?_, fun p => ?_, ?_⟩
  · rw [State.base, bases, Table.get_map]
    exact dropped.base b (mem_indices b)
  · rw [trains, Table.get_fill]
  · rw [chan]
    by_cases linked : (s.base p.base).linked
    · exact (dropped.freed p (mem_indices _) linked).trans (if_pos linked).symm
    · exact (dropped.chan p (.inr linked)).trans (if_neg linked).symm
  · have more := dropped.rest
    generalize d.bases = x, d.trains = y, d.channels = z at more
    rw [more] at rest
    generalize t.bases = x', t.trains = y' at rest
    rw [rest]

theorem takeHalt_standby (standby : s.runState = .standby) : takeHalt s = (okRunState s.haltAll, s.haltAll) := by
  simp only [takeHalt, standby]

theorem takeHalt_halted (halted : s.runState = .halted) : takeHalt s = (okay [0], s) := by
  simp only [takeHalt, halted, okRunState]
  rfl

theorem takeHalt_refused (run : s.runState = .serving ∨ s.runState = .draining) :
    takeHalt s = (refuse .wrongState, s) := by
  rcases run with h | h <;> simp only [takeHalt, h]

/-- A state that differs from one entering HALTED in bases, trains and channels alone, answered by its run state. -/
theorem answered_halted {u v : State} (run : u.runState = .halted)
    (rest : v = { u with bases := v.bases, trains := v.trains, channels := v.channels }) :
    v.answered 0x03 tag (okRunState v) = { u.answered 0x03 tag (okay [0]) with
      bases := v.bases, trains := v.trains, channels := v.channels } := by
  generalize v.bases = x, v.trains = y, v.channels = z at rest
  rw [rest]
  simp only [okRunState, run, State.answered, State.setLink, show byte1 RunState.halted.code = [0] from rfl]

/-- Settles O10: the bases dropped in turn, and HALT elsewhere. -/
theorem haltTakesBasesDown : Obligations.HaltTakesBasesDown := by
  intro tag s idle
  have answer {q : Taken} (taken : takeHalt s.fresh = q) : exec (.halt tag) s = .next (q.2.answered 0x03 tag q.1) :=
    answer_of_portFree idle tag (r := .halt) taken
  refine ⟨fun standby free => ?_, fun halted => answer (takeHalt_halted halted), fun run => answer (takeHalt_refused run)⟩
  have dropped := dropBases_dropped (indices 32) nodup_indices (s.fresh.enter .halted .halt) free
  obtain ⟨bases, trains, channels, rest⟩ := dropped.halted (t := s.fresh.haltAll) rfl rfl rfl
  have taken := answer (takeHalt_standby standby)
  generalize s.fresh.haltAll = v at *
  exact ⟨_, taken, bases, trains, channels, answered_halted rfl rest⟩

end Sys2Proof.Machine
end

