-- ==== Sys2Proof/Proofs/Structural.lean ====
section
/-! The operand bytes of requests, and the structural settings: SET PART, SET BASE and SET NEIGHBOURS (O11). -/

namespace Sys2Proof.Machine

open State

variable {s : State} {tag : Byte}

/-! ### Operand bytes that are read back -/

/-- An index below 256 survives its byte. -/
theorem toNat_ofNat8 {n : Nat} (h : n < 256) : (BitVec.ofNat 8 n).toNat = n := by
  rw [BitVec.toNat_ofNat, Nat.mod_eq_of_lt h]

@[simp] theorem asZone_byte (z : ZoneIx) : asZone (BitVec.ofNat 8 z.val) = some z := by
  rw [asZone, toNat_ofNat8 (by omega), toIndex_val]

@[simp] theorem asBase_byte (b : BaseIx) : asBase (BitVec.ofNat 8 b.val) = some b := by
  rw [asBase, toNat_ofNat8 (by omega), toIndex_val]

@[simp] theorem asCall_byte (c : CallIx) : asCall (BitVec.ofNat 8 c.val) = some c := by
  rw [asCall, toNat_ofNat8 (by omega), toIndex_val]

@[simp] theorem asCapture_byte (k : CapIx) : asCapture (BitVec.ofNat 8 k.val) = some k := by
  rw [asCapture, toNat_ofNat8 (by omega), toIndex_val]

@[simp] theorem asTarget_targetByte (t : Target) : asTarget (targetByte t) = some t := by
  cases t with
  | localBase b =>
    have read : (targetByte (.localBase b)).toNat = 128 + b.val := toNat_ofNat8 (by omega)
    rw [asTarget, dif_neg (by omega), read, Nat.add_sub_cancel_left, toIndex_val]
    rfl
  | foreignBase z b =>
    have read : (targetByte (.foreignBase z b)).toNat = z.val * 32 + b.val := toNat_ofNat8 (by omega)
    rw [asTarget, dif_pos (by omega)]
    congr 2 <;> apply Fin.ext <;> dsimp only <;> omega

theorem flagByte_eq (on : Bool) : flagByte on = [yesNo on] := by cases on <;> rfl

theorem targetBytes_eq (t : Target) : targetBytes t = [targetByte t] := by cases t <;> rfl

theorem okUnless_decide_ne (m n : Nat) : okUnless (decide (m ≠ n)) = if m = n then .ok else .okClamped := by
  by_cases h : m = n <;> simp [okUnless, h]

theorem okUnless_not (all : Bool) : okUnless (!all) = if all then .ok else .okClamped := by cases all <;> rfl

theorem clampNat_eq (lo hi n : Nat) : clampNat lo hi n = clampTo (lo, hi) n := rfl

/-! ### SET PART, SET BASE and SET NEIGHBOURS in HALTED -/

theorem takeSetPart_halted (halted : s.runState = .halted) (z : ZoneIx) (even : Bool) :
    takeSetPart (BitVec.ofNat 8 z.val) (yesNo even) s =
      (okay [BitVec.ofNat 8 z.val, yesNo even],
        { s with settings := { s.settings with zone := z, parity := if even then .even else .odd } }) := by
  rw [takeSetPart, if_neg (not_not.mpr halted), asZone_byte, asFlag_yesNo]
  simp only [flagByte_eq]
  rfl

theorem BaseRecord.enabling_eq (r : BaseRecord) (was now : Bool) :
    r.enabling was now =
      if now = was then r
      else if now then { r with
        state := .down, seen := false, lastHealth := none, lastBeat := none, nextSerial := 0, noEcho := 0 }
      else { r with state := .unused, held := false } := by
  cases was <;> cases now <;> rfl

theorem takeSetBase_halted (halted : s.runState = .halted) (b : BaseIx) (on : Bool) (channels : Byte) :
    takeSetBase (BitVec.ofNat 8 b.val) (yesNo on) channels s =
      ({ status := if clampTo (1, 8) channels.toNat = channels.toNat then .ok else .okClamped
         results := [yesNo on, BitVec.ofNat 8 (clampTo (1, 8) channels.toNat)] },
        { s.setBase b ((s.base b).enabling (s.cfg b).enabled on) with
          settings := { s.settings with bases := s.settings.bases.set b { s.cfg b with
            enabled := on, channels := clampTo (1, 8) channels.toNat } } }) := by
  rw [takeSetBase, if_neg (not_not.mpr halted), asBase_byte, asFlag_yesNo]
  rw [← okUnless_decide_ne]
  simp only [flagByte_eq, clampNat_eq]
  rfl

/-- A neighbour entry with its offset clamped to the nearer end of −8..+7 (R11, R13). -/
def storedEntry (e : Target × Byte) : Neighbour := { target := e.1, offset := max (-8) (min 7 e.2.toInt) }

theorem storedEntries_map (entries : List (Target × Byte)) :
    storedEntries (entries.map fun e => (targetByte e.1, e.2)) = some (entries.map storedEntry) := by
  induction entries with
  | nil => rfl
  | cons e entries ih =>
    simp only [List.map_cons, storedEntries, asTarget_targetByte, ih]
    rfl

/-- No offset was clamped, said of the entries as sent. -/
theorem any_clampOffset_map (entries : List (Target × Byte)) :
    ((entries.map fun e => (targetByte e.1, e.2)).any fun e => clampOffset e.2 != e.2.toInt) =
      !entries.all fun e => max (-8) (min 7 e.2.toInt) == e.2.toInt := by
  rw [List.any_map, List.not_all_eq_any_not]
  rfl

theorem counted_storedEntry (entries : List (Target × Byte)) :
    counted Neighbour.bytes (entries.map storedEntry) = BitVec.ofNat 8 entries.length ::
      entries.flatMap fun e => [targetByte e.1, BitVec.ofInt 8 (max (-8) (min 7 e.2.toInt))] := by
  simp only [counted, byte1, List.length_map, List.flatMap_map, List.singleton_append, Neighbour.bytes, targetBytes_eq,
    signed1, storedEntry]

theorem takeSetNeighbours_halted (halted : s.runState = .halted) (b : BaseIx) (entries : List (Target × Byte))
    (fits : entries.length ≤ 8) :
    takeSetNeighbours (BitVec.ofNat 8 b.val) (entries.map fun e => (targetByte e.1, e.2)) s =
      ({ status := if entries.all (fun e => max (-8) (min 7 e.2.toInt) == e.2.toInt) then .ok else .okClamped
         results := BitVec.ofNat 8 entries.length ::
           entries.flatMap fun e => [targetByte e.1, BitVec.ofInt 8 (max (-8) (min 7 e.2.toInt))] },
        { s with settings := { s.settings with bases := s.settings.bases.set b { s.cfg b with
          neighbours := entries.map storedEntry } } }) := by
  have short : ¬8 < (entries.map fun e => (targetByte e.1, e.2)).length := by simpa using fits
  rw [takeSetNeighbours, if_neg (not_not.mpr halted), asBase_byte, storedEntries_map]
  simp only [if_neg short, any_clampOffset_map, counted_storedEntry, okUnless_not]

/-- Settles O11: operands read back from their bytes, and each request's effect in HALTED. -/
theorem structuralSettingsStored : Obligations.StructuralSettingsStored := by
  refine ⟨fun tag s z even idle halted => ?_, fun tag s b on channels idle halted => ?_,
    fun tag s b entries idle halted fits => ?_⟩
  · exact answer_of_portFree idle tag (r := .setPart ..) (takeSetPart_halted (s := s.fresh) halted z even)
  · have taken := takeSetBase_halted (s := s.fresh) halted b on channels
    rw [BaseRecord.enabling_eq] at taken
    exact answer_of_portFree idle tag (r := .setBase ..) taken
  · exact answer_of_portFree idle tag (r := .setNeighbours ..) (takeSetNeighbours_halted (s := s.fresh) halted b entries fits)

end Sys2Proof.Machine
end

