-- ==== Sys2Proof/Proofs/Refusals.lean ====
section
/-! Requests refused with nothing changed (O12): operands out of range, the wrong run state, and the items of OPEN CALL
(R76) and ADMIT CALL (R156) in their order. -/

namespace Sys2Proof.Machine

open State

variable {s : State}

/-! ### Operands out of range -/

theorem asZone_eq_none {x : Byte} (h : 3 < x.toNat) : asZone x = none := (toIndex_eq_none_iff ..).mpr h

theorem asBase_eq_none {x : Byte} (h : 31 < x.toNat) : asBase x = none := (toIndex_eq_none_iff ..).mpr h

theorem asCall_eq_none {x : Byte} (h : 95 < x.toNat) : asCall x = none := (toIndex_eq_none_iff ..).mpr h

theorem asCapture_eq_none {x : Byte} (h : 3 < x.toNat) : asCapture x = none := (toIndex_eq_none_iff ..).mpr h

theorem asTarget_eq_none {x : Byte} (h : 160 ≤ x.toNat) : asTarget x = none := by
  rw [asTarget, dif_neg (by omega), (toIndex_eq_none_iff ..).mpr (by omega)]
  rfl

theorem asDirection_eq_none {x : Byte} (h : 1 < x.toNat) : asDirection x = none := by
  have zero : x ≠ 0 := by rintro rfl; simp at h
  have one : x ≠ 1 := by rintro rfl; simp at h
  rw [asDirection, if_neg zero, if_neg one]

theorem asDirection_eq_some {x : Byte} (h : x.toNat ≤ 1) :
    x = 0 ∧ asDirection x = some .terminating ∨ x = 1 ∧ asDirection x = some .originated := by
  have : x = 0 ∨ x = 1 := by
    simp only [← BitVec.toNat_inj, show (0 : Byte).toNat = 0 from rfl, show (1 : Byte).toNat = 1 from rfl]
    omega
  rcases this with rfl | rfl
  · exact .inl ⟨rfl, rfl⟩
  · exact .inr ⟨rfl, rfl⟩

theorem asTag_eq_none {t : BitVec 32} (h : t.toNat = 0 ∨ 268435455 ≤ t.toNat) : asTag t = none := if_neg (by omega)

theorem asTag_eq_some {t : BitVec 32} (pos : 0 < t.toNat) (small : t.toNat < 268435455) :
    asTag t = some (t.setWidth 28) := if_pos ⟨pos, small⟩

theorem toNat_setWidth28 {t : BitVec 32} (small : t.toNat < 268435455) : (t.setWidth 28).toNat = t.toNat := by
  rw [BitVec.toNat_setWidth]
  omega

theorem storedEntries_eq_none {entries : List (Byte × Byte)} (h : ∃ e ∈ entries, 160 ≤ e.1.toNat) :
    storedEntries entries = none := by
  obtain ⟨e, mem, bad⟩ := h
  induction mem with
  | head => simp only [storedEntries, asTarget_eq_none bad]
  | tail f _ ih => cases t : asTarget f.1 <;> simp only [storedEntries, t, ih]

/-! ### The structural settings -/

theorem takeSetPart_running (h : s.runState ≠ .halted) (z p : Byte) : takeSetPart z p s = (refuse .wrongState, s) :=
  if_pos h

theorem takeSetBase_running (h : s.runState ≠ .halted) (b e c : Byte) :
    takeSetBase b e c s = (refuse .wrongState, s) := if_pos h

theorem takeSetNeighbours_running (h : s.runState ≠ .halted) (b : Byte) (es : List (Byte × Byte)) :
    takeSetNeighbours b es s = (refuse .wrongState, s) := if_pos h

theorem takeSetPart_badArg (halted : s.runState = .halted) {x y : Byte} (h : 3 < x.toNat ∨ 1 < y.toNat) :
    takeSetPart x y s = (refuse .badArg, s) := by
  rw [takeSetPart, if_neg (not_not.mpr halted)]
  rcases h with h | h
  · rw [asZone_eq_none h]
  · rw [asFlag_eq_none h]
    cases asZone x <;> rfl

theorem takeSetBase_badArg (halted : s.runState = .halted) {x y : Byte} (z : Byte) (h : 31 < x.toNat ∨ 1 < y.toNat) :
    takeSetBase x y z s = (refuse .badArg, s) := by
  rw [takeSetBase, if_neg (not_not.mpr halted)]
  rcases h with h | h
  · rw [asBase_eq_none h]
  · rw [asFlag_eq_none h]
    cases asBase x <;> rfl

theorem takeSetNeighbours_badArg (halted : s.runState = .halted) {x : Byte} {entries : List (Byte × Byte)}
    (h : 31 < x.toNat ∨ 8 < entries.length ∨ ∃ e ∈ entries, 160 ≤ e.1.toNat) :
    takeSetNeighbours x entries s = (refuse .badArg, s) := by
  rw [takeSetNeighbours, if_neg (not_not.mpr halted)]
  rcases h with range | long | target
  · rw [asBase_eq_none range]
  · cases asBase x <;> cases storedEntries entries <;> simp only [if_pos long]
  · rw [storedEntries_eq_none target]
    cases asBase x <;> rfl

/-! ### The record a tag names, the context and the channel a call would take -/

theorem State.findTag_eq_none {t : BitVec 32} (small : t.toNat < 268435455)
    (h : ∀ i r, s.handset i = some r → r.tag.toNat ≠ t.toNat) : s.findTag (t.setWidth 28) = none := by
  refine (Table.lowest_eq_none_iff ..).mpr fun i => ?_
  cases e : s.handsets.get i with
  | none => rfl
  | some r =>
    refine beq_eq_false_iff_ne.mpr fun same => h i r e ?_
    rw [same, toNat_setWidth28 small]

/-- A tag that no other slot holds is found at its slot. -/
theorem State.names.findTag {t : BitVec 32} {i : SlotIx} {h : Handset} (names : s.names 0 t i h) :
    s.findTag (t.setWidth 28) = some i := by
  obtain ⟨held, ⟨no, _⟩ | ⟨_, value, _, small, unique⟩⟩ := names
  · exact absurd no (by decide)
  · have tag : t.setWidth 28 = h.tag := BitVec.eq_of_toNat_eq (by rw [toNat_setWidth28 (value ▸ small), value])
    refine (Table.lowest_eq_some_iff ..).mpr ⟨?_, fun j before => ?_⟩
    · simp [show s.handsets.get i = some h from held, tag]
    · cases e : s.handsets.get j with
      | none => rfl
      | some k => exact beq_eq_false_iff_ne.mpr fun same => (Fin.ne_of_lt before) (unique j k e (same.trans tag))

theorem State.lowestFree_eq_none (h : ∀ c, (s.ctx c).call ≠ none) : s.lowestFree = none :=
  (Table.lowest_eq_none_iff ..).mpr fun c => Option.isNone_eq_false_iff.mpr (Option.isSome_iff_ne_none.mpr (h c))

theorem State.exists_lowestFree (h : ∃ c, (s.ctx c).call = none) : ∃ c, s.lowestFree = some c := by
  refine Option.ne_none_iff_exists'.mp fun no => ?_
  obtain ⟨c, free⟩ := h
  have taken := (Table.lowest_eq_none_iff ..).mp no c
  rw [show (s.contexts.get c).call = none from free] at taken
  exact absurd taken (by decide)

theorem State.baseTakesCall_eq_false {b : BaseIx}
    (h : (s.base b).state ≠ .inService ∨ (s.base b).held = true ∨ (s.base b).degraded = true) :
    s.baseTakesCall b = false := by
  rcases h with h | h | h <;> simp [State.baseTakesCall, BaseRecord.closed, h]

theorem State.baseTakesCall_eq_true {b : BaseIx} (service : (s.base b).state = .inService)
    (held : (s.base b).held = false) (degraded : (s.base b).degraded = false) : s.baseTakesCall b = true := by
  simp [State.baseTakesCall, BaseRecord.closed, service, held, degraded]

theorem State.judgeClaim_setup {b : BaseIx} (service : (s.base b).state = .inService) (cls : Fin 16) :
    (s.freeChannels b = [] ∨ (s.freeChannels b).length = 1 ∧ cls.val < s.settings.evaluator.highClass →
      s.judgeClaim b (.setup cls) = .noChannel) ∧
    (s.freeChannels b ≠ [] → ((s.freeChannels b).length = 1 → s.settings.evaluator.highClass ≤ cls.val) →
      ∃ ch, s.judgeClaim b (.setup cls) = .granted ch) := by
  cases e : s.freeChannels b with
  | nil => simp [State.judgeClaim, service, e]
  | cons ch rest =>
    refine ⟨fun h => ?_, fun _ h => ⟨ch, ?_⟩⟩
    · have reserve := h.resolve_left nofun
      simp only [State.judgeClaim, service, State.freeChannelCount, e, reserve]
      simp
    · simp only [State.judgeClaim, service, State.freeChannelCount, e]
      simpa using h

theorem State.judgeClaim_zoneIn {b : BaseIx} (service : (s.base b).state = .inService) :
    (s.freeChannels b = [] → s.judgeClaim b .zoneIn = .noChannel) ∧
    (s.freeChannels b ≠ [] → ∃ ch, s.judgeClaim b .zoneIn = .granted ch) := by
  cases e : s.freeChannels b with
  | nil => simp [State.judgeClaim, service, e]
  | cons ch rest => simp [State.judgeClaim, service, e]

/-! ### OPEN CALL (R76) -/

theorem takeOpenCall_wrongState (h : s.runState ≠ .serving) (t : BitVec 32) (d : Byte) :
    takeOpenCall t d s = (refuse .wrongState, s) := if_pos h

theorem takeOpenCall_badArg (serving : s.runState = .serving) {t : BitVec 32} {d : Byte}
    (h : t.toNat = 0 ∨ 268435455 ≤ t.toNat ∨ 1 < d.toNat) : takeOpenCall t d s = (refuse .badArg, s) := by
  rw [takeOpenCall, if_neg (not_not.mpr serving)]
  rcases or_assoc.mpr h with tag | direction
  · rw [asTag_eq_none tag]
  · rw [asDirection_eq_none direction]
    cases asTag t <;> rfl

theorem takeOpenCall_noSuch (serving : s.runState = .serving) {t : BitVec 32} {d : Byte} (pos : 0 < t.toNat)
    (small : t.toNat < 268435455) (direction : d.toNat ≤ 1)
    (h : ∀ i r, s.handset i = some r → r.tag.toNat ≠ t.toNat) : takeOpenCall t d s = (refuse .noSuch, s) := by
  rw [takeOpenCall, if_neg (not_not.mpr serving), asTag_eq_some pos small]
  rcases asDirection_eq_some direction with ⟨_, e⟩ | ⟨_, e⟩ <;> simp only [e, State.findTag_eq_none small h]

section
variable {t : BitVec 32} {x : Byte} {dir : Direction} {i : SlotIx} {h : Handset} {b : BaseIx} {lifetime : Nat}
  {origination : Option Nat} {c : CallIx} {ch : ChanIx}
variable (serving : s.runState = .serving) (pos : 0 < t.toNat) (small : t.toNat < 268435455)
  (direction : asDirection x = some dir) (names : s.names 0 t i h)

include serving pos small direction names

theorem takeOpenCall_barred (barred : h.barred = true) : takeOpenCall t x s = (refuse .barred, s) := by
  simp [takeOpenCall, serving, asTag_eq_some pos small, direction, names.findTag, names.1, barred]

theorem takeOpenCall_inCall (barred : h.barred = false) (status : h.status.state = .engaged) :
    takeOpenCall t x s = (refuse .inCall, s) := by
  cases e : h.status <;> simp [e, HandsetStatus.state] at status
  simp [takeOpenCall, serving, asTag_eq_some pos small, direction, names.findTag, names.1, barred, e,
    HandsetStatus.callableAt]

theorem takeOpenCall_notAttached (barred : h.barred = false) (status : h.status.state = .enrolled) :
    takeOpenCall t x s = (refuse .notAttached, s) := by
  cases e : h.status <;> simp [e, HandsetStatus.state] at status
  simp [takeOpenCall, serving, asTag_eq_some pos small, direction, names.findTag, names.1, barred, e,
    HandsetStatus.callableAt]

variable (barred : h.barred = false) (status : h.status = .attached b lifetime origination)

include barred status

theorem takeOpenCall_noOrigination (missing : dir = .originated ∧ origination = none) :
    takeOpenCall t x s = (refuse .noSuch, s) := by
  simp [takeOpenCall, serving, asTag_eq_some pos small, direction, names.findTag, names.1, barred, status,
    HandsetStatus.callableAt, missing]

variable (callable : ¬(dir = .originated ∧ origination = none))

include callable

theorem takeOpenCall_noRoom (full : ∀ c, (s.ctx c).call ≠ none) : takeOpenCall t x s = (refuse .noRoom, s) := by
  simp only [takeOpenCall, if_neg (not_not.mpr serving), asTag_eq_some pos small, direction, names.findTag, names.1, barred,
    status, HandsetStatus.callableAt, if_neg callable, State.lowestFree_eq_none full, Bool.false_eq_true, if_false]

variable (room : s.lowestFree = some c)

include room

theorem takeOpenCall_baseUnavailable (shut : s.baseTakesCall b = false) :
    takeOpenCall t x s = (refuse .baseUnavailable, s) := by
  simp only [takeOpenCall, if_neg (not_not.mpr serving), asTag_eq_some pos small, direction, names.findTag, names.1, barred,
    status, HandsetStatus.callableAt, if_neg callable, room, shut, Bool.false_eq_true, if_false, Bool.not_false, if_true]

variable (takes : s.baseTakesCall b = true)

include takes

theorem takeOpenCall_noChannel (judged : s.judgeClaim b (.setup h.cls) = .noChannel) :
    takeOpenCall t x s = (refuse .noChannel, s) := by
  simp only [takeOpenCall, if_neg (not_not.mpr serving), asTag_eq_some pos small, direction, names.findTag, names.1, barred,
    status, HandsetStatus.callableAt, if_neg callable, room, takes, Bool.false_eq_true, if_false, Bool.not_true, judged]

theorem takeOpenCall_orderWindowFull (judged : s.judgeClaim b (.setup h.cls) = .granted ch)
    (full : 4 ≤ (s.base b).window.length) : takeOpenCall t x s = (refuse .orderWindowFull, s) := by
  simp only [takeOpenCall, if_neg (not_not.mpr serving), asTag_eq_some pos small, direction, names.findTag, names.1, barred,
    status, HandsetStatus.callableAt, if_neg callable, room, takes, Bool.false_eq_true, if_false, Bool.not_true, judged,
    if_pos full]

end

/-! ### ADMIT CALL (R156) -/

theorem takeAdmitCall_wrongState (h : s.runState ≠ .serving) (t : BitVec 32) (b z : Byte) :
    takeAdmitCall t b z s = (refuse .wrongState, s) := if_pos h

theorem takeAdmitCall_badArg (serving : s.runState = .serving) {t : BitVec 32} {x z : Byte}
    (h : t.toNat = 0 ∨ 268435455 ≤ t.toNat ∨ 31 < x.toNat ∨ 3 < z.toNat ∨ z.toNat = s.settings.zone.val) :
    takeAdmitCall t x z s = (refuse .badArg, s) := by
  rw [takeAdmitCall, if_neg (not_not.mpr serving)]
  rcases or_assoc.mpr h with tag | base | zone | own
  · rw [asTag_eq_none tag]
  · rw [asBase_eq_none base]
    cases asTag t <;> rfl
  · rw [asZone_eq_none zone]
    cases asTag t <;> cases asBase x <;> rfl
  · have zone : asZone z = some s.settings.zone := by rw [asZone, own, toIndex_val]
    rw [zone]
    cases asTag t <;> cases asBase x <;> simp only [if_true]

section
variable {t : BitVec 32} {x y : Byte} {z : ZoneIx} {i : SlotIx} {h : Handset} {b : BaseIx} {c : CallIx} {ch : ChanIx}
variable (serving : s.runState = .serving) (pos : 0 < t.toNat) (small : t.toNat < 268435455) (base : asBase x = some b)
  (zone : asZone y = some z) (foreign : z ≠ s.settings.zone)

include serving pos small base zone foreign

theorem takeAdmitCall_noSuch (missing : ∀ i r, s.handset i = some r → r.tag.toNat ≠ t.toNat) :
    takeAdmitCall t x y s = (refuse .noSuch, s) := by
  simp only [takeAdmitCall, if_neg (not_not.mpr serving), asTag_eq_some pos small, base, zone, if_neg foreign,
    State.findTag_eq_none small missing]

variable (names : s.names 0 t i h)

include names

theorem takeAdmitCall_barred (barred : h.barred = true) : takeAdmitCall t x y s = (refuse .barred, s) := by
  simp only [takeAdmitCall, if_neg (not_not.mpr serving), asTag_eq_some pos small, base, zone, if_neg foreign,
    names.findTag, names.1, barred, if_true]

variable (barred : h.barred = false)

include barred

theorem takeAdmitCall_inCall (status : h.status.state = .engaged) : takeAdmitCall t x y s = (refuse .inCall, s) := by
  simp only [takeAdmitCall, if_neg (not_not.mpr serving), asTag_eq_some pos small, base, zone, if_neg foreign,
    names.findTag, names.1, barred, Bool.false_eq_true, if_false, if_pos status]

variable (status : h.status.state ≠ .engaged)

include status

theorem takeAdmitCall_noRoom (full : ∀ c, (s.ctx c).call ≠ none) : takeAdmitCall t x y s = (refuse .noRoom, s) := by
  simp only [takeAdmitCall, if_neg (not_not.mpr serving), asTag_eq_some pos small, base, zone, if_neg foreign,
    names.findTag, names.1, barred, Bool.false_eq_true, if_false, if_neg status, State.lowestFree_eq_none full]

variable (room : s.lowestFree = some c)

include room

theorem takeAdmitCall_baseUnavailable (shut : s.baseTakesCall b = false) :
    takeAdmitCall t x y s = (refuse .baseUnavailable, s) := by
  simp only [takeAdmitCall, if_neg (not_not.mpr serving), asTag_eq_some pos small, base, zone, if_neg foreign,
    names.findTag, names.1, barred, Bool.false_eq_true, if_false, if_neg status, room, shut, Bool.not_false, if_true]

variable (takes : s.baseTakesCall b = true)

include takes

theorem takeAdmitCall_noChannel (judged : s.judgeClaim b .zoneIn = .noChannel) :
    takeAdmitCall t x y s = (refuse .noChannel, s) := by
  simp only [takeAdmitCall, if_neg (not_not.mpr serving), asTag_eq_some pos small, base, zone, if_neg foreign,
    names.findTag, names.1, barred, Bool.false_eq_true, if_false, if_neg status, room, takes, Bool.not_true, judged]

theorem takeAdmitCall_orderWindowFull (judged : s.judgeClaim b .zoneIn = .granted ch)
    (full : 4 ≤ (s.base b).window.length) : takeAdmitCall t x y s = (refuse .orderWindowFull, s) := by
  simp only [takeAdmitCall, if_neg (not_not.mpr serving), asTag_eq_some pos small, base, zone, if_neg foreign,
    names.findTag, names.1, barred, Bool.false_eq_true, if_false, if_neg status, room, takes, Bool.not_true, judged,
    if_pos full]

end

/-! ### Indices out of range -/

theorem takeAdmission_badArg {x : Byte} (h : 31 < x.toNat) (held : Bool) :
    takeAdmission held x s = (refuse .badArg, s) := by
  simp only [takeAdmission, asBase_eq_none h]

theorem takeRestoreBase_badArg {x : Byte} (h : 31 < x.toNat) : takeRestoreBase x s = (refuse .badArg, s) := by
  simp only [takeRestoreBase, asBase_eq_none h]

theorem takeQueryBase_badArg {x : Byte} (h : 31 < x.toNat) (y : Byte) : takeQueryBase x y s = (refuse .badArg, s) := by
  simp only [takeQueryBase, asBase_eq_none h]

theorem takeCloseCall_badArg {x : Byte} (h : 95 < x.toNat) : takeCloseCall x s = (refuse .badArg, s) := by
  simp only [takeCloseCall, asCall_eq_none h]

theorem takeQueryCall_badArg {x : Byte} (h : 95 < x.toNat) : takeQueryCall x s = (refuse .badArg, s) := by
  simp only [takeQueryCall, asCall_eq_none h]

theorem takeZoneGo_badArg {x : Byte} (h : 95 < x.toNat) (y : Byte) : takeZoneGo x y s = (refuse .badArg, s) := by
  simp only [takeZoneGo, asCall_eq_none h]

theorem takeZoneFail_badArg {x : Byte} (h : 95 < x.toNat) : takeZoneFail x s = (refuse .badArg, s) := by
  simp only [takeZoneFail, asCall_eq_none h]

theorem takeZoneComplete_badArg {x : Byte} (h : 95 < x.toNat) : takeZoneComplete x s = (refuse .badArg, s) := by
  simp only [takeZoneComplete, asCall_eq_none h]

theorem takeClearConditions_badArg {x : Byte} (h : 95 < x.toNat) (one : x ≠ 0xFF) (y : Byte) :
    takeClearConditions x y s = (refuse .badArg, s) := by
  unfold takeClearConditions
  dsimp only
  rw [if_neg one, asCall_eq_none h]
  exact ite_self _

theorem takeCancelCapture_badArg {x : Byte} (h : 3 < x.toNat) : takeCancelCapture x s = (refuse .badArg, s) := by
  simp only [takeCancelCapture, asCapture_eq_none h]

theorem takeReadCapture_badArg {x : Byte} (h : 3 < x.toNat) (y : Byte) :
    takeReadCapture x y s = (refuse .badArg, s) := by
  simp only [takeReadCapture, asCapture_eq_none h]

/-- A request that its owner refuses with nothing changed. -/
theorem refused_of_take (idle : s.portFree) (tag : Byte) {r : Request} {st : Status}
    (taken : takeRequest r s.fresh = (refuse st, s.fresh)) (owner : r ≠ .reset := by nofun) :
    (Host.Outcome.next (s.fresh.submit tag r) : Result) = .next (s.fresh.answered r.code tag (refuse st)) :=
  answer_of_portFree idle tag taken owner

/-- Settles O12, item by item. -/
theorem requestsRefusedWithoutEffect : Obligations.RequestsRefusedWithoutEffect := by
  refine ⟨fun tag s idle run => ⟨fun z p => ?_, fun b e c => ?_, fun b es => ?_⟩,
    fun tag x y z s idle halted => ⟨fun h => ?_, fun h => ?_, fun es h => ?_⟩,
    fun tag s idle run => ⟨fun t d => ?_, fun t b z => ?_⟩,
    fun tag s t d idle serving => ?_, fun tag s t x z idle serving => ?_,
    fun tag x y s idle => ⟨fun h => ⟨?_, ?_, ?_, ?_⟩, fun h => ⟨?_, ?_, ?_, ?_, ?_, fun one => ?_⟩, fun h => ⟨?_, ?_⟩⟩⟩
  · exact refused_of_take idle tag (r := .setPart ..) (takeSetPart_running (s := s.fresh) run z p)
  · exact refused_of_take idle tag (r := .setBase ..) (takeSetBase_running (s := s.fresh) run b e c)
  · exact refused_of_take idle tag (r := .setNeighbours ..) (takeSetNeighbours_running (s := s.fresh) run b es)
  · exact refused_of_take idle tag (r := .setPart ..) (takeSetPart_badArg (s := s.fresh) halted h)
  · exact refused_of_take idle tag (r := .setBase ..) (takeSetBase_badArg (s := s.fresh) halted z h)
  · exact refused_of_take idle tag (r := .setNeighbours ..) (takeSetNeighbours_badArg (s := s.fresh) halted h)
  · exact refused_of_take idle tag (r := .openCall ..) (takeOpenCall_wrongState (s := s.fresh) run t d)
  · exact refused_of_take idle tag (r := .admitCall ..) (takeAdmitCall_wrongState (s := s.fresh) run t b z)
  · have refused {st : Status} (taken : takeOpenCall t d s.fresh = (refuse st, s.fresh)) :
        exec (.openCall tag t d) s = .next (s.fresh.answered 0x40 tag (refuse st)) :=
      refused_of_take idle tag (r := .openCall ..) taken
    refine ⟨fun h => refused (takeOpenCall_badArg (s := s.fresh) serving h), fun pos small le =>
      ⟨fun missing => refused (takeOpenCall_noSuch (s := s.fresh) serving pos small le missing), fun i h names => ?_⟩⟩
    obtain ⟨dir, direction, originated⟩ : ∃ dir, asDirection d = some dir ∧ (dir = .originated ↔ d = 1) := by
      rcases asDirection_eq_some le with ⟨rfl, e⟩ | ⟨rfl, e⟩
      · exact ⟨_, e, by decide⟩
      · exact ⟨_, e, by decide⟩
    refine ⟨fun barred => refused (takeOpenCall_barred serving pos small direction names barred),
      fun barred status => refused (takeOpenCall_inCall serving pos small direction names barred status),
      fun barred status => refused (takeOpenCall_notAttached serving pos small direction names barred status),
      fun b lifetime origination barred status => ⟨fun one missing => refused (takeOpenCall_noOrigination serving pos small
        direction names barred status ⟨originated.mpr one, missing⟩), fun callable => ?_⟩⟩
    replace callable : ¬(dir = .originated ∧ origination = none) := by
      rintro ⟨one, missing⟩
      rcases callable with zero | pending
      · exact absurd ((originated.mp one).symm.trans zero) (by decide)
      · exact pending missing
    refine ⟨fun full => refused (takeOpenCall_noRoom serving pos small direction names barred status callable full),
      fun room => ?_⟩
    obtain ⟨c, room⟩ := State.exists_lowestFree (s := s.fresh) room
    refine ⟨fun shut => refused (takeOpenCall_baseUnavailable serving pos small direction names barred status callable room
        (State.baseTakesCall_eq_false shut)), fun service held degraded => ?_⟩
    have takes := State.baseTakesCall_eq_true (s := s.fresh) service held degraded
    obtain ⟨noChannel, granted⟩ := State.judgeClaim_setup (s := s.fresh) service h.cls
    refine ⟨fun none => refused (takeOpenCall_noChannel serving pos small direction names barred status callable room takes
        (noChannel none)), fun some spare full => ?_⟩
    obtain ⟨ch, judged⟩ := granted some spare
    exact refused (takeOpenCall_orderWindowFull serving pos small direction names barred status callable room takes judged
      full)
  · have refused {st : Status} (taken : takeAdmitCall t x z s.fresh = (refuse st, s.fresh)) :
        exec (.admitCall tag t x z) s = .next (s.fresh.answered 0x50 tag (refuse st)) :=
      refused_of_take idle tag (r := .admitCall ..) taken
    refine ⟨fun h => refused (takeAdmitCall_badArg (s := s.fresh) serving h), fun b pos small index le foreign => ?_⟩
    have base : asBase x = some b := by rw [asBase, index, toIndex_val]
    obtain ⟨zi, zone⟩ : ∃ zi : ZoneIx, zi.val = z.toNat := ⟨⟨z.toNat, by omega⟩, rfl⟩
    replace foreign : zi ≠ s.settings.zone := by rintro rfl; exact foreign zone.symm
    replace zone : asZone z = some zi := by rw [asZone, ← zone, toIndex_val]
    refine ⟨fun missing => refused (takeAdmitCall_noSuch serving pos small base zone foreign missing), fun i h names => ?_⟩
    refine ⟨fun barred => refused (takeAdmitCall_barred serving pos small base zone foreign names barred),
      fun barred status => refused (takeAdmitCall_inCall serving pos small base zone foreign names barred status),
      fun barred status => ⟨fun full => refused (takeAdmitCall_noRoom serving pos small base zone foreign names barred
        status full), fun room => ?_⟩⟩
    obtain ⟨c, room⟩ := State.exists_lowestFree (s := s.fresh) room
    refine ⟨fun shut => refused (takeAdmitCall_baseUnavailable serving pos small base zone foreign names barred status room
        (State.baseTakesCall_eq_false shut)), fun service held degraded => ?_⟩
    have takes := State.baseTakesCall_eq_true (s := s.fresh) service held degraded
    obtain ⟨noChannel, granted⟩ := State.judgeClaim_zoneIn (s := s.fresh) service
    refine ⟨fun none => refused (takeAdmitCall_noChannel serving pos small base zone foreign names barred status room takes
        (noChannel none)), fun some full => ?_⟩
    obtain ⟨ch, judged⟩ := granted some
    exact refused (takeAdmitCall_orderWindowFull serving pos small base zone foreign names barred status room takes judged
      full)
  · exact refused_of_take idle tag (r := .holdAdmission ..) (takeAdmission_badArg h true)
  · exact refused_of_take idle tag (r := .openAdmission ..) (takeAdmission_badArg h false)
  · exact refused_of_take idle tag (r := .restoreBase ..) (takeRestoreBase_badArg h)
  · exact refused_of_take idle tag (r := .queryBase ..) (takeQueryBase_badArg h y)
  · exact refused_of_take idle tag (r := .closeCall ..) (takeCloseCall_badArg h)
  · exact refused_of_take idle tag (r := .queryCall ..) (takeQueryCall_badArg h)
  · exact refused_of_take idle tag (r := .zoneGo ..) (takeZoneGo_badArg h y)
  · exact refused_of_take idle tag (r := .zoneFail ..) (takeZoneFail_badArg h)
  · exact refused_of_take idle tag (r := .zoneComplete ..) (takeZoneComplete_badArg h)
  · exact refused_of_take idle tag (r := .clearConditions ..) (takeClearConditions_badArg h one y)
  · exact refused_of_take idle tag (r := .cancelCapture ..) (takeCancelCapture_badArg h)
  · exact refused_of_take idle tag (r := .readCapture ..) (takeReadCapture_badArg h y)

end Sys2Proof.Machine
end

