-- ==== Sys2Proof/Proofs/Numbered.lean ====
section
/-! SET TIMERS and SET EVALUATOR (O13). Both take a list of numbered values; what they share is said once, for any table of
ranges and any block of settings that is read and stored by number. -/

namespace Sys2Proof.Machine

open State

variable {s : State}

/-! ### Lists of numbered values -/

section
variable {n : Nat} {range : Nat → Option (Nat × Nat)} {limits : Fin n → Nat × Nat}

/-- A value of a list with the byte that names its setting. -/
def numbered (p : Fin n × BitVec 16) : Byte × BitVec 16 := (BitVec.ofNat 8 p.1.val, p.2)

variable (small : n ≤ 256) (table : ∀ k : Fin n, range k.val = some (limits k))

include small

theorem toNat_numbered (p : Fin n × BitVec 16) : (numbered p).1.toNat = p.1.val := toNat_ofNat8 (by omega)

theorem nodup_numbered {pairs : List (Fin n × BitVec 16)} (nodup : (pairs.map Prod.fst).Nodup) :
    ((pairs.map numbered).map Prod.fst).Nodup := by
  have bytes : (pairs.map numbered).map Prod.fst = (pairs.map Prod.fst).map fun k => BitVec.ofNat 8 k.val := by
    simp only [List.map_map]
    rfl
  rw [bytes]
  refine nodup.map fun a b same => Fin.ext ?_
  rw [← toNat_ofNat8 (n := a.val) (by omega), ← toNat_ofNat8 (n := b.val) (by omega)]
  exact congrArg BitVec.toNat same

include table

theorem storedValue_numbered (p : Fin n × BitVec 16) :
    storedValue range (numbered p) = clampTo (limits p.1) p.2.toNat := by
  simp only [storedValue, toNat_numbered small, table]
  rfl

theorem pairsRefused_numbered {pairs : List (Fin n × BitVec 16)} (nonempty : pairs ≠ [])
    (nodup : (pairs.map Prod.fst).Nodup) : pairsRefused range (pairs.map numbered) = false := by
  have known : (pairs.map numbered).any (fun p => (range p.1.toNat).isNone) = false := by
    simp [List.any_map, toNat_numbered small, table]
  rw [pairsRefused, known, decide_eq_true (nodup_numbered small nodup)]
  simpa using nonempty

theorem okUnless_anyClamped (pairs : List (Fin n × BitVec 16)) :
    okUnless (anyClamped range (pairs.map numbered)) =
      if pairs.all (fun p => clampTo (limits p.1) p.2.toNat == p.2.toNat) then .ok else .okClamped := by
  rw [← okUnless_not, anyClamped, List.any_map, List.not_all_eq_any_not]
  congr 2
  funext p
  exact congrArg (· != p.2.toNat) (storedValue_numbered small table p)

theorem storedBytes_numbered (pairs : List (Fin n × BitVec 16)) :
    storedBytes range (pairs.map numbered) = pairs.flatMap fun p => byte2 (clampTo (limits p.1) p.2.toNat) := by
  simp only [storedBytes, List.flatMap_map, storedValue_numbered small table]

/-- What a list of distinct numbers leaves in a block of settings that one store changes at its number alone. -/
theorem value_foldl_store {α : Type} {value : α → Fin n → Nat} {store : α → Nat → Nat → α}
    (pairs : List (Fin n × BitVec 16))
    (stored : ∀ t, ∀ p ∈ pairs, value (store t p.1.val (clampTo (limits p.1) p.2.toNat)) =
      Function.update (value t) p.1 (clampTo (limits p.1) p.2.toNat))
    (nodup : (pairs.map Prod.fst).Nodup) (t : α) (k : Fin n) :
    value ((pairs.map numbered).foldl (fun t p => store t p.1.toNat (storedValue range p)) t) k =
      (pairs.find? fun p => p.1 == k).elim (value t k) fun p => clampTo (limits k) p.2.toNat := by
  induction pairs generalizing t with
  | nil => rfl
  | cons p pairs ih =>
    obtain ⟨fresh, nodup⟩ := List.nodup_cons.mp nodup
    rw [List.map_cons, List.foldl_cons, ih (fun t q mem => stored t q (List.mem_cons_of_mem _ mem)) nodup,
      toNat_numbered small, storedValue_numbered small table, stored t p List.mem_cons_self]
    by_cases same : p.1 = k
    · subst same
      have unnamed : pairs.find? (fun q => q.1 == p.1) = none := by
        refine List.find?_eq_none.mpr fun q mem named => fresh ?_
        exact List.mem_map.mpr ⟨q, mem, beq_iff_eq.mp named⟩
      rw [unnamed, List.find?_cons_of_pos (by simp)]
      simp
    · rw [List.find?_cons_of_neg (by simpa using same), Function.update_of_ne (Ne.symm same)]

end

/-- What R11 item 2 refuses of a list of numbered values. -/
theorem pairsRefused_eq_true {range : Nat → Option (Nat × Nat)} {last : Nat} (beyond : ∀ k, last < k → range k = none)
    {pairs : List (Byte × BitVec 16)}
    (h : pairs = [] ∨ (∃ p ∈ pairs, last < p.1.toNat) ∨ ¬(pairs.map Prod.fst).Nodup) :
    pairsRefused range pairs = true := by
  rcases h with rfl | ⟨p, mem, big⟩ | twice
  · rfl
  · have unknown : pairs.any (fun p => (range p.1.toNat).isNone) = true :=
      List.any_eq_true.mpr ⟨p, mem, by rw [beyond _ big]; rfl⟩
    simp [pairsRefused, unknown]
  · simp [pairsRefused, twice]

/-! ### The two tables -/

theorem timerRange_val (k : Fin 13) : timerRange k.val = some (timerLimits k) := by
  fin_cases k <;> rfl

theorem timerRange_beyond (k : Nat) (h : 12 < k) : timerRange k = none := by
  obtain ⟨m, rfl⟩ := Nat.exists_eq_add_of_le' h
  rfl

theorem TimerSettings.value_store (t : TimerSettings) (k : Fin 13) (v : Nat) :
    (t.store k.val v).value = Function.update t.value k v := by
  funext j
  fin_cases k <;> fin_cases j <;> rfl

theorem evaluatorRange_val (k : Fin 11) : evaluatorRange k.val = some (evaluatorLimits k) := by
  fin_cases k <;> rfl

theorem evaluatorRange_beyond (k : Nat) (h : 10 < k) : evaluatorRange k = none := by
  obtain ⟨m, rfl⟩ := Nat.exists_eq_add_of_le' h
  rfl

/-- A two-valued setting keeps what is stored in it when that is one of its two values. -/
theorem EvaluatorSettings.value_store (e : EvaluatorSettings) (k : Fin 11) (v : Nat) (two : 8 ≤ k.val → v ≤ 1) :
    (e.store k.val v).value = Function.update e.value k v := by
  funext j
  match k with
  | 0 | 1 | 2 | 3 | 4 | 5 | 6 | 7 => fin_cases j <;> rfl
  | 8 | 9 | 10 =>
    rcases Nat.le_one_iff_eq_zero_or_eq_one.mp (two (by decide)) with rfl | rfl <;> fin_cases j <;> rfl

theorem clampTo_evaluatorLimits_le_one {k : Fin 11} (h : 8 ≤ k.val) (v : Nat) : clampTo (evaluatorLimits k) v ≤ 1 := by
  match k with
  | 0 | 1 | 2 | 3 | 4 | 5 | 6 | 7 => exact absurd h (by decide)
  | 8 | 9 | 10 => exact max_le (by decide) (min_le_left 1 v)

/-! ### The requests -/

theorem takeSetTimers_accepted {pairs : List (Fin 13 × BitVec 16)} (nonempty : pairs ≠ [])
    (nodup : (pairs.map Prod.fst).Nodup) :
    takeSetTimers (pairs.map numbered) s =
      ({ status := if pairs.all (fun p => clampTo (timerLimits p.1) p.2.toNat == p.2.toNat) then .ok else .okClamped
         results := pairs.flatMap fun p => byte2 (clampTo (timerLimits p.1) p.2.toNat) },
        { s with settings := { s.settings with
            timers :=
              (pairs.map numbered).foldl (fun t p => t.store p.1.toNat (storedValue timerRange p)) s.settings.timers } }) := by
  rw [takeSetTimers, pairsRefused_numbered (by decide) timerRange_val nonempty nodup,
    okUnless_anyClamped (by decide) timerRange_val, storedBytes_numbered (by decide) timerRange_val]
  rfl

theorem takeSetTimers_refused {pairs : List (Byte × BitVec 16)}
    (h : pairs = [] ∨ (∃ p ∈ pairs, 12 < p.1.toNat) ∨ ¬(pairs.map Prod.fst).Nodup) :
    takeSetTimers pairs s = (refuse .badArg, s) :=
  if_pos (pairsRefused_eq_true timerRange_beyond h)

theorem outsideTwo_eq_true_iff (p : Byte × BitVec 16) :
    outsideTwo p = true ↔ 8 ≤ p.1.toNat ∧ p.1.toNat ≤ 10 ∧ 1 < p.2.toNat := by
  simp [outsideTwo, and_assoc]

theorem takeSetEvaluator_accepted {pairs : List (Fin 11 × BitVec 16)} (nonempty : pairs ≠ [])
    (nodup : (pairs.map Prod.fst).Nodup) (two : ∀ p ∈ pairs, 8 ≤ p.1.val → p.2.toNat ≤ 1) :
    takeSetEvaluator (pairs.map numbered) s =
      ({ status := if pairs.all (fun p => clampTo (evaluatorLimits p.1) p.2.toNat == p.2.toNat) then .ok else .okClamped
         results := pairs.flatMap fun p => byte2 (clampTo (evaluatorLimits p.1) p.2.toNat) },
        { s with settings := { s.settings with
            evaluator :=
              (pairs.map numbered).foldl (fun e p => e.store p.1.toNat (storedValue evaluatorRange p)) s.settings.evaluator } }) := by
  have within : (pairs.map numbered).any outsideTwo = false := by
    refine List.any_eq_false.mpr fun q named bad => ?_
    obtain ⟨p, mem, rfl⟩ := List.mem_map.mp named
    obtain ⟨flag, _, above⟩ := (outsideTwo_eq_true_iff _).mp bad
    rw [toNat_numbered (by decide)] at flag
    exact absurd (two p mem flag) (Nat.not_le.mpr above)
  rw [takeSetEvaluator, pairsRefused_numbered (by decide) evaluatorRange_val nonempty nodup, within,
    okUnless_anyClamped (by decide) evaluatorRange_val, storedBytes_numbered (by decide) evaluatorRange_val]
  rfl

theorem takeSetEvaluator_refused {pairs : List (Byte × BitVec 16)}
    (h : pairs = [] ∨ (∃ p ∈ pairs, 10 < p.1.toNat) ∨ ¬(pairs.map Prod.fst).Nodup ∨
      ∃ p ∈ pairs, 8 ≤ p.1.toNat ∧ p.1.toNat ≤ 10 ∧ 1 < p.2.toNat) :
    takeSetEvaluator pairs s = (refuse .badArg, s) := by
  refine if_pos (Bool.or_eq_true_iff.mpr ?_)
  rcases h with none | unknown | twice | ⟨p, mem, two⟩
  · exact .inl (pairsRefused_eq_true evaluatorRange_beyond (.inl none))
  · exact .inl (pairsRefused_eq_true evaluatorRange_beyond (.inr (.inl unknown)))
  · exact .inl (pairsRefused_eq_true evaluatorRange_beyond (.inr (.inr twice)))
  · exact .inr (List.any_eq_true.mpr ⟨p, mem, (outsideTwo_eq_true_iff p).mpr two⟩)

/-- Settles O13: both requests by the one lemma on lists of numbered values. -/
theorem numberedSettingsStoredClamped : Obligations.NumberedSettingsStoredClamped := by
  refine ⟨fun tag s pairs idle nonempty nodup => ?_, fun tag s pairs idle nonempty nodup two => ?_⟩
  · refine ⟨_, fun k => ?_, answer_of_portFree idle tag (r := .setTimers ..) (takeSetTimers_accepted nonempty nodup)⟩
    refine (value_foldl_store (by decide) timerRange_val pairs (fun t p _ => t.value_store ..) nodup _ k).trans ?_
    cases pairs.find? fun p => p.1 == k <;> rfl
  · refine ⟨_, fun k => ?_, answer_of_portFree idle tag (r := .setEvaluator ..) (takeSetEvaluator_accepted nonempty nodup two),
      fun tag s pairs idle => ⟨fun h => ?_, fun h => ?_⟩⟩
    · refine (value_foldl_store (by decide) evaluatorRange_val pairs
        (fun e p _ => e.value_store _ _ fun flag => clampTo_evaluatorLimits_le_one flag _) nodup _ k).trans ?_
      cases pairs.find? fun p => p.1 == k <;> rfl
    · exact refused_of_take idle tag (r := .setTimers ..) (takeSetTimers_refused h)
    · exact refused_of_take idle tag (r := .setEvaluator ..) (takeSetEvaluator_refused h)

end Sys2Proof.Machine
end

