-- ==== Sys2Proof/Proofs/LastRelease.lean ====
section
/-! The echo of the last release of a clearing (O24): the order leaves the window, the channel and the context become FREE,
the record returns (R68), the notice is filed, and with the last context a drain ends (R5). -/

namespace Sys2Proof.Machine

open State

variable {s : State} {b : BaseIx} {c : CallIx} {i : CallInfo} {cause : ClearCause}

/-- Nothing owed, nothing sent (R32). -/
theorem State.sendOwed_nothing (admission : (s.base b).owedAdmission = false)
    (releases : (s.base b).owedReleases = Table.fill 8 false) : s.sendOwed b = s := by
  have none : (s.base b).owedReleases.lowest id = none :=
    (Table.lowest_eq_none_iff ..).mpr fun k => by rw [releases, Table.get_fill]; rfl
  simp only [State.sendOwed, admission, none, Bool.false_eq_true, if_false, ite_self]

/-- The last channel of a clearing gone (R84). -/
theorem State.freeIfDone_last (call : (s.ctx c).call = some i) (stage : i.stage = .clearing cause)
    (gone : ∀ p, (s.chan p).ownedBy (s.ownerOf c) = false) : s.freeIfDone c = s.freeContext c i cause := by
  simp only [State.freeIfDone, call, stage, if_pos ((State.owned_eq_nil_iff _).mpr gone)]

/-- The table of R68 for an ENGAGED record, by the zone that its call went to or came from. -/
def State.returnedTo (s : State) (slot : SlotIx) (h : Handset) (at_ : BaseIx) (pending : Bool) :
    Option ZoneIx → State
  | some zone => s.setStatus slot h (.enrolled (some zone))
  | none =>
    if pending then (s.setStatus slot h (.enrolled none)).post (.detached slot h.tag at_)
    else if h.barred then (s.setStatus slot h (.enrolled none)).post (.withdrawn slot h.tag at_ false)
    else s.setStatus slot h (.attached at_ s.lifetimeTicks none)

theorem State.returnRecord_engaged {h : Handset} {at_ : BaseIx} {d : CallIx} {pending : Bool}
    (held : s.handset i.slot = some h) (status : h.status = .engaged at_ d pending) :
    s.returnRecord i cause = s.returnedTo i.slot h at_ pending (i.returnZone cause) := by
  simp only [State.returnRecord, held, status]
  cases i.returnZone cause <;> rfl

/-- The state with the drain ended, or as it is (R5). -/
def State.drained (s : State) (last : Bool) : State :=
  if last then ({ s with runState := .standby }).post (.runState .draining .standby .drainDone) else s

/-- A drain ends when the last context becomes FREE, and then alone. -/
theorem State.endDrain_eq {last : Bool} (h : last = true ↔ s.runState = .draining ∧ ∀ d, (s.ctx d).call = none) :
    s.endDrain = s.drained last := by
  cases last with
  | true =>
    obtain ⟨draining, free⟩ := h.mp rfl
    rw [State.endDrain, if_pos ⟨draining, s.allFree_iff.mpr free⟩, State.enter, draining]
    rfl
  | false =>
    have no : ¬(s.runState = .draining ∧ s.allFree = true) := fun ⟨draining, free⟩ =>
      Bool.false_ne_true (h.mpr ⟨draining, s.allFree_iff.mp free⟩)
    rw [State.endDrain, if_neg no]
    rfl

/-- With context `c` made FREE every context is, when every other one was. -/
theorem State.ctx_freed_call_iff :
    (∀ d, ((s.setCtx c (s.ctx c).freed).ctx d).call = none) ↔ ∀ d, d ≠ c → (s.ctx d).call = none := by
  refine ⟨fun free d other => ?_, fun free d => ?_⟩
  · rw [← State.ctx_setCtx_ne (s := s) (s.ctx c).freed (Ne.symm other)]
    exact free d
  · by_cases same : d = c
    · subst same
      rw [State.ctx_setCtx_self]
      rfl
    · rw [State.ctx_setCtx_ne _ _ (Ne.symm same)]
      exact free d same

/-- A CLEARING context that becomes FREE, with its ENGAGED record (R84). -/
theorem State.freeContext_engaged {h : Handset} {at_ : BaseIx} {d : CallIx} {pending last : Bool}
    (held : s.handset i.slot = some h) (status : h.status = .engaged at_ d pending)
    (drained : last = true ↔ s.runState = .draining ∧ ∀ d, d ≠ c → (s.ctx d).call = none) :
    s.freeContext c i cause =
      (((s.setCtx c (s.ctx c).freed).returnedTo i.slot h at_ pending (i.returnZone cause)).post
        (i.endNotice c cause)).drained last := by
  have still := returnRecord_still (s.setCtx c (s.ctx c).freed) i cause
  have record := State.returnRecord_engaged (s := s.setCtx c (s.ctx c).freed) (cause := cause) held status
  rw [State.freeContext, State.endDrain_eq (last := last), record]
  refine drained.trans (and_congr (Eq.congr_left still.runState.symm) ?_)
  rw [← State.ctx_freed_call_iff]
  exact forall_congr' fun d => by rw [← still.ctx d]; rfl

/-- A heard echo of a release that a context placed for itself: its entry and its channel go, and the context is told. -/
theorem State.takeEcho_release {serial : Byte} {e : WindowEntry} {ch : ChanIx}
    (found : (s.base b).window.find? (fun x => x.serial == serial) = some e)
    (admission : (s.base b).owedAdmission = false) (releases : (s.base b).owedReleases = Table.fill 8 false)
    (kind : e.kind = .release) (placer : e.placer = .callUnit) (owner : e.owner = .call c (s.ctx c).use 0)
    (channel : e.channel = some ch) :
    s.takeEcho b serial = ((s.setBase b ((s.base b).depart serial 0)).setChan ⟨b, ch⟩ .free).freeIfDone c := by
  have sent := State.sendOwed_nothing (s := s.setBase b ((s.base b).depart serial 0)) (b := b)
    (by rw [State.base_setBase_self]; exact admission) (by rw [State.base_setBase_self]; exact releases)
  simp only [State.takeEcho, found, sent, State.outcome, placer, State.callUnitOutcome, kind, channel,
    State.releaseOutcome, owner]
  exact if_pos rfl

/-- Settles O24: the entry's departure, then the end of the clearing. -/
theorem releaseEchoEndsClearing : Obligations.ReleaseEchoEndsClearing := by
  intro s o serial e c i h at_ ch cause pending last b hears service found admission releases kind placer owner channel
    call stage owns held status drained freed becomes elsewhere returned noted
  have takes : (s.hears o && (s.base b).state.takesEcho) = true := by rw [hears, service]; rfl
  have taken : exec (.echo o serial) s = .next (s.fresh.takeEcho b serial) := congrArg Host.Outcome.next (if_pos takes)
  let gone := (s.fresh.setBase b ((s.base b).depart serial 0)).setChan ⟨b, ch⟩ .free
  have free (p : ChanRef) : (gone.chan p).ownedBy (gone.ownerOf c) = false := by
    by_cases same : (⟨b, ch⟩ : ChanRef) = p
    · rw [← same, State.chan_setChan_self]
      rfl
    · rw [State.chan_setChan_ne _ _ same]
      exact Bool.eq_false_iff.mpr fun owned => same ((owns p).mp owned).symm
  have zone : elsewhere = i.returnZone cause := by
    cases cause <;> cases k : i.kind <;> simp [elsewhere, CallInfo.returnZone, k]
  have record : returned = freed.returnedTo i.slot h at_ pending (i.returnZone cause) := by
    simp only [returned, zone]
    cases i.returnZone cause <;> rfl
  have notice : noted = returned.post (i.endNotice c cause) := by
    cases cause <;> cases k : i.kind <;> simp [noted, CallInfo.endNotice, k]
  calc exec (.echo o serial) s
      = .next (gone.freeIfDone c) := taken.trans (congrArg _
          (State.takeEcho_release (s := s.fresh) found admission releases kind placer owner channel))
    _ = .next (noted.drained last) := by
      rw [State.freeIfDone_last (s := gone) call stage free,
        State.freeContext_engaged (s := gone) held status drained, notice, record]
      rfl

end Sys2Proof.Machine
end

