-- ==== Sys2Proof/Proofs/Layout.lean ====
section
/-! The bytes of a reply (R183): each layout of the model beside the one that O14 spells. -/

namespace Sys2Proof.Machine

open State

/-! ### Numbers -/

/-- The byte of a number at a place, cut from a wider word. -/
theorem extract_ofNat {w k n : Nat} (inside : k + 8 ≤ w) :
    (BitVec.ofNat w n).extractLsb' k 8 = BitVec.ofNat 8 (n / 2 ^ k) := by
  apply BitVec.eq_of_toNat_eq
  rw [BitVec.extractLsb'_toNat, BitVec.toNat_ofNat, BitVec.toNat_ofNat, Nat.shiftRight_eq_div_pow]
  obtain ⟨m, rfl⟩ := Nat.exists_eq_add_of_le inside
  rw [show k + 8 + m = k + (8 + m) by omega, pow_add, Nat.mod_mul_right_div_self, pow_add, Nat.mod_mul_right_mod]

theorem byte2_eq (n : Nat) : byte2 n = wide 2 n := by
  simp only [byte2, split16, extract_ofNat (show 8 + 8 ≤ 16 by decide), extract_ofNat (show 0 + 8 ≤ 16 by decide), wide,
    pow_zero, Nat.div_one]
  rfl

theorem byte4_eq (n : Nat) : byte4 n = wide 4 n := by
  simp only [byte4, split32, extract_ofNat (show 24 + 8 ≤ 32 by decide), extract_ofNat (show 16 + 8 ≤ 32 by decide),
    extract_ofNat (show 8 + 8 ≤ 32 by decide), extract_ofNat (show 0 + 8 ≤ 32 by decide), wide, pow_zero, Nat.div_one,
    Nat.div_div_eq_div_mul]
  rfl

theorem byte1_eq (n : Nat) : byte1 n = [BitVec.ofNat 8 n] := rfl

/-- A signed number in two bytes: its quotient by 256, rounded down, and its low byte. -/
theorem signed2_eq (n : Int) : signed2 n = [BitVec.ofInt 8 (n / 256), BitVec.ofInt 8 n] := by
  have high : (BitVec.ofInt 16 n).extractLsb' 8 8 = BitVec.ofInt 8 (n / 256) := by
    apply BitVec.eq_of_toNat_eq
    rw [BitVec.extractLsb'_toNat, BitVec.toNat_ofInt, BitVec.toNat_ofInt, Nat.shiftRight_eq_div_pow]
    omega
  have low : (BitVec.ofInt 16 n).extractLsb' 0 8 = BitVec.ofInt 8 n := by
    apply BitVec.eq_of_toNat_eq
    rw [BitVec.extractLsb'_toNat, BitVec.toNat_ofInt, BitVec.toNat_ofInt, Nat.shiftRight_zero]
    omega
  rw [signed2, split16, high, low]

/-! ### Fields that may be absent -/

theorem orAbsent_eq {α : Type} (w : Nat) (code : α → List Byte) (o : Option α) :
    orAbsent w code o = fieldOr w (o.map code) := by
  cases o <;> rfl

theorem remaining_eq (d : Option Nat) : remaining d = fieldOr 4 (d.map (wide 4)) := by
  rw [remaining, orAbsent_eq, funext byte4_eq]

/-! ### Enumerated values -/

theorem BaseState.code_eq (x : BaseState) : BitVec.ofNat 8 x.code = placeIn baseStates x := by cases x <;> rfl

theorem healthCode_eq (x : Health) : BitVec.ofNat 8 (healthCode x) = placeIn [Health.ok, .degraded, .failed] x := by
  cases x <;> rfl

theorem OrderKind.code_eq (x : OrderKind) :
    BitVec.ofNat 8 x.code = placeIn [OrderKind.assign, .release, .move, .answer, .admission] x := by cases x <;> rfl

theorem Placer.code_eq (x : Placer) :
    BitVec.ofNat 8 x.code = placeIn [Placer.callUnit, .sequencer, .registration, .baseLink] x := by cases x <;> rfl

theorem Compare.code_eq (x : Compare) :
    BitVec.ofNat 8 x.code = placeIn [Compare.better, .equal, .worse, .unordered] x := by cases x <;> rfl

theorem Channel.code_eq (x : Channel) : byte1 x.code = [channelState x] := by cases x <;> rfl

theorem ClearCause.bytes_eq (x : ClearCause) : x.bytes = causeFields x := by
  cases x with
  | setupFailed reason => cases reason <;> rfl
  | _ => rfl

/-! ### Composite fields -/

theorem ChanRef.bytes_eq : ChanRef.bytes = refFields := rfl

theorem OrderOwner.bytes_eq (o : OrderOwner) : o.bytes = ownerFields o := by
  cases o with
  | slot i => exact congrArg (· ++ [0, 0]) (byte2_eq i.val)
  | _ => rfl

theorem WindowEntry.bytes_eq (e : WindowEntry) : e.bytes = entryFields e := by
  simp only [WindowEntry.bytes, entryFields, byte1_eq, OrderKind.code_eq, Placer.code_eq, OrderOwner.bytes_eq, orAbsent_eq,
    byte4_eq, List.cons_append, List.nil_append]

theorem Candidate.bytes_eq (e : Candidate) : e.bytes = candidateFields e := by
  simp only [Candidate.bytes, candidateFields, targetBytes_eq, byte1_eq, byte2_eq, Compare.code_eq, orAbsent_eq, remaining_eq,
    List.append_assoc, List.cons_append, List.nil_append, funext signed2_eq]

theorem counted_eq {α : Type} (code : α → List Byte) (l : List α) :
    counted code l = BitVec.ofNat 8 l.length :: l.flatMap code := rfl

theorem counted_indices {n : Nat} (l : List (Fin n)) :
    counted (fun c : Fin n => byte1 c.val) l = BitVec.ofNat 8 l.length :: l.map fun c => BitVec.ofNat 8 c.val := by
  rw [counted_eq, List.map_eq_flatMap]
  rfl

/-- Phase, handover record and guard, by the phase. -/
theorem Context.handoverBytes_eq (x : Context) (clearing : Bool) :
    x.handoverBytes clearing =
      phaseFields (if clearing then fun _ => 0xFF else id) x.phase ++ fieldOr 4 (x.guard.map (wide 4)) ++
        [x.orderNo, BitVec.ofNat 8 x.attempts] := by
  simp only [Context.handoverBytes, remaining_eq, byte1_eq, orAbsent_eq]
  cases e : x.phase <;> cases clearing <;>
    simp [phaseFields, Phase.name, Phase.target, Phase.targetChannel, Phase.rescue, Phase.old, Phase.strayField,
      Phase.deadline, targetBytes_eq, flagByte_eq, byte1_eq, ChanRef.bytes_eq, PhaseName.code, fieldOr, List.replicate]

end Sys2Proof.Machine
end

