-- ==== Sys2Proof/Proofs/Reports.lean ====
section
/-! IDENTIFY, READ SETTINGS and the queries (O14). -/

namespace Sys2Proof.Machine

open State

variable {s : State}

/-! ### IDENTIFY and READ SETTINGS -/

theorem TimerSettings.bytes_eq (v : TimerSettings) :
    v.bytes = wide 1 v.echo ++ wide 2 v.setup ++ wide 1 v.switch ++ wide 2 v.zone ++ wide 2 v.guard ++ wide 2 v.penalty ++
      wide 1 v.gap ++ wide 1 v.heartbeat ++ wide 2 v.settleCold ++ wide 2 v.settleWarm ++ wide 2 v.hold ++
      wide 1 v.spacing ++ wide 1 v.lifetime := by
  simp only [TimerSettings.bytes, byte2_eq]
  rfl

theorem EvaluatorSettings.bytes_eq (v : EvaluatorSettings) :
    v.bytes = wide 1 v.smoothing ++ wide 1 v.hysteresis ++ wide 1 v.dwell ++ wide 1 v.rescueFloor ++
      wide 1 v.loadPenalty ++ wide 1 v.divergence ++ wide 1 v.diversity ++ wide 1 v.highClass ++
      [yesNo v.divergeMasked, yesNo v.saturateMasked, yesNo v.markOnFailure] := by
  simp only [EvaluatorSettings.bytes, flagByte_eq]
  rfl

theorem takeReadSettings_base (b : BaseIx) :
    takeReadSettings 3 (BitVec.ofNat 8 b.val) s =
      (okay ([yesNo (s.cfg b).enabled, BitVec.ofNat 8 (s.cfg b).channels, BitVec.ofNat 8 (s.cfg b).neighbours.length] ++
        (s.cfg b).neighbours.flatMap fun n => [targetByte n.target, BitVec.ofInt 8 n.offset]), s) := by
  have entry : Neighbour.bytes = fun n => [targetByte n.target, BitVec.ofInt 8 n.offset] := by
    funext n
    rw [Neighbour.bytes, targetBytes_eq]
    rfl
  simp only [takeReadSettings, asBase_byte, flagByte_eq, counted_eq, entry]
  rfl

theorem takeReadSettings_badArg {group : Byte} (h : 3 < group.toNat) (base : Byte) :
    takeReadSettings group base s = (refuse .badArg, s) := by
  have other {k : Byte} (small : k.toNat ≤ 3) : group ≠ k := by rintro rfl; omega
  rw [takeReadSettings, if_neg (other (by decide)), if_neg (other (by decide)), if_neg (other (by decide)),
    if_neg (other (by decide))]

/-! ### QUERY BASE -/

theorem flatMap_byte {n : Nat} (l : List (Fin n)) :
    (l.flatMap fun c => [BitVec.ofNat 8 c.val]) = l.map fun c => BitVec.ofNat 8 c.val := List.map_eq_flatMap.symm

theorem BaseRecord.owedList_eq (r : BaseRecord) :
    r.owedList = (List.finRange 8).filter fun c => r.owedReleases.get c := rfl

theorem portOf_val (b : BaseIx) : (portOf b).val = b.val / 8 := rfl

theorem noCarrier_byte (carrier : Bool) :
    BitVec.ofNat 8 (if carrier then 0 else 1) = if carrier then (0 : Byte) else 1 := by cases carrier <;> rfl

theorem State.baseBytes_eq (s : State) (b : BaseIx) : s.baseBytes b = s.baseFields b := by
  unfold State.baseBytes State.baseFields
  simp only [byte1_eq, flagByte_eq, BaseState.code_eq, healthCode_eq, orAbsent_eq, byte4_eq, byte2_eq, remaining_eq,
    counted_eq, flatMap_byte, BaseRecord.owedList_eq, portOf_val, noCarrier_byte, funext WindowEntry.bytes_eq,
    List.append_assoc, List.cons_append, List.nil_append]

theorem takeQueryBase_eq (b : BaseIx) (clear : Bool) :
    takeQueryBase (BitVec.ofNat 8 b.val) (yesNo clear) s =
      (okay (s.baseFields b), if clear then s.setBase b (s.base b).cleared else s) := by
  simp only [takeQueryBase, asBase_byte, asFlag_yesNo, State.baseBytes_eq]

/-! ### QUERY CALL -/

theorem takeQueryCall_free {c : CallIx} (free : (s.ctx c).call = none) :
    takeQueryCall (BitVec.ofNat 8 c.val) s = (okay [0, (s.ctx c).use], s) := by
  simp only [takeQueryCall, asCall_byte, free]
  rfl

theorem State.owned_eq (s : State) (o : Owner) :
    s.owned o = ((List.finRange 32).flatMap fun b => (List.finRange 8).map fun k => (⟨b, k⟩ : ChanRef)).filter fun p =>
      (s.chan p).ownedBy o := rfl

theorem State.ownedBytes_eq (s : State) (c : CallIx) :
    s.ownedBytes c = BitVec.ofNat 8 (s.owned (s.ownerOf c)).length ::
      (s.owned (s.ownerOf c)).flatMap fun p => refFields p ++ [channelState (s.chan p)] := by
  simp only [State.ownedBytes, counted_eq, Channel.code_eq, ChanRef.bytes_eq]

theorem State.callBytes_eq (s : State) (c : CallIx) (i : CallInfo) : s.callBytes c i = s.callFields c i := by
  unfold State.callBytes State.callFields
  rw [← State.owned_eq]
  generalize listed : s.owned (s.ownerOf c) = owned
  simp only [State.ownedBytes_eq, listed, Context.handoverBytes_eq, byte4_eq, flagByte_eq, ChanRef.bytes_eq, orAbsent_eq,
    counted_eq, funext Candidate.bytes_eq, funext byte2_eq, byte1_eq]
  have kind : i.kind = .localCall .terminating ∨ i.kind = .localCall .originated ∨ ∃ zone, i.kind = .zoneIn zone := by
    rcases i.kind with (_ | _) | zone
    · exact .inl rfl
    · exact .inr (.inl rfl)
    · exact .inr (.inr ⟨zone, rfl⟩)
  have absent : fieldOr 4 none = [0xFF, 0xFF, 0xFF, 0xFF] := rfl
  cases i.stage <;> rcases kind with kind | kind | ⟨zone, kind⟩ <;>
    simp only [kind, SetupKind.bytes, Direction.code, Stage.bytes, Stage.code, Stage.isClearing, ClearCause.bytes_eq,
      remaining_eq, byte1_eq, Option.map_none, absent, Bool.false_eq_true, if_false, if_true, List.append_assoc,
      List.cons_append, List.nil_append] <;>
    rfl

theorem takeQueryCall_used {c : CallIx} {i : CallInfo} (call : (s.ctx c).call = some i) :
    takeQueryCall (BitVec.ofNat 8 c.val) s = (okay (s.callFields c i), s) := by
  simp only [takeQueryCall, asCall_byte, call, State.callBytes_eq]

/-! ### QUERY CONDITIONS -/

theorem State.mem_callsWhere (p : Context → Bool) (c : CallIx) : c ∈ s.callsWhere p ↔ p (s.ctx c) = true := by
  simp [State.callsWhere]

theorem State.pairwise_callsWhere (s : State) (p : Context → Bool) : (s.callsWhere p).Pairwise (· < ·) :=
  (List.pairwise_lt_finRange 96).filter _

theorem takeQueryConditions_eq :
    takeQueryConditions s = (okay ([yesNo s.divergeSticky, yesNo s.saturateSticky] ++
      (BitVec.ofNat 8 (s.callsWhere Context.divergeSticky).length ::
        (s.callsWhere Context.divergeSticky).map fun c => BitVec.ofNat 8 c.val) ++
      (BitVec.ofNat 8 (s.callsWhere Context.saturateSticky).length ::
        (s.callsWhere Context.saturateSticky).map fun c => BitVec.ofNat 8 c.val)), s) := by
  simp only [takeQueryConditions, State.stickyBytes, flagByte_eq, counted_indices, List.singleton_append]

/-! ### READ CAPTURE -/

/-- The reply of READ CAPTURE for a slot (R175). -/
def CaptureSlot.report (first : Nat) : CaptureSlot → Reply
  | .empty => refuse .none
  | .armedMark _ => refuse .notReady
  | .armedNext _ => refuse .notReady
  | .complete h status samples zone =>
    okay ([BitVec.ofNat 8 h.call.val] ++ byte4 h.tag.toNat ++
      [BitVec.ofNat 8 h.mode.code, BitVec.ofNat 8 h.count, BitVec.ofNat 8 status.code,
        BitVec.ofNat 8 samples.length] ++ ((samples.drop first).take 8).flatMap (Sample.bytes zone))

theorem takeReadCapture_eq (k : CapIx) (first : Fin 16) :
    takeReadCapture (BitVec.ofNat 8 k.val) (BitVec.ofNat 8 first.val) s = ((s.slots.get k).report first.val, s) := by
  have index : toIndex 16 (BitVec.ofNat 8 first.val).toNat = some first := by
    rw [toNat_ofNat8 (by omega), toIndex_val]
  simp only [takeReadCapture, asCapture_byte, index]
  cases s.slots.get k with
  | complete h status samples zone =>
    simp only [CaptureSlot.report, tagBytes, byte1_eq, List.append_assoc, List.cons_append, List.nil_append]
  | _ => rfl

/-- Settles O14: each report rewritten into the layout of its rule. -/
theorem identifySettingsAndQueriesReport : Obligations.IdentifySettingsAndQueriesReport := by
  refine ⟨fun tag s idle => ⟨?_, fun base => ?_, fun base => ?_, fun base => ?_, fun b => ?_, fun group base h => ?_⟩,
    fun tag s idle => ⟨fun b => ⟨?_, ?_⟩, fun c free => ?_, fun c i call => ?_, ?_, fun k first => ?_⟩⟩
  · exact answer_of_portFree idle tag (r := .identify) rfl
  · exact answer_of_portFree idle tag (r := .readSettings ..) rfl
  · have taken : takeReadSettings 1 base s.fresh = (okay s.settings.timers.bytes, s.fresh) := rfl
    rw [TimerSettings.bytes_eq] at taken
    exact answer_of_portFree idle tag (r := .readSettings ..) taken
  · have taken : takeReadSettings 2 base s.fresh = (okay s.settings.evaluator.bytes, s.fresh) := rfl
    rw [EvaluatorSettings.bytes_eq] at taken
    exact answer_of_portFree idle tag (r := .readSettings ..) taken
  · exact answer_of_portFree idle tag (r := .readSettings ..) (takeReadSettings_base (s := s.fresh) b)
  · exact refused_of_take idle tag (r := .readSettings ..) (takeReadSettings_badArg h base)
  · exact answer_of_portFree idle tag (r := .queryBase ..) (takeQueryBase_eq (s := s.fresh) b false)
  · exact answer_of_portFree idle tag (r := .queryBase ..) (takeQueryBase_eq (s := s.fresh) b true)
  · exact answer_of_portFree idle tag (r := .queryCall ..) (takeQueryCall_free (s := s.fresh) free)
  · exact answer_of_portFree idle tag (r := .queryCall ..) (takeQueryCall_used (s := s.fresh) call)
  · exact ⟨s.callsWhere Context.divergeSticky, s.callsWhere Context.saturateSticky, State.mem_callsWhere _,
      State.mem_callsWhere _, s.pairwise_callsWhere _, s.pairwise_callsWhere _,
      answer_of_portFree idle tag (r := .queryConditions) (takeQueryConditions_eq (s := s.fresh))⟩
  · refine (answer_of_portFree idle tag (r := .readCapture ..) (takeReadCapture_eq (s := s.fresh) k first)).trans ?_
    rw [show s.fresh.slots = s.slots from rfl]
    cases s.slots.get k <;> rfl

end Sys2Proof.Machine
end

