-- ==== Sys2Proof/Proofs/PortAnswers.lean ====
section
/-! What the port answers itself (O30): the codes outside the table of section 12.4, the frames with a wrong number of
parameter bytes, and RESET. -/

namespace Sys2Proof.Machine

open State

variable {s : State} {tag code : Byte} {params : List Byte}

/-! ### The table of section 12.4 and the parser -/

/-- The table requires a number of bytes of each code of the catalogue, and of no other. -/
theorem requiredCount_ne_none_iff : requiredCount code params ≠ none ↔ code ∈ catalogue := by
  refine ⟨fun some => ?_, fun mem => ?_⟩
  · by_contra other
    have outside (l : List Byte) (part : ∀ c ∈ l, c ∈ catalogue) : code ∉ l := fun mem => other (part code mem)
    have apart (c : Byte) (mem : c ∈ catalogue) : code ≠ c := fun same => other (same ▸ mem)
    refine some ?_
    rw [requiredCount, if_neg (outside _ (by decide)), if_neg (outside _ (by decide)), if_neg (outside _ (by decide)),
      if_neg (apart _ (by decide)), if_neg (outside _ (by decide)), if_neg (apart _ (by decide)),
      if_neg (apart _ (by decide)), if_neg (apart _ (by decide)), if_neg (apart _ (by decide)),
      if_neg (not_or.mpr ⟨apart _ (by decide), apart _ (by decide)⟩)]
  · revert mem
    have all : ∀ c ∈ catalogue, requiredCount c params ≠ none := by simp [catalogue, requiredCount]
    exact all code

theorem length_of_parseEntries {n : Nat} {bytes : List Byte} {entries : List (Byte × Byte)}
    (h : parseEntries n bytes = some entries) : bytes.length = 2 * n := by
  fun_induction parseEntries n bytes generalizing entries with
  | case1 => rfl
  | case2 n t o rest ih =>
    obtain ⟨more, parsed, _⟩ := Option.map_eq_some_iff.mp h
    simp only [List.length_cons, ih parsed]
    omega
  | case3 => exact nomatch h

theorem length_of_parsePairs {n : Nat} {bytes : List Byte} {pairs : List (Byte × BitVec 16)}
    (h : parsePairs n bytes = some pairs) : bytes.length = 3 * n := by
  fun_induction parsePairs n bytes generalizing pairs with
  | case1 => rfl
  | case2 n k hi lo rest ih =>
    obtain ⟨more, parsed, _⟩ := Option.map_eq_some_iff.mp h
    simp only [List.length_cons, ih parsed]
    omega
  | case3 => exact nomatch h

theorem eq_of_toNat_eq_code {k : Nat} (h : code.toNat = k) : code = BitVec.ofNat 8 k := by
  rw [← h, BitVec.ofNat_toNat, BitVec.setWidth_eq]

/-- For each length of the parameters and each code: nothing is parsed, or the table requires that length. The lists, whose
count byte the table reads, are never parsed here. -/
theorem parseFixed_agrees (params : List Byte) :
    catalogue.all (fun c => (parseFixed c params).isNone || requiredCount c params == some params.length) = true := by
  match params with
  | [] | [_] | [_, _] | [_, _, _] | [_, _, _, _] | [_, _, _, _, _] | [_, _, _, _, _, _] | [_, _, _, _, _, _, _]
  | [_, _, _, _, _, _, _, _] | [_, _, _, _, _, _, _, _, _] | _ :: _ :: _ :: _ :: _ :: _ :: _ :: _ :: _ :: _ :: _ => rfl

/-- A request of fixed length is parsed from as many bytes as the table requires. -/
theorem requiredCount_of_parseFixed {r : Request} (mem : code ∈ catalogue) (h : parseFixed code params = some r) :
    requiredCount code params = some params.length := by
  simpa [h] using List.all_eq_true.mp (parseFixed_agrees params) code mem

/-- A list that is not parsed is a bad length. -/
theorem getD_badLength_or {α : Type} {parsed : Option α} {p : Prop} (f : α → Request)
    (h : ∀ x, parsed = some x → p) : (parsed.map f).getD (.badLength code) = .badLength code ∨ p := by
  cases parsed with
  | none => exact .inl rfl
  | some x => exact .inr (h x rfl)

/-- A code of the catalogue is a bad length, or has as many parameter bytes as the table requires. -/
theorem parseRequest_of_mem (mem : code ∈ catalogue) :
    parseRequest code params = .badLength code ∨ requiredCount code params = some params.length := by
  unfold parseRequest
  rw [if_pos mem]
  dsimp only
  split
  · next b n rest read =>
    refine getD_badLength_or _ fun entries parsed => ?_
    rw [eq_of_toNat_eq_code read, List.length_cons, List.length_cons, length_of_parseEntries parsed]
    exact congrArg some (Nat.add_comm _ _)
  · next n rest read =>
    refine getD_badLength_or _ fun pairs parsed => ?_
    rw [eq_of_toNat_eq_code read, List.length_cons, length_of_parsePairs parsed]
    exact congrArg some (Nat.add_comm _ _)
  · next n rest read =>
    refine getD_badLength_or _ fun pairs parsed => ?_
    rw [eq_of_toNat_eq_code read, List.length_cons, length_of_parsePairs parsed]
    exact congrArg some (Nat.add_comm _ _)
  · generalize parsed : parseFixed code _ = fixed
    cases fixed with
    | none => exact .inl rfl
    | some r => exact .inr (requiredCount_of_parseFixed mem parsed)

theorem parseRequest_unknown (h : requiredCount code params = none) : parseRequest code params = .unknown code :=
  if_neg fun mem => requiredCount_ne_none_iff.mpr mem h

theorem parseRequest_badLength {n : Nat} (h : requiredCount code params = some n) (wrong : params.length ≠ n) :
    parseRequest code params = .badLength code := by
  have mem : code ∈ catalogue := requiredCount_ne_none_iff.mp (by rw [h]; exact Option.some_ne_none n)
  refine (parseRequest_of_mem mem).resolve_right fun right => wrong ?_
  exact Option.some_inj.mp (right.symm.trans h)

/-! ### RESET -/

/-- RESET on an idle link: handed on at once, and the link left resetting with the reply on HTX (R7, R182). -/
theorem State.submit_reset (idle : s.portFree) (tag : Byte) :
    s.submit tag .reset = { s with link := { s.link with resetting := true } }.answered 0x04 tag (okay []) := by
  obtain ⟨held, resetting, buffer, refusals, executing, sending⟩ := idle
  simp only [State.submit, held, resetting, Bool.or_self, Bool.false_eq_true, if_false, Link.place, buffer,
    List.length_nil, Nat.zero_lt_succ, if_true, List.nil_append, State.advance, State.handOn, State.setLink, executing,
    State.execute, takeRequest, takeReset, State.setExecuting, Link.startTx, sending, refusals, ne_eq, not_true_eq_false,
    Option.isSome_some, State.answered, Request.code]

/-- After RESET was handed on a good frame is discarded (R182). -/
theorem State.submit_resetting (resetting : s.link.resetting = true) (tag : Byte) (r : Request) : s.submit tag r = s := by
  rw [State.submit, if_pos (by rw [resetting, Bool.or_true])]

/-- Each request of the catalogue is the arrival of its frame at the port. -/
theorem exec_commandOf {r : Request} (h : carried r) (tag : Byte) (s : State) :
    exec (commandOf tag r) s = .next (s.fresh.submit tag r) := by
  cases r with
  | unknown c => exact h.elim
  | badLength c => exact h.elim
  | _ => rfl

/-- Settles O30: the parser agrees with the table of section 12.4, and RESET alone leaves the link resetting. -/
theorem portAnswersUnknownAndReset : Obligations.PortAnswersUnknownAndReset := by
  have judged (tag code : Byte) (params : List Byte) (s : State) : exec (.unknownRequest tag code params) s =
      .next (s.fresh.submit tag (parseRequest code params)) := rfl
  refine ⟨fun tag code params s idle none => ?_, fun tag code params n s idle some wrong => ?_, fun tag s idle => ?_,
    fun r tag s known resetting => ?_⟩
  · rw [judged, parseRequest_unknown none]
    exact refused_of_take idle tag (r := .unknown code) rfl
  · rw [judged, parseRequest_badLength some wrong]
    exact refused_of_take idle tag (r := .badLength code) rfl
  · exact congrArg Host.Outcome.next (State.submit_reset (s := s.fresh) idle tag)
  · rw [exec_commandOf known, State.submit_resetting (s := s.fresh) resetting]

end Sys2Proof.Machine
end
-- ==== Sys2Proof/Proofs/Bounds.lean ====
section
/-! The bounds of windows, notice classes, link queues, counters, settings and stray counts (O55): each update of the state
keeps them, and so does every operation of the units, in the order of the definitions. -/

namespace Sys2Proof.Machine

open State

variable {s t u : State}

/-! ### The bounds of one record -/

/-- The counters of a base within their ranges (R33). -/
def BaseRecord.counted (r : BaseRecord) : Prop :=
  r.noEcho ≤ 3 ∧ r.lateEchoes ≤ 65535 ∧ r.spoiled ≤ 65535 ∧ r.droppedAnswers ≤ 65535 ∧ r.packed ≤ 65535

/-- The counters of a context within their ranges (R91, R130). -/
def Context.counted (x : Context) : Prop :=
  x.packed ≤ 255 ∧ x.unlisted ≤ 255 ∧ x.strays ≤ 255 ∧ x.attempts ≤ 255

theorem State.countersBounded_iff (s : State) :
    s.countersBounded ↔ (∀ b, (s.base b).counted) ∧ ∀ c, (s.ctx c).counted := Iff.rfl

theorem sat_le (limit n : Nat) : sat limit n ≤ limit := Nat.min_le_left ..

/-- A step from `s` to `t` keeps each of the bounds. -/
structure State.KeepsBounds (s t : State) : Prop where
  windows : s.windowsBounded → t.windowsBounded
  classes : s.classesBounded → t.classesBounded
  link : s.linkBounded → t.linkBounded
  counters : s.countersBounded → t.countersBounded
  settings : s.settingsInRange → t.settingsInRange
  strays : s.switchStraysBounded → t.switchStraysBounded

theorem State.KeepsBounds.refl (s : State) : s.KeepsBounds s := ⟨id, id, id, id, id, id⟩

theorem State.KeepsBounds.trans (h : s.KeepsBounds t) (k : t.KeepsBounds u) : s.KeepsBounds u :=
  ⟨k.windows ∘ h.windows, k.classes ∘ h.classes, k.link ∘ h.link, k.counters ∘ h.counters, k.settings ∘ h.settings,
    k.strays ∘ h.strays⟩

theorem bounds_ite {p : Prop} [Decidable p] (h : s.KeepsBounds t) (k : s.KeepsBounds u) :
    s.KeepsBounds (if p then t else u) := by
  split
  · exact h
  · exact k

theorem bounds_foldl {α : Type} (f : State → α → State) (h : ∀ s a, State.KeepsBounds s (f s a)) (l : List α) (s : State) :
    s.KeepsBounds (l.foldl f s) := by
  induction l generalizing s with
  | nil => exact .refl s
  | cons a l ih => exact (h s a).trans (ih _)

/-! ### Updates -/

/-- A change of anything but bases, contexts, classes, settings and link. -/
theorem bounds_frame (bases : t.bases = s.bases) (contexts : t.contexts = s.contexts) (classes : t.classes = s.classes)
    (settings : t.settings = s.settings) (link : t.link = s.link) : s.KeepsBounds t := by
  refine ⟨?_, ?_, ?_, ?_, ?_, ?_⟩ <;>
    simp only [State.windowsBounded, State.classesBounded, State.linkBounded, State.countersBounded, State.settingsInRange,
      State.switchStraysBounded, State.base, State.ctx, State.cfg, bases, contexts, classes, settings, link, imp_self]

/-- Base records replaced. -/
theorem bounds_bases (rs : Table BaseRecord 32)
    (window : ∀ b, (s.base b).window.length ≤ 4 → (rs.get b).window.length ≤ 4)
    (counted : ∀ b, (s.base b).counted → (rs.get b).counted) : s.KeepsBounds { s with bases := rs } :=
  ⟨fun h b => window b (h b), id, id, fun h => ⟨fun b => counted b (h.1 b), h.2⟩, id, id⟩

/-- Contexts replaced. -/
theorem bounds_contexts (xs : Table Context 96) (counted : ∀ c, (s.ctx c).counted → (xs.get c).counted)
    (strays : ∀ c, (s.ctx c).phase.strays ≤ 255 → (xs.get c).phase.strays ≤ 255) :
    s.KeepsBounds { s with contexts := xs } :=
  ⟨id, id, id, fun h => ⟨h.1, fun c => counted c (h.2 c)⟩, id, fun h c => strays c (h c)⟩

theorem bounds_setBase (b : BaseIx) (r : BaseRecord)
    (window : (s.base b).window.length ≤ 4 → r.window.length ≤ 4 := by exact id)
    (counted : (s.base b).counted → r.counted := by exact id) : s.KeepsBounds (s.setBase b r) := by
  refine bounds_bases _ (fun d h => ?_) fun d h => ?_ <;> rw [Table.get_set] <;> split
  · next n => exact window (n ▸ h)
  · exact h
  · next n => exact counted (n ▸ h)
  · exact h

theorem bounds_setCtx (c : CallIx) (x : Context) (counted : (s.ctx c).counted → x.counted := by exact id)
    (strays : (s.ctx c).phase.strays ≤ 255 → x.phase.strays ≤ 255 := by exact id) : s.KeepsBounds (s.setCtx c x) := by
  refine bounds_contexts _ (fun d h => ?_) fun d h => ?_ <;> rw [Table.get_set] <;> split
  · next n => exact counted (n ▸ h)
  · exact h
  · next n => exact strays (n ▸ h)
  · exact h

/-- A context replaced by one in no phase with the same counters. -/
theorem bounds_setCtx_none (c : CallIx) (x : Context) (none : x.phase = .none)
    (counted : (s.ctx c).counted → x.counted := by exact id) : s.KeepsBounds (s.setCtx c x) :=
  bounds_setCtx c x counted fun _ => by rw [none]; exact Nat.zero_le _

theorem NoticeClass.file_length_le {k : NoticeClass} (n : Notice) (h : k.fifo.length ≤ 8) :
    (k.file n).fifo.length ≤ 8 := by
  rcases k.file_cases n with ⟨room, e⟩ | ⟨_, e⟩ <;> rw [e]
  · rw [List.length_append, List.length_singleton]
    exact room
  · exact h

theorem NoticeClass.file_masked (k : NoticeClass) (n : Notice) : (k.file n).masked = k.masked := by
  rcases k.file_cases n with ⟨_, e⟩ | ⟨_, e⟩ <;> rw [e]

theorem bounds_post (s : State) (n : NoticeBody) : s.KeepsBounds (s.post n) := by
  refine ⟨id, fun h => ⟨fun k => ?_, ?_⟩, id, id, id, id⟩
  · by_cases same : n.cls = k
    · subst same
      rw [State.post_class_self]
      exact NoticeClass.file_length_le _ (h.1 _)
    · rw [State.post_class_ne _ _ same]
      exact h.1 k
  · by_cases same : n.cls = 0
    · have posted := State.post_class_self s n
      rw [same] at posted
      rw [posted, NoticeClass.file_masked]
      exact h.2
    · rw [State.post_class_ne _ _ same]
      exact h.2

theorem State.KeepsBounds.post (h : s.KeepsBounds t) (n : NoticeBody) : s.KeepsBounds (t.post n) :=
  h.trans (bounds_post t n)

theorem bounds_fresh (s : State) : s.KeepsBounds s.fresh := bounds_frame rfl rfl rfl rfl rfl
theorem bounds_setChan (s : State) (p : ChanRef) (k : Channel) : s.KeepsBounds (s.setChan p k) :=
  bounds_frame rfl rfl rfl rfl rfl
theorem bounds_setHandset (s : State) (i : SlotIx) (h : Option Handset) : s.KeepsBounds (s.setHandset i h) :=
  bounds_frame rfl rfl rfl rfl rfl
theorem bounds_setStatus (s : State) (i : SlotIx) (h : Handset) (w : HandsetStatus) : s.KeepsBounds (s.setStatus i h w) :=
  bounds_frame rfl rfl rfl rfl rfl
theorem bounds_setTrain (s : State) (b : BaseIx) (x : Option Train) : s.KeepsBounds (s.setTrain b x) :=
  bounds_frame rfl rfl rfl rfl rfl
theorem bounds_setSlot (s : State) (k : CapIx) (x : CaptureSlot) : s.KeepsBounds (s.setSlot k x) :=
  bounds_frame rfl rfl rfl rfl rfl
theorem bounds_setBaseState (s : State) (b : BaseIx) (w : BaseState) : s.KeepsBounds (s.setBaseState b w) :=
  bounds_setBase b _

theorem bounds_enter (s : State) (r : RunState) (w : RunCause) : s.KeepsBounds (s.enter r w) := by
  have entered : s.KeepsBounds { s with runState := r } := bounds_frame rfl rfl rfl rfl rfl
  exact entered.post _

/-! ### Orders and channels -/

theorem bounds_send (s : State) (b : BaseIx) (o : Order) (p : Placer) (w : OrderOwner)
    (room : (s.base b).window.length < 4) : s.KeepsBounds (s.send b o p w) := by
  refine State.KeepsBounds.trans (t := s.setBase b _) (bounds_setBase b _ (fun _ => ?_)) (bounds_frame rfl rfl rfl rfl rfl)
  simpa using room

theorem BaseRecord.overflow_counted (r : BaseRecord) (o : Order) (h : r.counted) : (r.overflow o).counted := by
  obtain ⟨noEcho, late, spoiled, dropped, packed⟩ := h
  cases o with
  | answer tag cause => exact ⟨noEcho, late, spoiled, sat_le .., packed⟩
  | _ => exact ⟨noEcho, late, spoiled, dropped, packed⟩

theorem BaseRecord.overflow_window (r : BaseRecord) (o : Order) : (r.overflow o).window = r.window := by cases o <;> rfl

theorem bounds_offer (s : State) (b : BaseIx) (o : Order) (p : Placer) (w : OrderOwner) :
    s.KeepsBounds (s.offer b o p w).2 := by
  rcases s.offer_cases b o p w with ⟨_, e⟩ | ⟨_, room, e⟩ | ⟨_, _, e⟩ <;> rw [e]
  · exact .refl s
  · exact bounds_send s b o p w room
  · exact bounds_setBase b _ (fun h => by rwa [BaseRecord.overflow_window]) (BaseRecord.overflow_counted _ o)

theorem bounds_sendOwed (s : State) (b : BaseIx) : s.KeepsBounds (s.sendOwed b) := by
  rcases s.sendOwed_cases b with ⟨_, e⟩ | ⟨room, _, e⟩ | ⟨c, room, _, _, e⟩ <;> rw [e]
  · exact .refl s
  · exact (bounds_setBase b _).trans (bounds_send _ b _ _ _ (by simpa using room))
  · exact ((bounds_setBase b _).trans (bounds_send _ b _ _ _ (by simpa using room))).trans (bounds_setChan ..)

theorem bounds_release (s : State) (p : ChanRef) (o : Option Owner) : s.KeepsBounds (s.release p o) := by
  rcases s.release_cases p o with ⟨_, e⟩ | ⟨_, room, e⟩ | ⟨_, _, e⟩ <;> rw [e]
  · exact bounds_setChan ..
  · exact (bounds_send s _ _ _ _ room).trans (bounds_setChan ..)
  · exact (bounds_setBase _ _).trans (bounds_setChan ..)

/-! ### The mark line and captures -/

theorem bounds_markEdge (s : State) : s.KeepsBounds s.markEdge := bounds_ite (.refl s) (bounds_frame rfl rfl rfl rfl rfl)

theorem bounds_driveMark (s : State) : s.KeepsBounds s.driveMark := by
  unfold driveMark
  dsimp only
  split
  · exact bounds_frame rfl rfl rfl rfl rfl
  · have taken : s.KeepsBounds { s with markDrive := some 2, freeCount := s.freeCount + 1 } :=
      bounds_frame rfl rfl rfl rfl rfl
    exact bounds_ite (taken.trans (bounds_markEdge _)) taken

theorem bounds_markFailure (s : State) : s.KeepsBounds s.markFailure := bounds_ite (bounds_driveMark s) (.refl s)

theorem bounds_completeSlot (s : State) (k : CapIx) (h : CaptureHeader) (w : CaptureStatus) :
    s.KeepsBounds (s.completeSlot k h w) :=
  (bounds_setSlot ..).post _

theorem bounds_endCaptures (s : State) (c : CallIx) : s.KeepsBounds (s.endCaptures c) :=
  bounds_foldl _ (fun s k => by
    unfold endCapture
    split
    · exact bounds_ite (bounds_completeSlot ..) (.refl s)
    · exact bounds_ite (bounds_completeSlot ..) (.refl s)
    · exact .refl s) _ s

/-! ### Records and clearing -/

theorem bounds_engage (s : State) (i : SlotIx) (b : BaseIx) (c : CallIx) : s.KeepsBounds (s.engage i b c) := by
  unfold engage
  split
  · exact bounds_setStatus ..
  · exact .refl s

theorem bounds_relocate (s : State) (i : SlotIx) (b : BaseIx) : s.KeepsBounds (s.relocate i b) := by
  unfold relocate
  split
  · split
    · exact bounds_setStatus ..
    · exact .refl s
  · exact .refl s

theorem bounds_returnRecord (s : State) (i : CallInfo) (w : ClearCause) : s.KeepsBounds (s.returnRecord i w) := by
  unfold returnRecord
  split
  · exact .refl s
  · split
    · split
      · exact bounds_setStatus ..
      · exact bounds_ite ((bounds_setStatus ..).post _) (bounds_ite ((bounds_setStatus ..).post _) (bounds_setStatus ..))
    · exact .refl s

theorem bounds_freeContext (s : State) (c : CallIx) (i : CallInfo) (w : ClearCause) :
    s.KeepsBounds (s.freeContext c i w) := by
  have freed : s.KeepsBounds (s.setCtx c (s.ctx c).freed) := bounds_setCtx_none c _ rfl
  exact ((freed.trans (bounds_returnRecord ..)).post _).trans (bounds_ite (bounds_enter ..) (.refl _))

theorem bounds_freeIfDone (s : State) (c : CallIx) : s.KeepsBounds (s.freeIfDone c) := by
  rcases s.freeIfDone_cases c with e | ⟨i, w, _, _, _, e⟩ <;> rw [e]
  · exact .refl s
  · exact bounds_freeContext ..

theorem bounds_clearCall (s : State) (c : CallIx) (w : ClearCause) : s.KeepsBounds (s.clearCall c w) := by
  rcases s.clearCall_cases c w with ⟨_, e⟩ | ⟨i, _, _, e⟩ <;> rw [e]
  · exact .refl s
  · have begun : s.KeepsBounds (s.setCtx c ((s.ctx c).clearing i w)) := bounds_setCtx_none c _ rfl
    dsimp only
    refine (bounds_ite (p := i.stage = .active) (begun.trans (bounds_endCaptures _ c)) begun).trans ?_
    exact (bounds_foldl _ (fun u p => bounds_release u p _) _ _).trans (bounds_freeIfDone ..)

/-! ### Handover failures and base loss -/

theorem bounds_failAttemptOn (s : State) (c : CallIx) (i : CallInfo) (x : Target) (p : Option ChanRef) (n : PhaseName)
    (r : Bool) (w : HandoverReason) : s.KeepsBounds (s.failAttemptOn c i x p n r w) := by
  unfold failAttemptOn
  dsimp only
  refine State.KeepsBounds.trans ?_ (bounds_markFailure _)
  refine State.KeepsBounds.post ?_ _
  refine State.KeepsBounds.trans ?_ (bounds_setCtx_none c _ rfl)
  split
  · exact bounds_ite (bounds_release ..) (.refl s)
  · exact .refl s

theorem bounds_failAttempt (s : State) (c : CallIx) (w : HandoverReason) : s.KeepsBounds (s.failAttempt c w) := by
  unfold failAttempt
  dsimp only
  split
  · exact bounds_failAttemptOn ..
  · exact .refl s

theorem bounds_loseSwitch (s : State) (c : CallIx) (w : LostCase) : s.KeepsBounds (s.loseSwitch c w) := by
  unfold loseSwitch
  dsimp only
  split
  · exact ((bounds_post ..).trans (bounds_markFailure _)).trans (bounds_clearCall ..)
  · exact .refl s

theorem bounds_phaseLoss (s : State) (b : BaseIx) (c : CallIx) (i : CallInfo) : s.KeepsBounds (s.phaseLoss b c i) := by
  have noted (x : Phase) (same : x.strays = (s.ctx c).phase.strays) :
      s.KeepsBounds (s.setCtx c { s.ctx c with phase := x }) := bounds_setCtx c _ id same.le.trans
  unfold phaseLoss
  dsimp only
  split
  · exact .refl s
  · exact bounds_ite (bounds_failAttempt ..) (bounds_ite (bounds_clearCall ..) (.refl s))
  · next switching => exact bounds_ite (bounds_loseSwitch ..) (bounds_ite (noted _ (by rw [switching]; rfl)) (.refl s))
  · exact bounds_ite (bounds_clearCall ..) (.refl s)
  · next switching => exact bounds_ite (noted _ (by rw [switching]; rfl)) (.refl s)

theorem bounds_lossRule (b : BaseIx) (s : State) (c : CallIx) : s.KeepsBounds (lossRule b s c) := by
  unfold lossRule
  dsimp only
  split
  · exact .refl s
  · split
    · exact bounds_ite (bounds_clearCall ..) (.refl s)
    · exact bounds_freeIfDone ..
    · exact bounds_ite (bounds_phaseLoss ..) (bounds_ite (bounds_clearCall ..) (.refl s))

theorem bounds_baseLoss (s : State) (b : BaseIx) : s.KeepsBounds (s.baseLoss b) := by
  have emptied : s.KeepsBounds (s.setBase b (s.base b).emptied) := bounds_setBase b _ fun _ => Nat.zero_le _
  have freed : s.KeepsBounds { (s.setBase b (s.base b).emptied).setTrain b none with
      channels := s.channels.set b (Table.fill 8 Channel.free) } :=
    emptied.trans (bounds_frame rfl rfl rfl rfl rfl)
  exact freed.trans (bounds_foldl _ (bounds_lossRule b) _ _)

theorem bounds_leaveService (s : State) (b : BaseIx) (new : BaseState) (w : BaseCause) :
    s.KeepsBounds (s.leaveService b new w) :=
  ((bounds_setBaseState ..).post _).trans (bounds_baseLoss ..)

theorem bounds_dropBase (s : State) (b : BaseIx) : s.KeepsBounds (s.dropBase b) := by
  rcases s.dropBase_cases b with ⟨_, e⟩ | ⟨_, e⟩ | ⟨_, e⟩ <;> rw [e]
  · exact (bounds_setBaseState ..).trans (bounds_baseLoss ..)
  · exact bounds_setBaseState ..
  · exact .refl s

/-! ### Calls taken in, and the Handover Sequencer -/

theorem bounds_openContext (s : State) (c : CallIx) (p : ChanRef) (i : CallInfo) :
    s.KeepsBounds (s.openContext c p i) := by
  have opened : s.KeepsBounds (s.setCtx c ((s.ctx c).opened i)) :=
    bounds_setCtx_none c _ rfl fun _ => ⟨Nat.zero_le _, Nat.zero_le _, Nat.zero_le _, Nat.zero_le _⟩
  exact ((opened.trans (bounds_setChan ..)).trans (bounds_engage ..)).trans (bounds_offer ..)

theorem bounds_prepare (s : State) (c : CallIx) (i : CallInfo) (p : ChanRef) (r : Bool) :
    s.KeepsBounds (s.prepare c i p r) := by
  have claimed (k : Channel) :
      s.KeepsBounds ((s.setCtx c { (s.ctx c).nextOrder with phase := .preparing p r }).setChan p k) := by
    refine State.KeepsBounds.trans ?_ (bounds_setChan ..)
    exact bounds_setCtx c _ id fun _ => Nat.zero_le _
  unfold prepare
  dsimp only
  split
  · exact (claimed _).trans (bounds_offer ..)
  · exact ((claimed _).trans (bounds_offer ..)).trans (bounds_failAttempt ..)
  · exact ((claimed _).trans (bounds_offer ..)).trans (bounds_failAttempt ..)

theorem Context.counted_attempt {x : Context} (h : x.counted) : x.packed ≤ 255 ∧ x.unlisted ≤ 255 ∧ x.strays ≤ 255 ∧
    sat 255 x.attempts ≤ 255 := by
  obtain ⟨packed, unlisted, strays, _⟩ := h
  exact ⟨packed, unlisted, strays, sat_le ..⟩

theorem bounds_startHandover (s : State) (c : CallIx) (i : CallInfo) (e : Candidate) (r : Bool) :
    s.KeepsBounds (s.startHandover c i e r) := by
  unfold startHandover
  split
  · unfold startLocal
    dsimp only
    have begun : s.KeepsBounds (s.setCtx c { s.ctx c with attempts := sat 255 (s.ctx c).attempts }) :=
      bounds_setCtx c _ Context.counted_attempt
    split
    · exact begun.trans (bounds_failAttemptOn ..)
    · exact begun.trans (bounds_failAttemptOn ..)
    · exact begun.trans (bounds_prepare ..)
  · exact (bounds_setCtx c _ Context.counted_attempt fun _ => Nat.zero_le _).post _

theorem bounds_startSwitch (s : State) (c : CallIx) (i : CallInfo) (p : ChanRef) (r : Bool) :
    s.KeepsBounds (s.startSwitch c i p r) := by
  have offered : s.KeepsBounds
      ((s.setCtx c (s.ctx c).nextOrder).offerMove c i (.localBase p.base) p.channel).2 :=
    (bounds_setCtx c _).trans (bounds_offer ..)
  unfold startSwitch
  dsimp only
  split
  · exact offered.trans (bounds_setCtx c _ id fun _ => Nat.zero_le _)
  · exact offered.trans (bounds_failAttempt ..)
  · exact offered.trans (bounds_failAttempt ..)

theorem bounds_sequencerOutcome (s : State) (c : CallIx) (use n : BitVec 8) (k : OrderKind) (e : Bool) :
    s.KeepsBounds (s.sequencerOutcome c use n k e) := by
  unfold sequencerOutcome
  dsimp only
  split
  · exact .refl s
  · split
    · exact bounds_ite (bounds_startSwitch ..) (bounds_failAttempt ..)
    · exact bounds_ite (.refl s) (bounds_failAttempt ..)
    · exact bounds_ite (.refl s) (bounds_failAttempt ..)
    · exact .refl s

theorem bounds_completeMove (s : State) (c : CallIx) (i : CallInfo) (p : ChanRef) (r : Bool) (o : Option ChanRef)
    (n : Nat) : s.KeepsBounds (s.completeMove c i p r o n) := by
  have moved (k : Channel) :
      s.KeepsBounds ((s.setChan p k).setCtx c { s.ctx c with call := some { i with serving := p } }) :=
    (bounds_setChan ..).trans (bounds_setCtx c _)
  unfold completeMove
  dsimp only
  refine State.KeepsBounds.post ?_ _
  refine State.KeepsBounds.trans ?_ (bounds_setCtx_none c _ rfl)
  exact ((moved _).trans (bounds_relocate ..)).trans (bounds_ite (bounds_release ..) (.refl _))

theorem bounds_targetArrival (s : State) (c : CallIx) (i : CallInfo) (p : ChanRef) :
    s.KeepsBounds (s.targetArrival c i p) := by
  unfold targetArrival
  split
  · exact bounds_ite (bounds_completeMove ..) (.refl s)
  · exact bounds_ite (bounds_completeMove ..) (.refl s)
  · exact .refl s

theorem bounds_endSwitch (s : State) (c : CallIx) (o : Option ChanRef) (n : Nat) :
    s.KeepsBounds (s.endSwitch c o n) := by
  unfold endSwitch
  split
  · exact bounds_loseSwitch ..
  · exact bounds_ite (bounds_loseSwitch ..) (bounds_failAttempt ..)

/-! ### The Call Unit -/

theorem bounds_setupOutcome (s : State) (c : CallIx) (e : Bool) : s.KeepsBounds (s.setupOutcome c e) := by
  unfold setupOutcome
  dsimp only
  split
  · exact .refl s
  · split
    · exact bounds_ite (.refl s) (bounds_clearCall ..)
    · exact bounds_ite ((bounds_setCtx c _).post _) (bounds_clearCall ..)
    · exact .refl s

theorem bounds_callUnitOutcome (s : State) (b : BaseIx) (e : WindowEntry) (k : Bool) :
    s.KeepsBounds (s.callUnitOutcome b e k) := by
  unfold callUnitOutcome
  split
  · unfold releaseOutcome
    dsimp only
    split
    · exact bounds_ite ((bounds_setChan ..).trans (bounds_freeIfDone ..)) (bounds_setChan ..)
    · exact bounds_setChan ..
  · split
    · exact bounds_ite (bounds_setupOutcome ..) (.refl s)
    · exact .refl s
  · exact .refl s

theorem bounds_outcome (s : State) (b : BaseIx) (e : WindowEntry) (k : Bool) : s.KeepsBounds (s.outcome b e k) := by
  unfold outcome
  split
  · exact bounds_callUnitOutcome ..
  · split
    · exact bounds_sequencerOutcome ..
    · exact .refl s
  · exact .refl s
  · exact .refl s

theorem bounds_arrive (s : State) (p : ChanRef) (x : Tag) : s.KeepsBounds (s.arrive p x) := by
  unfold arrive
  split
  · exact .refl s
  · split
    · exact bounds_release ..
    · split
      · exact .refl s
      · split
        · exact .refl s
        · split
          · exact ((bounds_setChan ..).trans (bounds_setCtx _ _)).post _
          · exact bounds_targetArrival ..
          · exact .refl s
    · exact .refl s
    · exact .refl s
    · exact .refl s

theorem bounds_lose (s : State) (p : ChanRef) (x : Tag) : s.KeepsBounds (s.lose p x) := by
  unfold lose
  split
  · exact .refl s
  · split
    · exact .refl s
    · split
      · exact bounds_clearCall ..
      · exact bounds_clearCall ..
      · exact bounds_clearCall ..
      · exact .refl s
      · exact .refl s

/-! ### Registration, trains and reports -/

theorem bounds_refuseAccess (s : State) (i : SlotIx) (r : AccessRequest) (w : AnswerCause) :
    s.KeepsBounds (s.refuseAccess i r w).2 :=
  bounds_ite (bounds_post ..) (.refl s)

theorem bounds_decideAttach (s : State) (i : SlotIx) (h : Handset) (r : AccessRequest) :
    s.KeepsBounds (s.decideAttach i h r).2 := by
  unfold decideAttach
  split
  · exact bounds_refuseAccess ..
  · split
    · exact bounds_refuseAccess ..
    · split
      · unfold deny
        dsimp only
        split
        · exact (bounds_setHandset ..).trans (bounds_refuseAccess ..)
        · exact (bounds_setHandset ..).post _
      · split
        · exact bounds_refuseAccess ..
        · exact bounds_ite (bounds_setHandset ..) ((bounds_setHandset ..).post _)

theorem bounds_originate (s : State) (i : SlotIx) (h : Handset) (b : BaseIx) (o : Option Nat) (r : AccessRequest) :
    s.KeepsBounds (s.originate i h b o r) := by
  unfold originate
  dsimp only
  refine bounds_ite (State.KeepsBounds.post ?_ _) ?_ <;>
    exact bounds_ite (bounds_setStatus ..) ((bounds_setStatus ..).post _)

theorem bounds_decideAccess (s : State) (i : SlotIx) (h : Handset) (r : AccessRequest) :
    s.KeepsBounds (s.decideAccess i h r).2 := by
  unfold decideAccess
  split
  · exact bounds_decideAttach ..
  · unfold decideLocate
    split
    · exact bounds_refuseAccess ..
    · exact bounds_refuseAccess ..
    · exact (bounds_setStatus ..).post _
  · unfold decideRenew
    split
    · exact bounds_refuseAccess ..
    · exact bounds_refuseAccess ..
    · split
      · exact bounds_setStatus ..
      · exact (bounds_setStatus ..).post _
  · unfold decideDetach
    split
    · exact (bounds_setStatus ..).post _
    · split
      · exact .refl s
      · exact (bounds_setStatus ..).trans (bounds_clearCall ..)
    · exact .refl s
  · unfold decideOriginate
    split
    · exact bounds_refuseAccess ..
    · split
      · exact bounds_refuseAccess ..
      · exact bounds_refuseAccess ..
      · exact bounds_originate ..
  · exact .refl s

theorem bounds_access (s : State) (r : AccessRequest) : s.KeepsBounds (s.access r) := by
  unfold access
  split
  · exact bounds_ite (.refl s) (bounds_offer ..)
  · split
    · exact .refl s
    · exact ((bounds_setHandset ..).trans (bounds_decideAccess ..)).trans (bounds_offer ..)

theorem bounds_spoil (s : State) (b : BaseIx) : s.KeepsBounds (s.spoil b) :=
  bounds_setBase b _ id fun ⟨noEcho, late, _, dropped, packed⟩ => ⟨noEcho, late, sat_le .., dropped, packed⟩

theorem bounds_takeFirst (s : State) (b : BaseIx) (x : Byte) : s.KeepsBounds (s.takeFirst b x) := by
  unfold takeFirst
  split
  · exact bounds_setTrain ..
  · exact (bounds_spoil ..).trans (bounds_setTrain ..)

theorem bounds_takeNext (s : State) (b : BaseIx) (x : Byte) : s.KeepsBounds (s.takeNext b x) := by
  unfold takeNext
  split
  · exact .refl s
  · exact bounds_setTrain ..

theorem bounds_takeClose (s : State) (b : BaseIx) (x : Byte) : s.KeepsBounds (s.takeClose b x) := by
  unfold takeClose
  split
  · exact .refl s
  · exact bounds_ite ((bounds_setTrain ..).trans (bounds_access ..)) ((bounds_setTrain ..).trans (bounds_spoil ..))

theorem bounds_keepSample (s : State) (c : CallIx) (x : Sample) (v : Evaluation) :
    s.KeepsBounds (s.keepSample c x v) := by
  have kept : s.KeepsBounds (s.setCtx c ((s.ctx c).appended (x.decided v.verdict) v s.settings.evaluator)) :=
    bounds_setCtx c _
  unfold keepSample
  dsimp only
  refine State.KeepsBounds.trans ?_ (bounds_foldl _ bounds_post _ _)
  exact kept.trans (bounds_frame rfl rfl rfl rfl rfl)

theorem bounds_takeSample (s : State) (c : CallIx) (i : CallInfo) (x : Sample) : s.KeepsBounds (s.takeSample c i x) := by
  unfold takeSample completeWaiting
  dsimp only
  refine State.KeepsBounds.trans ?_ (bounds_foldl _ (fun u _ => bounds_ite (bounds_completeSlot ..) (.refl u)) _ _)
  split
  · exact (bounds_keepSample ..).trans (bounds_startHandover ..)
  · exact bounds_keepSample ..

theorem bounds_acceptReport (s : State) (b : BaseIx) (c : CallIx) (i : CallInfo) (f : ReportFrame) :
    s.KeepsBounds (s.acceptReport b c i f) := by
  unfold acceptReport
  dsimp only
  split
  · refine State.KeepsBounds.trans (t := s.setCtx c { s.ctx c with packed := sat 255 (s.ctx c).packed }) ?_ ?_
    · exact bounds_setCtx c _ fun ⟨_, unlisted, strays, attempts⟩ => ⟨sat_le .., unlisted, strays, attempts⟩
    · exact bounds_setBase b _ id fun ⟨noEcho, late, spoiled, dropped, _⟩ => ⟨noEcho, late, spoiled, dropped, sat_le ..⟩
  · refine State.KeepsBounds.trans (t := s.setCtx c _) ?_ (bounds_takeSample ..)
    exact bounds_setCtx c _ fun ⟨packed, _, strays, attempts⟩ => ⟨packed, Nat.min_le_left .., strays, attempts⟩

theorem Phase.strayed_strays_le {x : Phase} (h : x.strays ≤ 255) : x.strayed.strays ≤ 255 := by
  cases x with
  | switching => exact sat_le ..
  | switchingOut => exact sat_le ..
  | _ => exact h

theorem bounds_takeReport (s : State) (b : BaseIx) (f : ReportFrame) : s.KeepsBounds (s.takeReport b f) := by
  have strayed (c : CallIx) : s.KeepsBounds (s.setCtx c (s.ctx c).strayed) :=
    bounds_setCtx c _ (fun ⟨packed, unlisted, _, attempts⟩ => ⟨packed, unlisted, sat_le .., attempts⟩)
      Phase.strayed_strays_le
  unfold takeReport
  split
  · exact .refl s
  · split
    · exact .refl s
    · dsimp only
      split
      · exact .refl s
      · split
        · split
          · exact bounds_acceptReport ..
          · exact bounds_acceptReport ..
          · exact bounds_acceptReport ..
          · exact strayed _
          · exact strayed _
        · exact .refl s

/-! ### Base frames and deadlines -/

theorem bounds_serviceBeat (s : State) (b : BaseIx) (h : Health) : s.KeepsBounds (s.serviceBeat b h) := by
  unfold serviceBeat
  dsimp only
  split
  · exact bounds_ite ((bounds_setBase b _).post _) (bounds_setBase b _)
  · exact bounds_ite (bounds_setBase b _) ((bounds_setBase b _).post _)
  · exact (bounds_setBase b _).trans (bounds_leaveService ..)

theorem bounds_takeStatus (s : State) (b : BaseIx) (h : Health) : s.KeepsBounds (s.takeStatus b h) := by
  unfold takeStatus
  dsimp only
  split
  · exact .refl s
  · refine State.KeepsBounds.post ?_ _
    exact bounds_setBase b _ id fun ⟨_, rest⟩ => ⟨Nat.zero_le _, rest⟩
  · exact bounds_setBase b _
  · exact bounds_serviceBeat ..
  · exact bounds_setBase b _

/-- An entry leaves the window of a base. -/
theorem bounds_depart (s : State) (b : BaseIx) (serial : Byte) {n : Nat} (small : n ≤ 3) :
    s.KeepsBounds (s.setBase b ((s.base b).depart serial n)) :=
  bounds_setBase b _ (List.length_eraseP_le).trans fun ⟨_, rest⟩ => ⟨small, rest⟩

theorem bounds_takeEcho (s : State) (b : BaseIx) (x : Byte) : s.KeepsBounds (s.takeEcho b x) := by
  unfold takeEcho
  dsimp only
  split
  · exact bounds_setBase b _ id fun ⟨noEcho, _, rest⟩ => ⟨noEcho, sat_le .., rest⟩
  · exact ((bounds_depart s b x (Nat.zero_le _)).trans (bounds_sendOwed ..)).trans (bounds_outcome ..)

theorem bounds_takeEchoExpiry (b : BaseIx) (serial : Byte) (s : State) : s.KeepsBounds (takeEchoExpiry b serial s) := by
  unfold takeEchoExpiry
  dsimp only
  split
  · exact .refl s
  · refine bounds_ite (State.KeepsBounds.trans ?_ (bounds_ite (bounds_leaveService ..) (.refl _))) (.refl s)
    exact ((bounds_depart s b serial (sat_le ..)).trans (bounds_sendOwed ..)).trans (bounds_outcome ..)

theorem bounds_takeSettleExpiry (b : BaseIx) (s : State) : s.KeepsBounds (takeSettleExpiry b s) := by
  unfold takeSettleExpiry
  dsimp only
  exact bounds_ite (bounds_ite (((bounds_setBase b _).post _).trans (bounds_offer ..)) (bounds_leaveService ..)) (.refl s)

theorem bounds_takeHeartbeatExpiry (b : BaseIx) (s : State) : s.KeepsBounds (takeHeartbeatExpiry b s) :=
  bounds_ite (bounds_leaveService ..) (.refl s)

theorem bounds_takeGapExpiry (b : BaseIx) (s : State) : s.KeepsBounds (takeGapExpiry b s) := by
  unfold takeGapExpiry
  split
  · exact .refl s
  · exact bounds_ite ((bounds_setTrain ..).trans (bounds_spoil ..)) (.refl s)

theorem bounds_takeCarrierLost (p : PortIx) (s : State) : s.KeepsBounds (takeCarrierLost p s) := by
  have sensed : s.KeepsBounds { s with carriers := s.carriers.set p false } := bounds_frame rfl rfl rfl rfl rfl
  have noted : s.KeepsBounds { ({ s with carriers := s.carriers.set p false } : State).post (.port p false) with
      freeCount := s.freeCount + 1 } := (sensed.post (.port p false)).trans (bounds_frame rfl rfl rfl rfl rfl)
  exact bounds_ite (noted.trans (bounds_foldl _ (fun u _ => bounds_dropBase u _) _ _)) sensed

theorem bounds_takeCarrierRegained (p : PortIx) (s : State) : s.KeepsBounds (takeCarrierRegained p s) := by
  have sensed : s.KeepsBounds { s with carriers := s.carriers.set p true } := bounds_frame rfl rfl rfl rfl rfl
  exact bounds_ite (sensed.post _) sensed

theorem bounds_takeLifetimeExpiry (i : SlotIx) (s : State) : s.KeepsBounds (takeLifetimeExpiry i s) := by
  unfold takeLifetimeExpiry
  split
  · exact .refl s
  · split
    · exact (bounds_setStatus ..).post _
    · exact .refl s

theorem bounds_takeOriginationExpiry (i : SlotIx) (s : State) : s.KeepsBounds (takeOriginationExpiry i s) := by
  unfold takeOriginationExpiry
  split
  · exact .refl s
  · split
    · exact (bounds_setStatus ..).post _
    · exact .refl s

theorem bounds_takeSetupExpiry (c : CallIx) (s : State) : s.KeepsBounds (takeSetupExpiry c s) := by
  unfold takeSetupExpiry
  split
  · exact .refl s
  · exact bounds_ite (bounds_clearCall ..) (.refl s)

theorem bounds_takeSwitchExpiry (c : CallIx) (s : State) : s.KeepsBounds (takeSwitchExpiry c s) := by
  unfold takeSwitchExpiry
  split
  · exact bounds_endSwitch ..
  · exact bounds_endSwitch ..
  · exact .refl s

theorem bounds_takeZoneExpiry (c : CallIx) (s : State) : s.KeepsBounds (takeZoneExpiry c s) := by
  unfold takeZoneExpiry
  split
  · exact bounds_failAttempt ..
  · exact .refl s

theorem Phase.ticked_strays (x : Phase) : x.ticked.strays = x.strays := by cases x <;> rfl

theorem bounds_countDeadlines (s : State) : s.KeepsBounds s.countDeadlines := by
  have bases : s.KeepsBounds { s with bases := s.bases.map BaseRecord.ticked } := by
    refine bounds_bases _ (fun b h => ?_) fun b h => ?_ <;> rw [Table.get_map]
    · exact (List.length_map _).le.trans h
    · exact h
  have contexts (u : State) : u.KeepsBounds { u with contexts := u.contexts.map Context.ticked } := by
    refine bounds_contexts _ (fun c h => ?_) fun c h => ?_ <;> rw [Table.get_map]
    · exact h
    · exact (Phase.ticked_strays _).le.trans h
  exact (bases.trans (contexts _)).trans (bounds_frame rfl rfl rfl rfl rfl)

theorem bounds_countAlways (s : State) : s.KeepsBounds s.countAlways :=
  State.KeepsBounds.trans (t := { s with link := { s.link with gap := countDown s.link.gap } })
    ⟨id, id, id, id, id, id⟩ (bounds_frame rfl rfl rfl rfl rfl)

theorem bounds_takeTick (s : State) : s.KeepsBounds (takeTick s) :=
  bounds_ite (.refl s) (bounds_ite (bounds_countAlways s) ((bounds_countAlways s).trans (bounds_countDeadlines _)))

end Sys2Proof.Machine
end

