-- ==== Sys2Proof/Proofs/BoundsKept.lean ====
section
/-! The bounds under the requests, at the port and under the resets, and so under every step (O55). -/

namespace Sys2Proof.Machine

open State

variable {s t : State}

/-! ### Settings -/

/-- The settings of a base within their ranges (R13). -/
def BaseSettings.inRange (c : BaseSettings) : Prop :=
  within 1 8 c.channels ∧ c.neighbours.length ≤ 8 ∧ ∀ n ∈ c.neighbours, -8 ≤ n.offset ∧ n.offset ≤ 7

/-- The timer settings within the ranges of R14. -/
def TimerSettings.inRange (v : TimerSettings) : Prop := ∀ k, within (timerLimits k).1 (timerLimits k).2 (v.value k)

/-- The evaluator settings within the ranges of R15. -/
def EvaluatorSettings.inRange (v : EvaluatorSettings) : Prop :=
  ∀ k, within (evaluatorLimits k).1 (evaluatorLimits k).2 (v.value k)

theorem TimerSettings.inRange_iff (v : TimerSettings) : v.inRange ↔
    within 1 15 v.echo ∧ within 20 500 v.setup ∧ within 5 100 v.switch ∧ within 10 300 v.zone ∧ v.guard ≤ 1000 ∧
      v.penalty ≤ 3000 ∧ within 1 20 v.gap ∧ within 20 200 v.heartbeat ∧ within 50 1000 v.settleCold ∧
      within 10 500 v.settleWarm ∧ within 50 500 v.hold ∧ within 1 9 v.spacing ∧ within 1 255 v.lifetime := by
  refine ⟨fun h => ⟨h 0, h 1, h 2, h 3, (h 4).2, (h 5).2, h 6, h 7, h 8, h 9, h 10, h 11, h 12⟩, ?_⟩
  rintro ⟨echo, setup, switch, zone, guard, penalty, gap, heartbeat, cold, warm, hold, spacing, lifetime⟩ k
  match k with
  | 0 => exact echo
  | 1 => exact setup
  | 2 => exact switch
  | 3 => exact zone
  | 4 => exact ⟨Nat.zero_le _, guard⟩
  | 5 => exact ⟨Nat.zero_le _, penalty⟩
  | 6 => exact gap
  | 7 => exact heartbeat
  | 8 => exact cold
  | 9 => exact warm
  | 10 => exact hold
  | 11 => exact spacing
  | 12 => exact lifetime

theorem within_flag (on : Bool) : within 0 1 (if on then 1 else 0) := by
  cases on <;> simp [within]

theorem EvaluatorSettings.inRange_iff (v : EvaluatorSettings) : v.inRange ↔
    v.smoothing ≤ 4 ∧ v.hysteresis ≤ 15 ∧ within 1 15 v.dwell ∧ v.rescueFloor ≤ 100 ∧ v.loadPenalty ≤ 15 ∧
      within 10 60 v.divergence ∧ v.diversity ≤ 15 ∧ v.highClass ≤ 15 := by
  refine ⟨fun h => ⟨(h 0).2, (h 1).2, h 2, (h 3).2, (h 4).2, h 5, (h 6).2, (h 7).2⟩, ?_⟩
  rintro ⟨smoothing, hysteresis, dwell, floor, load, divergence, diversity, high⟩ k
  match k with
  | 0 => exact ⟨Nat.zero_le _, smoothing⟩
  | 1 => exact ⟨Nat.zero_le _, hysteresis⟩
  | 2 => exact dwell
  | 3 => exact ⟨Nat.zero_le _, floor⟩
  | 4 => exact ⟨Nat.zero_le _, load⟩
  | 5 => exact divergence
  | 6 => exact ⟨Nat.zero_le _, diversity⟩
  | 7 => exact ⟨Nat.zero_le _, high⟩
  | 8 | 9 | 10 => exact within_flag _

theorem State.settingsInRange_iff (s : State) : s.settingsInRange ↔
    (∀ b, (s.cfg b).inRange) ∧ s.settings.timers.inRange ∧ s.settings.evaluator.inRange := by
  rw [TimerSettings.inRange_iff, EvaluatorSettings.inRange_iff]
  exact Iff.rfl

/-- Settings replaced by settings within their ranges. -/
theorem bounds_settings (w : Settings)
    (bases : (∀ b, (s.cfg b).inRange) → ∀ b, (w.bases.get b).inRange := by exact id)
    (timers : s.settings.timers.inRange → w.timers.inRange := by exact id)
    (evaluator : s.settings.evaluator.inRange → w.evaluator.inRange := by exact id) :
    s.KeepsBounds { s with settings := w } := by
  refine ⟨id, id, id, id, fun h => ?_, id⟩
  obtain ⟨inBases, inTimers, inEvaluator⟩ := s.settingsInRange_iff.mp h
  exact (State.settingsInRange_iff _).mpr ⟨bases inBases, timers inTimers, evaluator inEvaluator⟩

/-- The settings of one base replaced. -/
theorem BaseSettings.inRange_set {b : BaseIx} {c : BaseSettings} (h : ∀ b, (s.cfg b).inRange) (new : c.inRange)
    (d : BaseIx) : ((s.settings.bases.set b c).get d).inRange := by
  rw [Table.get_set]
  split
  · exact new
  · exact h d

theorem within_clampTo {range : Nat × Nat} (h : range.1 ≤ range.2) (n : Nat) :
    within range.1 range.2 (clampTo range n) :=
  ⟨Nat.le_max_left .., Nat.max_le.mpr ⟨h, Nat.min_le_left ..⟩⟩

theorem clampOffset_range (x : Byte) : -8 ≤ clampOffset x ∧ clampOffset x ≤ 7 := by
  unfold clampOffset
  omega

theorem bounds_takeSetPart (z p : Byte) (s : State) : s.KeepsBounds (takeSetPart z p s).2 := by
  unfold takeSetPart
  split
  · exact .refl s
  · split
    · exact bounds_settings _
    · exact .refl s

theorem BaseRecord.enabling_window (r : BaseRecord) (was now : Bool) : (r.enabling was now).window = r.window := by
  cases was <;> cases now <;> rfl

theorem BaseRecord.enabling_counted {r : BaseRecord} (was now : Bool) (h : r.counted) :
    (r.enabling was now).counted := by
  obtain ⟨noEcho, rest⟩ := h
  cases was <;> cases now
  · exact ⟨noEcho, rest⟩
  · exact ⟨Nat.zero_le _, rest⟩
  · exact ⟨noEcho, rest⟩
  · exact ⟨noEcho, rest⟩

theorem bounds_takeSetBase (b e n : Byte) (s : State) : s.KeepsBounds (takeSetBase b e n s).2 := by
  unfold takeSetBase
  split
  · exact .refl s
  · split
    · next b on _ _ =>
      refine State.KeepsBounds.trans (t := s.setBase b ((s.base b).enabling (s.cfg b).enabled on)) ?_ ?_
      · exact bounds_setBase b _ (fun h => by rwa [BaseRecord.enabling_window]) (BaseRecord.enabling_counted _ _)
      · refine bounds_settings _ fun h => BaseSettings.inRange_set h ?_
        obtain ⟨_, few, offsets⟩ := h b
        exact ⟨within_clampTo (range := (1, 8)) (by decide) _, few, offsets⟩
    · exact .refl s

theorem storedEntries_inRange {entries : List (Byte × Byte)} {stored : List Neighbour}
    (h : storedEntries entries = some stored) :
    stored.length = entries.length ∧ ∀ n ∈ stored, -8 ≤ n.offset ∧ n.offset ≤ 7 := by
  induction entries generalizing stored with
  | nil =>
    cases h
    exact ⟨rfl, by simp⟩
  | cons e entries ih =>
    unfold storedEntries at h
    split at h
    · next target more _ parsed =>
      cases h
      obtain ⟨length, offsets⟩ := ih parsed
      exact ⟨congrArg (· + 1) length, List.forall_mem_cons.mpr ⟨clampOffset_range _, offsets⟩⟩
    · cases h

theorem bounds_takeSetNeighbours (b : Byte) (es : List (Byte × Byte)) (s : State) :
    s.KeepsBounds (takeSetNeighbours b es s).2 := by
  unfold takeSetNeighbours
  split
  · exact .refl s
  · split
    · next b stored _ parsed =>
      split
      · exact .refl s
      · next few =>
        obtain ⟨length, offsets⟩ := storedEntries_inRange parsed
        exact bounds_settings _ fun h =>
          BaseSettings.inRange_set h ⟨(h b).1, length.le.trans (Nat.not_lt.mp few), offsets⟩
    · exact .refl s

/-- A block of numbered values stays within its limits when values clamped to them are stored. -/
theorem within_foldl_store {α : Type} {n : Nat} {value : α → Fin n → Nat} {store : α → Nat → Nat → α}
    {range : Nat → Option (Nat × Nat)} {limits : Fin n → Nat × Nat} (table : ∀ k : Fin n, range k.val = some (limits k))
    (valid : ∀ k, (limits k).1 ≤ (limits k).2)
    (stored : ∀ t (k : Fin n) v,
      value (store t k.val (clampTo (limits k) v)) = Function.update (value t) k (clampTo (limits k) v))
    (beyond : ∀ t k v, n ≤ k → store t k v = t) (pairs : List (Byte × BitVec 16)) (t : α)
    (h : ∀ k, within (limits k).1 (limits k).2 (value t k)) (k : Fin n) :
    within (limits k).1 (limits k).2
      (value (pairs.foldl (fun t p => store t p.1.toNat (storedValue range p)) t) k) := by
  induction pairs generalizing t with
  | nil => exact h k
  | cons p pairs ih =>
    refine ih _ fun j => ?_
    dsimp only
    by_cases small : p.1.toNat < n
    · have clamped : storedValue range p = clampTo (limits ⟨p.1.toNat, small⟩) p.2.toNat := by
        rw [storedValue, table ⟨p.1.toNat, small⟩]
        rfl
      rw [clamped, stored t ⟨p.1.toNat, small⟩, Function.update_apply]
      split
      · next same =>
        rw [same]
        exact within_clampTo (valid _) _
      · exact h j
    · rw [beyond _ _ _ (Nat.not_lt.mp small)]
      exact h j

theorem TimerSettings.store_beyond (v : TimerSettings) (k n : Nat) (h : 13 ≤ k) : v.store k n = v := by
  obtain ⟨m, rfl⟩ := Nat.exists_eq_add_of_le' h
  rfl

theorem EvaluatorSettings.store_beyond (v : EvaluatorSettings) (k n : Nat) (h : 11 ≤ k) : v.store k n = v := by
  obtain ⟨m, rfl⟩ := Nat.exists_eq_add_of_le' h
  rfl

theorem bounds_takeSetTimers (ps : List (Byte × BitVec 16)) (s : State) : s.KeepsBounds (takeSetTimers ps s).2 := by
  unfold takeSetTimers
  split
  · exact .refl s
  · exact bounds_settings _ id fun h => within_foldl_store timerRange_val (by decide)
      (fun v k n => v.value_store k _) TimerSettings.store_beyond ps _ h

theorem bounds_takeSetEvaluator (ps : List (Byte × BitVec 16)) (s : State) :
    s.KeepsBounds (takeSetEvaluator ps s).2 := by
  unfold takeSetEvaluator
  split
  · exact .refl s
  · exact bounds_settings _ id id fun h => within_foldl_store evaluatorRange_val (by decide)
      (fun v k n => v.value_store k _ fun flag => clampTo_evaluatorLimits_le_one flag n) EvaluatorSettings.store_beyond ps _ h

/-! ### Requests on the run state and the bases -/

theorem bounds_takeGo (s : State) : s.KeepsBounds (takeGo s).2 := by
  unfold takeGo
  split
  · split
    · exact .refl s
    · exact bounds_enter ..
  · exact bounds_enter ..
  · exact bounds_enter ..
  · exact .refl s

theorem bounds_forceAll (s : State) : s.KeepsBounds s.forceAll := bounds_foldl _ (fun u c => bounds_clearCall u c _) _ s

theorem bounds_takeStop (o : Byte) (s : State) : s.KeepsBounds (takeStop o s).2 := by
  unfold takeStop
  split
  · exact .refl s
  · dsimp only
    split
    · exact bounds_ite (bounds_enter ..) (bounds_ite ((bounds_enter ..).trans (bounds_forceAll _)) (bounds_enter ..))
    · exact bounds_ite (bounds_forceAll s) (.refl s)
    · exact .refl s
    · exact .refl s

theorem bounds_haltAll (s : State) : s.KeepsBounds s.haltAll := by
  have dropped := (bounds_enter s .halted .halt).trans (bounds_foldl dropBase bounds_dropBase (indices 32) _)
  unfold haltAll
  dsimp only
  generalize (indices 32).foldl dropBase (s.enter .halted .halt) = d at dropped ⊢
  have emptied : d.KeepsBounds { d with bases := d.bases.map BaseRecord.emptied } := by
    refine bounds_bases _ (fun b _ => ?_) fun b h => ?_ <;> rw [Table.get_map]
    · exact Nat.zero_le _
    · exact h
  exact (dropped.trans emptied).trans (bounds_frame rfl rfl rfl rfl rfl)

theorem bounds_takeHalt (s : State) : s.KeepsBounds (takeHalt s).2 := by
  unfold takeHalt
  split
  · exact bounds_haltAll s
  · exact .refl s
  · exact .refl s
  · exact .refl s

theorem bounds_takeAdmission (held : Bool) (b : Byte) (s : State) : s.KeepsBounds (takeAdmission held b s).2 := by
  unfold takeAdmission
  split
  · exact .refl s
  · split
    · exact .refl s
    · split
      · exact .refl s
      · exact (bounds_setBase _ _).trans (bounds_offer ..)

theorem bounds_takeRestoreBase (b : Byte) (s : State) : s.KeepsBounds (takeRestoreBase b s).2 := by
  unfold takeRestoreBase
  split
  · exact .refl s
  · dsimp only
    split
    · exact .refl s
    · split
      · exact .refl s
      · exact bounds_setBase _ _ id fun ⟨_, rest⟩ => ⟨Nat.zero_le _, rest⟩

theorem bounds_takeQueryBase (b o : Byte) (s : State) : s.KeepsBounds (takeQueryBase b o s).2 := by
  unfold takeQueryBase
  split
  · refine bounds_ite (bounds_setBase _ _ id ?_) (.refl s)
    exact fun ⟨noEcho, _⟩ => ⟨noEcho, Nat.zero_le _, Nat.zero_le _, Nat.zero_le _, Nat.zero_le _⟩
  · exact .refl s

/-! ### Requests on handsets and calls -/

theorem bounds_takeEnrol (x k : BitVec 32) (c : Byte) (s : State) : s.KeepsBounds (takeEnrol x k c s).2 := by
  unfold takeEnrol
  repeat' split
  all_goals exact bounds_frame rfl rfl rfl rfl rfl

theorem bounds_takeRemove (k : Byte) (v : BitVec 32) (s : State) : s.KeepsBounds (takeRemove k v s).2 := by
  unfold takeRemove
  repeat' split
  all_goals exact bounds_frame rfl rfl rfl rfl rfl

theorem bounds_takeBar (k : Byte) (v : BitVec 32) (s : State) : s.KeepsBounds (takeBar k v s).2 := by
  unfold takeBar
  split
  · split
    · exact .refl s
    · dsimp only
      split
      · exact (bounds_setHandset ..).post _
      · exact bounds_setHandset ..
  · exact .refl s

theorem bounds_takeUnbar (k : Byte) (v : BitVec 32) (s : State) : s.KeepsBounds (takeUnbar k v s).2 := by
  unfold takeUnbar
  split <;> exact bounds_frame rfl rfl rfl rfl rfl

theorem bounds_takeOpenCall (x : BitVec 32) (d : Byte) (s : State) : s.KeepsBounds (takeOpenCall x d s).2 := by
  unfold takeOpenCall
  repeat' split
  all_goals first | exact .refl s | exact bounds_openContext ..

theorem bounds_takeAdmitCall (x : BitVec 32) (b z : Byte) (s : State) : s.KeepsBounds (takeAdmitCall x b z s).2 := by
  unfold takeAdmitCall
  repeat' split
  all_goals first | exact .refl s | exact bounds_openContext ..

theorem bounds_takeCloseCall (c : Byte) (s : State) : s.KeepsBounds (takeCloseCall c s).2 := by
  unfold takeCloseCall
  split
  · exact .refl s
  · split
    · exact .refl s
    · exact bounds_clearCall ..

theorem bounds_takeZoneGo (c h : Byte) (s : State) : s.KeepsBounds (takeZoneGo c h s).2 := by
  unfold takeZoneGo
  split
  · next c ch _ _ =>
    dsimp only
    split
    · next i z b r d _ _ =>
      split
      · have given : s.KeepsBounds (s.setCtx c { (s.ctx c).nextOrder with phase := .handingOut z b r d }) :=
          bounds_setCtx c _ id fun _ => Nat.zero_le _
        have offered := given.trans (bounds_offer _ i.serving.base (.move i.serving.channel (.foreignBase z b) ch) .sequencer
          (((s.setCtx c { (s.ctx c).nextOrder with phase := .handingOut z b r d }).ctx c).sequencerOwner c))
        split
        · exact offered.trans (bounds_setCtx c _ id fun _ => Nat.zero_le _)
        · exact offered.trans (bounds_failAttempt ..)
        · exact offered.trans (bounds_failAttempt ..)
      · exact .refl s
    · exact .refl s
  · exact .refl s

theorem bounds_takeZoneFail (c : Byte) (s : State) : s.KeepsBounds (takeZoneFail c s).2 := by
  unfold takeZoneFail
  split
  · exact .refl s
  · split
    · split
      · exact bounds_failAttempt ..
      · exact .refl s
    · exact .refl s

theorem bounds_takeZoneComplete (c : Byte) (s : State) : s.KeepsBounds (takeZoneComplete c s).2 := by
  unfold takeZoneComplete
  split
  · exact .refl s
  · dsimp only
    split
    · split
      · exact (bounds_post ..).trans (bounds_clearCall ..)
      · exact .refl s
    · exact .refl s

/-! ### Requests on notices, conditions and captures -/

/-- Notice classes replaced. -/
theorem bounds_classes (cs : Table NoticeClass 8) (kept : s.classesBounded → (∀ k, (cs.get k).fifo.length ≤ 8) ∧
    (cs.get 0).masked = false) : s.KeepsBounds { s with classes := cs } :=
  ⟨id, kept, id, id, id, id⟩

theorem bounds_takeFetchNotice (s : State) : s.KeepsBounds (takeFetchNotice s).2 := by
  unfold takeFetchNotice
  split
  · exact .refl s
  · next k _ =>
    dsimp only
    split
    · exact .refl s
    · next n rest held =>
      refine bounds_classes _ fun ⟨lengths, open_⟩ => ⟨fun j => ?_, ?_⟩ <;> rw [Table.get_set] <;> split
      · have := lengths k
        rw [held] at this
        exact (Nat.le_succ _).trans this
      · exact lengths j
      · next same => exact same ▸ open_
      · exact open_

/-- The classes while masks are replaced: their notices stay, and LINK stays unmasked. -/
theorem foldl_maskClass (mask : Byte) (l : List (Fin 8)) (cs : Table NoticeClass 8) :
    (∀ k, ((l.foldl (maskClass mask) cs).get k).fifo = (cs.get k).fifo) ∧
      ((cs.get 0).masked = false → ((l.foldl (maskClass mask) cs).get 0).masked = false) := by
  induction l generalizing cs with
  | nil => exact ⟨fun _ => rfl, id⟩
  | cons j l ih =>
    obtain ⟨fifos, link⟩ := ih (maskClass mask cs j)
    refine ⟨fun k => (fifos k).trans ?_, fun open_ => link ?_⟩ <;> rw [maskClass, Table.get_set] <;> split
    · next same => rw [same]
    · rfl
    · next same => rw [same]; rfl
    · exact open_

theorem bounds_takeMaskNotices (m : Byte) (s : State) : s.KeepsBounds (takeMaskNotices m s).2 := by
  obtain ⟨fifos, link⟩ := foldl_maskClass m (indices 8) s.classes
  exact bounds_classes _ fun ⟨lengths, open_⟩ => ⟨fun k => by rw [fifos k]; exact lengths k, link open_⟩

theorem bounds_takeClearConditions (k c : Byte) (s : State) : s.KeepsBounds (takeClearConditions k c s).2 := by
  unfold takeClearConditions
  dsimp only
  split
  · exact .refl s
  · split
    · have unstuck : s.KeepsBounds { s with
          contexts := s.contexts.map (Context.unstick (c.getLsbD 0) (c.getLsbD 1)) } := by
        refine bounds_contexts _ (fun d h => ?_) fun d h => ?_ <;> rw [Table.get_map] <;> exact h
      exact unstuck.trans (bounds_frame rfl rfl rfl rfl rfl)
    · split
      · exact .refl s
      · exact bounds_setCtx _ _

theorem bounds_takeCapture (k c n m : Byte) (x : BitVec 32) (s : State) : s.KeepsBounds (takeCapture k c n m x s).2 := by
  unfold takeCapture startCapture
  repeat' split
  all_goals exact bounds_frame rfl rfl rfl rfl rfl

theorem bounds_takeCancelCapture (k : Byte) (s : State) : s.KeepsBounds (takeCancelCapture k s).2 := by
  unfold takeCancelCapture
  split <;> exact bounds_frame rfl rfl rfl rfl rfl

/-! ### The host link -/

/-- Buffer, refusal queue and error count of the link within their bounds (R179, R180). -/
def Link.bounded (l : Link) : Prop := l.buffer.length ≤ 4 ∧ l.refusals.length ≤ 4 ∧ l.errors ≤ 65535

theorem bounds_setLink (l : Link) (h : s.link.bounded → l.bounded := by exact id) : s.KeepsBounds (s.setLink l) :=
  ⟨id, id, h, id, id, id⟩

/-- Every request keeps the bounds. -/
theorem bounds_takeRequest (r : Request) (s : State) : s.KeepsBounds (takeRequest r s).2 := by
  cases r with
  | go => exact bounds_takeGo s
  | stop o => exact bounds_takeStop o s
  | halt => exact bounds_takeHalt s
  | reset => exact bounds_setLink _ fun ⟨_, refusals, errors⟩ => ⟨Nat.zero_le _, refusals, errors⟩
  | identify => exact .refl s
  | setPart z p => exact bounds_takeSetPart z p s
  | setBase b e c => exact bounds_takeSetBase b e c s
  | setNeighbours b es => exact bounds_takeSetNeighbours b es s
  | setTimers ps => exact bounds_takeSetTimers ps s
  | setEvaluator ps => exact bounds_takeSetEvaluator ps s
  | readSettings g b =>
    show s.KeepsBounds (takeReadSettings g b s).2
    unfold takeReadSettings
    repeat' split
    all_goals exact .refl s
  | enrol x k c => exact bounds_takeEnrol x k c s
  | remove k v => exact bounds_takeRemove k v s
  | bar k v => exact bounds_takeBar k v s
  | unbar k v => exact bounds_takeUnbar k v s
  | queryHandset k v =>
    show s.KeepsBounds (takeQueryHandset k v s).2
    unfold takeQueryHandset
    split <;> exact .refl s
  | holdAdmission b => exact bounds_takeAdmission true b s
  | openAdmission b => exact bounds_takeAdmission false b s
  | restoreBase b => exact bounds_takeRestoreBase b s
  | queryBase b o => exact bounds_takeQueryBase b o s
  | openCall x d => exact bounds_takeOpenCall x d s
  | closeCall c => exact bounds_takeCloseCall c s
  | queryCall c =>
    show s.KeepsBounds (takeQueryCall c s).2
    unfold takeQueryCall
    repeat' split
    all_goals exact .refl s
  | admitCall x b z => exact bounds_takeAdmitCall x b z s
  | zoneGo c k => exact bounds_takeZoneGo c k s
  | zoneFail c => exact bounds_takeZoneFail c s
  | zoneComplete c => exact bounds_takeZoneComplete c s
  | fetchNotice => exact bounds_takeFetchNotice s
  | maskNotices m => exact bounds_takeMaskNotices m s
  | queryConditions => exact .refl s
  | clearConditions k c => exact bounds_takeClearConditions k c s
  | capture k c n m x => exact bounds_takeCapture k c n m x s
  | cancelCapture k => exact bounds_takeCancelCapture k s
  | readCapture k f =>
    show s.KeepsBounds (takeReadCapture k f s).2
    unfold takeReadCapture
    repeat' split
    all_goals exact .refl s
  | mark => exact bounds_driveMark s
  | unknown c => exact .refl s
  | badLength c => exact .refl s

theorem Link.startTx_bounded {l : Link} (h : l.bounded) : l.startTx.bounded := by
  unfold Link.startTx
  repeat' split
  all_goals exact h

theorem Link.place_bounded {l : Link} (b : Buffered) (h : l.bounded) : (l.place b).bounded := by
  obtain ⟨buffer, refusals, errors⟩ := h
  rcases l.place_cases b with ⟨room, e⟩ | ⟨_, room, e⟩ | ⟨_, _, e⟩ <;> rw [e]
  · exact ⟨by simpa using room, refusals, errors⟩
  · exact ⟨buffer, by simpa using room, errors⟩
  · exact ⟨buffer, refusals, sat_le ..⟩

theorem bounds_handOn (s : State) : s.KeepsBounds s.handOn := by
  unfold handOn
  split
  · next b rest _ held =>
    refine State.KeepsBounds.trans (t := s.setLink { s.link with buffer := rest }) ?_
      ((bounds_takeRequest b.request _).trans (bounds_setLink _))
    refine bounds_setLink _ fun ⟨buffer, refusals, errors⟩ => ⟨?_, refusals, errors⟩
    rw [held] at buffer
    exact (Nat.le_succ _).trans buffer
  · exact .refl s

theorem bounds_advance (s : State) : s.KeepsBounds s.advance :=
  (bounds_handOn s).trans (bounds_setLink _ Link.startTx_bounded)

theorem bounds_submit (s : State) (tag : Byte) (r : Request) : s.KeepsBounds (s.submit tag r) :=
  bounds_ite (.refl s) ((bounds_setLink _ (Link.place_bounded _)).trans (bounds_advance _))

theorem Link.failed_bounded {l : Link} (h : l.bounded) : l.failed.bounded := by
  obtain ⟨buffer, refusals, _⟩ := h
  exact ⟨buffer, refusals, sat_le ..⟩

theorem bounds_checkFrame (s : State) (length : Byte) (bytes : List Byte) (x : Byte) :
    s.KeepsBounds (s.checkFrame length bytes x) := by
  have hunting : s.KeepsBounds (s.setLink s.link.hunting) := bounds_setLink _
  refine bounds_ite (hunting.trans ?_) (bounds_setLink _ Link.failed_bounded)
  unfold submitBody
  split
  · exact bounds_submit ..
  · exact .refl _

theorem bounds_receive (s : State) (x : Byte) (stop : Bool) : s.KeepsBounds (s.receive x stop) := by
  have failed : s.KeepsBounds (s.setLink s.link.failed) := bounds_setLink _ Link.failed_bounded
  unfold receive
  split
  · exact bounds_ite (bounds_setLink _) (.refl s)
  · exact bounds_ite failed (bounds_ite (bounds_setLink _) (bounds_setLink _))
  · exact bounds_ite failed (bounds_ite (bounds_setLink _) (bounds_setLink _))
  · exact bounds_ite failed (bounds_checkFrame ..)

theorem bounds_takeHrxByte (x : Byte) (stop : Bool) (s : State) : s.KeepsBounds (takeHrxByte x stop s) :=
  bounds_ite (.refl s) (bounds_receive ..)

/-! ### Resets -/

theorem bounds_warmReset (s : State) : s.KeepsBounds s.warmReset := by
  have class_ (k : Fin 8) := s.warmReset_class k
  have base (b : BaseIx) : s.warmReset.base b = (s.base b).warm (s.cfg b) := Table.get_zip ..
  have ctx (c : CallIx) : s.warmReset.ctx c = (s.ctx c).warm := Table.get_map ..
  refine ⟨fun _ b => ?windows, fun _ => ⟨fun k => ?classes, ?link⟩, fun ⟨_, _, errors⟩ => ⟨Nat.zero_le _, Nat.zero_le _, errors⟩,
    fun ⟨bases, contexts⟩ => ⟨fun b => ?bases, fun c => ?contexts⟩, id, fun _ c => ?strays⟩
  case windows => rw [base]; exact Nat.zero_le _
  case classes =>
    rw [class_]
    split
    · exact Nat.le_add_left 1 7
    · exact Nat.zero_le _
  case link => rw [class_]
  case bases =>
    obtain ⟨_, rest⟩ := bases b
    rw [base]
    exact ⟨Nat.zero_le _, rest⟩
  case contexts =>
    obtain ⟨_, _, _, attempts⟩ := contexts c
    rw [ctx]
    exact ⟨Nat.zero_le _, Nat.zero_le _, Nat.zero_le _, attempts⟩
  case strays => rw [ctx]; exact Nat.zero_le _

/-- After cold reset every bound holds, whatever was before. -/
theorem bounds_cold (s : State) : s.KeepsBounds s.cold := by
  obtain ⟨windows, _, _, _, _, _, _, _, _, _, link, counters, settings, _, _, strays, _⟩ := lawsHoldAtReset
  refine ⟨fun _ => windows, fun _ => ⟨fun k => ?_, ?_⟩, fun _ => link, fun _ => counters, fun _ => settings,
    fun _ => strays⟩
  · rw [State.cold, Table.get_fill]
    exact Nat.zero_le _
  · rw [State.cold, Table.get_fill]
    rfl

theorem bounds_takeReplySent (s : State) : s.KeepsBounds (takeReplySent s) := by
  have idle : s.KeepsBounds (s.setLink { s.link with sending := .idle }) := bounds_setLink _
  unfold takeReplySent
  dsimp only
  split
  · exact .refl s
  · refine State.KeepsBounds.trans (idle.trans (bounds_setLink _ ?_)) (bounds_advance _)
    rintro ⟨buffer, refusals, errors⟩
    exact ⟨buffer, List.length_tail.trans_le ((Nat.sub_le ..).trans refusals), errors⟩
  · exact bounds_ite (bounds_warmReset s) ((idle.trans (bounds_setLink _)).trans (bounds_advance _))

theorem bounds_takeResetRelease (straps : Fin 8) (s : State) : s.KeepsBounds (takeResetRelease straps s) := by
  have cold : s.KeepsBounds { s.cold with straps := straps } := (bounds_cold s).trans (bounds_frame rfl rfl rfl rfl rfl)
  exact bounds_ite (cold.post _) (.refl s)

/-! ### Every step -/

theorem bounds_fromService (s : State) (o : Origin) (act : BaseIx → State → State)
    (h : ∀ b, s.KeepsBounds (act b s)) : s.KeepsBounds (s.fromService o act) :=
  bounds_ite (h _) (.refl s)

theorem bounds_takeMarkDriveEnd (s : State) : s.KeepsBounds (takeMarkDriveEnd s) :=
  bounds_ite (bounds_frame rfl rfl rfl rfl rfl) (.refl s)

/-- Every command keeps the bounds. -/
theorem exec_keepsBounds (c : Instr) (e : exec c s = .next t) : s.KeepsBounds t := by
  have run {u : State} (k : s.fresh.KeepsBounds u) (e : Host.Outcome.next u = (.next t : Result)) : s.KeepsBounds t := by
    cases e
    exact (bounds_fresh s).trans k
  cases c with
  | requestFrame bytes => exact run (bounds_foldl _ (fun u x => bounds_takeHrxByte x true u) _ _) e
  | gapCountExpiry => exact run (bounds_ite (bounds_setLink _) (.refl _)) e
  | hrxByte x stop => exact run (bounds_takeHrxByte ..) e
  | replySent => exact run (bounds_takeReplySent _) e
  | warmReset => exact run (bounds_ite (bounds_warmReset _) (.refl _)) e
  | coldReset =>
    cases e
    exact (bounds_cold s).trans (bounds_frame rfl rfl rfl rfl rfl)
  | resetRelease straps => exact run (bounds_takeResetRelease ..) e
  | tick => exact run (bounds_takeTick _) e
  | carrierLost p => exact run (bounds_takeCarrierLost ..) e
  | carrierRegained p => exact run (bounds_takeCarrierRegained ..) e
  | markEdge => exact run (bounds_ite (.refl _) (bounds_markEdge _)) e
  | status o w => exact run (bounds_ite (bounds_takeStatus ..) (.refl _)) e
  | echo o serial => exact run (bounds_ite (bounds_takeEcho ..) (.refl _)) e
  | fragFirst o x => exact run (bounds_fromService _ _ _ fun b => bounds_takeFirst _ b x) e
  | fragNext o x => exact run (bounds_fromService _ _ _ fun b => bounds_takeNext _ b x) e
  | fragClose o x => exact run (bounds_fromService _ _ _ fun b => bounds_takeClose _ b x) e
  | report o x => exact run (bounds_fromService _ _ _ fun b => bounds_takeReport _ b x) e
  | arrival o ch x => exact run (bounds_fromService _ _ _ fun b => bounds_arrive _ ⟨b, ch⟩ x) e
  | loss o ch x => exact run (bounds_fromService _ _ _ fun b => bounds_lose _ ⟨b, ch⟩ x) e
  | settleExpiry b => exact run (bounds_takeSettleExpiry ..) e
  | heartbeatExpiry b => exact run (bounds_takeHeartbeatExpiry ..) e
  | echoDeadlineExpiry b serial => exact run (bounds_takeEchoExpiry ..) e
  | gapDeadlineExpiry b => exact run (bounds_takeGapExpiry ..) e
  | lifetimeExpiry i => exact run (bounds_takeLifetimeExpiry ..) e
  | originationExpiry i => exact run (bounds_takeOriginationExpiry ..) e
  | setupDeadlineExpiry c => exact run (bounds_takeSetupExpiry ..) e
  | switchDeadlineExpiry c => exact run (bounds_takeSwitchExpiry ..) e
  | zoneDeadlineExpiry c => exact run (bounds_takeZoneExpiry ..) e
  | guardExpiry c => exact run (bounds_ite (bounds_setCtx c _) (.refl _)) e
  | penaltyExpiry c x => exact run (bounds_setCtx c _) e
  | markDriveEnd => exact run (bounds_takeMarkDriveEnd _) e
  | _ => exact run (bounds_submit ..) e

theorem step_keepsBounds (e : step s = .next t) : s.KeepsBounds t := by
  unfold step at e
  split at e
  · cases e
    exact .refl s
  · next c rest _ =>
    have popped : s.KeepsBounds { s with pending := rest } := bounds_frame rfl rfl rfl rfl rfl
    exact popped.trans (exec_keepsBounds c e)

/-- Settles O55: every operation of the units, the port and the resets keeps all six bounds, and a step is one of them. -/
theorem boundsKept : Obligations.BoundsKept :=
  ⟨fun _ _ h e => (step_keepsBounds e).windows h, fun _ _ h e => (step_keepsBounds e).classes h,
    fun _ _ h e => (step_keepsBounds e).link h, fun _ _ h e => (step_keepsBounds e).counters h,
    fun _ _ h e => (step_keepsBounds e).settings h, fun _ _ h e => (step_keepsBounds e).strays h⟩

end Sys2Proof.Machine
end

