-- ==== Sys2Proof/Proofs/BaseStates.lean ====
section
/-! Orders offered to a base, frames heard from one, and with them the admission flag (O20), a STATUS (O35) and the entry
into service (O37). -/

namespace Sys2Proof.Machine

open State

variable {s : State} {b : BaseIx}

/-! ### An order offered (R27 to R29) -/

/-- What a sent order leaves (R28): the entry in the window and the order on the port. -/
theorem State.send_eq (s : State) (b : BaseIx) (o : Order) (placer : Placer) (owner : OrderOwner) :
    s.send b o placer owner = { s.setBase b { s.base b with
        nextSerial := (s.base b).nextSerial + 1
        window := (s.base b).window ++ [newEntry (s.base b) o.kind placer owner o.channel s.settings.timers.echo] } with
      ordersOut := s.ordersOut ++ [{ base := b, serial := (s.base b).nextSerial, order := o }] } := rfl

theorem State.offer_unavailable (h : (s.base b).state ≠ .inService) (o : Order) (placer : Placer) (owner : OrderOwner) :
    s.offer b o placer owner = (.unavailable, s) := if_pos h

theorem State.offer_sent (service : (s.base b).state = .inService) (room : (s.base b).window.length < 4) (o : Order)
    (placer : Placer) (owner : OrderOwner) : s.offer b o placer owner = (.sent, s.send b o placer owner) := by
  simp only [State.offer, service, room, ne_eq, not_true_eq_false, if_false, if_true]

theorem State.offer_full (service : (s.base b).state = .inService) (full : 4 ≤ (s.base b).window.length) (o : Order)
    (placer : Placer) (owner : OrderOwner) :
    s.offer b o placer owner = (.full, s.setBase b ((s.base b).overflow o)) := by
  simp only [State.offer, service, Nat.not_lt.mpr full, ne_eq, not_true_eq_false, if_false]

/-- A base record replaced twice. -/
theorem State.setBase_setBase (s : State) (b : BaseIx) (r r' : BaseRecord) :
    (s.setBase b r).setBase b r' = s.setBase b r' := by
  simp only [State.setBase, Table.set_set]

/-- An order sent from a record just replaced. -/
theorem State.send_setBase (s : State) (b : BaseIx) (r : BaseRecord) (o : Order) (placer : Placer) (owner : OrderOwner) :
    (s.setBase b r).send b o placer owner = { s.setBase b { r with
        nextSerial := r.nextSerial + 1
        window := r.window ++ [newEntry r o.kind placer owner o.channel s.settings.timers.echo] } with
      ordersOut := s.ordersOut ++ [{ base := b, serial := r.nextSerial, order := o }] } := by
  rw [State.send_eq, State.setBase_setBase, State.base_setBase_self]
  rfl

/-! ### HOLD ADMISSION, OPEN ADMISSION and RESTORE BASE -/

theorem takeAdmission_disabled (h : (s.cfg b).enabled = false) (hold : Bool) :
    takeAdmission hold (BitVec.ofNat 8 b.val) s = (refuse .noSuch, s) := by
  simp [takeAdmission, h]

theorem takeAdmission_same (on : (s.cfg b).enabled = true) {hold : Bool} (same : (s.base b).held = hold) :
    takeAdmission hold (BitVec.ofNat 8 b.val) s = (okay [yesNo hold], s) := by
  simp [takeAdmission, on, same, flagByte_eq]

theorem takeAdmission_changed (on : (s.cfg b).enabled = true) {hold : Bool} (changed : (s.base b).held = !hold) :
    takeAdmission hold (BitVec.ofNat 8 b.val) s = (okay [yesNo hold], s.setHeld b hold) := by
  have other : (!hold) ≠ hold := by simp
  simp [takeAdmission, on, changed, other, flagByte_eq]

theorem State.setHeld_unavailable (h : (s.base b).state ≠ .inService) (hold : Bool) :
    s.setHeld b hold = s.setBase b { s.base b with held := hold } := by
  rw [State.setHeld, State.offer_unavailable (by rwa [State.base_setBase_self])]

theorem State.setHeld_full (service : (s.base b).state = .inService) (full : 4 ≤ (s.base b).window.length) (hold : Bool) :
    s.setHeld b hold = s.setBase b { s.base b with held := hold, owedAdmission := true } := by
  rw [State.setHeld, State.offer_full (by rwa [State.base_setBase_self]) (by rwa [State.base_setBase_self]),
    State.setBase_setBase, State.base_setBase_self]
  rfl

theorem State.setHeld_sent (service : (s.base b).state = .inService) (room : (s.base b).window.length < 4) (hold : Bool) :
    s.setHeld b hold =
      (s.setBase b { s.base b with held := hold }).send b (.admission hold) .baseLink .none := by
  rw [State.setHeld, State.offer_sent (by rwa [State.base_setBase_self]) (by rwa [State.base_setBase_self])]

theorem takeRestoreBase_fault (on : (s.cfg b).enabled = true) (fault : (s.base b).state = .fault) :
    takeRestoreBase (BitVec.ofNat 8 b.val) s = (okay [2], s.setBase b { s.base b with
      state := .probing, settle := some s.settings.timers.settleWarm, heartbeat := some s.settings.timers.heartbeat
      noEcho := 0 }) := by
  simp [takeRestoreBase, on, fault, byte1_eq, BaseState.code]

theorem takeRestoreBase_state (on : (s.cfg b).enabled = true) (state : (s.base b).state ≠ .fault) :
    takeRestoreBase (BitVec.ofNat 8 b.val) s = (refuse .wrongState, s) := by
  simp [takeRestoreBase, on, state]

theorem takeRestoreBase_disabled (off : (s.cfg b).enabled = false) :
    takeRestoreBase (BitVec.ofNat 8 b.val) s = (refuse .noSuch, s) := by
  simp [takeRestoreBase, off]

/-- The answer to HOLD ADMISSION or OPEN ADMISSION on an idle host link. -/
theorem exec_admission {q : Taken} (idle : s.portFree) (tag : Byte) {hold : Bool}
    (taken : takeAdmission hold (BitVec.ofNat 8 b.val) s.fresh = q) :
    exec (if hold then .holdAdmission tag (BitVec.ofNat 8 b.val) else .openAdmission tag (BitVec.ofNat 8 b.val)) s =
      .next (q.2.answered (if hold then 0x30 else 0x31) tag q.1) := by
  cases hold
  · exact answer_of_portFree idle tag (r := .openAdmission (BitVec.ofNat 8 b.val)) taken
  · exact answer_of_portFree idle tag (r := .holdAdmission (BitVec.ofNat 8 b.val)) taken

/-- Settles O20: the flag by what the order that tells it becomes, and the restored base by its state. -/
theorem admissionAndRestoreBase : Obligations.AdmissionAndRestoreBase := by
  refine ⟨fun tag s b hold idle => ?_, fun tag s b idle => ?_⟩
  · refine ⟨fun off => exec_admission idle tag (takeAdmission_disabled (by exact off) hold),
      fun on => ⟨fun same => exec_admission idle tag (takeAdmission_same (by exact on) same),
        fun changed state => ?_, fun changed state full => ?_, fun changed state room => ?_⟩⟩
    all_goals have taken := exec_admission idle tag (takeAdmission_changed (s := s.fresh) (by exact on) changed)
    · rwa [State.setHeld_unavailable (by exact state)] at taken
    · rwa [State.setHeld_full (by exact state) (by exact full)] at taken
    · rwa [State.setHeld_sent (by exact state) (by exact room), State.send_setBase] at taken
  · have answer {q : Taken} (taken : takeRestoreBase (BitVec.ofNat 8 b.val) s.fresh = q) :
        exec (.restoreBase tag (BitVec.ofNat 8 b.val)) s = .next (q.2.answered 0x32 tag q.1) :=
      answer_of_portFree idle tag (r := .restoreBase (BitVec.ofNat 8 b.val)) taken
    exact ⟨fun on fault => answer (takeRestoreBase_fault (s := s.fresh) on fault), fun on state => answer (takeRestoreBase_state (s := s.fresh) on state),
      fun off => answer (takeRestoreBase_disabled (s := s.fresh) off)⟩

/-! ### STATUS -/

/-- A heard STATUS is taken by the base it comes from. -/
theorem exec_status_heard {o : Origin} (hears : s.hears o = true) (h : Health) :
    exec (.status o h) s = .next (s.fresh.takeStatus (originBase o) h) := congrArg Host.Outcome.next (if_pos hears)

theorem exec_status_unheard {o : Origin} (deaf : s.hears o = false) (h : Health) :
    exec (.status o h) s = .next s.fresh :=
  congrArg Host.Outcome.next (if_neg (Bool.eq_false_iff.mp deaf))

/-- Settles O35, state by state. -/
theorem statusBeatsByBaseState : Obligations.StatusBeatsByBaseState := by
  intro s o health b beat loaded
  refine ⟨fun deaf => exec_status_unheard deaf health, fun hears => ?_⟩
  rw [exec_status_heard hears]
  refine ⟨fun state => ?_, fun state => ?_, fun state => ?_, fun state => ?_, fun state ok => ?_, fun state worse => ?_⟩
  all_goals refine congrArg Host.Outcome.next ?_
  all_goals
    rw [State.takeStatus]
    simp only [show (s.fresh.base (originBase o)).state = _ from state]
  · rfl
  · rfl
  · rfl
  · subst ok
    rfl
  · subst worse
    rfl

/-! ### Settle and heartbeat deadlines -/

theorem takeSettleExpiry_notDue (h : (s.base b).settle ≠ some 0) : takeSettleExpiry b s = s :=
  if_neg fun due => h due.2

theorem takeHeartbeatExpiry_notDue (h : (s.base b).heartbeat ≠ some 0) : takeHeartbeatExpiry b s = s :=
  if_neg fun due => h due.2

/-- A settled base with room in its window: in service, told its admission (R22). -/
theorem takeSettleExpiry_settled (state : (s.base b).state = .probing) (due : (s.base b).settle = some 0)
    (healthy : (s.base b).lastHealth = some .ok) (room : (s.base b).window.length < 4) :
    takeSettleExpiry b s = ((s.setBase b { s.base b with state := .inService, settle := none, degraded := false }).post
      (.baseState b .probing .inService .settled)).send b (.admission (s.base b).held) .baseLink .none := by
  simp only [takeSettleExpiry, state, due, healthy, and_self, if_true]
  rw [State.offer_sent (by simp) (by simpa using room)]

/-- Settles O37: the admission sent as the base enters service, and deadlines not due. -/
theorem settledBaseEntersService : Obligations.SettledBaseEntersService := by
  refine ⟨fun s b state due healthy room => ?_, fun s b early => ?_, fun s b early => ?_⟩
  · refine congrArg Host.Outcome.next ((takeSettleExpiry_settled (s := s.fresh) state due healthy room).trans ?_)
    rw [State.send_eq]
    simp only [State.base_post, State.base_setBase_self]
    simp only [State.setBase, State.post, Table.set_set]
    rfl
  · exact congrArg Host.Outcome.next (takeSettleExpiry_notDue (s := s.fresh) early)
  · exact congrArg Host.Outcome.next (takeHeartbeatExpiry_notDue (s := s.fresh) early)

end Sys2Proof.Machine
end

