-- ==== Sys2Proof/Proofs/FramesOfService.lean ====
section
/-! Frames that a base in service is heard with: fragments collected into a train and judged (O40), and ARRIVAL (O47). -/

namespace Sys2Proof.Machine

open State

variable {s : State} {b : BaseIx}

/-! ### Frames passed on -/

theorem State.fromService_heard {o : Origin} (hears : s.hears o = true)
    (service : (s.base (originBase o)).state = .inService) (act : BaseIx → State → State) :
    s.fromService o act = act (originBase o) s := by
  simp only [State.fromService, hears, service, decide_true, Bool.and_self, if_true]

theorem State.fromService_dropped {o : Origin} (h : s.hears o = false ∨ (s.base (originBase o)).state ≠ .inService)
    (act : BaseIx → State → State) : s.fromService o act = s := by
  refine if_neg ?_
  rcases h with h | h <;> simp [h]

/-! ### Trains (R38 to R42) -/

theorem State.takeFirst_idle (idle : s.trains.get b = none) (x : Byte) :
    s.takeFirst b x = s.setTrain b (some (s.openTrain x)) := by
  simp only [State.takeFirst, idle]

theorem State.takeFirst_cut {t : Train} (collecting : s.trains.get b = some t) (x : Byte) :
    s.takeFirst b x = (s.spoil b).setTrain b (some (s.openTrain x)) := by
  simp only [State.takeFirst, collecting]

theorem State.takeNext_idle (idle : s.trains.get b = none) (x : Byte) : s.takeNext b x = s := by
  simp only [State.takeNext, idle]

theorem State.takeNext_joins {t : Train} (collecting : s.trains.get b = some t) (x : Byte) :
    s.takeNext b x = s.setTrain b (some (t.next (s.settings.parity.passes x) s.settings.timers.gap x)) := by
  simp only [State.takeNext, collecting]

theorem State.takeClose_idle (idle : s.trains.get b = none) (x : Byte) : s.takeClose b x = s := by
  simp only [State.takeClose, idle]

theorem State.takeClose_spoiled {t : Train} {x : Byte} (collecting : s.trains.get b = some t)
    (bad : t.judge s.settings.parity x ≠ .good) : s.takeClose b x = (s.setTrain b none).spoil b := by
  simp only [State.takeClose, collecting, if_neg bad]

theorem State.takeClose_good {t : Train} {x : Byte} (collecting : s.trains.get b = some t)
    (good : t.judge s.settings.parity x = .good) : s.takeClose b x = (s.setTrain b none).access (t.request b) := by
  simp only [State.takeClose, collecting, if_pos good]

theorem takeGapExpiry_due {t : Train} (collecting : s.trains.get b = some t) (due : t.gap = 0) :
    takeGapExpiry b s = (s.setTrain b none).spoil b := by
  simp only [takeGapExpiry, collecting, if_pos due]

theorem takeGapExpiry_notDue {t : Train} (collecting : s.trains.get b = some t) (early : t.gap ≠ 0) :
    takeGapExpiry b s = s := by
  simp only [takeGapExpiry, collecting, if_neg early]

/-- A train joined by a fragment (R39), whether it still has room or not. -/
theorem Train.next_eq (t : Train) (passes : Bool) (gap : Nat) (x : Byte) :
    t.next passes gap x = { t with
      fragments := if t.fragments.length < 9 then t.fragments ++ [x] else t.fragments
      overlong := t.overlong || decide (9 ≤ t.fragments.length)
      xor := t.xor ^^^ x, vertical := t.vertical || !passes, gap := gap } := by
  unfold Train.next
  split
  · next room => simp [Nat.not_le.mpr room]
  · next full => simp [Nat.not_lt.mp full]

/-! ### The judgement of a closed train (R41, R42) -/

section
variable {t : Train} {sense : Parity} {x : Byte} (enough : 5 ≤ t.fragments.length)

include enough

theorem Train.judge_overlong (overlong : t.overlong = true) : t.judge sense x = .overlong := by
  simp only [Train.judge, if_neg (Nat.not_lt.mpr enough), overlong, if_true]

variable (bounded : t.overlong = false)

include bounded

theorem Train.judge_vertical (vertical : t.vertical = true) : t.judge sense x = .vertical := by
  simp only [Train.judge, if_neg (Nat.not_lt.mpr enough), bounded, vertical, Bool.false_eq_true, if_false, if_true]

variable (upright : t.vertical = false)

include upright

theorem Train.judge_longitudinal (differs : x ≠ t.xor) : t.judge sense x = .longitudinal := by
  simp only [Train.judge, if_neg (Nat.not_lt.mpr enough), bounded, upright, Bool.false_eq_true, if_false, if_pos differs]

theorem Train.judge_closing (same : x = t.xor) :
    t.judge sense x = if (sense.closing t.fragments.length).passes x then .good else .closeParity := by
  simp only [Train.judge, if_neg (Nat.not_lt.mpr enough), bounded, upright, Bool.false_eq_true, if_false,
    if_neg (not_not.mpr same)]

end

/-- The closing test: an odd number of 1 bits exactly for an odd count under ODD sense (R42). -/
theorem Parity.closing_passes (sense : Parity) (count : Nat) (x : Byte) :
    (sense.closing count).passes x = true ↔ (ones x % 2 = 1 ↔ sense = .odd ∧ count % 2 = 1) := by
  cases sense with
  | odd => by_cases odd : count % 2 = 1 <;> simp [Parity.closing, Parity.passes, odd]
  | even => simp [Parity.closing, Parity.passes]

/-- Settles O40: each fragment by the state of its base and of its train, and the judgement item by item. -/
theorem fragmentsCollectIntoTrain : Obligations.FragmentsCollectIntoTrain := by
  refine ⟨?_, fun t sense x => ⟨fun few => if_pos few, fun enough => Train.judge_overlong enough,
    fun enough => Train.judge_vertical enough, fun enough bounded upright =>
      ⟨Train.judge_longitudinal enough bounded upright, fun same => ?_⟩⟩⟩
  · intro s o x b spoiled opened
    refine ⟨fun dropped => ?_, fun hears service => ?_, fun t collecting => ⟨fun due => ?_, fun early => ?_⟩⟩
    · have off := State.fromService_dropped (s := s.fresh) dropped
      exact ⟨congrArg Host.Outcome.next (off _), congrArg Host.Outcome.next (off _), congrArg Host.Outcome.next (off _)⟩
    · have on := State.fromService_heard (s := s.fresh) hears service
      refine ⟨fun (idle : s.fresh.trains.get _ = none) => ?_, fun t (collecting : s.fresh.trains.get _ = some t) => ?_⟩
      · exact ⟨congrArg Host.Outcome.next ((on _).trans (State.takeFirst_idle idle x)),
          congrArg Host.Outcome.next ((on _).trans (State.takeNext_idle idle x)),
          congrArg Host.Outcome.next ((on _).trans (State.takeClose_idle idle x))⟩
      · refine ⟨congrArg Host.Outcome.next ((on _).trans (State.takeFirst_cut collecting x)),
          congrArg Host.Outcome.next ((on _).trans ((State.takeNext_joins collecting x).trans ?_)),
          fun bad => congrArg Host.Outcome.next ((on _).trans (State.takeClose_spoiled collecting bad))⟩
        rw [Train.next_eq]
        rfl
    · exact congrArg Host.Outcome.next (takeGapExpiry_due (s := s.fresh) collecting due)
    · exact congrArg Host.Outcome.next (takeGapExpiry_notDue (s := s.fresh) collecting early)
  · simp only [Train.judge_closing enough bounded upright same, Parity.closing_passes]

/-! ### ARRIVAL (R79, R158) -/

theorem State.chanExists_of_lt {p : ChanRef} (h : p.channel.val < (s.cfg p.base).channels) : s.chanExists p = true :=
  decide_eq_true h

section
variable {p : ChanRef} {tag : Tag} (exists_ : s.chanExists p = true)

include exists_

/-- The context that a channel is RESERVED for, in SETUP, connects. -/
theorem State.arrive_setup {owner : Owner} {i : CallInfo} {d : Option Nat} (reserved : s.chan p = .reserved owner tag)
    (use : (s.ctx owner.call).use = owner.use) (call : (s.ctx owner.call).call = some i) (stage : i.stage = .setup d) :
    s.arrive p tag = s.connect owner.call i p owner := by
  simp only [State.arrive, exists_, reserved, use, call, stage, Bool.not_true, Bool.false_eq_true, if_false, ne_eq,
    not_true_eq_false, or_self]

theorem State.arrive_unexpected {owner : Owner} {expected : Tag} (reserved : s.chan p = .reserved owner expected)
    (other : expected ≠ tag) : s.arrive p tag = s := by
  simp only [State.arrive, exists_, reserved, Bool.not_true, Bool.false_eq_true, if_false, if_pos (Or.inl other)]

theorem State.arrive_held (held : (∃ owner, s.chan p = .busy owner ∨ s.chan p = .releasing (some owner)) ∨
    s.chan p = .releasing none ∨ s.chan p = .releaseOwed) : s.arrive p tag = s := by
  rcases held with ⟨owner, k | k⟩ | k | k <;>
    simp only [State.arrive, exists_, k, Bool.not_true, Bool.false_eq_true, if_false]

/-- A stray arrival is released. -/
theorem State.arrive_free (free : s.chan p = .free) : s.arrive p tag = s.release p none := by
  simp only [State.arrive, exists_, free, Bool.not_true, Bool.false_eq_true, if_false]

end

/-- A release with room in the window of its base in service is sent. -/
theorem State.release_sent {p : ChanRef} (service : (s.base p.base).state = .inService)
    (room : (s.base p.base).window.length < 4) (o : Option Owner) :
    s.release p o = (s.send p.base (.release p.channel) .callUnit (releaseOwner o)).setChan p (.releasing o) := by
  rcases s.release_cases p o with ⟨h, _⟩ | ⟨_, _, e⟩ | ⟨_, full, _⟩
  · exact absurd service h
  · exact e
  · exact absurd room (Nat.not_lt.mpr full)

/-- Settles O47, by the state of the channel. -/
theorem arrivalConnectsCall : Obligations.ArrivalConnectsCall := by
  intro s o ch tag b p hears service below
  have taken : exec (.arrival o ch tag) s = .next (s.fresh.arrive p tag) :=
    congrArg Host.Outcome.next (State.fromService_heard (s := s.fresh) hears service _)
  have exists_ : s.fresh.chanExists p = true := State.chanExists_of_lt below
  rw [taken]
  refine ⟨fun owner i d reserved use call stage => ?_, fun owner expected reserved other => ?_, fun held => ?_,
    fun free room => ?_⟩ <;> refine congrArg Host.Outcome.next ?_
  · rw [State.arrive_setup exists_ reserved use call stage]
    cases kind : i.kind <;> simp only [State.connect, CallInfo.connectedNotice, kind] <;> rfl
  · exact State.arrive_unexpected exists_ reserved other
  · exact State.arrive_held exists_ held
  · rw [State.arrive_free exists_ free, State.release_sent (by exact service) (by exact room), State.send_eq]
    rfl

end Sys2Proof.Machine
end

