-- ==== Sys2Proof/Proofs/CallsTaken.lean ====
section
/-! OPEN CALL and ADMIT CALL taken: the context, the channel and the handset of a new call (O21, O22). -/

namespace Sys2Proof.Machine

open State

variable {s : State} {b : BaseIx} {c : CallIx} {ch : ChanIx}

theorem State.lowestFree_eq_some (free : (s.ctx c).call = none) (lowest : ∀ d < c, (s.ctx d).call ≠ none) :
    s.lowestFree = some c :=
  (Table.lowest_eq_some_iff ..).mpr ⟨Option.isNone_iff_eq_none.mpr free,
    fun d before => Option.isNone_eq_false_iff.mpr (Option.isSome_iff_ne_none.mpr (lowest d before))⟩

/-- The first FREE channel is the lowest. -/
theorem State.freeChannels_head {k : ChanIx} {rest : List ChanIx} (e : s.freeChannels b = k :: rest)
    (free : ch ∈ s.freeChannels b) (lowest : ∀ k ∈ s.freeChannels b, ch ≤ k) : k = ch := by
  have ascending : (s.freeChannels b).Pairwise (· < ·) := (List.pairwise_lt_finRange 8).filter _
  rw [e] at free lowest ascending
  rcases List.mem_cons.mp free with same | later
  · exact same.symm
  · exact absurd ((List.pairwise_cons.mp ascending).1 ch later) (not_lt.mpr (lowest k List.mem_cons_self))

/-- A granted claim gives the lowest FREE channel. -/
theorem State.judgeClaim_lowest {kind : ClaimKind} (granted : ∃ k, s.judgeClaim b kind = .granted k)
    (free : ch ∈ s.freeChannels b) (lowest : ∀ k ∈ s.freeChannels b, ch ≤ k) : s.judgeClaim b kind = .granted ch := by
  obtain ⟨k, granted⟩ := granted
  obtain ⟨_, rest, e⟩ := State.judgeClaim_granted granted
  rwa [← State.freeChannels_head e free lowest]

/-- A call taken into a context, its ASSIGN sent (R77, R157). -/
theorem State.openContext_sent {p : ChanRef} {i : CallInfo} {h : Handset} (held : s.handset i.slot = some h)
    (service : (s.base p.base).state = .inService) (room : (s.base p.base).window.length < 4) :
    s.openContext c p i =
      { (((s.setCtx c ((s.ctx c).opened i)).setChan p (.reserved ⟨c, (s.ctx c).use + 1⟩ i.tag)).setHandset i.slot
        (some { h with status := .engaged p.base c false })).setBase p.base { s.base p.base with
          nextSerial := (s.base p.base).nextSerial + 1
          window := (s.base p.base).window ++ [newEntry (s.base p.base) .assign .callUnit
            (.call c ((s.ctx c).use + 1) 0) (some p.channel) s.settings.timers.echo] } with
        ordersOut := s.ordersOut ++
          [{ base := p.base, serial := (s.base p.base).nextSerial, order := .assign p.channel c i.tag }] } := by
  have use : ((s.setCtx c ((s.ctx c).opened i)).contexts.get c).use = (s.ctx c).use + 1 := by
    rw [State.setCtx, Table.get_set_self]
    rfl
  have engaged (u : State) (same : u.handset i.slot = some h) :
      u.engage i.slot p.base c = u.setHandset i.slot (some { h with status := .engaged p.base c false }) := by
    rw [State.engage, same]
    rfl
  rw [State.openContext, engaged _ (by simpa using held), State.offer_sent (by simpa using service) (by simpa using room)]
  simp only [State.send_eq, State.base_setHandset, State.base_setChan, State.base_setCtx, State.callOwner,
    State.ownerOf, use, State.ctx_setChan, State.ctx_setCtx_self]
  rfl

section
variable {slot : SlotIx} {h : Handset} (idle : s.portFree) (serving : s.runState = .serving)
  (names : s.names 0 (h.tag.setWidth 32) slot h) (barred : h.barred = false)
  (free : (s.ctx c).call = none) (first : ∀ d < c, (s.ctx d).call ≠ none)
  (service : (s.base b).state = .inService) (held : (s.base b).held = false) (degraded : (s.base b).degraded = false)
  (room : (s.base b).window.length < 4)

/-- The bounds of the tag that a request names a record by. -/
theorem State.names.tag_bounds {t : BitVec 32} (names : s.names 0 t slot h) :
    0 < t.toNat ∧ t.toNat < 268435455 := by
  obtain ⟨_, ⟨no, _⟩ | ⟨_, value, pos, small, _⟩⟩ := names
  · exact absurd no (by decide)
  · exact value ▸ ⟨pos, small⟩

include serving names barred free first service held degraded room

theorem takeOpenCall_taken {x : Byte} {dir : Direction} {lifetime : Nat} {origination : Option Nat}
    (direction : asDirection x = some dir) (status : h.status = .attached b lifetime origination)
    (callable : ¬(dir = .originated ∧ origination = none)) (judged : s.judgeClaim b (.setup h.cls) = .granted ch) :
    takeOpenCall (h.tag.setWidth 32) x s = (openedReply c ⟨b, ch⟩,
      s.openContext c ⟨b, ch⟩ (newCall (.localCall dir) (some s.settings.timers.setup) slot h ⟨b, ch⟩)) := by
  obtain ⟨pos, small⟩ := names.tag_bounds
  simp only [takeOpenCall, if_neg (not_not.mpr serving), asTag_eq_some pos small, direction, names.findTag, names.1, barred,
    status, HandsetStatus.callableAt, if_neg callable, State.lowestFree_eq_some free first,
    State.baseTakesCall_eq_true service held degraded, Bool.false_eq_true, if_false, Bool.not_true, judged,
    if_neg (Nat.not_le.mpr room)]

theorem takeAdmitCall_taken {zone : ZoneIx} (foreign : zone ≠ s.settings.zone) (status : h.status.state ≠ .engaged)
    (judged : s.judgeClaim b .zoneIn = .granted ch) :
    takeAdmitCall (h.tag.setWidth 32) (BitVec.ofNat 8 b.val) (BitVec.ofNat 8 zone.val) s = (openedReply c ⟨b, ch⟩,
      s.openContext c ⟨b, ch⟩ (newCall (.zoneIn zone) none slot h ⟨b, ch⟩)) := by
  obtain ⟨pos, small⟩ := names.tag_bounds
  simp only [takeAdmitCall, if_neg (not_not.mpr serving), asTag_eq_some pos small, asBase_byte, asZone_byte,
    if_neg foreign, names.findTag, names.1, barred, if_neg status, State.lowestFree_eq_some free first,
    State.baseTakesCall_eq_true service held degraded, Bool.false_eq_true, if_false, Bool.not_true, judged,
    if_neg (Nat.not_le.mpr room)]

end

theorem asDirection_yesNo (originated : Bool) :
    asDirection (yesNo originated) = some (if originated then .originated else .terminating) := by
  cases originated <;> rfl

/-- Settles O21: the call that the claim is granted for, and its ASSIGN sent. -/
theorem openCallTakesContext : Obligations.OpenCallTakesContext := by
  intro tag s slot h b lifetime origination originated c ch idle serving names barred status pending free first service
    held degraded room channel lowest reserve
  have granted : ∃ k, s.fresh.judgeClaim b (.setup h.cls) = .granted k :=
    (State.judgeClaim_setup (s := s.fresh) service h.cls).2 (List.ne_nil_of_mem channel) reserve
  have callable : ¬((if originated then Direction.originated else .terminating) = .originated ∧ origination = none) := by
    rintro ⟨dir, no⟩
    cases originated
    · cases dir
    · exact pending rfl no
  have taken := takeOpenCall_taken (s := s.fresh) serving names barred free first service held degraded room
    (asDirection_yesNo originated) status callable (State.judgeClaim_lowest granted channel lowest)
  rw [State.openContext_sent (s := s.fresh) (p := ⟨b, ch⟩) (i := newCall _ _ slot h ⟨b, ch⟩) names.1 service room] at taken
  exact answer_of_portFree idle tag (r := .openCall (h.tag.setWidth 32) (yesNo originated)) taken

/-- Settles O22: as O21, without the last-channel reserve. -/
theorem admitCallTakesContext : Obligations.AdmitCallTakesContext := by
  intro tag s slot h b zone c ch idle serving names foreign barred status free first service held degraded room channel
    lowest
  have granted : ∃ k, s.fresh.judgeClaim b .zoneIn = .granted k :=
    (State.judgeClaim_zoneIn (s := s.fresh) service).2 (List.ne_nil_of_mem channel)
  have taken := takeAdmitCall_taken (s := s.fresh) serving names barred free first service held degraded room foreign
    status (State.judgeClaim_lowest granted channel lowest)
  rw [State.openContext_sent (s := s.fresh) (p := ⟨b, ch⟩) (i := newCall _ _ slot h ⟨b, ch⟩) names.1 service room] at taken
  exact answer_of_portFree idle tag
    (r := .admitCall (h.tag.setWidth 32) (BitVec.ofNat 8 b.val) (BitVec.ofNat 8 zone.val)) taken

end Sys2Proof.Machine
end

