-- ==== Sys2Proof/Proofs/OneCall.lean ====
section
/-! What clearing a call, failing its handover attempt or losing a base for it can touch: its own context, the channels it
holds, and bases in service. With it LOSS (O49). -/

namespace Sys2Proof.Machine

open State

variable {s t u : State} {c d : CallIx} {b : BaseIx} {p : ChanRef}

/-- From `s` to `t` only call `c` is concerned: no other context changes, only channels that it holds are given up, bases
out of service and every base's state stay as they were, and so do trains, the LINK class and the tags of records. -/
structure State.Concerns (c : CallIx) (s t : State) : Prop where
  offService : ∀ b, (s.base b).state ≠ .inService → t.base b = s.base b
  state : ∀ b, (t.base b).state = (s.base b).state
  trains : t.trains = s.trains
  linkClass : t.classes.get 0 = s.classes.get 0
  tags : ∀ i, (t.handset i).map Handset.tag = (s.handset i).map Handset.tag
  others : ∀ d, d ≠ c → t.ctx d = s.ctx d
  use : (t.ctx c).use = (s.ctx c).use
  unheld : ∀ p, (s.chan p).heldBy (s.ownerOf c) = false → t.chan p = s.chan p
  within : ∀ p, (s.chan p).within (t.chan p)

theorem Channel.within_refl (k : Channel) : k.within k := ⟨fun _ => id, fun _ => id⟩

theorem Channel.within.not_ownedBy {k k' : Channel} {o : Owner} (h : k.within k') (no : k.ownedBy o = false) :
    k'.ownedBy o = false :=
  Bool.eq_false_iff.mpr fun yes => Bool.eq_false_iff.mp no (h.1 o yes)

theorem Channel.within.not_heldBy {k k' : Channel} {o : Owner} (h : k.within k') (no : k.heldBy o = false) :
    k'.heldBy o = false :=
  Bool.eq_false_iff.mpr fun yes => Bool.eq_false_iff.mp no (h.2 o yes)

/-- A channel owned by one owner is held by no other. -/
theorem Channel.not_heldBy_of_ownedBy {k : Channel} {o w : Owner} (owned : k.ownedBy o = true) (n : o ≠ w) :
    k.heldBy w = false := by
  cases k <;> simp_all [Channel.ownedBy, Channel.heldBy]

namespace State.Concerns

theorem refl (c : CallIx) (s : State) : s.Concerns c s :=
  ⟨fun _ _ => rfl, fun _ => rfl, rfl, rfl, fun _ => rfl, fun _ _ => rfl, rfl, fun _ _ => rfl,
    fun _ => Channel.within_refl _⟩

theorem ownerOf (h : s.Concerns c t) (d : CallIx) : t.ownerOf d = s.ownerOf d := by
  refine congrArg (Owner.mk d) ?_
  by_cases same : d = c
  · subst same
    exact h.use
  · exact congrArg Context.use (h.others d same)

theorem trans (h : s.Concerns c t) (k : t.Concerns c u) : s.Concerns c u where
  offService b off := (k.offService b (by rwa [h.state])).trans (h.offService b off)
  state b := (k.state b).trans (h.state b)
  trains := k.trains.trans h.trains
  linkClass := k.linkClass.trans h.linkClass
  tags i := (k.tags i).trans (h.tags i)
  others d n := (k.others d n).trans (h.others d n)
  use := k.use.trans h.use
  unheld p no := (k.unheld p (by rw [h.ownerOf, h.unheld p no]; exact no)).trans (h.unheld p no)
  within p := ⟨fun o yes => (h.within p).1 o ((k.within p).1 o yes), fun o yes => (h.within p).2 o ((k.within p).2 o yes)⟩

/-- A change of other records than bases, trains, contexts and channels. -/
theorem frame (bases : t.bases = s.bases) (trains : t.trains = s.trains) (contexts : t.contexts = s.contexts)
    (channels : t.channels = s.channels) (linkClass : t.classes.get 0 = s.classes.get 0)
    (tags : ∀ i, (t.handset i).map Handset.tag = (s.handset i).map Handset.tag) : s.Concerns c t := by
  have base (b : BaseIx) : t.base b = s.base b := by simp only [State.base, bases]
  have ctx (d : CallIx) : t.ctx d = s.ctx d := by simp only [State.ctx, contexts]
  have chan (p : ChanRef) : t.chan p = s.chan p := by simp only [State.chan, channels]
  exact ⟨fun b _ => base b, fun b => by rw [base], trains, linkClass, tags, fun d _ => ctx d, by rw [ctx],
    fun p _ => chan p, fun p => by rw [chan]; exact Channel.within_refl _⟩

theorem ite {q : Prop} [Decidable q] (h : s.Concerns c t) (k : s.Concerns c u) : s.Concerns c (if q then t else u) := by
  split
  · exact h
  · exact k

end State.Concerns

theorem concerns_foldl {α : Type} (f : State → α → State) (h : ∀ s a, State.Concerns c s (f s a)) (l : List α) (s : State) :
    s.Concerns c (l.foldl f s) := by
  induction l generalizing s with
  | nil => exact .refl c s
  | cons a l ih => exact (h s a).trans (ih _)

/-! ### Updates -/

theorem concerns_post (s : State) (n : NoticeBody) (other : n.cls ≠ 0 := by simp [NoticeBody.cls]) : s.Concerns c (s.post n) :=
  .frame rfl rfl rfl rfl (State.post_class_ne s n other) fun _ => rfl

theorem State.Concerns.post (h : s.Concerns c t) (n : NoticeBody) (other : n.cls ≠ 0 := by simp [NoticeBody.cls]) :
    s.Concerns c (t.post n) :=
  h.trans (concerns_post t n other)

theorem concerns_enter (s : State) (r : RunState) (w : RunCause) : s.Concerns c (s.enter r w) :=
  .frame rfl rfl rfl rfl (State.post_class_ne _ (.runState s.runState r w) (by simp [NoticeBody.cls])) fun _ => rfl

theorem concerns_setCtx (s : State) (c : CallIx) (x : Context) (use : x.use = (s.ctx c).use) :
    s.Concerns c (s.setCtx c x) where
  offService _ _ := rfl
  state _ := rfl
  trains := rfl
  linkClass := rfl
  tags _ := rfl
  others d n := State.ctx_setCtx_ne s x (Ne.symm n)
  use := by rw [State.ctx_setCtx_self, use]
  unheld _ _ := rfl
  within _ := Channel.within_refl _

theorem concerns_setStatus {i : SlotIx} {h : Handset} (held : s.handset i = some h) (w : HandsetStatus) :
    s.Concerns c (s.setStatus i h w) := by
  refine .frame rfl rfl rfl rfl rfl fun j => ?_
  by_cases same : i = j
  · subst same
    rw [State.handset_setStatus_self, held]
    rfl
  · rw [State.handset_setStatus_ne s h w same]

/-! ### Channels released -/

/-- A release gives its channel up, and touches the base it lies on only when that is in service. -/
theorem State.release_gives (s : State) (p : ChanRef) (o : Owner) :
    ((s.release p (some o)).chan p = .free ∨ (s.release p (some o)).chan p = .releasing (some o) ∨
      (s.release p (some o)).chan p = .releaseOwed) ∧
    (∀ b, (s.base b).state ≠ .inService → (s.release p (some o)).base b = s.base b) ∧
    (∀ b, ((s.release p (some o)).base b).state = (s.base b).state) ∧
    (s.release p (some o)).classes = s.classes ∧ (s.release p (some o)).handsets = s.handsets := by
  have replaced {u : State} {r : BaseRecord} (bases : u.bases = s.bases.set p.base r)
      (service : (s.base p.base).state = .inService) (same : r.state = .inService) (b : BaseIx) :
      ((s.base b).state ≠ .inService → u.base b = s.base b) ∧ (u.base b).state = (s.base b).state := by
    simp only [State.base, bases, Table.get_set]
    split
    · next at_ =>
      subst at_
      exact ⟨fun off => absurd service off, same.trans service.symm⟩
    · exact ⟨fun _ => rfl, rfl⟩
  rcases s.release_cases p (some o) with ⟨_, e⟩ | ⟨service, _, e⟩ | ⟨service, _, e⟩ <;> rw [e]
  · exact ⟨.inl (State.chan_setChan_self ..), fun _ _ => rfl, fun _ => rfl, rfl, rfl⟩
  · have base := replaced (u := s.send p.base (.release p.channel) .callUnit (releaseOwner (some o))) rfl service service
    exact ⟨.inr (.inl (State.chan_setChan_self ..)), fun b => (base b).1, fun b => (base b).2, rfl, rfl⟩
  · have base := replaced (u := s.setBase p.base ((s.base p.base).overflow (.release p.channel))) rfl service service
    exact ⟨.inr (.inr (State.chan_setChan_self ..)), fun b => (base b).1, fun b => (base b).2, rfl, rfl⟩

theorem State.not_heldBy_release (s : State) (p : ChanRef) (o w : Owner) :
    ((s.release p (some o)).chan p).heldBy w = false := by
  rcases (s.release_gives p o).1 with e | e | e <;> rw [e] <;> rfl

theorem concerns_release (held : (s.chan p).heldBy (s.ownerOf c) = true) :
    s.Concerns c (s.release p (some (s.ownerOf c))) := by
  obtain ⟨given, off, state, classes, handsets⟩ := s.release_gives p (s.ownerOf c)
  refine ⟨off, state, (release_still ..).trains, by rw [classes], fun i => by simp only [State.handset, handsets],
    fun d _ => State.ctx_release .., by rw [State.ctx_release], fun q no => ?_, fun q => ?_⟩
  all_goals by_cases same : p = q
  · subst same
    exact absurd held (Bool.eq_false_iff.mp no)
  · exact State.chan_release_ne s _ same
  · subst same
    rcases given with e | e | e <;> rw [e]
    · exact Channel.within_free _
    · exact Channel.within_releasing (by rintro _ ⟨⟩; exact Channel.ownedBy_of_heldBy held)
    · exact Channel.within_releaseOwed _
  · rw [State.chan_release_ne s _ same]
    exact Channel.within_refl _

/-- Every channel of a list that a call holds released. -/
theorem concerns_releases (l : List ChanRef) (nodup : l.Nodup) (s : State)
    (held : ∀ q ∈ l, (s.chan q).heldBy (s.ownerOf c) = true) :
    s.Concerns c (l.foldl (fun t q => t.release q (some (s.ownerOf c))) s) ∧
      ∀ q ∈ l, ((l.foldl (fun t q => t.release q (some (s.ownerOf c))) s).chan q).heldBy (s.ownerOf c) = false := by
  induction l generalizing s with
  | nil => exact ⟨.refl c s, by simp⟩
  | cons q l ih =>
    obtain ⟨fresh, nodup⟩ := List.nodup_cons.mp nodup
    have one := concerns_release (held q List.mem_cons_self)
    have more := ih nodup (s.release q (some (s.ownerOf c))) fun r hr => by
      rw [one.ownerOf, State.chan_release_ne s _ (by rintro rfl; exact fresh hr)]
      exact held r (List.mem_cons_of_mem _ hr)
    rw [one.ownerOf] at more
    rw [List.foldl_cons]
    refine ⟨one.trans more.1, fun r hr => ?_⟩
    rcases List.mem_cons.mp hr with rfl | hr
    · exact (more.1.within _).not_heldBy (s.not_heldBy_release ..)
    · exact more.2 r hr

/-- All that a call holds released: it holds nothing any more. -/
theorem concerns_releaseAll (s : State) (c : CallIx) :
    s.Concerns c ((s.heldBy (s.ownerOf c)).foldl (fun t q => t.release q (some (s.ownerOf c))) s) ∧
      ∀ q, (((s.heldBy (s.ownerOf c)).foldl (fun t q => t.release q (some (s.ownerOf c))) s).chan q).heldBy
        (s.ownerOf c) = false := by
  have all := concerns_releases (s.heldBy (s.ownerOf c)) (nodup_allChannels.filter _) s
    fun q hq => (State.mem_heldBy ..).mp hq
  refine ⟨all.1, fun q => ?_⟩
  by_cases mem : q ∈ s.heldBy (s.ownerOf c)
  · exact all.2 q mem
  · have no : (s.chan q).heldBy (s.ownerOf c) = false :=
      Bool.eq_false_iff.mpr fun yes => mem ((State.mem_heldBy ..).mpr yes)
    rwa [all.1.unheld q no]

/-! ### Captures, the mark line, records -/

theorem concerns_setSlot (s : State) (k : CapIx) (x : CaptureSlot) : s.Concerns c (s.setSlot k x) :=
  .frame rfl rfl rfl rfl rfl fun _ => rfl

theorem concerns_endCaptures (s : State) (d : CallIx) : s.Concerns c (s.endCaptures d) :=
  concerns_foldl _ (fun s k => by
    have completed (h : CaptureHeader) : s.Concerns c (s.completeSlot k h .callEnded) :=
      (concerns_setSlot s k _).trans (concerns_post _ (.captureDone k h.call .callEnded))
    unfold endCapture
    split
    · exact (completed _).ite (.refl c s)
    · exact (completed _).ite (.refl c s)
    · exact .refl c s) _ s

/-- A mark asked for touches capture slots, the drive and the free values alone. -/
theorem State.markFailure_frame (s : State) :
    ∃ slots drive n, s.markFailure = { s with slots := slots, markDrive := drive, freeCount := n } := by
  unfold markFailure driveMark markEdge
  dsimp only
  repeat' split
  all_goals exact ⟨_, _, _, rfl⟩

theorem concerns_markFailure (s : State) : s.Concerns c s.markFailure := by
  obtain ⟨_, _, _, e⟩ := s.markFailure_frame
  rw [e]
  exact .frame rfl rfl rfl rfl rfl fun _ => rfl

theorem concerns_returnRecord (s : State) (i : CallInfo) (w : ClearCause) : s.Concerns c (s.returnRecord i w) := by
  unfold returnRecord
  split
  · exact .refl c s
  · next h held =>
    split
    · next at_ _ _ _ =>
      split
      · exact concerns_setStatus held _
      · exact ((concerns_setStatus held _).post (.detached i.slot h.tag at_)).ite
          (((concerns_setStatus held _).post (.withdrawn i.slot h.tag at_ false)).ite (concerns_setStatus held _))
    · exact .refl c s

theorem CallInfo.endNotice_cls (i : CallInfo) (c : CallIx) (w : ClearCause) : (i.endNotice c w).cls ≠ 0 := by
  unfold CallInfo.endNotice
  repeat' split
  all_goals simp [NoticeBody.cls]

theorem concerns_endDrain (s : State) : s.Concerns c s.endDrain := by
  rcases s.endDrain_cases with ⟨_, _, e⟩ | ⟨_, e⟩ <;> rw [e]
  · exact concerns_enter ..
  · exact .refl c s

/-! ### Clearing -/

theorem concerns_freeContext (s : State) (c : CallIx) (i : CallInfo) (w : ClearCause) :
    s.Concerns c (s.freeContext c i w) :=
  (((concerns_setCtx s c (s.ctx c).freed rfl).trans (concerns_returnRecord _ i w)).post _ (i.endNotice_cls c w)).trans
    (concerns_endDrain _)

theorem concerns_freeIfDone (s : State) (c : CallIx) : s.Concerns c (s.freeIfDone c) := by
  rcases s.freeIfDone_cases c with e | ⟨i, w, _, _, _, e⟩ <;> rw [e]
  · exact .refl c s
  · exact concerns_freeContext s c i w

/-- The context of a call that is freed. -/
theorem State.ctx_freeContext (s : State) (c : CallIx) (i : CallInfo) (w : ClearCause) :
    (s.freeContext c i w).ctx c = (s.ctx c).freed := by
  have still := returnRecord_still (s.setCtx c (s.ctx c).freed) i w
  have drained (u : State) : u.endDrain.ctx c = u.ctx c := by simp only [State.ctx, State.endDrain_contexts]
  rw [State.freeContext, drained, State.ctx_post, still.ctx, State.ctx_setCtx_self]

/-- A clearing that starts: the call concerned alone, CLEARING with the cause and holding nothing, or FREE at once; FREE for
certain when it owned nothing. -/
theorem State.clearCall_starts (s : State) {c : CallIx} {i : CallInfo} (w : ClearCause) (call : (s.ctx c).call = some i)
    (stage : ∀ k, i.stage ≠ .clearing k) :
    s.Concerns c (s.clearCall c w) ∧ (∀ p, ((s.clearCall c w).chan p).heldBy (s.ownerOf c) = false) ∧
      ((s.clearCall c w).ctx c = (s.ctx c).clearing i w ∨ (s.clearCall c w).ctx c = ((s.ctx c).clearing i w).freed) ∧
      ((∀ p, (s.chan p).ownedBy (s.ownerOf c) = false) → (s.clearCall c w).ctx c = ((s.ctx c).clearing i w).freed) := by
  rcases s.clearCall_cases c w with ⟨done, _⟩ | ⟨j, callj, _, e⟩
  · rcases done with no | ⟨j, k, callj, clearing⟩
    · simp [call] at no
    · cases call.symm.trans callj
      exact absurd clearing (stage k)
  · cases call.symm.trans callj
    have begun := concerns_setCtx s c ((s.ctx c).clearing i w) rfl
    have told := (begun.trans (concerns_endCaptures _ c)).ite (q := i.stage = .active) begun
    have ctx : (if i.stage = .active then (s.setCtx c ((s.ctx c).clearing i w)).endCaptures c
        else s.setCtx c ((s.ctx c).clearing i w)).ctx c = (s.ctx c).clearing i w := by
      split
      · rw [(endCaptures_still ..).ctx, State.ctx_setCtx_self]
      · rw [State.ctx_setCtx_self]
    dsimp only at e
    generalize (if i.stage = .active then (s.setCtx c ((s.ctx c).clearing i w)).endCaptures c
        else s.setCtx c ((s.ctx c).clearing i w)) = v at e told ctx
    obtain ⟨releases, none⟩ := concerns_releaseAll v c
    have still := still_foldl (fun u q => u.release q (some (v.ownerOf c))) (fun u q => release_still u q _)
      (v.heldBy (v.ownerOf c)) v
    generalize (v.heldBy (v.ownerOf c)).foldl (fun t q => t.release q (some (v.ownerOf c))) v = u at e releases none still
    have all := told.trans releases
    have freed := concerns_freeIfDone u c
    have ctxu : u.ctx c = (s.ctx c).clearing i w := (still.ctx c).trans ctx
    rw [e]
    refine ⟨all.trans freed, fun p => (freed.within p).not_heldBy (told.ownerOf c ▸ none p), ?_, fun gone => ?_⟩
    · rcases u.freeIfDone_cases c with f | ⟨_, _, _, _, _, f⟩ <;> rw [f]
      · exact .inl ctxu
      · rw [State.ctx_freeContext, ctxu]
        exact .inr rfl
    · rw [State.freeIfDone_last (cause := w) (by rw [ctxu]; rfl) rfl
        (fun p => (all.within p).not_ownedBy (all.ownerOf c ▸ gone p)), State.ctx_freeContext, ctxu]

theorem concerns_clearCall (s : State) (c : CallIx) (w : ClearCause) : s.Concerns c (s.clearCall c w) := by
  rcases s.clearCall_cases c w with ⟨_, e⟩ | ⟨i, call, stage, _⟩
  · rw [e]
    exact .refl c s
  · exact (s.clearCall_starts w call stage).1

/-! ### Handover attempts that fail, switches that are lost -/

/-- A claimed channel given up by a failing attempt, where the call still holds it (R132). -/
def State.giveUp (s : State) (o : Owner) : Option ChanRef → State
  | some p => s.releaseFormer p o
  | none => s

/-- A context in no phase whose target is penalised (R127, R132). -/
def Context.failed (x : Context) (ticks : Nat) (target : Target) : Context :=
  { x with phase := .none, candidates := penalise ticks target x.candidates }

theorem State.failAttemptOn_eq (s : State) (c : CallIx) (i : CallInfo) (target : Target) (claimed : Option ChanRef)
    (phase : PhaseName) (rescue : Bool) (reason : HandoverReason) :
    s.failAttemptOn c i target claimed phase rescue reason =
      let given := s.giveUp (s.ownerOf c) claimed
      ((given.setCtx c ((given.ctx c).failed s.settings.timers.penalty target)).post
        (.failed (i.ref c) i.serving target reason phase rescue (given.ctx c).attempts)).markFailure := by
  cases claimed <;> rfl

theorem concerns_giveUp (s : State) (c : CallIx) (q : Option ChanRef) : s.Concerns c (s.giveUp (s.ownerOf c) q) := by
  cases q with
  | none => exact .refl c s
  | some p =>
    show s.Concerns c (s.releaseFormer p _)
    unfold releaseFormer
    split
    · next held => exact concerns_release held
    · exact .refl c s

theorem concerns_failAttemptOn (s : State) (c : CallIx) (i : CallInfo) (x : Target) (q : Option ChanRef) (n : PhaseName)
    (r : Bool) (w : HandoverReason) : s.Concerns c (s.failAttemptOn c i x q n r w) := by
  have given := concerns_giveUp s c q
  rw [State.failAttemptOn_eq]
  dsimp only
  generalize s.giveUp (s.ownerOf c) q = v at given
  have closed := given.trans (concerns_setCtx v c ((v.ctx c).failed s.settings.timers.penalty x) rfl)
  exact (closed.post (.failed (i.ref c) i.serving x w n r (v.ctx c).attempts)).trans (concerns_markFailure _)

theorem concerns_failAttempt (s : State) (c : CallIx) (w : HandoverReason) : s.Concerns c (s.failAttempt c w) := by
  unfold failAttempt
  dsimp only
  split
  · exact concerns_failAttemptOn ..
  · exact .refl c s

theorem concerns_loseSwitch (s : State) (c : CallIx) (w : LostCase) : s.Concerns c (s.loseSwitch c w) := by
  unfold loseSwitch
  dsimp only
  split
  · exact ((concerns_post s _ (by simp [NoticeBody.cls])).trans (concerns_markFailure _)).trans (concerns_clearCall ..)
  · exact .refl c s

/-! ### LOSS (R85) -/

theorem State.servedBy_eq_none {tag : Tag}
    (h : ∀ c i, (s.ctx c).call = some i → ¬(i.stage = .active ∧ i.serving = p ∧ i.tag = tag)) :
    s.servedBy p tag = none := by
  refine (Table.lowest_eq_none_iff ..).mpr fun c => ?_
  cases call : (s.contexts.get c).call with
  | none => rfl
  | some i =>
    have no := h c i call
    simp only [Bool.and_eq_false_iff, beq_eq_false_iff_ne]
    by_contra all
    simp only [not_or, not_not] at all
    exact no ⟨all.1.1, all.1.2, all.2⟩

theorem State.servedBy_eq_some {tag : Tag} {i : CallInfo} (call : (s.ctx c).call = some i) (stage : i.stage = .active)
    (serving : i.serving = p) (tagged : i.tag = tag)
    (alone : ∀ d j, (s.ctx d).call = some j → j.stage = .active → j.serving = p → j.tag = tag → d = c) :
    s.servedBy p tag = some c := by
  refine (Table.lowest_eq_some_iff ..).mpr ⟨?_, fun d before => ?_⟩
  · simp only [show (s.contexts.get c).call = some i from call, stage, serving, tagged, beq_self_eq_true, Bool.and_self]
  · cases other : (s.contexts.get d).call with
    | none => rfl
    | some j =>
      refine Bool.eq_false_iff.mpr fun all => Fin.ne_of_lt before ?_
      simp only [Bool.and_eq_true, beq_iff_eq] at all
      exact alone d j other all.1.1 all.1.2 all.2

/-- A LOSS for a call in a switch is the expected end of its old link. -/
theorem State.lose_switching {tag : Tag} (exists_ : s.chanExists p = true) (served : s.servedBy p tag = some c)
    (phase : (s.ctx c).phase.name = .switching ∨ (s.ctx c).phase.name = .switchingOut) : s.lose p tag = s := by
  cases e : (s.ctx c).phase <;> simp [e, Phase.name] at phase <;>
    simp only [State.lose, exists_, served, e, Bool.not_true, Bool.false_eq_true, if_false]

theorem State.lose_clears {tag : Tag} (exists_ : s.chanExists p = true) (served : s.servedBy p tag = some c)
    (local_ : (s.ctx c).phase.name ≠ .switching) (out : (s.ctx c).phase.name ≠ .switchingOut) :
    s.lose p tag = s.clearCall c .lost := by
  cases e : (s.ctx c).phase <;> simp [e, Phase.name] at local_ out <;>
    simp only [State.lose, exists_, served, e, Bool.not_true, Bool.false_eq_true, if_false]

/-- Settles O49: the call that the channel and the tag name is cleared, or nothing happens. -/
theorem radioLossClearsCall : Obligations.RadioLossClearsCall := by
  intro s o ch tag p hears service below
  have taken : exec (.loss o ch tag) s = .next (s.fresh.lose p tag) :=
    congrArg Host.Outcome.next (State.fromService_heard (s := s.fresh) hears service _)
  have exists_ : s.fresh.chanExists p = true := State.chanExists_of_lt below
  rw [taken]
  refine ⟨fun nobody => ?_, fun c i call stage serving tagged alone => ?_⟩
  · simp only [State.lose, exists_, State.servedBy_eq_none (s := s.fresh) nobody, Bool.not_true, Bool.false_eq_true,
      if_false]
  · have served : s.fresh.servedBy p tag = some c := State.servedBy_eq_some call stage serving tagged alone
    refine ⟨fun switching => congrArg Host.Outcome.next (State.lose_switching exists_ served switching),
      fun local_ out => ⟨_, congrArg Host.Outcome.next (State.lose_clears exists_ served local_ out), ?_⟩⟩
    obtain ⟨concerns, _, ctx, _⟩ := s.fresh.clearCall_starts .lost call (by simp [stage])
    have keeps := clearCall_keeps s.fresh c .lost
    refine ⟨?_, ?_, concerns.others, keeps.settings, keeps.link⟩ <;> rcases ctx with e | e <;> rw [e]
    · exact .inr rfl
    · exact .inl rfl
    · rfl
    · rfl

end Sys2Proof.Machine
end

