-- ==== Sys2Proof/Proofs/BaseLoss.lean ====
section
/-! A base that leaves service: the loss rule for one context, the owners taken in turn, and what is left of base and calls
(O36, O39). -/

namespace Sys2Proof.Machine

open State

variable {s t u v : State} {b : BaseIx} {c d : CallIx} {i : CallInfo}

/-! ### The loss rule for one context -/

theorem concerns_phaseLoss (s : State) (b : BaseIx) (c : CallIx) (i : CallInfo) : s.Concerns c (s.phaseLoss b c i) := by
  unfold phaseLoss
  dsimp only
  split
  · exact .refl c s
  · exact (concerns_failAttempt ..).ite ((concerns_clearCall ..).ite (.refl c s))
  · exact (concerns_loseSwitch ..).ite ((concerns_setCtx s c _ (by exact rfl)).ite (.refl c s))
  · exact (concerns_clearCall ..).ite (.refl c s)
  · exact (concerns_setCtx s c _ (by exact rfl)).ite (.refl c s)

theorem concerns_lossRule (b : BaseIx) (s : State) (c : CallIx) : s.Concerns c (lossRule b s c) := by
  unfold lossRule
  dsimp only
  split
  · exact .refl c s
  · split
    · exact (concerns_clearCall ..).ite (.refl c s)
    · exact concerns_freeIfDone ..
    · exact (concerns_phaseLoss ..).ite ((concerns_clearCall ..).ite (.refl c s))

section
variable (call : (s.ctx c).call = some i)

include call

theorem State.lossRule_setup {deadline : Option Nat} (stage : i.stage = .setup deadline) (here : i.serving.base = b) :
    lossRule b s c = s.clearCall c (.setupFailed .baseLost) := by
  simp only [State.lossRule, call, stage, if_pos here, State.failSetup]

theorem State.lossRule_clearing {w : ClearCause} (stage : i.stage = .clearing w) : lossRule b s c = s.freeIfDone c := by
  simp only [State.lossRule, call, stage]

theorem State.lossRule_unphased (stage : i.stage = .active) (phase : (s.ctx c).phase = .none) :
    lossRule b s c = if i.serving.base = b then s.clearCall c .baseLost else s := by
  simp only [State.lossRule, call, stage, phase, ne_eq, not_true_eq_false, if_false]

theorem State.lossRule_phase (stage : i.stage = .active) (phase : (s.ctx c).phase ≠ .none) :
    lossRule b s c = s.phaseLoss b c i := by
  simp only [State.lossRule, call, stage, ne_eq, phase, not_false_eq_true, if_true]

end

/-- The context of a call whose attempt fails. -/
theorem State.ctx_failAttemptOn (s : State) (c : CallIx) (i : CallInfo) (x : Target) (q : Option ChanRef) (n : PhaseName)
    (r : Bool) (w : HandoverReason) :
    (s.failAttemptOn c i x q n r w).ctx c = (s.ctx c).failed s.settings.timers.penalty x := by
  have given : (s.giveUp (s.ownerOf c) q).ctx c = s.ctx c := by
    cases q with
    | none => rfl
    | some p =>
      show (s.releaseFormer p _).ctx c = _
      unfold releaseFormer
      split
      · exact State.ctx_release ..
      · rfl
  have marked (u : State) : u.markFailure.ctx c = u.ctx c := by
    obtain ⟨_, _, _, e⟩ := u.markFailure_frame
    rw [e]
    rfl
  rw [State.failAttemptOn_eq, marked, State.ctx_post, State.ctx_setCtx_self, given]

/-! ### The owners taken in turn -/

/-- From `s` to `t` only calls, the channels that they hold and bases in service are touched. -/
structure State.AtCalls (s t : State) : Prop where
  offService : ∀ b, (s.base b).state ≠ .inService → t.base b = s.base b
  state : ∀ b, (t.base b).state = (s.base b).state
  trains : t.trains = s.trains
  linkClass : t.classes.get 0 = s.classes.get 0
  tags : ∀ i, (t.handset i).map Handset.tag = (s.handset i).map Handset.tag
  free : ∀ p, s.chan p = .free → t.chan p = .free

theorem State.AtCalls.refl (s : State) : s.AtCalls s := ⟨fun _ _ => rfl, fun _ => rfl, rfl, rfl, fun _ => rfl, fun _ => id⟩

theorem State.AtCalls.trans (h : s.AtCalls t) (k : t.AtCalls u) : s.AtCalls u where
  offService b off := (k.offService b (by rwa [h.state])).trans (h.offService b off)
  state b := (k.state b).trans (h.state b)
  trains := k.trains.trans h.trains
  linkClass := k.linkClass.trans h.linkClass
  tags i := (k.tags i).trans (h.tags i)
  free p e := k.free p (h.free p e)

theorem State.Concerns.atCalls (h : s.Concerns c t) : s.AtCalls t :=
  ⟨h.offService, h.state, h.trains, h.linkClass, h.tags, fun p e => (h.unheld p (by rw [e]; rfl)).trans e⟩

theorem State.atCalls_lossRules (b : BaseIx) (l : List CallIx) (s : State) : s.AtCalls (l.foldl (lossRule b) s) := by
  induction l generalizing s with
  | nil => exact .refl s
  | cons c l ih => exact (concerns_lossRule b s c).atCalls.trans (ih _)

/-- From `s` to `t` call `d` and the channels that it owns stay as they were, and it gets no further channel. -/
structure State.Spares (d : CallIx) (s t : State) : Prop where
  ctx : t.ctx d = s.ctx d
  chan : ∀ p, (s.chan p).ownedBy (s.ownerOf d) = true → t.chan p = s.chan p
  within : ∀ p, (s.chan p).within (t.chan p)

theorem State.Spares.refl (d : CallIx) (s : State) : s.Spares d s := ⟨rfl, fun _ _ => rfl, fun _ => Channel.within_refl _⟩

theorem State.Spares.ownerOf (h : s.Spares d t) : t.ownerOf d = s.ownerOf d :=
  congrArg (Owner.mk d) (congrArg Context.use h.ctx)

theorem State.Spares.trans (h : s.Spares d t) (k : t.Spares d u) : s.Spares d u where
  ctx := k.ctx.trans h.ctx
  chan p owned := (k.chan p (by rwa [h.ownerOf, h.chan p owned])).trans (h.chan p owned)
  within p := ⟨fun o yes => (h.within p).1 o ((k.within p).1 o yes), fun o yes => (h.within p).2 o ((k.within p).2 o yes)⟩

/-- What concerns one call spares every other. -/
theorem State.Concerns.spares (h : s.Concerns c t) (n : d ≠ c) : s.Spares d t :=
  ⟨h.others d n, fun p owned => h.unheld p (Channel.not_heldBy_of_ownedBy owned fun e => n (congrArg Owner.call e)),
    h.within⟩

theorem State.spares_lossRules {l : List CallIx} (out : d ∉ l) (s : State) : s.Spares d (l.foldl (lossRule b) s) := by
  induction l generalizing s with
  | nil => exact .refl d s
  | cons c l ih =>
    obtain ⟨n, out⟩ := not_or.mp (List.mem_cons.not.mp out)
    exact ((concerns_lossRule b s c).spares n).trans (ih out _)

/-- Each owner has its turn once, spared before it and after it. -/
theorem State.lossRules_turn {l : List CallIx} (nodup : l.Nodup) (mem : d ∈ l) (s : State) :
    ∃ u, s.Spares d u ∧ (lossRule b u d).Spares d (l.foldl (lossRule b) s) := by
  induction l generalizing s with
  | nil => cases mem
  | cons c l ih =>
    obtain ⟨fresh, nodup⟩ := List.nodup_cons.mp nodup
    rcases List.mem_cons.mp mem with rfl | mem
    · exact ⟨s, .refl d s, State.spares_lossRules fresh _⟩
    · obtain ⟨u, before, after⟩ := ih nodup mem (lossRule b s c)
      exact ⟨u, ((concerns_lossRule b s c).spares (ne_of_mem_of_not_mem mem fresh)).trans before, after⟩

/-! ### A base lost -/

/-- The state with a base out of service, emptied and its channels FREE (R24), before any call hears of it. -/
def State.lost (s : State) (b : BaseIx) (new : BaseState) : State :=
  { (s.setBase b { s.base b with state := new }.emptied).setTrain b none with
    channels := s.channels.set b (Table.fill 8 Channel.free) }

theorem State.baseLoss_eq (s : State) (b : BaseIx) (new : BaseState) :
    (s.setBaseState b new).baseLoss b = (s.ownersAt b).foldl (lossRule b) (s.lost b new) :=
  s.baseLoss_setBaseState b new

theorem State.leaveService_eq (s : State) (b : BaseIx) (new : BaseState) (cause : BaseCause) :
    s.leaveService b new cause =
      (s.ownersAt b).foldl (lossRule b) ((s.post (.baseState b (s.base b).state new cause)).lost b new) :=
  State.baseLoss_eq (s.post (.baseState b (s.base b).state new cause)) b new

theorem State.mem_ownersAt : d ∈ s.ownersAt b ↔ ∃ ch, (s.chan ⟨b, ch⟩).ownedBy (s.ownerOf d) = true := by
  simp only [State.ownersAt, List.mem_filter, mem_indices, true_and, Table.any_iff, State.chan]

theorem State.nodup_ownersAt (s : State) (b : BaseIx) : (s.ownersAt b).Nodup := nodup_indices.filter _

/-- What a base loss leaves at the base: nothing, and no owner has its turn there again. -/
structure State.BaseGone (s t : State) (b : BaseIx) (new : BaseState) : Prop where
  base : t.base b = { s.base b with state := new }.emptied
  train : t.trains.get b = none
  free : ∀ ch, t.chan ⟨b, ch⟩ = .free
  states : ∀ d, d ≠ b → (t.base d).state = (s.base d).state
  offService : ∀ d, d ≠ b → (s.base d).state ≠ .inService → t.base d = s.base d
  trains : ∀ d, d ≠ b → t.trains.get d = s.trains.get d
  kept : ∀ p : ChanRef, s.chan p = .free → t.chan p = .free
  linkClass : t.classes.get 0 = s.classes.get 0
  tags : ∀ i, (t.handset i).map Handset.tag = (s.handset i).map Handset.tag

theorem State.chan_ofLost (s : State) (b : BaseIx) (new : BaseState) (p : ChanRef) :
    (s.lost b new).chan p = if b = p.base then .free else s.chan p := State.chan_lost s b new p

theorem State.lost_gone (s : State) (b : BaseIx) {new : BaseState} (off : new ≠ .inService) (l : List CallIx) :
    s.BaseGone (l.foldl (lossRule b) (s.lost b new)) b new := by
  have rules := State.atCalls_lossRules b l (s.lost b new)
  have base (d : BaseIx) : (s.lost b new).base d = if b = d then { s.base b with state := new }.emptied else s.base d :=
    State.base_lost s b d new
  have here : (s.lost b new).base b = { s.base b with state := new }.emptied := (base b).trans (if_pos rfl)
  have there {d : BaseIx} (n : d ≠ b) : (s.lost b new).base d = s.base d := (base d).trans (if_neg (Ne.symm n))
  refine ⟨?_, ?_, fun ch => rules.free _ ?_, fun d n => ?_, fun d n out => ?_, fun d n => ?_, fun p e => rules.free p ?_,
    rules.linkClass, rules.tags⟩
  · rw [rules.offService b (by rw [here]; exact off), here]
  · rw [rules.trains]
    exact Table.get_set_self ..
  · rw [State.chan_ofLost, if_pos rfl]
  · rw [rules.state, there n]
  · rw [rules.offService d (by rwa [there n]), there n]
  · rw [rules.trains]
    exact Table.get_set_ne _ _ (Ne.symm n)
  · rw [State.chan_ofLost, e, ite_self]

/-! ### What a call loses with the base -/

/-- `u` is `s` for call `d`, but that base `b` has left service: its channels there are gone, the others as they were. -/
structure State.Without (b : BaseIx) (d : CallIx) (s u : State) : Prop where
  ctx : u.ctx d = s.ctx d
  gone : ∀ p : ChanRef, p.base = b → (u.chan p).ownedBy (s.ownerOf d) = false
  within : ∀ p, (s.chan p).within (u.chan p)
  elsewhere : ∀ p : ChanRef, p.base ≠ b → (s.chan p).ownedBy (s.ownerOf d) = true → u.chan p = s.chan p

namespace State.Without

theorem ownerOf (h : s.Without b d u) : u.ownerOf d = s.ownerOf d :=
  congrArg (Owner.mk d) (congrArg Context.use h.ctx)

theorem lost (s : State) (b : BaseIx) (new : BaseState) (d : CallIx) : s.Without b d (s.lost b new) := by
  refine ⟨rfl, fun p at_ => ?_, fun p => ?_, fun p away _ => ?_⟩ <;> rw [State.chan_ofLost]
  · rw [if_pos at_.symm]
    rfl
  · split
    · exact Channel.within_free _
    · exact Channel.within_refl _
  · exact if_neg (Ne.symm away)

theorem spared (h : s.Without b d u) (k : u.Spares d v) : s.Without b d v where
  ctx := k.ctx.trans h.ctx
  gone p at_ := (k.within p).not_ownedBy (h.gone p at_)
  within p := ⟨fun o yes => (h.within p).1 o ((k.within p).1 o yes), fun o yes => (h.within p).2 o ((k.within p).2 o yes)⟩
  elsewhere p away owned := by
    have same := h.elsewhere p away owned
    exact (k.chan p (by rwa [same, h.ownerOf])).trans same

/-- A call that owned nothing off the base owns nothing now. -/
theorem nothing (h : s.Without b d u) (only : ∀ p, (s.chan p).ownedBy (s.ownerOf d) = true → p.base = b) (p : ChanRef) :
    (u.chan p).ownedBy (u.ownerOf d) = false := by
  rw [h.ownerOf]
  by_cases at_ : p.base = b
  · exact h.gone p at_
  · exact (h.within p).not_ownedBy (Bool.eq_false_iff.mpr fun owned => at_ (only p owned))

end State.Without

/-- What a clearing that a base loss starts has made of a call of `s` in the end: FREE, or CLEARING with the cause and
holding nothing; FREE for certain when it owned channels of that base alone. -/
def State.clearedBy (s t : State) (b : BaseIx) (d : CallIx) (i : CallInfo) (why : ClearCause) : Prop :=
  ((t.ctx d).call = none ∨ (t.ctx d).call = some { i with stage := .clearing why }) ∧
    ((∀ p, (s.chan p).ownedBy (s.ownerOf d) = true → p.base = b) → (t.ctx d).call = none) ∧
    ∀ p, (t.chan p).heldBy (s.ownerOf d) = false

theorem State.Without.cleared (h : s.Without b d u) (call : (s.ctx d).call = some i) (stage : ∀ k, i.stage ≠ .clearing k)
    {why : ClearCause} (after : (u.clearCall d why).Spares d t) : s.clearedBy t b d i why := by
  obtain ⟨_, none, ctx, freed⟩ := u.clearCall_starts why (by rw [h.ctx]; exact call) stage
  refine ⟨?_, fun only => ?_, fun p => (after.within p).not_heldBy (h.ownerOf ▸ none p)⟩ <;> rw [after.ctx]
  · rcases ctx with e | e <;> rw [e]
    · exact .inr rfl
    · exact .inl rfl
  · rw [freed (h.nothing only)]
    rfl

/-- A switch lost with its base is cleared with LOST. -/
theorem State.Without.lostInSwitch (h : s.Without b d u) (call : (s.ctx d).call = some i) (stage : i.stage = .active)
    {target : Target} (phase : (s.ctx d).phase.target = some target) {why : LostCase}
    (after : (u.loseSwitch d why).Spares d t) : s.clearedBy t b d i .lost := by
  have told : u.loseSwitch d why = ((u.post (.lostInSwitch (i.ref d) (s.ctx d).phase.old target why (s.ctx d).phase.strays
      (s.ctx d).phase.rescue (s.ctx d).attempts)).markFailure).clearCall d .lost := by
    simp only [State.loseSwitch, h.ctx, call, phase]
  rw [told] at after
  refine State.Without.cleared (h.spared (v := (u.post _).markFailure) ?_) call (by simp [stage]) after
  obtain ⟨_, _, _, e⟩ := State.markFailure_frame _
  rw [e]
  exact ⟨rfl, fun _ _ => rfl, fun _ => Channel.within_refl _⟩

/-- What losing base `b` makes of a call of `s` that owned a channel there, by its stage and phase, in `t`. -/
def State.lossSuffered (s t : State) (b : BaseIx) (d : CallIx) (i : CallInfo) : Prop :=
  let x := s.ctx d
  let cleared := s.clearedBy t b d i
  (∀ deadline, i.stage = .setup deadline → i.serving.base = b → cleared (.setupFailed .baseLost)) ∧
  (∀ why, i.stage = .clearing why →
    ((∀ p, (s.chan p).ownedBy (s.ownerOf d) = true → p.base = b) → (t.ctx d).call = none) ∧
    ((∃ p, (s.chan p).ownedBy (s.ownerOf d) = true ∧ p.base ≠ b) → t.ctx d = x)) ∧
  (i.stage = .active → x.phase = .none →
    (i.serving.base = b → cleared .baseLost) ∧ (i.serving.base ≠ b → t.ctx d = x)) ∧
  (∀ p rescue, i.stage = .active → x.phase = .preparing p rescue →
    (p.base = b → i.serving.base ≠ b → (t.ctx d).call = some i ∧ (t.ctx d).phase = .none) ∧
    (p.base ≠ b → i.serving.base = b → cleared .lost) ∧
    (p.base ≠ b → i.serving.base ≠ b → t.ctx d = x)) ∧
  (∀ p rescue old strays deadline, i.stage = .active → x.phase = .switching p rescue old strays deadline →
    (p.base = b → cleared .lost) ∧
    (p.base ≠ b → old.map ChanRef.base = some b →
      t.ctx d = { x with phase := .switching p rescue none strays deadline }) ∧
    (p.base ≠ b → old.map ChanRef.base ≠ some b → t.ctx d = x)) ∧
  (∀ zone a rescue deadline, i.stage = .active → x.phase = .handingOut zone a rescue deadline →
    (i.serving.base = b → cleared .lost) ∧ (i.serving.base ≠ b → t.ctx d = x)) ∧
  ∀ zone a ch rescue old strays deadline, i.stage = .active →
    x.phase = .switchingOut zone a ch rescue old strays deadline →
    (old.map ChanRef.base = some b →
      t.ctx d = { x with phase := .switchingOut zone a ch rescue none strays deadline }) ∧
    (old.map ChanRef.base ≠ some b → t.ctx d = x)

/-- The turn of one call, by its stage and phase. -/
theorem State.Without.suffered (h : s.Without b d u) (call : (s.ctx d).call = some i)
    (after : (lossRule b u d).Spares d t) : s.lossSuffered t b d i := by
  have callu : (u.ctx d).call = some i := by rw [h.ctx]; exact call
  have unchanged (e : lossRule b u d = u) : t.ctx d = s.ctx d := by rw [after.ctx, e, h.ctx]
  have phased {f : Phase} (stage : i.stage = .active) (e : (s.ctx d).phase = f) (n : f ≠ .none) :
      lossRule b u d = u.phaseLoss b d i := State.lossRule_phase callu stage (by rw [h.ctx, e]; exact n)
  refine ⟨fun deadline stage here => ?_, fun why stage => ⟨fun only => ?_, fun ⟨p, owned, away⟩ => ?_⟩,
    fun stage phase => ?_, fun p rescue stage phase => ?_, fun p rescue old strays deadline stage phase => ?_,
    fun zone a rescue deadline stage phase => ?_, fun zone a ch rescue old strays deadline stage phase => ?_⟩
  · rw [State.lossRule_setup callu stage here] at after
    exact h.cleared call (by simp [stage]) after
  · rw [after.ctx, State.lossRule_clearing callu stage, State.freeIfDone_last callu stage (h.nothing only),
      State.ctx_freeContext]
    rfl
  · refine unchanged ((State.lossRule_clearing callu stage).trans ?_)
    rcases u.freeIfDone_cases d with e | ⟨_, _, _, _, none, _⟩
    · exact e
    · have := (State.owned_eq_nil_iff _).mp none p
      rw [h.elsewhere p away owned, h.ownerOf, owned] at this
      cases this
  · have rule := State.lossRule_unphased (b := b) callu stage (by rw [h.ctx]; exact phase)
    refine ⟨fun here => ?_, fun away => unchanged (rule.trans (if_neg away))⟩
    rw [rule, if_pos here] at after
    exact h.cleared call (by simp [stage]) after
  all_goals have rule := phased stage phase nofun
  all_goals simp only [State.phaseLoss, h.ctx, phase] at rule
  · refine ⟨fun target _ => ?_, fun target here => ?_, fun target away => ?_⟩
    · rw [if_pos target] at rule
      have failed : u.failAttempt d .targetLost =
          u.failAttemptOn d i (.localBase p.base) (some p) .preparing rescue .targetLost := by
        simp only [State.failAttempt, h.ctx, call, phase]
        rfl
      rw [after.ctx, rule, failed, State.ctx_failAttemptOn]
      exact ⟨callu, rfl⟩
    · rw [rule, if_neg target, if_pos here] at after
      exact h.cleared call (by simp [stage]) after
    · exact unchanged (by rw [rule, if_neg target, if_neg away])
  · refine ⟨fun target => ?_, fun target here => ?_, fun target away => ?_⟩
    · rw [rule, if_pos target] at after
      exact h.lostInSwitch call stage (by rw [phase]; rfl) after
    · rw [after.ctx, rule, if_neg target, if_pos here, State.ctx_setCtx_self]
    · exact unchanged (by rw [rule, if_neg target, if_neg away])
  · refine ⟨fun here => ?_, fun away => unchanged (by rw [rule, if_neg away])⟩
    rw [rule, if_pos here] at after
    exact h.cleared call (by simp [stage]) after
  · refine ⟨fun here => ?_, fun away => unchanged (by rw [rule, if_neg away])⟩
    rw [after.ctx, rule, if_pos here, State.ctx_setCtx_self]

/-- The owners of a lost base have their turns; every other call is spared. -/
theorem State.lossRules_calls (s : State) (b : BaseIx) (new : BaseState) (d : CallIx) :
    let t := (s.ownersAt b).foldl (lossRule b) (s.lost b new)
    ((s.ctx d).call = none ∨ (∀ ch, (s.chan ⟨b, ch⟩).ownedBy (s.ownerOf d) = false) → t.ctx d = s.ctx d) ∧
      ∀ i, (s.ctx d).call = some i → (∃ ch, (s.chan ⟨b, ch⟩).ownedBy (s.ownerOf d) = true) → s.lossSuffered t b d i := by
  have turn (mem : d ∈ s.ownersAt b) := State.lossRules_turn (b := b) (s.nodup_ownersAt b) mem (s.lost b new)
  refine ⟨fun spared => ?_, fun i call owner => ?_⟩
  · by_cases mem : d ∈ s.ownersAt b
    · obtain ⟨u, before, after⟩ := turn mem
      rcases spared with free | none
      · have same : lossRule b u d = u := by
          simp only [State.lossRule, before.ctx, show ((s.lost b new).ctx d).call = none from free]
        rw [after.ctx, same, before.ctx]
        rfl
      · obtain ⟨ch, owned⟩ := State.mem_ownersAt.mp mem
        exact absurd owned (Bool.eq_false_iff.mp (none ch))
    · exact (State.spares_lossRules mem _).ctx
  · obtain ⟨u, before, after⟩ := turn (State.mem_ownersAt.mpr owner)
    exact State.Without.suffered ((State.Without.lost s b new d).spared before) call after

/-! ### What takes a base out of service (R21, R22, R23) -/

/-- Each cause of O36 makes the base leave service, its health recorded at most. -/
theorem exec_leavesService {command : Instr} {new : BaseState} {cause : BaseCause}
    (h : (∃ o, command = .status o .failed ∧ originBase o = b ∧ s.hears o = true ∧ (s.base b).state = .inService ∧
        new = .fault ∧ cause = .healthFailed) ∨
      (command = .heartbeatExpiry b ∧ ((s.base b).state = .inService ∨ (s.base b).state = .probing) ∧
        (s.base b).heartbeat = some 0 ∧ new = .down ∧ cause = .heartbeatLost) ∨
      (command = .settleExpiry b ∧ (s.base b).state = .probing ∧ (s.base b).settle = some 0 ∧
        (s.base b).lastHealth ≠ some .ok ∧ new = .fault ∧ cause = .settleFault)) :
    new ≠ .inService ∧ ∃ r : BaseRecord, r.state = (s.base b).state ∧
      exec command s = .next ((s.fresh.setBase b r).leaveService b new cause) := by
  have same : s.fresh.setBase b (s.base b) = s.fresh := by
    rw [State.setBase]
    exact congrArg (fun bases => { s.fresh with bases := bases }) (Table.set_get_self ..)
  rcases h with ⟨o, rfl, rfl, hears, service, rfl, rfl⟩ | ⟨rfl, linked, due, rfl, rfl⟩ | ⟨rfl, probing, due, sick, rfl, rfl⟩
  · refine ⟨nofun, { (s.base (originBase o)).beat .failed s.tick with
      heartbeat := some s.settings.timers.heartbeat }, rfl, (exec_status_heard hears .failed).trans ?_⟩
    simp only [State.takeStatus, State.base_fresh, service, State.serviceBeat]
    rfl
  · refine ⟨nofun, s.base b, rfl, ?_⟩
    rw [same]
    refine congrArg Host.Outcome.next (if_pos ⟨?_, due⟩)
    rcases linked with e | e <;> exact congrArg BaseState.takesEcho e
  · refine ⟨nofun, s.base b, rfl, ?_⟩
    rw [same]
    exact congrArg Host.Outcome.next ((if_pos ⟨probing, due⟩).trans (if_neg sick))

/-- A base that leaves service is gone, after its notice. -/
theorem State.leaveService_gone (s : State) (b : BaseIx) {new : BaseState} (off : new ≠ .inService) (cause : BaseCause) :
    (s.post (.baseState b (s.base b).state new cause)).BaseGone (s.leaveService b new cause) b new := by
  rw [State.leaveService_eq]
  exact State.lost_gone _ b off _

theorem State.leaveService_calls (s : State) (b : BaseIx) (new : BaseState) (cause : BaseCause) (d : CallIx) :
    ((s.ctx d).call = none ∨ (∀ ch, (s.chan ⟨b, ch⟩).ownedBy (s.ownerOf d) = false) →
      (s.leaveService b new cause).ctx d = s.ctx d) ∧
    ∀ i, (s.ctx d).call = some i → (∃ ch, (s.chan ⟨b, ch⟩).ownedBy (s.ownerOf d) = true) →
      s.lossSuffered (s.leaveService b new cause) b d i := by
  rw [State.leaveService_eq]
  exact State.lossRules_calls (s.post (.baseState b (s.base b).state new cause)) b new d

/-- Settles O36: the base emptied, then each call that owned a channel there by its stage and phase. -/
theorem baseLossEmptiesBase : Obligations.BaseLossEmptiesBase := by
  intro s b command new cause h
  obtain ⟨off, r, state, e⟩ := exec_leavesService h
  have gone := State.leaveService_gone (s.fresh.setBase b r) b off cause
  have calls := State.leaveService_calls (s.fresh.setBase b r) b new cause
  have keeps := (fresh_keeps s).trans ((setBase_keeps ..).trans (leaveService_keeps (s.fresh.setBase b r) b new cause))
  have record : (s.fresh.setBase b r).base b = r := State.base_setBase_self ..
  have left := gone.base.trans (congrArg (fun r : BaseRecord => { r with state := new }.emptied) record)
  have filed := gone.linkClass.trans (State.post_class_self (s.fresh.setBase b r) _)
  rw [record, state] at filed
  exact ⟨_, e, congrArg BaseRecord.state left, congrArg BaseRecord.window left, congrArg BaseRecord.owedReleases left,
    congrArg BaseRecord.owedAdmission left, congrArg BaseRecord.settle left, congrArg BaseRecord.heartbeat left,
    congrArg BaseRecord.degraded left, gone.train, gone.free, fun a other => (gone.states a other).trans
      (congrArg BaseRecord.state (State.base_setBase_ne s.fresh r (Ne.symm other))), filed, gone.tags,
    fun d => (calls d).1, fun d => (calls d).2, keeps.settings, keeps.tick, keeps.link⟩

end Sys2Proof.Machine
end

