-- ==== Sys2Proof/Proofs/Carrier.lean ====
section
/-! The bases of a port taken DOWN one after the other, in any order (O39). -/

namespace Sys2Proof.Machine

open State

variable {s t u : State} {b d : BaseIx} {p : PortIx}

/-! ### The bases of a port -/

theorem portOf_baseAt (p : PortIx) (i : Fin 8) : portOf (baseAt p i) = p := by
  apply Fin.ext
  show (p.val * 8 + i.val) / 8 = p.val
  omega

theorem exists_baseAt (b : BaseIx) : ∃ i, baseAt (portOf b) i = b := by
  refine ⟨⟨b.val % 8, Nat.mod_lt _ (by decide)⟩, Fin.ext ?_⟩
  show b.val / 8 * 8 + b.val % 8 = b.val
  omega

/-! ### One base dropped -/

/-- A base without link (R24): DOWN or UNUSED, nothing in its window, no train, every channel FREE. -/
def State.vacated (s : State) (b : BaseIx) : Prop :=
  ((s.base b).state = .down ∨ (s.base b).state = .unused) ∧ (s.base b).window = [] ∧ s.trains.get b = none ∧
    ∀ ch, s.chan ⟨b, ch⟩ = .free

/-- The state that dropping a base leaves it in. -/
def BaseState.dropped : BaseState → BaseState
  | .unused => .unused
  | _ => .down

theorem BaseState.dropped_dropped (x : BaseState) : x.dropped.dropped = x.dropped := by cases x <;> rfl

theorem State.dropBase_gone (linked : (s.base b).linked) : s.BaseGone (s.dropBase b) b .down := by
  rcases s.dropBase_cases b with ⟨_, e⟩ | ⟨fault, _⟩ | ⟨idle, _⟩
  · rw [e, State.baseLoss_eq]
    exact State.lost_gone s b (new := .down) nofun _
  · rcases linked with h | h <;> simp [fault] at h
  · rcases linked with h | h <;> rcases idle with k | k <;> simp [k] at h

/-- A base not linked is dropped by a change of its state alone. -/
theorem State.dropBase_unlinked (off : ¬(s.base b).linked) :
    s.dropBase b = s.setBaseState b (s.base b).state.dropped := by
  have same (e : (s.base b).state.dropped = (s.base b).state) : s = s.setBaseState b (s.base b).state.dropped := by
    rw [e]
    exact (congrArg (fun bases => { s with bases := bases }) (Table.set_get_self s.bases b)).symm
  rcases s.dropBase_cases b with ⟨linked, _⟩ | ⟨fault, e⟩ | ⟨idle, e⟩
  · exact absurd linked off
  · rw [e, fault]
    rfl
  · rw [e]
    exact same (by rcases idle with h | h <;> rw [h] <;> rfl)

theorem State.dropBase_state (s : State) (b d : BaseIx) :
    ((s.dropBase b).base d).state = if b = d then (s.base d).state.dropped else (s.base d).state := by
  by_cases linked : (s.base b).linked
  · have gone := State.dropBase_gone linked
    split
    · next same =>
      subst same
      rw [gone.base]
      rcases linked with h | h <;> rw [h] <;> rfl
    · next other => exact gone.states d (Ne.symm other)
  · rw [State.dropBase_unlinked linked, State.setBaseState]
    split
    · next same =>
      subst same
      rw [State.base_setBase_self]
    · next other => rw [State.base_setBase_ne _ _ other]

theorem State.dropBase_linkClass (s : State) (b : BaseIx) : (s.dropBase b).classes.get 0 = s.classes.get 0 := by
  by_cases linked : (s.base b).linked
  · exact (State.dropBase_gone linked).linkClass
  · rw [State.dropBase_unlinked linked]
    rfl

theorem State.vacated.not_linked (h : s.vacated b) : ¬(s.base b).linked := by
  rintro (e | e) <;> rcases h.1 with k | k <;> simp [e] at k

/-- A base without link stays one, whichever base is dropped. -/
theorem State.vacated.dropBase (h : s.vacated d) (b : BaseIx) : (s.dropBase b).vacated d := by
  obtain ⟨idle, window, train, free⟩ := h
  by_cases linked : (s.base b).linked
  · have other : d ≠ b := by
      rintro rfl
      exact State.vacated.not_linked ⟨idle, window, train, free⟩ linked
    have gone := State.dropBase_gone linked
    have same := gone.offService d other (by rcases idle with e | e <;> rw [e] <;> nofun)
    exact ⟨by rwa [same], by rwa [same], (gone.trains d other).trans train, fun ch => gone.kept _ (free ch)⟩
  · have state := s.dropBase_state b d
    rw [State.dropBase_unlinked linked] at state ⊢
    refine ⟨?_, ?_, train, free⟩
    · rw [state]
      split
      · rcases idle with e | e <;> simp [e, BaseState.dropped]
      · exact idle
    · by_cases same : b = d
      · subst same
        rw [State.setBaseState, State.base_setBase_self]
        exact window
      · rw [State.setBaseState, State.base_setBase_ne _ _ same]
        exact window

/-- A linked base stays linked or is without link, whichever base is dropped. -/
theorem State.dropBase_linked (h : (s.base d).linked) (b : BaseIx) :
    ((s.dropBase b).base d).linked ∨ (s.dropBase b).vacated d := by
  by_cases same : b = d
  · subst same
    have gone := State.dropBase_gone h
    have record := gone.base
    exact .inr ⟨.inl (congrArg BaseRecord.state record), congrArg BaseRecord.window record, gone.train, gone.free⟩
  · left
    unfold BaseRecord.linked
    rwa [s.dropBase_state b d, if_neg same]

/-! ### Many bases dropped -/

theorem State.dropPort_cons (s : State) (p : PortIx) (i : Fin 8) (order : List (Fin 8)) :
    s.dropPort p (i :: order) = (s.dropBase (baseAt p i)).dropPort p order := rfl

theorem State.dropPort_linkClass (s : State) (p : PortIx) (order : List (Fin 8)) :
    (s.dropPort p order).classes.get 0 = s.classes.get 0 := by
  induction order generalizing s with
  | nil => rfl
  | cons i order ih => exact (ih _).trans (s.dropBase_linkClass _)

/-- The named bases dropped, every other one in its state. -/
theorem State.dropPort_state (s : State) (p : PortIx) (order : List (Fin 8)) (d : BaseIx) :
    ((s.dropPort p order).base d).state =
      if ∃ i ∈ order, baseAt p i = d then (s.base d).state.dropped else (s.base d).state := by
  induction order generalizing s with
  | nil => exact (if_neg (by simp)).symm
  | cons i order ih =>
    rw [State.dropPort_cons, ih, State.dropBase_state]
    by_cases here : baseAt p i = d
    · rw [if_pos here, BaseState.dropped_dropped, ite_self, if_pos ⟨i, List.mem_cons_self, here⟩]
    · rw [if_neg here]
      exact if_congr (by simp [here]) rfl rfl

/-- With every position named, the bases of the port are the ones dropped. -/
theorem State.dropPort_state_all {order : List (Fin 8)} (all : ∀ i, i ∈ order) (s : State) (d : BaseIx) :
    ((s.dropPort p order).base d).state = if portOf d = p then (s.base d).state.dropped else (s.base d).state := by
  rw [State.dropPort_state]
  refine if_congr ⟨?_, ?_⟩ rfl rfl
  · rintro ⟨i, _, rfl⟩
    exact portOf_baseAt p i
  · rintro rfl
    obtain ⟨i, e⟩ := exists_baseAt d
    exact ⟨i, all i, e⟩

theorem State.vacated.of_not_linked (h : (s.base d).linked ∨ s.vacated d) (off : (s.base d).state = .down) : s.vacated d :=
  h.resolve_left fun linked => by rcases linked with e | e <;> simp [off] at e

theorem State.dropPort_linked (h : (s.base d).linked ∨ s.vacated d) (order : List (Fin 8)) :
    ((s.dropPort p order).base d).linked ∨ (s.dropPort p order).vacated d := by
  induction order generalizing s with
  | nil => exact h
  | cons i order ih => exact ih (h.elim (fun l => State.dropBase_linked l _) fun v => .inr (v.dropBase _))

/-- The carrier of a port noted and posted as lost, a free value taken for the order of its bases. -/
def State.carrierDown (s : State) (p : PortIx) : State :=
  { ({ s with carriers := s.carriers.set p false } : State).post (.port p false) with freeCount := s.freeCount + 1 }

/-- The carrier of a driven port lost: whatever the order, every base of the port is dropped. -/
theorem takeCarrierLost_driven (carrier : s.carriers.get p = true) (driven : s.driven p = true) :
    ∃ order : List (Fin 8), (∀ i, i ∈ order) ∧ takeCarrierLost p s = (s.carrierDown p).dropPort p order := by
  refine ⟨Config.lossOrder s.freeCount ++ indices 8, fun i => List.mem_append_right _ (mem_indices i), if_pos ?_⟩
  rw [carrier, driven]
  rfl

theorem State.dropPort_keeps (s : State) (p : PortIx) (order : List (Fin 8)) : s.Keeps (s.dropPort p order) :=
  keeps_foldl _ (fun u i => dropBase_keeps u (baseAt p i)) order s

/-- Settles O39: the bases of the port whatever their order, and the carrier noted alone. -/
theorem carrierTakesPortDown : Obligations.CarrierTakesPortDown := by
  intro s p
  have drives : s.fresh.driven p = s.driven p := rfl
  refine ⟨fun carrier driven => ?_, fun h => congrArg Host.Outcome.next (if_neg ?_),
    fun down driven => congrArg Host.Outcome.next (if_pos ?_), fun h => congrArg Host.Outcome.next (if_neg ?_)⟩
  · obtain ⟨order, all, e⟩ := takeCarrierLost_driven (s := s.fresh) carrier driven
    have keeps := (s.fresh.carrierDown p).dropPort_keeps p order
    have state := State.dropPort_state_all (p := p) all (s.fresh.carrierDown p)
    refine ⟨_, congrArg Host.Outcome.next e, keeps.carriers, fun b here => ?_, fun b away => ?_, fun b here linked => ?_,
      (State.dropPort_linkClass ..).trans (State.post_class_self _ (.port p false)), keeps.settings, keeps.tick,
      keeps.link⟩
    · rw [state, if_pos here]
      show (s.base b).state.dropped = _
      cases (s.base b).state <;> rfl
    · rw [state, if_neg away]
      rfl
    · have down : (((s.fresh.carrierDown p).dropPort p order).base b).state = .down := by
        rw [state, if_pos here]
        show (s.base b).state.dropped = _
        rcases linked with e | e <;> rw [e] <;> rfl
      obtain ⟨_, window, train, free⟩ := State.vacated.of_not_linked
        (State.dropPort_linked (s := s.fresh.carrierDown p) (p := p) (d := b) (.inl linked) order) down
      exact ⟨free, window, train⟩
  · rcases h with h | h <;> simp [drives, h]
  · simp [drives, down, driven]
  · rcases h with h | h <;> simp [drives, h]

end Sys2Proof.Machine
end

