-- ==== Sys2Proof/Proofs/OrderOutcomes.lean ====
section
/-! Echoes and echo deadlines (O38): the entry that leaves its window, the owed item that its departure lets go, and what
the placing block makes of the outcome. -/

namespace Sys2Proof.Machine

open State

variable {s t u : State} {b d : BaseIx} {c : CallIx} {i : CallInfo} {e : WindowEntry}

/-! ### The no-echo count is touched by echoes alone -/

/-- From `s` to `t` no base's no-echo count changes. -/
structure State.SameNoEcho (s t : State) : Prop where
  count : ∀ b, (t.base b).noEcho = (s.base b).noEcho

namespace State.SameNoEcho

theorem refl (s : State) : s.SameNoEcho s := ⟨fun _ => rfl⟩

theorem trans (h : s.SameNoEcho t) (k : t.SameNoEcho u) : s.SameNoEcho u :=
  ⟨fun b => (k.count b).trans (h.count b)⟩

theorem frame (bases : t.bases = s.bases) : s.SameNoEcho t :=
  ⟨fun b => by simp only [State.base, bases]⟩

/-- A first step that leaves the bases alone. -/
theorem from_same (h : t.SameNoEcho u) (bases : t.bases = s.bases := by rfl) : s.SameNoEcho u := (frame bases).trans h

/-- A last step that leaves the bases alone. -/
theorem to_same (h : s.SameNoEcho t) (bases : u.bases = t.bases := by rfl) : s.SameNoEcho u := h.trans (frame bases)

theorem ite {q : Prop} [Decidable q] (h : s.SameNoEcho t) (k : s.SameNoEcho u) : s.SameNoEcho (if q then t else u) := by
  split
  · exact h
  · exact k

end State.SameNoEcho

theorem sameNoEcho_foldl {α : Type} (f : State → α → State) (h : ∀ s a, State.SameNoEcho s (f s a)) (l : List α)
    (s : State) : s.SameNoEcho (l.foldl f s) := by
  induction l generalizing s with
  | nil => exact .refl s
  | cons a l ih => exact (h s a).trans (ih _)

theorem sameNoEcho_setBase (b : BaseIx) (r : BaseRecord) (same : r.noEcho = (s.base b).noEcho) :
    s.SameNoEcho (s.setBase b r) := by
  refine ⟨fun d => ?_⟩
  by_cases here : b = d
  · subst here
    rw [State.base_setBase_self, same]
  · rw [State.base_setBase_ne _ _ here]

theorem sameNoEcho_send (s : State) (b : BaseIx) (o : Order) (p : Placer) (w : OrderOwner) :
    s.SameNoEcho (s.send b o p w) := by
  refine State.SameNoEcho.trans (t := s.setBase b _) (sameNoEcho_setBase b _ ?_) (.frame rfl)
  rfl

theorem BaseRecord.overflow_noEcho (r : BaseRecord) (o : Order) : (r.overflow o).noEcho = r.noEcho := by
  cases o <;> rfl

theorem sameNoEcho_offer (s : State) (b : BaseIx) (o : Order) (p : Placer) (w : OrderOwner) :
    s.SameNoEcho (s.offer b o p w).2 := by
  rcases s.offer_cases b o p w with ⟨_, e⟩ | ⟨_, _, e⟩ | ⟨_, _, e⟩ <;> rw [e]
  · exact .refl s
  · exact sameNoEcho_send ..
  · exact sameNoEcho_setBase b _ (BaseRecord.overflow_noEcho ..)

theorem sameNoEcho_sendOwed (s : State) (b : BaseIx) : s.SameNoEcho (s.sendOwed b) := by
  rcases s.sendOwed_cases b with ⟨_, e⟩ | ⟨_, _, e⟩ | ⟨_, _, _, _, e⟩ <;> rw [e]
  · exact .refl s
  · exact (sameNoEcho_setBase b { s.base b with owedAdmission := false } rfl).trans (sameNoEcho_send ..)
  · refine State.SameNoEcho.to_same (t := State.send _ b _ .callUnit .none) (State.SameNoEcho.trans ?_ (sameNoEcho_send ..))
    exact sameNoEcho_setBase b _ (by exact rfl)

theorem sameNoEcho_release (s : State) (p : ChanRef) (o : Option Owner) : s.SameNoEcho (s.release p o) := by
  rcases s.release_cases p o with ⟨_, e⟩ | ⟨_, _, e⟩ | ⟨_, _, e⟩ <;> rw [e]
  · exact .frame rfl
  · exact (sameNoEcho_send ..).trans (.frame rfl)
  · exact (sameNoEcho_setBase p.base _ (BaseRecord.overflow_noEcho ..)).trans (.frame rfl)

/-! ### What the end of a clearing leaves alone -/

/-- From `s` to `t` channels, bases and the orders on the ports stay as they were. -/
structure State.SameLinks (s t : State) : Prop where
  channels : t.channels = s.channels
  bases : t.bases = s.bases
  ordersOut : t.ordersOut = s.ordersOut

theorem sameLinks_returnRecord (s : State) (i : CallInfo) (w : ClearCause) : s.SameLinks (s.returnRecord i w) := by
  unfold returnRecord
  repeat' split
  all_goals exact ⟨rfl, rfl, rfl⟩

theorem sameLinks_endDrain (s : State) : s.SameLinks s.endDrain := by
  rcases s.endDrain_cases with ⟨_, _, e⟩ | ⟨_, e⟩ <;> rw [e] <;> exact ⟨rfl, rfl, rfl⟩

theorem sameLinks_freeContext (s : State) (c : CallIx) (i : CallInfo) (w : ClearCause) :
    s.SameLinks (s.freeContext c i w) := by
  have record := sameLinks_returnRecord (s.setCtx c (s.ctx c).freed) i w
  have drained := sameLinks_endDrain (((s.setCtx c (s.ctx c).freed).returnRecord i w).post (i.endNotice c w))
  exact ⟨drained.channels.trans record.channels, drained.bases.trans record.bases, drained.ordersOut.trans record.ordersOut⟩

theorem sameNoEcho_freeIfDone (s : State) (c : CallIx) : s.SameNoEcho (s.freeIfDone c) := by
  rcases s.freeIfDone_cases c with e | ⟨i, w, _, _, _, e⟩ <;> rw [e]
  · exact .refl s
  · exact .frame (sameLinks_freeContext s c i w).bases

/-! ### The no-echo count under the outcome of an order -/

theorem endCaptures_bases (s : State) (c : CallIx) : (s.endCaptures c).bases = s.bases := by
  have kept (l : List CapIx) (s : State) : (l.foldl (endCapture c) s).bases = s.bases := by
    induction l generalizing s with
    | nil => rfl
    | cons k l ih =>
      refine (ih _).trans ?_
      unfold endCapture
      repeat' split
      all_goals rfl
  exact kept _ s

theorem sameNoEcho_clearCall (s : State) (c : CallIx) (w : ClearCause) : s.SameNoEcho (s.clearCall c w) := by
  rcases s.clearCall_cases c w with ⟨_, e⟩ | ⟨i, _, _, e⟩ <;> rw [e]
  · exact .refl s
  · have begun : s.SameNoEcho (s.setCtx c ((s.ctx c).clearing i w)) := .frame rfl
    dsimp only
    refine State.SameNoEcho.trans ?_ (sameNoEcho_freeIfDone ..)
    refine State.SameNoEcho.trans ?_ (sameNoEcho_foldl _ (fun u p => sameNoEcho_release u p _) _ _)
    exact (begun.trans (.frame (endCaptures_bases ..))).ite begun

theorem sameNoEcho_markFailure (s : State) : s.SameNoEcho s.markFailure := by
  obtain ⟨_, _, _, e⟩ := s.markFailure_frame
  rw [e]
  exact .frame rfl

theorem sameNoEcho_failAttempt (s : State) (c : CallIx) (w : HandoverReason) : s.SameNoEcho (s.failAttempt c w) := by
  have given (o : Owner) (q : Option ChanRef) : s.SameNoEcho (s.giveUp o q) := by
    cases q with
    | none => exact .refl s
    | some p => exact (sameNoEcho_release ..).ite (.refl s)
  unfold failAttempt
  dsimp only
  split
  · rw [State.failAttemptOn_eq]
    exact State.SameNoEcho.trans (given ..).to_same (sameNoEcho_markFailure _)
  · exact .refl s

theorem sameNoEcho_startSwitch (s : State) (c : CallIx) (i : CallInfo) (p : ChanRef) (r : Bool) :
    s.SameNoEcho (s.startSwitch c i p r) := by
  have offered : s.SameNoEcho ((s.setCtx c (s.ctx c).nextOrder).offerMove c i (.localBase p.base) p.channel).2 :=
    (sameNoEcho_offer (s.setCtx c (s.ctx c).nextOrder) ..).from_same
  unfold startSwitch
  dsimp only
  split
  · exact offered.to_same
  · exact offered.trans (sameNoEcho_failAttempt ..)
  · exact offered.trans (sameNoEcho_failAttempt ..)

theorem sameNoEcho_outcome (s : State) (b : BaseIx) (e : WindowEntry) (echoed : Bool) :
    s.SameNoEcho (s.outcome b e echoed) := by
  have setup (c : CallIx) : s.SameNoEcho (s.setupOutcome c echoed) := by
    unfold setupOutcome
    dsimp only
    split
    · exact .refl s
    · split
      · exact (State.SameNoEcho.refl s).ite (sameNoEcho_clearCall ..)
      · exact State.SameNoEcho.ite (.frame rfl) (sameNoEcho_clearCall ..)
      · exact .refl s
  have sequencer (c : CallIx) (use orderNo : BitVec 8) : s.SameNoEcho (s.sequencerOutcome c use orderNo e.kind echoed) := by
    unfold sequencerOutcome
    dsimp only
    split
    · exact .refl s
    · split
      · exact (sameNoEcho_startSwitch ..).ite (sameNoEcho_failAttempt ..)
      · exact (State.SameNoEcho.refl s).ite (sameNoEcho_failAttempt ..)
      · exact (State.SameNoEcho.refl s).ite (sameNoEcho_failAttempt ..)
      · exact .refl s
  have release (p : ChanRef) : s.SameNoEcho (s.releaseOutcome p e.owner) := by
    have freed : s.SameNoEcho (s.setChan p .free) := .frame rfl
    unfold releaseOutcome
    dsimp only
    split
    · exact (freed.trans (sameNoEcho_freeIfDone ..)).ite freed
    · exact freed
  unfold outcome callUnitOutcome
  split
  · split
    · exact release _
    · split
      · exact (setup _).ite (.refl s)
      · exact .refl s
    · exact .refl s
  · split
    · exact sequencer ..
    · exact .refl s
  · exact .refl s
  · exact .refl s

/-! ### Owed items (R32) -/

/-- The lowest set entry of a table is the first found in order. -/
theorem Table.lowest_id_eq {n : Nat} (x : Table Bool n) : (List.finRange n).find? (fun k => x.get k) = x.lowest id := by
  cases e : x.lowest id with
  | none =>
    rw [List.find?_eq_none]
    exact fun k _ => Bool.eq_false_iff.mp ((Table.lowest_eq_none_iff ..).mp e k)
  | some k =>
    obtain ⟨set, below⟩ := (Table.lowest_eq_some_iff ..).mp e
    rw [List.find?_eq_some_iff_getElem]
    refine ⟨set, k.val, by simp, by simp, fun j before => ?_⟩
    rw [List.getElem_finRange]
    exact (Bool.not_eq_true' _).mpr (below _ before)

theorem State.owedSent_eq (s : State) (b : BaseIx) : s.owedSent b = s.sendOwed b := by
  simp only [State.owedSent, State.sendOwed, State.send_setBase, Table.lowest_id_eq]
  rfl

section
variable (s : State) {b : BaseIx} {r : BaseRecord}

theorem State.sendOwed_setBase_nothing (admission : r.owedAdmission = false)
    (releases : r.owedReleases = Table.fill 8 false) : (s.setBase b r).sendOwed b = s.setBase b r :=
  State.sendOwed_nothing (by rwa [State.base_setBase_self]) (by rwa [State.base_setBase_self])

theorem State.sendOwed_setBase_admission (room : r.window.length < 4) (owed : r.owedAdmission = true) :
    (s.setBase b r).sendOwed b = { s.setBase b { r with
        owedAdmission := false, nextSerial := r.nextSerial + 1
        window := r.window ++ [newEntry r .admission .baseLink .none none s.settings.timers.echo] } with
      ordersOut := s.ordersOut ++ [{ base := b, serial := r.nextSerial, order := .admission r.held }] } := by
  simp only [State.sendOwed, State.base_setBase_self, if_neg (Nat.not_le.mpr room), owed, if_true, State.setBase_setBase,
    State.send_setBase]
  rfl

theorem State.sendOwed_setBase_release {ch : ChanIx} (admission : r.owedAdmission = false) (room : r.window.length < 4)
    (owed : r.owedReleases.get ch = true) (lowest : ∀ k < ch, r.owedReleases.get k = false) :
    (s.setBase b r).sendOwed b = ({ s.setBase b { r with
        owedReleases := r.owedReleases.set ch false, nextSerial := r.nextSerial + 1
        window := r.window ++ [newEntry r .release .callUnit .none (some ch) s.settings.timers.echo] } with
      ordersOut := s.ordersOut ++ [{ base := b, serial := r.nextSerial, order := .release ch }] } : State).setChan ⟨b, ch⟩
        (.releasing none) := by
  have first : r.owedReleases.lowest id = some ch := (Table.lowest_eq_some_iff ..).mpr ⟨owed, lowest⟩
  simp only [State.sendOwed, State.base_setBase_self, if_neg (Nat.not_le.mpr room), admission, first, Bool.false_eq_true,
    if_false, State.setBase_setBase, State.send_setBase]
  rfl

end

/-! ### The entry that leaves -/

theorem exec_echo {o : Origin} (hears : s.hears o = true)
    (linked : (s.base (originBase o)).state = .probing ∨ (s.base (originBase o)).state = .inService) (serial : Byte) :
    exec (.echo o serial) s = .next (s.fresh.takeEcho (originBase o) serial) := by
  refine congrArg Host.Outcome.next (if_pos ?_)
  rcases linked with h | h <;> rw [hears, h] <;> rfl

theorem exec_echo_dropped {o : Origin} (h : s.hears o = false ∨
    ((s.base (originBase o)).state ≠ .probing ∧ (s.base (originBase o)).state ≠ .inService)) (serial : Byte) :
    exec (.echo o serial) s = .next s.fresh := by
  refine congrArg Host.Outcome.next (if_neg ?_)
  rcases h with deaf | ⟨probing, service⟩
  · simp [deaf]
  · cases state : (s.base (originBase o)).state <;> simp_all [BaseState.takesEcho]

theorem State.takeEcho_late {serial : Byte} (late : ∀ e ∈ (s.base b).window, e.serial ≠ serial) :
    s.takeEcho b serial = s.setBase b { s.base b with lateEchoes := min 65535 ((s.base b).lateEchoes + 1) } := by
  have none : (s.base b).window.find? (fun e => e.serial == serial) = none :=
    List.find?_eq_none.mpr fun e mem => by simpa using late e mem
  simp only [State.takeEcho, none, sat]

section
variable {serial : Byte} (found : (s.base b).window.find? (fun x => x.serial == serial) = some e)

include found

theorem State.takeEcho_found :
    s.takeEcho b serial = ((s.setBase b ((s.base b).depart serial 0)).sendOwed b).outcome b e true := by
  simp only [State.takeEcho, found]

theorem takeEchoExpiry_due (due : e.deadline = 0) : takeEchoExpiry b serial s =
    (((s.setBase b ((s.base b).depart serial (sat 3 (s.base b).noEcho))).sendOwed b).outcome b e false).faultIfSilent b := by
  simp only [takeEchoExpiry, found, if_pos due]

theorem takeEchoExpiry_notDue (early : e.deadline ≠ 0) : takeEchoExpiry b serial s = s := by
  simp only [takeEchoExpiry, found, if_neg early]

end

theorem takeEchoExpiry_late {serial : Byte} (late : ∀ e ∈ (s.base b).window, e.serial ≠ serial) :
    takeEchoExpiry b serial s = s := by
  have none : (s.base b).window.find? (fun e => e.serial == serial) = none :=
    List.find?_eq_none.mpr fun e mem => by simpa using late e mem
  simp only [takeEchoExpiry, none]

/-- Below a count of 3 nothing more happens at the base. -/
theorem State.faultIfSilent_below (h : (s.base b).noEcho ≠ 3) : s.faultIfSilent b = s := if_neg h

/-- At a count of 3 the base becomes FAULT (R31), emptied as by any loss. -/
theorem State.faultIfSilent_third (s : State) {r : BaseRecord} (count : r.noEcho = 3) :
    let t := (s.setBase b r).faultIfSilent b
    (t.base b).state = .fault ∧ (t.base b).window = [] ∧ (t.base b).noEcho = 3 ∧ (∀ ch, t.chan ⟨b, ch⟩ = .free) ∧
      t.classes.get 0 = (s.classes.get 0).file { tick := s.tick, body := .baseState b r.state .fault .noEcho } := by
  intro t
  have left : t = (s.setBase b r).leaveService b .fault .noEcho := if_pos (by rwa [State.base_setBase_self])
  have gone := State.leaveService_gone (s.setBase b r) b (new := .fault) nofun .noEcho
  rw [← left] at gone
  have base := gone.base
  have filed := gone.linkClass.trans (State.post_class_self (s.setBase b r) _)
  rw [State.base_post, State.base_setBase_self] at base
  rw [State.base_setBase_self] at filed
  exact ⟨congrArg BaseRecord.state base, congrArg BaseRecord.window base,
    (congrArg BaseRecord.noEcho base).trans count, gone.free, filed⟩

/-- The placing block of an echoed or missing order hears of it in what its departure leaves, and below a count of 3 that
is all. -/
theorem State.departs.exec_eq {serial : Byte} {echoed : Bool} {command : Instr}
    (h : s.departs b serial e echoed command u) : exec command s = .next (u.outcome b e echoed) := by
  obtain ⟨found, ⟨rfl, ⟨o, rfl, rfl, hears⟩, linked, rfl⟩ | ⟨rfl, rfl, due, few, rfl⟩⟩ := h
  · rw [exec_echo hears linked, State.owedSent_eq]
    exact congrArg Host.Outcome.next (State.takeEcho_found (s := s.fresh) found)
  · rw [State.owedSent_eq]
    have raised : sat 3 (s.base b).noEcho = (s.base b).noEcho + 1 := by simp only [sat]; omega
    refine congrArg Host.Outcome.next ((takeEchoExpiry_due (s := s.fresh) found due).trans ?_)
    simp only [State.base_fresh, raised]
    refine State.faultIfSilent_below ?_
    rw [(sameNoEcho_outcome ..).count, (sameNoEcho_sendOwed ..).count, State.base_setBase_self]
    show (s.base b).noEcho + 1 ≠ 3
    omega

/-- What the departure of an entry at base `b` leaves alone. -/
structure State.SameBut (s u : State) (b : BaseIx) : Prop where
  ctx : ∀ c, u.ctx c = s.ctx c
  classes : u.classes = s.classes
  base : ∀ d, d ≠ b → u.base d = s.base d
  tick : u.tick = s.tick
  settings : u.settings = s.settings
  link : u.link = s.link

theorem State.sendOwed_sameBut (s : State) (b : BaseIx) : s.SameBut (s.sendOwed b) b := by
  have keeps := sendOwed_keeps s b
  rcases s.sendOwed_cases b with ⟨_, e⟩ | ⟨_, _, e⟩ | ⟨_, _, _, _, e⟩ <;> rw [e] at keeps ⊢
  · exact ⟨fun _ => rfl, rfl, fun _ _ => rfl, rfl, rfl, rfl⟩
  all_goals
    refine ⟨fun _ => rfl, rfl, fun d other => ?_, keeps.tick, keeps.settings, keeps.link⟩
    simp only [State.send_setBase]
    exact State.base_setBase_ne _ _ (Ne.symm other)

theorem State.departs.sameBut {serial : Byte} {echoed : Bool} {command : Instr}
    (h : s.departs b serial e echoed command u) : s.SameBut u b := by
  have left (r : BaseRecord) : s.SameBut ((s.fresh.setBase b r).owedSent b) b := by
    rw [State.owedSent_eq]
    obtain ⟨ctx, classes, base, tick, settings, link⟩ := (s.fresh.setBase b r).sendOwed_sameBut b
    exact ⟨ctx, classes, fun d other => (base d other).trans (State.base_setBase_ne _ _ (Ne.symm other)), tick, settings,
      link⟩
  obtain ⟨_, ⟨_, _, _, rfl⟩ | ⟨_, _, _, _, rfl⟩⟩ := h
  · exact left _
  · exact left _

theorem State.SameBut.ownerOf (h : s.SameBut u b) (c : CallIx) : u.ownerOf c = s.ownerOf c :=
  congrArg (Owner.mk c) (congrArg Context.use (h.ctx c))

/-! ### What the placing block makes of it -/

theorem State.outcome_ignored (placer : e.placer = .registration ∨ e.placer = .baseLink) (echoed : Bool) :
    s.outcome b e echoed = s := by
  rcases placer with h | h <;> simp only [State.outcome, h]

section
variable (placer : e.placer = .callUnit) (kind : e.kind = .assign) {use orderNo : BitVec 8}
  (owner : e.owner = .call c use orderNo)

include placer kind owner

/-- An ASSIGN of the Call Unit whose owner is gone. -/
theorem State.outcome_assign_void (void : (s.ctx c).call = none ∨ (s.ctx c).use ≠ use) (echoed : Bool) :
    s.outcome b e echoed = s := by
  simp only [State.outcome, placer, State.callUnitOutcome, kind, owner]
  rcases void with free | stale
  · simp only [State.setupOutcome, free, ite_self]
  · exact if_neg stale

theorem State.outcome_assign (same : (s.ctx c).use = use) (echoed : Bool) :
    s.outcome b e echoed = s.setupOutcome c echoed := by
  simp only [State.outcome, placer, State.callUnitOutcome, kind, owner, if_pos same]

end

section
variable (call : (s.ctx c).call = some i)

include call

theorem State.setupOutcome_other (other : ∀ d, i.stage ≠ .setup d) (echoed : Bool) : s.setupOutcome c echoed = s := by
  cases stage : i.stage with
  | setup d => exact absurd stage (other d)
  | active => simp only [State.setupOutcome, call, stage]
  | clearing w => simp only [State.setupOutcome, call, stage]

variable {deadline : Option Nat} (stage : i.stage = .setup deadline)

include stage

theorem State.setupOutcome_local {direction : Direction} (kind : i.kind = .localCall direction) :
    s.setupOutcome c true = s := by
  simp only [State.setupOutcome, call, stage, kind, if_true]

theorem State.setupOutcome_zoneIn {zone : ZoneIx} (kind : i.kind = .zoneIn zone) : s.setupOutcome c true =
    (s.setCtx c { s.ctx c with call := some { i with stage := .setup (some s.settings.timers.setup) } }).post
      (.zoneInPrepared (i.ref c) i.serving zone) := by
  simp only [State.setupOutcome, call, stage, kind, if_true]

theorem State.setupOutcome_missing : s.setupOutcome c false = s.clearCall c (.setupFailed .noEcho) := by
  cases kind : i.kind <;>
    simp only [State.setupOutcome, call, stage, kind, State.failSetup, Bool.false_eq_true, if_false]

end

/-- A RELEASE, echoed or not, makes its channel FREE and is told to its owner (R72). -/
theorem State.outcome_release {ch : ChanIx} (placer : e.placer = .callUnit) (kind : e.kind = .release)
    (channel : e.channel = some ch) (echoed : Bool) : s.outcome b e echoed = s.releaseOutcome ⟨b, ch⟩ e.owner := by
  simp only [State.outcome, placer, State.callUnitOutcome, kind, channel]

theorem State.releaseOutcome_unowned {p : ChanRef} {owner : OrderOwner}
    (other : ∀ c use orderNo, owner ≠ .call c use orderNo) : s.releaseOutcome p owner = s.setChan p .free := by
  cases owner with
  | call c use orderNo => exact absurd rfl (other c use orderNo)
  | slot | none => rfl

theorem State.freeIfDone_free (free : (s.ctx c).call = none) : s.freeIfDone c = s := by
  simp only [State.freeIfDone, free]

theorem State.freeIfDone_waits (call : (s.ctx c).call = some i)
    (waits : (∀ w, i.stage ≠ .clearing w) ∨ ∃ p, (s.chan p).ownedBy (s.ownerOf c) = true) : s.freeIfDone c = s := by
  rcases s.freeIfDone_cases c with same | ⟨j, w, callj, clearing, none, _⟩
  · exact same
  · cases call.symm.trans callj
    rcases waits with other | ⟨p, owned⟩
    · exact absurd clearing (other w)
    · exact absurd owned (Bool.eq_false_iff.mp ((State.owned_eq_nil_iff _).mp none p))

/-! ### What the Sequencer makes of it -/

theorem State.outcome_sequencer {use orderNo : BitVec 8} (placer : e.placer = .sequencer)
    (owner : e.owner = .call c use orderNo) (echoed : Bool) :
    s.outcome b e echoed = s.sequencerOutcome c use orderNo e.kind echoed := by
  simp only [State.outcome, placer, owner]

/-- An order of the Sequencer that no phase awaits is void (R131). -/
theorem State.sequencerOutcome_void {use orderNo : BitVec 8} {kind : OrderKind}
    (void : (s.ctx c).call = none ∨ (s.ctx c).use ≠ use ∨ (s.ctx c).orderNo ≠ orderNo ∨
      ¬((s.ctx c).phase.name = .preparing ∧ kind = .assign ∨
        ((s.ctx c).phase.name = .switching ∨ (s.ctx c).phase.name = .switchingOut) ∧ kind = .move)) (echoed : Bool) :
    s.sequencerOutcome c use orderNo kind echoed = s := by
  unfold sequencerOutcome
  dsimp only
  split
  · rfl
  · next current =>
    obtain ⟨sameUse, sameOrder⟩ := not_or.mp current
    have awaited (n : PhaseName) (phase : (s.ctx c).phase.name = n) (k : OrderKind) (same : kind = k) {i : CallInfo}
        (call : (s.ctx c).call = some i) : ¬(n = .preparing ∧ k = .assign ∨ (n = .switching ∨ n = .switchingOut) ∧ k = .move) := by
      subst phase same
      rcases void with free | stale | old | no
      · simp [call] at free
      · exact absurd stale sameUse
      · exact absurd old sameOrder
      · exact no
    split
    · next call phase => exact absurd (.inl ⟨rfl, rfl⟩) (awaited _ (by rw [phase]; rfl) _ rfl call)
    · next call phase => exact absurd (.inr ⟨.inl rfl, rfl⟩) (awaited _ (by rw [phase]; rfl) _ rfl call)
    · next call phase => exact absurd (.inr ⟨.inr rfl, rfl⟩) (awaited _ (by rw [phase]; rfl) _ rfl call)
    · rfl

section
variable (call : (s.ctx c).call = some i)

include call

/-- An order of the Sequencer that the phase awaits. -/
theorem State.sequencerOutcome_preparing {p : ChanRef} {rescue : Bool} (phase : (s.ctx c).phase = .preparing p rescue)
    (echoed : Bool) : s.sequencerOutcome c (s.ctx c).use (s.ctx c).orderNo .assign echoed =
      if echoed then s.startSwitch c i p rescue else s.failAttempt c .noEchoTarget := by
  simp only [State.sequencerOutcome, ne_eq, not_true_eq_false, or_self, if_false, call, phase]

theorem State.sequencerOutcome_switching
    (phase : (s.ctx c).phase.name = .switching ∨ (s.ctx c).phase.name = .switchingOut) (echoed : Bool) :
    s.sequencerOutcome c (s.ctx c).use (s.ctx c).orderNo .move echoed =
      if echoed then s else s.failAttempt c .noEchoServing := by
  cases e : (s.ctx c).phase <;> simp [e, Phase.name] at phase <;>
    simp only [State.sequencerOutcome, ne_eq, not_true_eq_false, or_self, if_false, call, e]

/-- The failure of the attempt that the phase records. -/
theorem State.failAttempt_eq {target : Target} (phase : (s.ctx c).phase.target = some target) (reason : HandoverReason) :
    s.failAttempt c reason = s.failAttemptOn c i target (s.ctx c).phase.claimed (s.ctx c).phase.name
      (s.ctx c).phase.rescue reason := by
  simp only [State.failAttempt, call, phase]

end

/-- A channel claimed for an attempt is not held any more when it is given up; classes, contexts and tick stay. -/
theorem State.giveUp_gives (s : State) (o : Owner) (q : Option ChanRef) :
    (∀ p, q = some p → ((s.giveUp o q).chan p).heldBy o = false) ∧ (s.giveUp o q).classes = s.classes ∧
      (∀ d, (s.giveUp o q).ctx d = s.ctx d) ∧ (s.giveUp o q).tick = s.tick := by
  cases q with
  | none => exact ⟨nofun, rfl, fun _ => rfl, rfl⟩
  | some p =>
    simp only [State.giveUp, State.releaseFormer]
    split
    · refine ⟨?_, (s.release_gives p o).2.2.2.1, fun d => State.ctx_release .., (release_keeps ..).tick⟩
      rintro _ ⟨⟩
      exact s.not_heldBy_release ..
    · next free =>
      refine ⟨?_, rfl, fun _ => rfl, rfl⟩
      rintro _ ⟨⟩
      exact Bool.eq_false_iff.mpr free

theorem penalise_eq (ticks : Nat) (target : Target) (l : List Candidate) : penalise ticks target l =
    l.map fun e => if e.target = target ∧ ticks ≠ 0 then { e with penalty := some ticks } else e := by
  unfold penalise
  split
  · next zero => simp [zero]
  · next nonzero => simp [nonzero]

/-- The failure of an attempt (R132) in a state `w` that is `s` but for bases, channels and the order number. -/
theorem State.attemptFailed_of {w : State} {n : BitVec 8} (call : (s.ctx c).call = some i)
    (ctx : w.ctx c = { s.ctx c with orderNo := n }) (others : ∀ d, d ≠ c → w.ctx d = s.ctx d)
    (classes : w.classes = s.classes) (tick : w.tick = s.tick) (settings : w.settings = s.settings) (target : Target)
    (claimed : Option ChanRef) (phase : PhaseName) (rescue : Bool) (reason : HandoverReason) :
    let t := w.failAttemptOn c i target claimed phase rescue reason
    s.attemptFailed t c i target reason phase rescue ∧ (t.ctx c).orderNo = n ∧
      ∀ p, claimed = some p → (t.chan p).heldBy (s.ownerOf c) = false := by
  intro t
  have owner : w.ownerOf c = s.ownerOf c := by
    show Owner.mk c (w.ctx c).use = _
    rw [ctx]
    rfl
  have failed : t.ctx c = ({ s.ctx c with orderNo := n } : Context).failed s.settings.timers.penalty target := by
    rw [← ctx, ← settings]
    exact State.ctx_failAttemptOn ..
  have concerns : w.Concerns c t := concerns_failAttemptOn ..
  obtain ⟨given, givenClasses, givenCtx, givenTick⟩ := w.giveUp_gives (w.ownerOf c) claimed
  have shape : t = _ := State.failAttemptOn_eq ..
  dsimp only at shape
  generalize w.giveUp (w.ownerOf c) claimed = g at given givenClasses givenCtx givenTick shape
  obtain ⟨slots, drive, count, marked⟩ := State.markFailure_frame _
  rw [marked] at shape
  refine ⟨⟨?_, ?_, ?_, ?_, ?_, fun d other => (concerns.others d other).trans (others d other)⟩, ?_, fun p e => ?_⟩
  · rw [failed]; exact call
  · rw [failed]; rfl
  · rw [failed]; rfl
  · rw [failed]; exact penalise_eq ..
  · have filed := State.post_class_self (g.setCtx c ((g.ctx c).failed w.settings.timers.penalty target))
      (.failed (i.ref c) i.serving target reason phase rescue (g.ctx c).attempts)
    rw [shape]
    refine filed.trans ?_
    simp only [State.setCtx_classes, State.setCtx_tick, givenClasses, givenTick, givenCtx, ctx, classes, tick]
    rfl
  · rw [failed]; rfl
  · rw [shape, ← owner]
    exact given p e

/-- The failure of the attempt that the phase records, in such a state. -/
theorem State.failAttempt_fails {w : State} {n : BitVec 8} (call : (s.ctx c).call = some i)
    (ctx : w.ctx c = { s.ctx c with orderNo := n }) (others : ∀ d, d ≠ c → w.ctx d = s.ctx d)
    (classes : w.classes = s.classes) (tick : w.tick = s.tick) (settings : w.settings = s.settings) {target : Target}
    (phase : (s.ctx c).phase.target = some target) (reason : HandoverReason) :
    s.attemptFailed (w.failAttempt c reason) c i target reason (s.ctx c).phase.name (s.ctx c).phase.rescue ∧
      ((w.failAttempt c reason).ctx c).orderNo = n ∧
      ∀ p, (s.ctx c).phase.claimed = some p → ((w.failAttempt c reason).chan p).heldBy (s.ownerOf c) = false := by
  rw [State.failAttempt_eq (s := w) (by rw [ctx, call]) (by rw [ctx, phase]) reason, ctx]
  exact State.attemptFailed_of call ctx others classes tick settings ..

/-! ### The target prepared (R135) -/

section
variable {p : ChanRef} (service : (s.base i.serving.base).state = .inService) (rescue : Bool)

include service

/-- The MOVE sent: the attempt goes on in SWITCHING. -/
theorem State.startSwitch_sent (room : (s.base i.serving.base).window.length < 4) :
    s.startSwitch c i p rescue = { (s.setCtx c { (s.ctx c).nextOrder with
        phase := .switching p rescue (some i.serving) 0 s.settings.timers.switch }).setBase i.serving.base
        { s.base i.serving.base with
          nextSerial := (s.base i.serving.base).nextSerial + 1
          window := (s.base i.serving.base).window ++ [newEntry (s.base i.serving.base) .move .sequencer
            ((s.ctx c).nextOrder.sequencerOwner c) (some i.serving.channel) s.settings.timers.echo] } with
      ordersOut := s.ordersOut ++ [{ base := i.serving.base, serial := (s.base i.serving.base).nextSerial
                                     order := .move i.serving.channel (.localBase p.base) p.channel }] } := by
  unfold startSwitch offerMove
  rw [State.offer_sent (by exact service) (by exact room)]
  simp only [State.ctx_send, State.ctx_setCtx_self]
  simp only [State.send_eq, State.setCtx, State.setBase, Table.set_set]
  rfl

/-- No room for the MOVE: the attempt fails with its order number spent. -/
theorem State.startSwitch_full (full : 4 ≤ (s.base i.serving.base).window.length) :
    s.startSwitch c i p rescue = (s.setCtx c (s.ctx c).nextOrder).failAttempt c .orderWindowFull := by
  have same : (s.setCtx c (s.ctx c).nextOrder).setBase i.serving.base (s.base i.serving.base) =
      s.setCtx c (s.ctx c).nextOrder :=
    congrArg (fun bases => { s.setCtx c (s.ctx c).nextOrder with bases := bases }) (Table.set_get_self ..)
  unfold startSwitch offerMove
  rw [State.offer_full (by exact service) (by exact full)]
  exact congrArg (fun u : State => u.failAttempt c .orderWindowFull) same

end

/-! ### The statement -/

/-- Settles O38: the entry's departure, the owed item it lets go, and the outcome by the order's placer. -/
theorem orderOutcomesAtBase : Obligations.OrderOutcomesAtBase := by
  refine ⟨?echo, ?deadline, ?setup, ?release, ?sequencer⟩
  case echo =>
    intro s o serial b r
    refine ⟨fun dropped => exec_echo_dropped dropped serial, fun hears linked => ⟨fun late => ?_, fun e found => ?_⟩⟩
    · exact (exec_echo hears linked serial).trans (congrArg Host.Outcome.next (State.takeEcho_late (s := s.fresh) late))
    have taken := (exec_echo hears linked serial).trans
      (congrArg Host.Outcome.next (State.takeEcho_found (s := s.fresh) found))
    refine ⟨⟨_, taken, ?_⟩, fun placer => ?_⟩
    · rw [(sameNoEcho_outcome ..).count, (sameNoEcho_sendOwed ..).count, State.base_setBase_self]
      rfl
    · rw [taken, State.outcome_ignored placer]
      exact ⟨fun noAdmission noRelease =>
          congrArg Host.Outcome.next (State.sendOwed_setBase_nothing s.fresh (r := r.depart serial 0) noAdmission noRelease),
        fun owed room => congrArg Host.Outcome.next (State.sendOwed_setBase_admission s.fresh (r := r.depart serial 0) room owed),
        fun ch noAdmission room owed lowest =>
          congrArg Host.Outcome.next
            (State.sendOwed_setBase_release s.fresh (r := r.depart serial 0) noAdmission room owed lowest)⟩
  case deadline =>
    intro s b serial r
    refine ⟨fun late => congrArg Host.Outcome.next (takeEchoExpiry_late (s := s.fresh) late), fun e found =>
      ⟨fun early => congrArg Host.Outcome.next (takeEchoExpiry_notDue (s := s.fresh) found early),
        fun due placer noAdmission noRelease => ?_⟩⟩
    have taken : exec (.echoDeadlineExpiry b serial) s =
        .next ((s.fresh.setBase b (r.depart serial (sat 3 r.noEcho))).faultIfSilent b) := by
      refine congrArg Host.Outcome.next ((takeEchoExpiry_due (s := s.fresh) found due).trans ?_)
      rw [State.outcome_ignored placer]
      exact congrArg (fun u : State => u.faultIfSilent b)
        (State.sendOwed_setBase_nothing s.fresh (r := r.depart serial (sat 3 r.noEcho)) noAdmission noRelease)
    rw [taken]
    refine ⟨fun few => ?_, fun two => ⟨_, rfl, ?_⟩⟩
    · have raised : sat 3 r.noEcho = r.noEcho + 1 := by simp only [sat]; omega
      rw [raised, State.faultIfSilent_below]
      · rfl
      · rw [State.base_setBase_self]
        show r.noEcho + 1 ≠ 3
        omega
    · have third : sat 3 r.noEcho = 3 := by rw [two]; rfl
      rw [third]
      exact State.faultIfSilent_third s.fresh (r := r.depart serial 3) rfl
  case setup =>
    intro s u b serial e echoed command c use orderNo departs placer kind owner
    have same := departs.sameBut
    have void (h : (s.ctx c).call = none ∨ (s.ctx c).use ≠ use) : exec command s = .next u := by
      rw [departs.exec_eq, State.outcome_assign_void placer kind owner (by rwa [same.ctx])]
    refine ⟨void, fun i call current => ?_⟩
    have callu : (u.ctx c).call = some i := by rw [same.ctx, call]
    rw [departs.exec_eq, State.outcome_assign placer kind owner (by rw [same.ctx, current])]
    refine ⟨fun other => by rw [State.setupOutcome_other callu other], fun d stage => ⟨fun direction heard local_ => ?_,
      fun zone heard from_ => ?_, fun missing => ⟨_, rfl, ?_⟩⟩⟩
    · rw [heard, State.setupOutcome_local callu stage local_]
    · rw [heard, State.setupOutcome_zoneIn callu stage from_, same.ctx, same.settings]
    · obtain ⟨concerns, none, ctx, _⟩ := u.clearCall_starts (.setupFailed .noEcho) callu (by simp [stage])
      rw [missing, State.setupOutcome_missing callu stage]
      refine ⟨?_, fun p => same.ownerOf c ▸ none p, fun d other => (concerns.others d other).trans (same.ctx d)⟩
      rcases ctx with e | e <;> rw [e]
      · exact .inr rfl
      · exact .inl rfl
  case release =>
    intro s u b serial e echoed command departs
    have same := departs.sameBut
    refine ⟨fun placer => by rw [departs.exec_eq, State.outcome_ignored placer], fun ch placer kind channel => ?_⟩
    intro freed
    have told := departs.exec_eq.trans (congrArg Host.Outcome.next (State.outcome_release placer kind channel echoed))
    refine ⟨fun other => by rw [told, State.releaseOutcome_unowned other], fun c use orderNo owner => ?_⟩
    have ctx (d : CallIx) : freed.ctx d = s.ctx d := same.ctx d
    have outcome : exec command s = .next (if (s.ctx c).use = use then freed.freeIfDone c else freed) := by
      rw [told, owner, ← ctx c]
      rfl
    refine ⟨fun void => ?_, fun i call current => ?_⟩
    · rw [outcome]
      rcases void with free | stale
      · rw [State.freeIfDone_free (by rw [ctx, free]), ite_self]
      · rw [if_neg stale]
    · have callf : (freed.ctx c).call = some i := by rw [ctx, call]
      rw [outcome, if_pos current]
      refine ⟨fun waits => by rw [State.freeIfDone_waits callf (same.ownerOf c ▸ waits)], fun cause stage gone => ?_⟩
      have ended := sameLinks_freeContext freed c i cause
      have concerns := concerns_freeContext freed c i cause
      have keeps := freeContext_keeps freed c i cause
      rw [State.freeIfDone_last callf stage (same.ownerOf c ▸ gone)]
      refine ⟨_, rfl, ?_, fun d other => (concerns.others d other).trans (ctx d), ended.channels, ended.bases,
        ended.ordersOut, keeps.settings.trans same.settings, keeps.link.trans same.link⟩
      rw [State.ctx_freeContext]
      rfl
  case sequencer =>
    intro s u b serial e echoed command c use orderNo departs placer owner x
    have same := departs.sameBut
    have told := departs.exec_eq.trans (congrArg Host.Outcome.next (State.outcome_sequencer placer owner echoed))
    refine ⟨fun void => by rw [told, State.sequencerOutcome_void (by rwa [same.ctx])], fun i call current order => ?_⟩
    subst current order
    have callu : (u.ctx c).call = some i := by rw [same.ctx, call]
    have fails {target : Target} (phase : x.phase.target = some target) :=
      State.failAttempt_fails call (same.ctx c) (fun d _ => same.ctx d) same.classes same.tick same.settings phase
    refine ⟨fun p rescue phase kind => ?_, fun p rescue old strays deadline phase kind => ?_,
      fun zone a ch rescue old strays deadline phase kind => ?_⟩
    all_goals have phaseu := (congrArg Context.phase (same.ctx c)).trans phase
    · intro from_
      have outcome := State.sequencerOutcome_preparing callu phaseu echoed
      rw [same.ctx, ← kind] at outcome
      rw [told, outcome]
      refine ⟨fun heard other service room => ?_, fun heard other service full => ?_, fun missing => ?_⟩
      · have serving := same.base _ other
        rw [heard, if_pos rfl, State.startSwitch_sent (by rwa [serving]) rescue (by rwa [serving]), serving, same.ctx,
          same.settings]
        rfl
      · have serving := same.base _ other
        rw [heard, if_pos rfl, State.startSwitch_full (by rwa [serving]) rescue (by rwa [serving])]
        have spent : (u.setCtx c (u.ctx c).nextOrder).ctx c = { s.ctx c with orderNo := (s.ctx c).orderNo + 1 } := by
          rw [State.ctx_setCtx_self, same.ctx]
          rfl
        have failed := State.failAttempt_fails call spent (fun d n => (State.ctx_setCtx_ne u _ (Ne.symm n)).trans (same.ctx d))
          same.classes same.tick same.settings (by rw [phase]; rfl) .orderWindowFull
        rw [phase] at failed
        exact ⟨_, rfl, failed.2.2 p rfl, failed.2.1, failed.1⟩
      · have failed := fails (by rw [phase]; rfl) .noEchoTarget
        rw [phase] at failed
        exact ⟨_, by rw [missing]; rfl, failed.2.2 p rfl, failed.1⟩
    · have outcome := State.sequencerOutcome_switching callu (by rw [phaseu]; exact .inl rfl) echoed
      rw [same.ctx, ← kind] at outcome
      rw [told, outcome]
      have failed := fails (by rw [phase]; rfl) .noEchoServing
      rw [phase] at failed
      exact ⟨fun heard => by rw [heard]; rfl, fun missing => ⟨_, by rw [missing]; rfl, failed.2.2 p rfl, failed.1⟩⟩
    · have outcome := State.sequencerOutcome_switching callu (by rw [phaseu]; exact .inr rfl) echoed
      rw [same.ctx, ← kind] at outcome
      rw [told, outcome]
      have failed := fails (by rw [phase]; rfl) .noEchoServing
      rw [phase] at failed
      exact ⟨fun heard => by rw [heard]; rfl, fun missing => ⟨_, by rw [missing]; rfl, failed.1⟩⟩

end Sys2Proof.Machine
end

