-- ==== Sys2Proof/Proofs/GoodTrains.lean ====
section
/-! A good train of a known record (O43): the decision by kind and record, its answer, and the DETACH that starts a
clearing, whose releases go before its answer. -/

namespace Sys2Proof.Machine

open State

variable {s t u v : State} {b : BaseIx} {c : CallIx} {i : SlotIx} {h : Handset} {r : AccessRequest} {train : Train}

/-! ### From the closing fragment to the decision -/

theorem Train.request_base (t : Train) (b : BaseIx) : (t.request b).base = b := by
  unfold Train.request
  dsimp only
  repeat' split
  all_goals rfl

theorem State.setHandset_setHandset (s : State) (i : SlotIx) (h h' : Option Handset) :
    (s.setHandset i h).setHandset i h' = s.setHandset i h' := by
  simp only [State.setHandset, Table.set_set]

/-- A status given to a record just replaced. -/
theorem State.setStatus_setHandset (s : State) (i : SlotIx) (x : Option Handset) (h : Handset) (w : HandsetStatus) :
    (s.setHandset i x).setStatus i h w = s.setHandset i (some { h with status := w }) := s.setHandset_setHandset i x _

/-- The state `t` with the ANSWER to slot `i` sent at base `b`, or dropped and counted where the window of `s` is full. -/
def State.answeredAt (s : State) (b : BaseIx) (i : SlotIx) (tag : Tag) (t : State) (cause : AnswerCause) : State :=
  if (s.base b).window.length < 4 then
    { t.setBase b { s.base b with
        nextSerial := (s.base b).nextSerial + 1
        window := (s.base b).window ++ [newEntry (s.base b) .answer .registration (.slot i) none s.settings.timers.echo] } with
      ordersOut := [{ base := b, serial := (s.base b).nextSerial, order := .answer tag cause }] }
  else t.setBase b { s.base b with droppedAnswers := min 65535 ((s.base b).droppedAnswers + 1) }

theorem State.answer_eq (base : t.base r.base = s.base r.base) (settings : t.settings = s.settings)
    (orders : t.ordersOut = []) (service : (s.base r.base).state = .inService) (i : SlotIx) (cause : AnswerCause) :
    t.answer r (.slot i) cause = s.answeredAt r.base i r.tag t cause := by
  unfold answer answeredAt
  rw [← base] at service ⊢
  split
  · next room =>
    rw [State.offer_sent service room, State.send_eq, settings, orders]
    rfl
  · next full =>
    rw [State.offer_full service (Nat.not_lt.mp full)]
    rfl

section
variable {o : Origin} {x : Byte} (hears : s.hears o = true) (service : (s.base (originBase o)).state = .inService)
  (collecting : s.trains.get (originBase o) = some train) (good : train.judge s.settings.parity x = .good)
  (names : s.names 0 (h.tag.setWidth 32) i h) (tagged : (train.request (originBase o)).tag = h.tag)

include hears service collecting good names tagged

/-- A good train whose tag a record holds alone: the record's last access, the decision, and its answer. -/
theorem exec_fragClose_good : exec (.fragClose o x) s = .next
    (let seen := { h with lastAccess := some s.tick }
      let r := train.request (originBase o)
      let d := ((s.fresh.setTrain (originBase o) none).setHandset i (some seen)).decideAccess i seen r
      d.2.answer r (.slot i) d.1) := by
  have found : s.findTag h.tag = some i := by
    have := names.findTag
    rwa [BitVec.setWidth_setWidth_of_le _ (by decide), BitVec.setWidth_eq] at this
  refine congrArg Host.Outcome.next ((State.fromService_heard (s := s.fresh) hears service _).trans ?_)
  refine (State.takeClose_good (s := s.fresh) collecting good).trans ?_
  have same : (s.fresh.setTrain (originBase o) none).findTag h.tag = some i := found
  have held : (s.fresh.setTrain (originBase o) none).handset i = some h := names.1
  simp only [State.access, tagged, same, held]
  rfl

/-- A decision that touches records and notices alone, answered. -/
theorem exec_fragClose_decided {cause : AnswerCause}
    (decided : ((s.fresh.setTrain (originBase o) none).setHandset i (some { h with lastAccess := some s.tick })).decideAccess i
      { h with lastAccess := some s.tick } (train.request (originBase o)) = (cause, t))
    (bases : t.bases = s.bases) (settings : t.settings = s.settings) (orders : t.ordersOut = []) :
    exec (.fragClose o x) s = .next (s.answeredAt (originBase o) i h.tag t cause) := by
  have answer := State.answer_eq (r := train.request (originBase o)) (t := t) (s := s) (by simp only [State.base, bases])
    settings orders (by rwa [Train.request_base]) i cause
  rw [Train.request_base, tagged] at answer
  rw [exec_fragClose_good hears service collecting good names tagged]
  dsimp only
  rw [decided, answer]

end

/-! ### The decisions (R56 to R63) -/

theorem State.refuseAccess_eq (s : State) (i : SlotIx) (r : AccessRequest) {cause : AnswerCause}
    (refuses : cause.refuses = true) : s.refuseAccess i r cause = (cause, s.post (.refused i r.tag r.base r.kind cause)) := by
  simp only [State.refuseAccess, refuses, if_true]

theorem State.decideAccess_renew {lifetime : Nat} {origination : Option Nat} (kind : r.kind = .renew)
    (status : h.status = .attached r.base lifetime origination) :
    s.decideAccess i h r = (.accept, s.setStatus i h (.attached r.base s.lifetimeTicks origination)) := by
  simp only [State.decideAccess, kind, State.decideRenew, status, if_true]

theorem State.decideAccess_locate {at_ : BaseIx} {lifetime : Nat} {origination : Option Nat}
    (kind : r.kind = .locate ∨ (r.kind = .renew ∧ at_ ≠ r.base)) (status : h.status = .attached at_ lifetime origination) :
    s.decideAccess i h r = (.accept, (s.setStatus i h (.attached r.base s.lifetimeTicks origination)).post
      (.located i r.tag at_ r.base)) := by
  rcases kind with kind | ⟨kind, away⟩
  · simp only [State.decideAccess, kind, State.decideLocate, status, State.locate]
  · simp only [State.decideAccess, kind, State.decideRenew, status, State.locate, if_neg away]

theorem State.closedAt_eq_false (serving : s.runState = .serving) (held : (s.base b).held = false)
    (degraded : (s.base b).degraded = false) : s.closedAt b = false := by
  simp only [State.closedAt, serving, BaseRecord.closed, show (s.bases.get b).held = false from held,
    show (s.bases.get b).degraded = false from degraded]
  rfl

theorem State.closedAt_eq_true (h : ¬(s.runState = .serving ∧ (s.base b).held = false ∧ (s.base b).degraded = false)) :
    s.closedAt b = true := by
  by_contra shut
  simp only [State.closedAt, BaseRecord.closed, Bool.not_eq_true, Bool.or_eq_false_iff, decide_eq_false_iff_not,
    not_not] at shut
  exact h ⟨shut.1, shut.2.1, shut.2.2⟩

theorem State.decideAccess_originate {at_ : BaseIx} {lifetime : Nat} {origination : Option Nat} (kind : r.kind = .originate)
    (admitted : s.closedAt r.base = false) (status : h.status = .attached at_ lifetime origination) :
    s.decideAccess i h r = (.accept, s.originate i h at_ origination r) := by
  simp only [State.decideAccess, kind, State.decideOriginate, admitted, status, Bool.false_eq_true, if_false]

theorem State.originate_eq (s : State) (i : SlotIx) (h : Handset) (at_ : BaseIx) (origination : Option Nat) :
    s.originate i h at_ origination r =
      (let kept := s.setStatus i h (.attached r.base s.lifetimeTicks (some s.settings.timers.hold))
        let moved := if at_ = r.base then kept else kept.post (.located i r.tag at_ r.base)
        if origination = none then moved.post (.originationRequest i r.tag r.base) else moved) := by
  cases origination <;> rfl

theorem State.decideAccess_closed (kind : r.kind = .originate) (shut : s.closedAt r.base = true) :
    s.decideAccess i h r = (.closed, s.post (.refused i r.tag r.base r.kind .closed)) := by
  rw [← State.refuseAccess_eq s i r rfl]
  simp only [State.decideAccess, kind, State.decideOriginate, shut, if_true]

/-- A request other than ATTACH and DETACH, by a record that is not ATTACHED. -/
theorem State.decideAccess_unattached (kind : r.kind = .locate ∨ r.kind = .renew ∨
      (r.kind = .originate ∧ s.closedAt r.base = false)) :
    (∀ zone, h.status = .enrolled zone →
      s.decideAccess i h r = (.notAttached, s.post (.refused i r.tag r.base r.kind .notAttached))) ∧
    ∀ at_ c pending, h.status = .engaged at_ c pending →
      s.decideAccess i h r = (.inCall, s.post (.refused i r.tag r.base r.kind .inCall)) := by
  rw [← State.refuseAccess_eq s i r rfl, ← State.refuseAccess_eq s i r rfl]
  rcases kind with kind | kind | ⟨kind, admitted⟩
  · exact ⟨fun _ status => by simp only [State.decideAccess, kind, State.decideLocate, status],
      fun _ _ _ status => by simp only [State.decideAccess, kind, State.decideLocate, status]⟩
  · exact ⟨fun _ status => by simp only [State.decideAccess, kind, State.decideRenew, status],
      fun _ _ _ status => by simp only [State.decideAccess, kind, State.decideRenew, status]⟩
  · exact ⟨fun _ status => by
        simp only [State.decideAccess, kind, State.decideOriginate, admitted, status, Bool.false_eq_true, if_false],
      fun _ _ _ status => by
        simp only [State.decideAccess, kind, State.decideOriginate, admitted, status, Bool.false_eq_true, if_false]⟩

section
variable (kind : r.kind = .detach)

include kind

theorem State.decideAccess_detach {at_ : BaseIx} {lifetime : Nat} {origination : Option Nat}
    (status : h.status = .attached at_ lifetime origination) :
    s.decideAccess i h r = (.accept, (s.setStatus i h (.enrolled none)).post (.detached i r.tag at_)) := by
  simp only [State.decideAccess, kind, State.decideDetach, status]

theorem State.decideAccess_detached (status : (∃ zone, h.status = .enrolled zone) ∨
    ∃ at_ c, h.status = .engaged at_ c true) : s.decideAccess i h r = (.accept, s) := by
  rcases status with ⟨_, status⟩ | ⟨_, _, status⟩ <;>
    simp only [State.decideAccess, kind, State.decideDetach, status, if_true]

theorem State.decideAccess_detachCall {at_ : BaseIx} (status : h.status = .engaged at_ c false) :
    s.decideAccess i h r = (.accept, (s.setStatus i h (.engaged at_ c true)).clearCall c .detach) := by
  simp only [State.decideAccess, kind, State.decideDetach, status, Bool.false_eq_true, if_false]

end

/-- From `s` to `t` bases, settings and the orders on the ports stay as they were. -/
structure State.SameOrders (s t : State) : Prop where
  bases : t.bases = s.bases
  settings : t.settings = s.settings
  ordersOut : t.ordersOut = s.ordersOut

/-- The decision on an ATTACH touches the record and posts notices, nothing else. -/
theorem State.decideAccess_attach (s : State) (i : SlotIx) (h : Handset) (kind : r.kind = .attach) :
    s.SameOrders (s.decideAccess i h r).2 := by
  have refused (w : State) (cause : AnswerCause) : w.SameOrders (w.refuseAccess i r cause).2 := by
    unfold refuseAccess
    dsimp only
    split <;> exact ⟨rfl, rfl, rfl⟩
  simp only [State.decideAccess, kind, State.decideAttach]
  split
  · exact refused ..
  split
  · exact refused ..
  split
  · unfold deny
    dsimp only
    split
    · obtain ⟨bases, settings, orders⟩ := refused (s.setHandset i (some { h with failures := sat 3 h.failures })) .denied
      exact ⟨bases, settings, orders⟩
    · exact ⟨rfl, rfl, rfl⟩
  split
  · exact refused ..
  · unfold attach
    dsimp only
    split <;> exact ⟨rfl, rfl, rfl⟩

/-! ### What a clearing sends to one base (R83) -/

/-- The window entry of a release. -/
def releaseEntry (owner : OrderOwner) (echo : Nat) (serial : BitVec 8) (ch : ChanIx) : WindowEntry :=
  { serial := serial, kind := .release, placer := .callUnit, owner := owner, channel := some ch, deadline := echo }

/-- From `s` to `t` the channels `chs` of a base in service have been released: their orders are sent in turn while the
window has room. -/
structure State.ReleasedAt (b : BaseIx) (owner : OrderOwner) (chs : List ChanIx) (s t : State) : Prop where
  state : (t.base b).state = (s.base b).state
  settings : t.settings = s.settings
  dropped : (t.base b).droppedAnswers = (s.base b).droppedAnswers
  sent : (s.base b).window.length + chs.length ≤ 4 →
    (t.base b).window = (s.base b).window ++ chs.mapIdx (fun n ch =>
      releaseEntry owner s.settings.timers.echo ((s.base b).nextSerial + BitVec.ofNat 8 n) ch) ∧
    (t.base b).nextSerial = (s.base b).nextSerial + BitVec.ofNat 8 chs.length
  full : 4 ≤ (s.base b).window.length + chs.length → 4 ≤ (t.base b).window.length
  only : ∀ e ∈ (t.base b).window, e ∈ (s.base b).window ∨ e.kind = .release
  orders : ∀ q ∈ t.ordersOut, q ∈ s.ordersOut ∨ q.order.kind = .release

namespace State.ReleasedAt

variable {owner : OrderOwner} {chs chs' : List ChanIx}

/-- The base left alone, and no order but releases sent. -/
theorem same (base : t.base b = s.base b) (settings : t.settings = s.settings)
    (orders : ∀ q ∈ t.ordersOut, q ∈ s.ordersOut ∨ q.order.kind = .release) : s.ReleasedAt b owner [] t :=
  ⟨by rw [base], settings, by rw [base], fun _ => by simp [base], fun h => by rw [base]; simpa using h,
    fun e mem => .inl (base ▸ mem), orders⟩

theorem trans (h : s.ReleasedAt b owner chs t) (k : t.ReleasedAt b owner chs' u) :
    s.ReleasedAt b owner (chs ++ chs') u where
  state := k.state.trans h.state
  settings := k.settings.trans h.settings
  dropped := k.dropped.trans h.dropped
  sent room := by
    rw [List.length_append] at room
    obtain ⟨window, serial⟩ := h.sent (by omega)
    obtain ⟨window', serial'⟩ := k.sent (by rw [window, List.length_append, List.length_mapIdx]; omega)
    rw [window', serial', window, serial, h.settings, List.mapIdx_append, List.append_assoc, List.length_append]
    simp only [BitVec.ofNat_add, BitVec.add_assoc, BitVec.add_comm (BitVec.ofNat 8 chs.length), and_self]
  full far := by
    rw [List.length_append] at far
    refine k.full ?_
    by_cases room : (s.base b).window.length + chs.length ≤ 4
    · rw [(h.sent room).1, List.length_append, List.length_mapIdx]
      omega
    · exact (h.full (by omega)).trans (Nat.le_add_right ..)
  only e mem := (k.only e mem).elim (h.only e) .inr
  orders q mem := (k.orders q mem).elim (h.orders q) .inr

end State.ReleasedAt

/-- One release, at the base or at another one. -/
theorem State.releasedAt_release (s : State) (service : (s.base b).state = .inService) (p : ChanRef) (o : Owner) :
    s.ReleasedAt b (releaseOwner (some o)) (if p.base = b then [p.channel] else []) (s.release p (some o)) := by
  have settings := (release_keeps s p (some o)).settings
  split
  · next here =>
    subst here
    by_cases room : (s.base p.base).window.length < 4
    · rw [State.release_sent service room] at settings ⊢
      have base : ((s.send p.base (.release p.channel) .callUnit (releaseOwner (some o))).setChan p
          (.releasing (some o))).base p.base = _ := State.base_setBase_self ..
      refine ⟨?_, settings, ?_, fun _ => ⟨?_, ?_⟩, fun _ => ?_, fun e mem => ?_, fun q mem => ?_⟩
      · rw [base]
      · rw [base]
      · rw [base]
        simp [windowEntry, releaseEntry, Order.kind, Order.channel]
      · rw [base]
        rfl
      · rw [base]
        simp only [List.length_append, List.length_singleton] at *
        omega
      · rw [base] at mem
        exact (List.mem_append.mp mem).imp id fun k => by rw [List.mem_singleton.mp k]; rfl
      · exact (List.mem_append.mp mem).imp id fun k => by rw [List.mem_singleton.mp k]; rfl
    · have e : s.release p (some o) =
          (s.setBase p.base ((s.base p.base).overflow (.release p.channel))).setChan p .releaseOwed := by
        rcases s.release_cases p (some o) with ⟨off, _⟩ | ⟨_, less, _⟩ | ⟨_, _, e⟩
        · exact absurd service off
        · exact absurd less room
        · exact e
      rw [e] at settings ⊢
      have base : ((s.setBase p.base ((s.base p.base).overflow (.release p.channel))).setChan p .releaseOwed).base p.base =
          (s.base p.base).overflow (.release p.channel) := State.base_setBase_self ..
      refine ⟨by rw [base]; rfl, settings, by rw [base]; rfl, fun short => ?_, fun _ => ?_, fun e mem => ?_, fun q => .inl⟩
      · rw [List.length_singleton] at short
        omega
      · rw [base]
        exact Nat.not_lt.mp room
      · rw [base] at mem
        exact .inl mem
  · next away =>
    rcases s.release_cases p (some o) with ⟨_, e⟩ | ⟨_, _, e⟩ | ⟨_, _, e⟩ <;> rw [e] at settings ⊢
    · exact .same rfl settings fun q => .inl
    · refine .same (State.base_setBase_ne _ _ away) settings fun q mem => ?_
      exact (List.mem_append.mp mem).imp id fun k => by rw [List.mem_singleton.mp k]; rfl
    · exact .same (State.base_setBase_ne _ _ away) settings fun q => .inl

theorem State.releasedAt_releases (s : State) (service : (s.base b).state = .inService) (l : List ChanRef) (o : Owner) :
    s.ReleasedAt b (releaseOwner (some o)) (l.flatMap fun p => if p.base = b then [p.channel] else [])
      (l.foldl (fun t p => t.release p (some o)) s) := by
  induction l generalizing s with
  | nil => exact .same rfl rfl fun q => .inl
  | cons p l ih =>
    have one := s.releasedAt_release service p o
    exact one.trans (ih _ (one.state.trans service))

/-- One index of a list without repetition, picked out. -/
theorem flatMap_pick {α β : Type} [DecidableEq α] {l : List α} {a : α} (nodup : l.Nodup) (mem : a ∈ l) (x : List β) :
    (l.flatMap fun d => if d = a then x else []) = x := by
  induction l with
  | nil => cases mem
  | cons d l ih =>
    obtain ⟨fresh, nodup⟩ := List.nodup_cons.mp nodup
    rw [List.flatMap_cons]
    rcases List.mem_cons.mp mem with rfl | mem
    · have rest : (l.flatMap fun d => if d = a then x else []) = [] :=
        List.flatMap_eq_nil_iff.mpr fun d hd => if_neg (ne_of_mem_of_not_mem hd fresh)
      rw [if_pos rfl, rest, List.append_nil]
    · rw [if_neg (ne_of_mem_of_not_mem mem fresh).symm, List.nil_append, ih nodup mem]

/-- The channels of one base among all that an owner holds, ascending. -/
theorem State.heldBy_at (s : State) (o : Owner) (b : BaseIx) :
    ((s.heldBy o).flatMap fun p => if p.base = b then [p.channel] else []) =
      (List.finRange 8).filter fun ch => (s.chan ⟨b, ch⟩).heldBy o := by
  have one (d : BaseIx) : (((indices 8).map fun ch => (⟨d, ch⟩ : ChanRef)).filter (fun p => (s.chan p).heldBy o)).flatMap
      (fun p => if p.base = b then [p.channel] else []) =
        if d = b then (List.finRange 8).filter fun ch => (s.chan ⟨b, ch⟩).heldBy o else [] := by
    rw [List.filter_map, List.flatMap_map]
    split
    · next here =>
      subst here
      exact List.flatMap_singleton' _
    · exact List.flatMap_eq_nil_iff.mpr fun _ _ => rfl
  rw [State.heldBy, allChannels, List.filter_flatMap, List.flatMap_assoc, List.flatMap_congr fun d _ => one d]
  exact flatMap_pick nodup_indices (mem_indices b) _

/-! ### The clearing that a DETACH starts (R62, R83) -/

/-- The end of a call's captures touches capture slots and notices alone. -/
theorem State.endCaptures_frame (s : State) (c : CallIx) :
    ∃ slots classes, s.endCaptures c = { s with slots := slots, classes := classes } := by
  have each (l : List CapIx) (s : State) :
      ∃ slots classes, l.foldl (endCapture c) s = { s with slots := slots, classes := classes } := by
    induction l generalizing s with
    | nil => exact ⟨_, _, rfl⟩
    | cons k l ih =>
      have one : ∃ slots classes, endCapture c s k = { s with slots := slots, classes := classes } := by
        unfold endCapture
        repeat' split
        all_goals exact ⟨_, _, rfl⟩
      obtain ⟨_, _, e⟩ := one
      obtain ⟨_, _, f⟩ := ih (endCapture c s k)
      rw [e] at f
      exact ⟨_, _, by rw [List.foldl_cons, e, f]⟩
  exact each _ s

theorem State.releases_handsets (o : Owner) (l : List ChanRef) (s : State) :
    (l.foldl (fun t p => t.release p (some o)) s).handsets = s.handsets := by
  induction l generalizing s with
  | nil => rfl
  | cons p l ih => exact (ih _).trans (s.release_gives p o).2.2.2.2

section
variable {k : CallInfo} {w : ClearCause} (call : (s.ctx c).call = some k) (stage : ∀ w, k.stage ≠ .clearing w)

include call stage

/-- A clearing up to the look for its end: the context CLEARING, its channels released, the records as they were. -/
theorem State.clearCall_released : ∃ u, s.clearCall c w = u.freeIfDone c ∧ u.ctx c = (s.ctx c).clearing k w ∧
    u.handsets = s.handsets ∧ ∀ b, (s.base b).state = .inService →
      s.ReleasedAt b (releaseOwner (some (s.ownerOf c))) (s.givenUpAt b c) u := by
  rcases s.clearCall_cases c w with ⟨done, _⟩ | ⟨j, callj, _, e⟩
  · rcases done with no | ⟨j, w, callj, clearing⟩
    · simp [call] at no
    · cases call.symm.trans callj
      exact absurd clearing (stage w)
  cases call.symm.trans callj
  have told : ∃ slots classes, (if k.stage = .active then (s.setCtx c ((s.ctx c).clearing k w)).endCaptures c
      else s.setCtx c ((s.ctx c).clearing k w)) =
        { s.setCtx c ((s.ctx c).clearing k w) with slots := slots, classes := classes } := by
    split
    · exact State.endCaptures_frame ..
    · exact ⟨_, _, rfl⟩
  obtain ⟨slots, classes, told⟩ := told
  dsimp only at e
  rw [told] at e
  have owner : ({ s.setCtx c ((s.ctx c).clearing k w) with slots := slots, classes := classes } : State).ownerOf c =
      s.ownerOf c := by
    show Owner.mk c ((s.setCtx c ((s.ctx c).clearing k w)).ctx c).use = _
    rw [State.ctx_setCtx_self]
    rfl
  rw [owner] at e
  refine ⟨_, e, ?_, State.releases_handsets .., fun b service => ?_⟩
  · refine ((still_foldl _ (fun u q => release_still u q _) _ _).ctx c).trans ?_
    exact State.ctx_setCtx_self s c ((s.ctx c).clearing k w)
  · have released := State.releasedAt_releases (b := b)
      ({ s.setCtx c ((s.ctx c).clearing k w) with slots := slots, classes := classes } : State) service
      (s.heldBy (s.ownerOf c)) (s.ownerOf c)
    rw [State.heldBy_at] at released
    exact ⟨released.state, released.settings, released.dropped, released.sent, released.full, released.only,
      released.orders⟩

/-- The releases of a clearing at a base in service. -/
theorem State.clearCall_releasedAt (service : (s.base b).state = .inService) :
    s.ReleasedAt b (releaseOwner (some (s.ownerOf c))) (s.givenUpAt b c) (s.clearCall c w) := by
  obtain ⟨u, e, _, _, released⟩ := State.clearCall_released (w := w) call stage
  have settings := (freeIfDone_keeps u c).settings
  have links : (u.freeIfDone c).bases = u.bases ∧ (u.freeIfDone c).ordersOut = u.ordersOut := by
    rcases u.freeIfDone_cases c with f | ⟨i, w, _, _, _, f⟩ <;> rw [f]
    · exact ⟨rfl, rfl⟩
    · exact ⟨(sameLinks_freeContext u c i w).bases, (sameLinks_freeContext u c i w).ordersOut⟩
  have ended := (released b service).trans (.same (by simp only [State.base, links.1]) settings
    fun q mem => .inl (links.2 ▸ mem))
  rwa [List.append_nil, ← e] at ended

/-- The record of a call with detach pending, as its clearing starts: as it was while the call is CLEARING, ENROLLED with
the call's end. -/
theorem State.clearCall_record {at_ : BaseIx} {d : CallIx} (held : s.handset i = some h)
    (status : h.status = .engaged at_ d true) :
    (((s.clearCall c w).ctx c).call = some { k with stage := .clearing w } ∧ (s.clearCall c w).handset i = some h) ∨
      (((s.clearCall c w).ctx c).call = none ∧
        (k.slot = i → ∃ zone, (s.clearCall c w).handset i = some { h with status := .enrolled zone })) := by
  obtain ⟨u, e, ctx, handsets, _⟩ := State.clearCall_released (w := w) call stage
  have heldu : u.handset i = some h := by rw [State.handset, handsets]; exact held
  rw [e]
  rcases u.freeIfDone_cases c with f | ⟨j, x, callj, stagej, _, f⟩ <;> rw [f]
  · exact .inl ⟨congrArg Context.call ctx, heldu⟩
  · obtain rfl : { k with stage := .clearing w } = j := Option.some.inj ((congrArg Context.call ctx).symm.trans callj)
    obtain rfl : w = x := Stage.clearing.inj stagej
    refine .inr ⟨by rw [State.ctx_freeContext]; rfl, fun slot => ?_⟩
    subst slot
    have record := State.returnRecord_engaged (s := u.setCtx c (u.ctx c).freed) (i := { k with stage := .clearing w })
      (cause := w) heldu status
    have drained (v : State) : v.endDrain.handset k.slot = v.handset k.slot := by
      rcases v.endDrain_cases with ⟨_, _, g⟩ | ⟨_, g⟩ <;> rw [g]
      exact State.handset_enter ..
    rw [State.freeContext, drained, State.handset_post, record]
    cases CallInfo.returnZone { k with stage := .clearing w } w with
    | some zone => exact ⟨some zone, State.handset_setStatus_self ..⟩
    | none => exact ⟨none, (State.handset_post ..).trans (State.handset_setStatus_self ..)⟩

end

/-- A call that is CLEARING is not cleared again. -/
theorem State.clearCall_clearing {k : CallInfo} {cause : ClearCause} (call : (s.ctx c).call = some k)
    (clearing : k.stage = .clearing cause) (w : ClearCause) : s.clearCall c w = s := by
  rcases s.clearCall_cases c w with ⟨_, e⟩ | ⟨j, callj, live, _⟩
  · exact e
  · cases call.symm.trans callj
    exact absurd clearing (live cause)

/-- An answer offered leaves trains and records alone. -/
theorem State.answer_leaves (s : State) (r : AccessRequest) (owner : OrderOwner) (cause : AnswerCause) :
    (s.answer r owner cause).trains = s.trains ∧ (s.answer r owner cause).handsets = s.handsets := by
  unfold answer
  rcases s.offer_cases r.base (.answer r.tag cause) .registration owner with ⟨_, e⟩ | ⟨_, _, e⟩ | ⟨_, _, e⟩ <;> rw [e] <;>
    exact ⟨rfl, rfl⟩

/-- What a clearing leaves once an answer is offered after it: the record, the channels of the call, other contexts. -/
theorem State.clearCall_answered {k : CallInfo} {w : ClearCause} {at_ : BaseIx} {d : CallIx} {owner : OrderOwner}
    {cause : AnswerCause} (call : (s.ctx c).call = some k) (stage : ∀ w, k.stage ≠ .clearing w)
    (held : s.handset i = some h) (status : h.status = .engaged at_ d true) :
    let t := (s.clearCall c w).answer r owner cause
    t.trains = s.trains ∧
    (((t.ctx c).call = some { k with stage := .clearing w } ∧ t.handset i = some h) ∨
      ((t.ctx c).call = none ∧
        (k.slot = i → ∃ zone, t.handset i = some { h with status := .enrolled zone }))) ∧
    (∀ p, (t.chan p).heldBy (s.ownerOf c) = false) ∧ (∀ d, d ≠ c → t.ctx d = s.ctx d) ∧
    t.settings = s.settings ∧ t.link = s.link := by
  have keeps := (clearCall_keeps s c w).trans (answer_keeps (s.clearCall c w) r owner cause)
  obtain ⟨trains, handsets⟩ := State.answer_leaves (s.clearCall c w) r owner cause
  obtain ⟨concerns, unheld, _⟩ := State.clearCall_starts s w call stage
  have record := State.clearCall_record (w := w) call stage held status
  have ctx (d : CallIx) : ((s.clearCall c w).answer r owner cause).ctx d = (s.clearCall c w).ctx d := State.ctx_offer ..
  have handset (j : SlotIx) : ((s.clearCall c w).answer r owner cause).handset j = (s.clearCall c w).handset j :=
    congrArg (Table.get · j) handsets
  refine ⟨trains.trans (s.clearCall_trains c w), ?_, fun p => ?_, fun d other => (ctx d).trans (concerns.others d other),
    keeps.settings, keeps.link⟩
  · rw [ctx, handset]
    exact record
  · rw [State.answer, State.chan_offer]
    exact unheld p

/-- An answer that goes after the releases of a clearing: sent as the last order while the window has room, dropped and
counted otherwise. -/
theorem State.ReleasedAt.answered {owner : OrderOwner} {chs : List ChanIx} (released : s.ReleasedAt r.base owner chs t)
    (service : (s.base r.base).state = .inService) (none_ : s.ordersOut = []) (i : SlotIx) (cause : AnswerCause) :
    let v := t.answer r (.slot i) cause
    let serial := fun n : Nat => (s.base r.base).nextSerial + BitVec.ofNat 8 n
    ((s.base r.base).window.length + chs.length < 4 →
      (v.base r.base).window = (s.base r.base).window ++
        (chs.mapIdx fun n ch => releaseEntry owner s.settings.timers.echo (serial n) ch) ++
        [{ newEntry (s.base r.base) .answer .registration (.slot i) none s.settings.timers.echo with
          serial := serial chs.length }] ∧
      v.ordersOut.getLast? = some { base := r.base, serial := serial chs.length, order := .answer r.tag cause } ∧
      (v.base r.base).droppedAnswers = (s.base r.base).droppedAnswers) ∧
    (4 ≤ (s.base r.base).window.length + chs.length →
      (∀ e ∈ (v.base r.base).window, e ∈ (s.base r.base).window ∨ e.kind = .release) ∧
      (∀ q ∈ v.ordersOut, ∀ tag cause, q.order ≠ .answer tag cause) ∧
      (v.base r.base).droppedAnswers = min 65535 ((s.base r.base).droppedAnswers + 1)) := by
  have offered := released.state.trans service
  dsimp only
  refine ⟨fun room => ?_, fun far => ?_⟩
  · obtain ⟨window, next⟩ := released.sent (by omega)
    have left : (t.base r.base).window.length < 4 := by
      rw [window, List.length_append, List.length_mapIdx]
      exact room
    rw [State.answer, State.offer_sent offered left, State.send_eq, released.settings, next]
    refine ⟨?_, List.getLast?_concat .., ?_⟩
    all_goals refine Eq.trans (congrArg _ (State.base_setBase_self ..)) ?_
    · rw [← window]
      simp only [newEntry, Order.kind, Order.channel, next]
    · exact released.dropped
  · have full := released.full far
    rw [State.answer, State.offer_full offered full]
    refine ⟨?_, fun q mem tag cause answer => ?_, ?_⟩
    · rw [State.base_setBase_self]
      exact released.only
    · rcases released.orders q mem with old | kind
      · rw [none_] at old
        cases old
      · rw [answer] at kind
        cases kind
    · rw [State.base_setBase_self]
      show sat 65535 (t.base r.base).droppedAnswers = _
      rw [released.dropped]
      rfl

/-! ### The statement -/

/-- Settles O43: the decision, then its answer; a DETACH that clears its call by the clearing's releases. -/
theorem goodTrainIsAnswered : Obligations.GoodTrainIsAnswered := by
  intro s o x train i h b r seen answered idle refused at_b open_ hears service collecting good names tagged
  have decided {cause : AnswerCause} {t : State} := exec_fragClose_decided (t := t) (cause := cause) hears service collecting
    good names tagged
  have base := train.request_base (originBase o)
  let w := (s.fresh.setTrain (originBase o) none).setHandset i (some { h with lastAccess := some s.tick })
  have same (status : HandsetStatus) : w.setStatus i { h with lastAccess := some s.tick } status = _ :=
    State.setStatus_setHandset ..
  have shutAt : s.closedAt b = w.closedAt (train.request (originBase o)).base := by rw [base]; rfl
  have unattached (kind : (train.request (originBase o)).kind = .locate ∨ (train.request (originBase o)).kind = .renew ∨
      ((train.request (originBase o)).kind = .originate ∧ open_)) :=
    State.decideAccess_unattached (s := w) (i := i) (h := { h with lastAccess := some s.tick })
      (kind.imp id (Or.imp id (And.imp id fun ⟨serving, held, degraded⟩ =>
        shutAt.symm.trans (State.closedAt_eq_false serving held degraded))))
  refine ⟨fun lifetime origination kind status => ?_, fun at_ lifetime origination status kind => ?_,
    fun at_ lifetime origination kind admitted status => ?_, fun kind shut => ?_,
    fun at_ lifetime origination kind status => ?_, fun zone kind status => ?_, fun at_ c kind status => ?_,
    fun at_ c k kind status call => ?_, fun zone status kind => ?_, fun at_ c pending status kind => ?_, fun kind => ?_⟩
  · have d := State.decideAccess_renew (s := w) (i := i) (h := { h with lastAccess := some s.tick }) kind
      (by rw [base]; exact status)
    rw [same, base] at d
    exact decided d rfl rfl rfl
  · have d := State.decideAccess_locate (s := w) (i := i) (h := { h with lastAccess := some s.tick })
      (r := train.request (originBase o)) (at_ := at_) (by rw [base]; exact kind) status
    rw [same, base, tagged] at d
    exact decided d rfl rfl rfl
  · obtain ⟨serving, held, degraded⟩ := admitted
    have d := State.decideAccess_originate (s := w) (i := i) (h := { h with lastAccess := some s.tick }) kind
      (shutAt.symm.trans (State.closedAt_eq_false serving held degraded)) status
    rw [State.originate_eq, same, base, tagged] at d
    refine decided d ?_ ?_ ?_ <;> split <;> split <;> rfl
  · have d := State.decideAccess_closed (s := w) (i := i) (h := { h with lastAccess := some s.tick }) kind
      (shutAt.symm.trans (State.closedAt_eq_true shut))
    rw [base, tagged] at d
    exact decided d rfl rfl rfl
  · have d := State.decideAccess_detach (s := w) (i := i) (h := { h with lastAccess := some s.tick }) kind status
    rw [same, tagged] at d
    exact decided d rfl rfl rfl
  · exact decided (State.decideAccess_detached (s := w) kind (.inl ⟨zone, status⟩)) rfl rfl rfl
  · exact decided (State.decideAccess_detached (s := w) kind (.inr ⟨at_, c, status⟩)) rfl rfl rfl
  · have d := State.decideAccess_detachCall (s := w) (i := i) (h := { h with lastAccess := some s.tick }) kind status
    rw [same] at d
    let v := (s.fresh.setTrain (originBase o) none).setHandset i
      (some { h with lastAccess := some s.tick, status := .engaged at_ c true })
    have held : v.handset i = some { h with lastAccess := some s.tick, status := .engaged at_ c true } :=
      State.handset_setHandset_self ..
    refine ⟨fun cause clearing => ?_, fun running => ?_⟩
    · exact decided (d.trans (congrArg (Prod.mk _) (State.clearCall_clearing (s := v) call clearing .detach))) rfl rfl rfl
    · have e := exec_fragClose_good hears service collecting good names tagged
      dsimp only at e
      rw [d] at e
      have sent := (State.clearCall_releasedAt (w := .detach) (s := v) call running
        (b := (train.request (originBase o)).base)
        (by rw [base]; exact service)).answered (by rw [base]; exact service) rfl i .accept
      obtain ⟨trains, record, unheld, others, settings, link⟩ := State.clearCall_answered (w := .detach)
        (r := train.request (originBase o)) (cause := .accept) (s := v) call running held rfl
      rw [base, tagged] at sent
      refine ⟨_, e, ?_, sent, record, unheld, others, settings, link⟩
      rw [trains]
      exact Table.get_set_self ..
  · have d := (unattached kind).1 zone status
    rw [base, tagged] at d
    exact decided d rfl rfl rfl
  · have d := (unattached kind).2 at_ c pending status
    rw [base, tagged] at d
    exact decided d rfl rfl rfl
  · obtain ⟨bases, settings, orders⟩ := State.decideAccess_attach w i { h with lastAccess := some s.tick } kind
    exact decided rfl bases settings orders

end Sys2Proof.Machine
end

