-- ==== Sys2Proof/Proofs/TrainCoding.lean ====
section
/-! The arithmetic of registration trains: the parity of an XOR (O41), and the layout of R44 read back (O42). -/

namespace Sys2Proof.Machine

/-! ### The parity of an XOR -/

theorem countP_xor_mod_two {α : Type} (p q : α → Bool) (l : List α) :
    l.countP (fun i => p i ^^ q i) % 2 = (l.countP p + l.countP q) % 2 := by
  induction l with
  | nil => rfl
  | cons a l ih =>
    simp only [List.countP_cons]
    cases p a <;> cases q a <;> simp <;> omega

theorem ones_xor_mod_two {w : Nat} (x y : BitVec w) : ones (x ^^^ y) % 2 = (ones x + ones y) % 2 := by
  simp only [ones, BitVec.getLsbD_xor, countP_xor_mod_two]

/-- What the count of 1 bits of a fragment leaves modulo 2 under each sense (R37). -/
def Parity.residue : Parity → Nat
  | .odd => 1
  | .even => 0

theorem Parity.passes_iff {sense : Parity} {x : Byte} : sense.passes x = true ↔ ones x % 2 = sense.residue := by
  cases sense <;> exact beq_iff_eq

/-- The closing sense is that of as many passing fragments together (R42). -/
theorem Parity.residue_closing (sense : Parity) (count : Nat) :
    (sense.closing count).residue = count * sense.residue % 2 := by
  cases sense with
  | odd =>
    by_cases odd : count % 2 = 1
    · simp [Parity.closing, Parity.residue, odd]
    · simp [Parity.closing, Parity.residue, Nat.mod_two_ne_one.mp odd]
  | even => rfl

/-- Each passing fragment adds its residue to the 1 bits of the running XOR. -/
theorem ones_foldl_xor_mod_two {sense : Parity} {fragments : List Byte} (pass : ∀ x ∈ fragments, sense.passes x = true)
    (start : Byte) :
    ones (fragments.foldl (· ^^^ ·) start) % 2 = (ones start + fragments.length * sense.residue) % 2 := by
  induction fragments generalizing start with
  | nil => simp
  | cons x rest ih =>
    obtain ⟨first, others⟩ := List.forall_mem_cons.mp pass
    have joined := ones_xor_mod_two start x
    have own := Parity.passes_iff.mp first
    rw [List.foldl_cons, ih others, List.length_cons, Nat.succ_mul]
    omega

/-- Settles O41: the residues of passing fragments add up to that of the closing sense. -/
theorem closingParityFollowsFromXor : Obligations.ClosingParityFollowsFromXor := by
  intro sense fragments pass
  rw [Parity.passes_iff, ones_foldl_xor_mod_two pass, Parity.residue_closing, show ones (0 : Byte) = 0 by decide,
    Nat.zero_add]

/-! ### The fragment of seven data bits -/

/-- The two fragments that carry the same data bits differ in their parity. -/
theorem passes_parityBit (sense : Parity) (d : BitVec 7) :
    sense.passes ((1 : BitVec 1) ++ d) = !sense.passes ((0 : BitVec 1) ++ d) := by
  have split : (1 : BitVec 1) ++ d = 0x80#8 ^^^ ((0 : BitVec 1) ++ d) := by
    rw [show 0x80#8 = (1 : BitVec 1) ++ (0 : BitVec 7) by decide, BitVec.xor_append]
    simp
  have flips := ones_xor_mod_two 0x80#8 ((0 : BitVec 1) ++ d)
  rw [← split, show ones 0x80#8 = 1 by decide] at flips
  rw [Bool.eq_iff_iff, Bool.not_eq_true', Bool.eq_false_iff, Ne, Parity.passes_iff, Parity.passes_iff, flips]
  cases sense <;> simp only [Parity.residue] <;> omega

theorem passes_fragmentOf (sense : Parity) (d : BitVec 7) : sense.passes (fragmentOf sense d) = true := by
  unfold fragmentOf
  dsimp only
  split
  · next passes => exact passes
  · next fails => rw [passes_parityBit, Bool.eq_false_iff.mpr fails, Bool.not_false]

theorem setWidth_fragmentOf (sense : Parity) (d : BitVec 7) : (fragmentOf sense d).setWidth 7 = d := by
  unfold fragmentOf
  dsimp only
  split <;> exact BitVec.setWidth_append_eq_right

/-! ### Fragments collected -/

/-- The train that passing fragments make, as long as they fit (R38, R39). -/
def Train.collected (fragments : List Byte) (gap : Nat) : Train :=
  { fragments := fragments, xor := fragments.foldl (· ^^^ ·) 0, vertical := false, overlong := false, gap := gap }

theorem Train.next_collected {fragments : List Byte} (room : fragments.length < 9) (gap : Nat) (x : Byte) :
    (Train.collected fragments gap).next true gap x = .collected (fragments ++ [x]) gap := by
  simp only [Train.next, Train.collected, if_pos room, List.foldl_append, List.foldl_cons, List.foldl_nil, Bool.not_true,
    Bool.or_false]

theorem Train.foldl_next {sense : Parity} (gap : Nat) {rest : List Byte} (pass : ∀ x ∈ rest, sense.passes x = true)
    {before : List Byte} (room : before.length + rest.length ≤ 9) :
    rest.foldl (fun t x => t.next (sense.passes x) gap x) (Train.collected before gap) =
      Train.collected (before ++ rest) gap := by
  induction rest generalizing before with
  | nil => rw [List.foldl_nil, List.append_nil]
  | cons x rest ih =>
    obtain ⟨first, others⟩ := List.forall_mem_cons.mp pass
    rw [List.length_cons] at room
    have fits : (before ++ [x]).length + rest.length ≤ 9 := by
      rw [List.length_append, List.length_singleton]
      omega
    rw [List.foldl_cons, first, Train.next_collected (by omega), ih others fits, List.append_assoc, List.singleton_append]

/-- Five or more passing fragments, closed by their XOR, are a good train (R41, R42). -/
theorem Train.judge_collected {sense : Parity} {fragments : List Byte} (pass : ∀ x ∈ fragments, sense.passes x = true)
    (enough : 5 ≤ fragments.length) (gap : Nat) :
    (Train.collected fragments gap).judge sense (fragments.foldl (· ^^^ ·) 0) = .good :=
  (Train.judge_closing (t := .collected fragments gap) enough rfl rfl rfl).trans
    (if_pos (closingParityFollowsFromXor sense fragments pass))

/-! ### The layout read back (R44) -/

theorem kindOf_kindBits {kind : AccessKind} (defined : kind ≠ .malformed) : kindOf (kindBits kind) = some kind := by
  cases kind with
  | malformed => exact absurd rfl defined
  | _ => rfl

theorem length_trainData (kind : AccessKind) (tag : Tag) (credential : Credential) :
    (trainData kind tag credential).length = expectedCount kind := by
  cases kind <;> rfl

theorem expectedCount_bounds (kind : AccessKind) : 5 ≤ expectedCount kind ∧ expectedCount kind ≤ 9 := by
  cases kind <;> decide

/-- The data bits of fragment `n` of a train that carries `data`. -/
theorem Train.data_of_carries {t : Train} {sense : Parity} {data : List (BitVec 7)}
    (carries : t.fragments = data.map (fragmentOf sense)) (n : Nat) : t.data n = data.getD (n - 1) 0 := by
  have stripped : t.fragments.map (BitVec.setWidth 7) = data := by
    simp [carries, Function.comp_def, setWidth_fragmentOf]
  rw [← stripped]
  exact (List.getD_map (f := BitVec.setWidth 7) (d := (0 : Byte)) ..).symm

theorem septets_append_eq_tag (tag : Tag) :
    (tag.extractLsb' 21 7 ++ tag.extractLsb' 14 7) ++ (tag.extractLsb' 7 7 ++ tag.extractLsb' 0 7) = tag := by
  simp only [BitVec.extractLsb'_append_extractLsb'_eq_extractLsb', BitVec.extractLsb'_eq_self]

theorem septets_append_eq_credential (credential : Credential) :
    credential.extractLsb' 14 7 ++ (credential.extractLsb' 7 7 ++ credential.extractLsb' 0 7) = credential := by
  simp only [BitVec.extractLsb'_append_extractLsb'_eq_extractLsb', BitVec.extractLsb'_eq_self]

section
variable {t : Train} {sense : Parity} {kind : AccessKind} {tag : Tag} {credential : Credential}
  (carries : t.fragments = (trainData kind tag credential).map (fragmentOf sense))

include carries

theorem Train.data_one_of_carries : t.data 1 = kindBits kind ++ (0 : BitVec 4) := Train.data_of_carries carries 1

theorem Train.tag_of_carries : t.tag = tag := by
  unfold Train.tag
  simp only [Train.data_of_carries carries]
  exact septets_append_eq_tag tag

theorem Train.credential_of_carries (attach : kind = .attach) : t.credential = credential := by
  subst attach
  unfold Train.credential
  simp only [Train.data_of_carries carries]
  exact septets_append_eq_credential credential

theorem Train.request_of_carries (defined : kind ≠ .malformed) (b : BaseIx) : t.request b =
    { kind := kind, tag := tag, credential := if kind = .attach then some credential else none, base := b } := by
  have field : (t.data 1).extractLsb' 4 3 = kindBits kind := by
    rw [Train.data_one_of_carries carries, BitVec.extractLsb'_append_eq_left]
  have spare : (t.data 1).extractLsb' 0 4 = 0 := by
    rw [Train.data_one_of_carries carries, BitVec.extractLsb'_append_eq_right]
  have count : t.fragments.length = expectedCount kind := by
    rw [carries, List.length_map, length_trainData]
  simp only [Train.request, field, kindOf_kindBits defined, spare, count, and_self, if_true, Train.tag_of_carries carries]
  split
  · next attach => rw [Train.credential_of_carries carries attach]
  · rfl

end

/-- Settles O42: the fragments fit and pass, so they make a good train, which is read back field by field. -/
theorem trainDecodesToItsRequest : Obligations.TrainDecodesToItsRequest := by
  intro sense kind tag credential b gap defined data first rest built start train
  have pass : ∀ x ∈ data, sense.passes x = true := fun x carried => by
    obtain ⟨d, -, rfl⟩ := List.mem_map.mp carried
    exact passes_fragmentOf sense d
  have count : data.length = expectedCount kind := by rw [List.length_map, length_trainData]
  obtain ⟨enough, room⟩ := expectedCount_bounds kind
  have opened : start = .collected [first] gap := by
    simp [start, Train.collected, pass first (by simp [built])]
  have collected : train = .collected data gap := by
    rw [built, List.length_cons] at count
    rw [built, ← List.singleton_append, ← Train.foldl_next gap (fun x carried => pass x (by simp [built, carried]))
      (by rw [List.length_singleton]; omega), ← opened]
  rw [collected]
  exact ⟨Train.judge_collected pass (count ▸ enough) gap, Train.request_of_carries rfl defined b⟩

end Sys2Proof.Machine
end

