-- ==== Sys2Proof/Proofs/HandsetTable.lean ====
section
/-! The laws of the handset table (R51, R59, R67): what each of them reads of the state, and the elementary changes that
keep all three. -/

namespace Sys2Proof.Machine

open State

variable {s t u : State} {i slot : SlotIx} {h h' : Handset} {c : CallIx}

/-! ### What the laws read -/

/-- The call that an ENGAGED status names (R67). -/
def HandsetStatus.call : HandsetStatus → Option CallIx
  | .engaged _ c _ => some c
  | _ => none

/-- The slot that a context names while it is not FREE (R74). -/
def Context.named (x : Context) : Option SlotIx := x.call.map CallInfo.slot

/-- A failure count of at most 3, and of 3 in a barred record alone (R59). -/
def Handset.sound (h : Handset) : Prop := h.failures ≤ 3 ∧ (h.failures = 3 → h.barred = true)

/-- The tag that a slot holds, if it is not VACANT. -/
def State.tagAt (s : State) (i : SlotIx) : Option Tag := (s.handset i).map Handset.tag

/-- The call that a slot's record is ENGAGED in. -/
def State.callAt (s : State) (i : SlotIx) : Option CallIx := (s.handset i).bind fun h => h.status.call

theorem HandsetStatus.call_eq_some_iff {w : HandsetStatus} : w.call = some c ↔ ∃ b d, w = .engaged b c d := by
  cases w <;> simp [HandsetStatus.call]

theorem HandsetStatus.call_eq_none_iff {w : HandsetStatus} : w.call = none ↔ w.state ≠ .engaged := by
  cases w <;> simp [HandsetStatus.call, HandsetStatus.state]

theorem State.tagsUnique_iff (s : State) :
    s.tagsUnique ↔ ∀ i j tag, s.tagAt i = some tag → s.tagAt j = some tag → i = j := by
  simp only [State.tagsUnique, State.tagAt, Option.map_eq_some_iff]
  constructor
  · rintro unique i j tag ⟨h, held, rfl⟩ ⟨k, heldk, same⟩
    exact unique i j h k held heldk same.symm
  · intro unique i j h k held heldk same
    exact unique i j k.tag ⟨h, held, same⟩ ⟨k, heldk, rfl⟩

theorem State.failuresBounded_iff (s : State) : s.failuresBounded ↔ ∀ i h, s.handset i = some h → h.sound := Iff.rfl

/-- Records and contexts name each other (R67). -/
theorem State.engagedBound_iff (s : State) :
    s.engagedBound ↔ ∀ i c, s.callAt i = some c ↔ (s.ctx c).named = some i := by
  simp only [State.engagedBound, State.callAt, Context.named, Option.bind_eq_some_iff, Option.map_eq_some_iff,
    HandsetStatus.call_eq_some_iff]
  constructor
  · rintro ⟨named, held⟩ i c
    constructor
    · rintro ⟨h, here, b, d, status⟩
      exact named i h b c d here status
    · rintro ⟨k, call, rfl⟩
      obtain ⟨h, b, d, here, status⟩ := held c k call
      exact ⟨h, here, b, d, status⟩
  · intro bound
    refine ⟨fun i h b c d here status => (bound i c).mp ⟨h, here, b, d, status⟩, fun c k call => ?_⟩
    obtain ⟨h, here, b, d, status⟩ := (bound k.slot c).mpr ⟨k, call, rfl⟩
    exact ⟨h, b, d, here, status⟩

/-! ### Keeping the laws -/

/-- A step from `s` to `t` keeps each law of the handset table. -/
structure State.KeepsTable (s t : State) : Prop where
  tags : s.tagsUnique → t.tagsUnique
  failures : s.failuresBounded → t.failuresBounded
  bound : s.engagedBound → t.engagedBound

theorem State.KeepsTable.refl (s : State) : s.KeepsTable s := ⟨id, id, id⟩

theorem State.KeepsTable.trans (h : s.KeepsTable t) (k : t.KeepsTable u) : s.KeepsTable u :=
  ⟨k.tags ∘ h.tags, k.failures ∘ h.failures, k.bound ∘ h.bound⟩

theorem table_ite {p : Prop} [Decidable p] (h : s.KeepsTable t) (k : s.KeepsTable u) :
    s.KeepsTable (if p then t else u) := by
  split
  · exact h
  · exact k

theorem table_foldl {α : Type} (f : State → α → State) (h : ∀ s a, State.KeepsTable s (f s a)) (l : List α) (s : State) :
    s.KeepsTable (l.foldl f s) := by
  induction l generalizing s with
  | nil => exact .refl s
  | cons a l ih => exact (h s a).trans (ih _)

/-- Records replaced by records with the same tags, calls and sound failure counts. -/
theorem table_records (tags : ∀ i, t.tagAt i = s.tagAt i) (sound : s.failuresBounded → t.failuresBounded)
    (calls : ∀ i, t.callAt i = s.callAt i) (slots : ∀ c, (t.ctx c).named = (s.ctx c).named) : s.KeepsTable t := by
  refine ⟨fun unique => ?_, sound, fun bound => ?_⟩
  · simpa only [State.tagsUnique_iff, tags] using unique
  · simpa only [State.engagedBound_iff, calls, slots] using bound

/-- A change of anything but the records and the slots that contexts name. -/
theorem table_frame (handsets : t.handsets = s.handsets) (slots : ∀ c, (t.ctx c).named = (s.ctx c).named) :
    s.KeepsTable t := by
  have handset (i : SlotIx) : t.handset i = s.handset i := by simp only [State.handset, handsets]
  refine table_records (fun i => ?_) (fun sound i h held => sound i h ((handset i).symm.trans held)) (fun i => ?_) slots
  · simp only [State.tagAt, handset]
  · simp only [State.callAt, handset]

/-- A change of anything but the records and the contexts. -/
theorem table_still (handsets : t.handsets = s.handsets) (contexts : t.contexts = s.contexts) : s.KeepsTable t :=
  table_frame handsets fun c => by simp only [State.ctx, contexts]

theorem table_post (s : State) (n : NoticeBody) : s.KeepsTable (s.post n) := table_still rfl rfl

theorem State.KeepsTable.post (h : s.KeepsTable t) (n : NoticeBody) : s.KeepsTable (t.post n) := h.trans (table_post t n)

/-- A context replaced by one that names the same slot. -/
theorem table_setCtx (c : CallIx) (x : Context) (same : x.named = (s.ctx c).named := by exact rfl) :
    s.KeepsTable (s.setCtx c x) := by
  refine table_frame rfl fun d => ?_
  by_cases here : c = d
  · subst here
    rw [State.ctx_setCtx_self, same]
  · rw [State.ctx_setCtx_ne s x here]

/-- A record replaced by one with the same tag and call. -/
theorem table_setHandset (held : s.handset i = some h) (tag : h'.tag = h.tag) (call : h'.status.call = h.status.call)
    (sound : h.sound → h'.sound) : s.KeepsTable (s.setHandset i (some h')) := by
  have other {j : SlotIx} (n : i ≠ j) : (s.setHandset i (some h')).handset j = s.handset j :=
    State.handset_setHandset_ne s _ n
  refine table_records (fun j => ?_) (fun bounded j k heldj => ?_) (fun j => ?_) fun _ => rfl <;>
    by_cases same : i = j
  · subst same
    simp only [State.tagAt, State.handset_setHandset_self, held, Option.map_some, tag]
  · simp only [State.tagAt, other same]
  · subst same
    rw [State.handset_setHandset_self] at heldj
    exact Option.some.inj heldj ▸ sound (bounded i h held)
  · exact bounded j k (other same ▸ heldj)
  · subst same
    simp only [State.callAt, State.handset_setHandset_self, held, Option.bind_some, call]
  · simp only [State.callAt, other same]

theorem table_setStatus (held : s.handset i = some h) (w : HandsetStatus) (call : w.call = h.status.call) :
    s.KeepsTable (s.setStatus i h w) :=
  table_setHandset held rfl call id

/-! ### Records and contexts that come and go -/

/-- A record in a VACANT slot, not ENGAGED, with a tag that no record holds. -/
theorem table_enrolled (vacant : s.handset i = none) (new : ∀ j k, s.handset j = some k → k.tag ≠ h.tag) (sound : h.sound)
    (call : h.status.call = none) : s.KeepsTable (s.setHandset i (some h)) := by
  have read (j : SlotIx) : (s.setHandset i (some h)).handset j = if i = j then some h else s.handset j :=
    Table.get_set ..
  refine ⟨fun unique j k x y heldj heldk same => ?_, fun bounded j x heldj => ?_, fun bound => ?_⟩
  · rw [read] at heldj heldk
    split at heldj <;> split at heldk
    · next ij ik => exact ij.symm.trans ik
    · exact absurd (same.symm.trans (congrArg _ (Option.some.inj heldj).symm)) (new k y heldk)
    · exact absurd (same.trans (congrArg _ (Option.some.inj heldk).symm)) (new j x heldj)
    · exact unique j k x y heldj heldk same
  · rw [read] at heldj
    split at heldj
    · exact Option.some.inj heldj ▸ sound
    · exact bounded j x heldj
  · have calls (j : SlotIx) : (s.setHandset i (some h)).callAt j = s.callAt j := by
      simp only [State.callAt, read]
      split
      · next same => rw [← same, vacant, Option.bind_some, call]; rfl
      · rfl
    simpa only [State.engagedBound_iff, calls, State.ctx_setHandset] using bound

/-- A record that is not ENGAGED removed. -/
theorem table_removed (held : s.handset i = some h) (call : h.status.call = none) :
    s.KeepsTable (s.setHandset i none) := by
  have read {j : SlotIx} {k : Handset} (heldj : (s.setHandset i none).handset j = some k) : s.handset j = some k := by
    rw [show (s.setHandset i none).handset j = if i = j then none else s.handset j from Table.get_set ..] at heldj
    split at heldj
    · cases heldj
    · exact heldj
  refine ⟨fun unique j k x y heldj heldk => unique j k x y (read heldj) (read heldk),
    fun bounded j x heldj => bounded j x (read heldj), fun bound => ?_⟩
  have calls (j : SlotIx) : (s.setHandset i none).callAt j = s.callAt j := by
    by_cases same : i = j
    · subst same
      simp only [State.callAt, State.handset_setHandset_self, held, Option.bind_some, call, Option.bind_none]
    · simp only [State.callAt, State.handset_setHandset_ne s none same]
  simpa only [State.engagedBound_iff, calls, State.ctx_setHandset] using bound

/-- One slot's record, if there is one, given a status: tags and failure counts stay, and the slot's call is that of the
status. -/
def State.Restated (s t : State) (i : SlotIx) (w : HandsetStatus) : Prop :=
  t.handsets = s.handsets.set i ((s.handset i).map fun h => { h with status := w })

namespace State.Restated

variable {w : HandsetStatus} (restated : s.Restated t i w)

include restated

theorem handset (j : SlotIx) :
    t.handset j = if i = j then (s.handset i).map fun h => { h with status := w } else s.handset j := by
  rw [State.handset, show t.handsets = _ from restated]
  exact Table.get_set ..

theorem tagAt (j : SlotIx) : t.tagAt j = s.tagAt j := by
  simp only [State.tagAt, restated.handset]
  split
  · next same => rw [← same, Option.map_map]; rfl
  · rfl

theorem tags (unique : s.tagsUnique) : t.tagsUnique := by
  simpa only [State.tagsUnique_iff, restated.tagAt] using unique

theorem failures (bounded : s.failuresBounded) : t.failuresBounded := by
  intro j k held
  rw [restated.handset] at held
  split at held
  · obtain ⟨h, here, rfl⟩ := Option.map_eq_some_iff.mp held
    exact bounded i h here
  · exact bounded j k held

theorem callAt_ne {j : SlotIx} (n : i ≠ j) : t.callAt j = s.callAt j := by
  simp only [State.callAt, restated.handset, if_neg n]

theorem callAt_self : t.callAt i = (s.handset i).bind fun _ => w.call := by
  simp only [State.callAt, restated.handset, if_true, Option.bind_map]
  rfl

end State.Restated

/-- A context becomes FREE and its record is no longer ENGAGED. -/
theorem table_freed {w : HandsetStatus} (named : (s.ctx c).named = some slot) (restated : s.Restated t slot w)
    (call : w.call = none) (freed : (t.ctx c).named = none) (others : ∀ d, c ≠ d → (t.ctx d).named = (s.ctx d).named) :
    s.KeepsTable t := by
  refine ⟨restated.tags, restated.failures, fun bound => (State.engagedBound_iff t).mpr fun i d => ?_⟩
  have bound := (State.engagedBound_iff s).mp bound
  have here : t.callAt slot = none := by rw [restated.callAt_self, call]; cases s.handset slot <;> rfl
  by_cases at_ : slot = i <;> by_cases same : c = d
  · subst at_ same
    simp only [here, freed, reduceCtorEq]
  · subst at_
    rw [here, others d same]
    refine iff_of_false nofun fun other => same ?_
    exact Option.some.inj (((bound slot c).mpr named).symm.trans ((bound slot d).mpr other))
  · subst same
    rw [restated.callAt_ne at_, bound, freed, named]
    exact iff_of_false (fun e => at_ (Option.some.inj e)) nofun
  · rw [restated.callAt_ne at_, others d same, bound]

/-- A FREE context takes a call of a record that is not ENGAGED, and engages it. -/
theorem table_opened {w : HandsetStatus} (free : (s.ctx c).named = none) (held : s.handset slot = some h)
    (idle : h.status.call = none) (restated : s.Restated t slot w) (call : w.call = some c)
    (opened : (t.ctx c).named = some slot) (others : ∀ d, c ≠ d → (t.ctx d).named = (s.ctx d).named) : s.KeepsTable t := by
  refine ⟨restated.tags, restated.failures, fun bound => (State.engagedBound_iff t).mpr fun i d => ?_⟩
  have bound := (State.engagedBound_iff s).mp bound
  have here : t.callAt slot = some c := by rw [restated.callAt_self, held, Option.bind_some, call]
  have before : s.callAt slot = none := by rw [State.callAt, held, Option.bind_some, idle]
  by_cases at_ : slot = i <;> by_cases same : c = d
  · subst at_ same
    simp only [here, opened]
  · subst at_
    rw [here, others d same, ← bound, before]
    exact iff_of_false (fun e => same (Option.some.inj e)) nofun
  · subst same
    rw [restated.callAt_ne at_, bound, free, opened]
    exact iff_of_false nofun fun e => at_ (Option.some.inj e)
  · rw [restated.callAt_ne at_, others d same, bound]

end Sys2Proof.Machine
end

