-- ==== Sys2Proof/Proofs/TableOfCalls.lean ====
section
/-! The laws of the handset table under the work of the Call Unit, the Handover Sequencer and a base loss, in the order of
the definitions: records change where a call is taken in, moves or ends, nowhere else. -/

namespace Sys2Proof.Machine

open State

variable {s t u : State} {i : SlotIx} {h : Handset} {c : CallIx}

/-! ### Orders, channels, the mark line, captures -/

theorem table_setBase (s : State) (b : BaseIx) (r : BaseRecord) : s.KeepsTable (s.setBase b r) := table_still rfl rfl
theorem table_setChan (s : State) (p : ChanRef) (k : Channel) : s.KeepsTable (s.setChan p k) := table_still rfl rfl
theorem table_setTrain (s : State) (b : BaseIx) (x : Option Train) : s.KeepsTable (s.setTrain b x) := table_still rfl rfl
theorem table_enter (s : State) (r : RunState) (w : RunCause) : s.KeepsTable (s.enter r w) := table_still rfl rfl

theorem table_offer (s : State) (b : BaseIx) (o : Order) (p : Placer) (w : OrderOwner) :
    s.KeepsTable (s.offer b o p w).2 := by
  rcases s.offer_cases b o p w with ⟨_, e⟩ | ⟨_, _, e⟩ | ⟨_, _, e⟩ <;> rw [e] <;> exact table_still rfl rfl

theorem table_sendOwed (s : State) (b : BaseIx) : s.KeepsTable (s.sendOwed b) := by
  rcases s.sendOwed_cases b with ⟨_, e⟩ | ⟨_, _, e⟩ | ⟨_, _, _, _, e⟩ <;> rw [e] <;> exact table_still rfl rfl

theorem table_release (s : State) (p : ChanRef) (o : Option Owner) : s.KeepsTable (s.release p o) := by
  rcases s.release_cases p o with ⟨_, e⟩ | ⟨_, _, e⟩ | ⟨_, _, e⟩ <;> rw [e] <;> exact table_still rfl rfl

theorem table_markFailure (s : State) : s.KeepsTable s.markFailure := by
  obtain ⟨_, _, _, e⟩ := s.markFailure_frame
  rw [e]
  exact table_still rfl rfl

theorem table_endCaptures (s : State) (c : CallIx) : s.KeepsTable (s.endCaptures c) := by
  obtain ⟨_, _, e⟩ := s.endCaptures_frame c
  rw [e]
  exact table_still rfl rfl

theorem table_endDrain (s : State) : s.KeepsTable s.endDrain := table_ite (table_enter ..) (.refl s)

/-! ### Records in calls (R67, R68) -/

/-- A slot left alone: VACANT, or its record already of the status. -/
theorem State.restated_self {w : HandsetStatus} (same : ∀ h, s.handset i = some h → h.status = w) : s.Restated s i w := by
  have asWas : (s.handset i).map (fun h => { h with status := w }) = s.handsets.get i := by
    show _ = s.handset i
    cases held : s.handset i with
    | none => rfl
    | some h => rw [Option.map_some, ← same h held]
  rw [Restated, asWas, Table.set_get_self]

theorem State.engage_restated (s : State) (i : SlotIx) (b : BaseIx) (c : CallIx) :
    s.Restated (s.engage i b c) i (.engaged b c false) := by
  cases held : s.handset i with
  | none =>
    rw [engage, held]
    exact State.restated_self fun h here => by cases held.symm.trans here
  | some h =>
    rw [engage, held, Restated, held]
    rfl

/-- The return of a record: it ends no longer ENGAGED, whatever the row of R68. -/
theorem State.returnRecord_restated (s : State) (k : CallInfo) (w : ClearCause) :
    ∃ status, status.call = none ∧ s.Restated (s.returnRecord k w) k.slot status := by
  unfold returnRecord
  split
  · next held => exact ⟨.enrolled none, rfl, State.restated_self fun h here => by cases held.symm.trans here⟩
  · next h held =>
    have given (status : HandsetStatus) (t : State) (handsets : t.handsets = (s.setStatus k.slot h status).handsets) :
        s.Restated t k.slot status := by
      rw [Restated, held]
      exact handsets
    split
    · split
      · exact ⟨_, rfl, given _ _ rfl⟩
      split
      · exact ⟨_, rfl, given _ _ rfl⟩
      split
      · exact ⟨_, rfl, given _ _ rfl⟩
      · exact ⟨_, rfl, given _ _ rfl⟩
    · next idle =>
      refine ⟨h.status, ?_, State.restated_self fun k here => by cases held.symm.trans here; rfl⟩
      cases status : h.status with
      | engaged b d pending => exact absurd status (idle b d pending)
      | _ => rfl

theorem table_relocate (s : State) (i : SlotIx) (b : BaseIx) : s.KeepsTable (s.relocate i b) := by
  unfold relocate
  split
  · next h held =>
    split
    · next status => exact table_setStatus held _ (by rw [status]; rfl)
    · exact .refl s
  · exact .refl s

theorem table_freeContext {k : CallInfo} (call : (s.ctx c).call = some k) (w : ClearCause) :
    s.KeepsTable (s.freeContext c k w) := by
  obtain ⟨status, free, restated⟩ := State.returnRecord_restated (s.setCtx c (s.ctx c).freed) k w
  have still := returnRecord_still (s.setCtx c (s.ctx c).freed) k w
  have returned : s.KeepsTable ((s.setCtx c (s.ctx c).freed).returnRecord k w) := by
    refine table_freed (slot := k.slot) (c := c) (by rw [Context.named, call]; rfl) restated free ?_ fun d other => ?_
    · rw [still.ctx, State.ctx_setCtx_self]
      rfl
    · rw [still.ctx, State.ctx_setCtx_ne _ _ other]
  exact (returned.post _).trans (table_endDrain _)

/-! ### Clearing, handover failures, base loss -/

theorem table_freeIfDone (s : State) (c : CallIx) : s.KeepsTable (s.freeIfDone c) := by
  rcases s.freeIfDone_cases c with e | ⟨k, w, call, _, _, e⟩ <;> rw [e]
  · exact .refl s
  · exact table_freeContext call w

theorem table_clearCall (s : State) (c : CallIx) (w : ClearCause) : s.KeepsTable (s.clearCall c w) := by
  rcases s.clearCall_cases c w with ⟨_, e⟩ | ⟨k, call, _, e⟩ <;> rw [e]
  · exact .refl s
  · have begun : s.KeepsTable (s.setCtx c ((s.ctx c).clearing k w)) :=
      table_setCtx c _ (by rw [Context.named, Context.named, call]; rfl)
    dsimp only
    refine (table_ite (p := k.stage = .active) (begun.trans (table_endCaptures _ c)) begun).trans ?_
    exact (table_foldl _ (fun u p => table_release u p _) _ _).trans (table_freeIfDone ..)

theorem table_failAttemptOn (s : State) (c : CallIx) (k : CallInfo) (x : Target) (p : Option ChanRef) (n : PhaseName)
    (r : Bool) (w : HandoverReason) : s.KeepsTable (s.failAttemptOn c k x p n r w) := by
  have given : s.KeepsTable (s.giveUp (s.ownerOf c) p) := by
    cases p with
    | none => exact .refl s
    | some p => exact table_ite (table_release ..) (.refl s)
  rw [State.failAttemptOn_eq]
  exact ((given.trans (table_setCtx c _)).post _).trans (table_markFailure _)

theorem table_failAttempt (s : State) (c : CallIx) (w : HandoverReason) : s.KeepsTable (s.failAttempt c w) := by
  unfold failAttempt
  dsimp only
  split
  · exact table_failAttemptOn ..
  · exact .refl s

theorem table_loseSwitch (s : State) (c : CallIx) (w : LostCase) : s.KeepsTable (s.loseSwitch c w) := by
  unfold loseSwitch
  dsimp only
  split
  · exact ((table_post ..).trans (table_markFailure _)).trans (table_clearCall ..)
  · exact .refl s

theorem table_phaseLoss (s : State) (b : BaseIx) (c : CallIx) (k : CallInfo) : s.KeepsTable (s.phaseLoss b c k) := by
  unfold phaseLoss
  dsimp only
  split
  · exact .refl s
  · exact table_ite (table_failAttempt ..) (table_ite (table_clearCall ..) (.refl s))
  · exact table_ite (table_loseSwitch ..) (table_ite (table_setCtx c _) (.refl s))
  · exact table_ite (table_clearCall ..) (.refl s)
  · exact table_ite (table_setCtx c _) (.refl s)

theorem table_lossRule (b : BaseIx) (s : State) (c : CallIx) : s.KeepsTable (lossRule b s c) := by
  unfold lossRule
  dsimp only
  split
  · exact .refl s
  · split
    · exact table_ite (table_clearCall ..) (.refl s)
    · exact table_freeIfDone ..
    · exact table_ite (table_phaseLoss ..) (table_ite (table_clearCall ..) (.refl s))

theorem table_baseLoss (s : State) (b : BaseIx) : s.KeepsTable (s.baseLoss b) := by
  unfold baseLoss
  dsimp only
  refine State.KeepsTable.trans ?_ (table_foldl _ (table_lossRule b) _ _)
  exact table_still rfl rfl

theorem table_leaveService (s : State) (b : BaseIx) (new : BaseState) (w : BaseCause) :
    s.KeepsTable (s.leaveService b new w) :=
  ((table_setBase ..).post _).trans (table_baseLoss ..)

theorem table_dropBase (s : State) (b : BaseIx) : s.KeepsTable (s.dropBase b) := by
  rcases s.dropBase_cases b with ⟨_, e⟩ | ⟨_, e⟩ | ⟨_, e⟩ <;> rw [e]
  · exact (table_setBase ..).trans (table_baseLoss ..)
  · exact table_setBase ..
  · exact .refl s

/-! ### Calls taken in -/

theorem table_openContext {k : CallInfo} (p : ChanRef) (free : (s.ctx c).call = none) (held : s.handset k.slot = some h)
    (idle : h.status.call = none) : s.KeepsTable (s.openContext c p k) := by
  have engaged : s.KeepsTable (((s.setCtx c ((s.ctx c).opened k)).setChan p
      (.reserved ((s.setCtx c ((s.ctx c).opened k)).ownerOf c) k.tag)).engage k.slot p.base c) := by
    refine table_opened (slot := k.slot) (c := c) (by rw [Context.named, free]; rfl) held idle
      (State.engage_restated _ k.slot p.base c) rfl ?_ fun d other => ?_
    all_goals
      unfold engage
      rw [State.handset_setChan, State.handset_setCtx, held]
      dsimp only
      rw [State.ctx_setStatus, State.ctx_setChan]
    · rw [State.ctx_setCtx_self]
      rfl
    · rw [State.ctx_setCtx_ne _ _ other]
  exact engaged.trans (table_offer ..)

/-! ### The Handover Sequencer -/

theorem table_prepare (s : State) (c : CallIx) (k : CallInfo) (p : ChanRef) (r : Bool) :
    s.KeepsTable (s.prepare c k p r) := by
  have claimed (x : Channel) :
      s.KeepsTable ((s.setCtx c { (s.ctx c).nextOrder with phase := .preparing p r }).setChan p x) :=
    (table_setCtx c _).trans (table_setChan ..)
  unfold prepare
  dsimp only
  split
  · exact (claimed _).trans (table_offer ..)
  · exact ((claimed _).trans (table_offer ..)).trans (table_failAttempt ..)
  · exact ((claimed _).trans (table_offer ..)).trans (table_failAttempt ..)

theorem table_startHandover (s : State) (c : CallIx) (k : CallInfo) (e : Candidate) (r : Bool) :
    s.KeepsTable (s.startHandover c k e r) := by
  unfold startHandover
  split
  · unfold startLocal
    dsimp only
    have begun : s.KeepsTable (s.setCtx c { s.ctx c with attempts := sat 255 (s.ctx c).attempts }) := table_setCtx c _
    split
    · exact begun.trans (table_failAttemptOn ..)
    · exact begun.trans (table_failAttemptOn ..)
    · exact begun.trans (table_prepare ..)
  · exact (table_setCtx c _).post _

theorem table_startSwitch (s : State) (c : CallIx) (k : CallInfo) (p : ChanRef) (r : Bool) :
    s.KeepsTable (s.startSwitch c k p r) := by
  have offered : s.KeepsTable ((s.setCtx c (s.ctx c).nextOrder).offerMove c k (.localBase p.base) p.channel).2 :=
    (table_setCtx c _).trans (table_offer ..)
  unfold startSwitch
  dsimp only
  split
  · exact offered.trans (table_setCtx c _)
  · exact offered.trans (table_failAttempt ..)
  · exact offered.trans (table_failAttempt ..)

theorem table_sequencerOutcome (s : State) (c : CallIx) (use n : BitVec 8) (k : OrderKind) (e : Bool) :
    s.KeepsTable (s.sequencerOutcome c use n k e) := by
  unfold sequencerOutcome
  dsimp only
  split
  · exact .refl s
  · split
    · exact table_ite (table_startSwitch ..) (table_failAttempt ..)
    · exact table_ite (.refl s) (table_failAttempt ..)
    · exact table_ite (.refl s) (table_failAttempt ..)
    · exact .refl s

theorem table_completeMove {k : CallInfo} (call : (s.ctx c).call = some k) (p : ChanRef) (r : Bool) (o : Option ChanRef)
    (n : Nat) : s.KeepsTable (s.completeMove c k p r o n) := by
  have moved : s.KeepsTable ((s.setChan p (.busy (s.ownerOf c))).setCtx c
      { s.ctx c with call := some { k with serving := p } }) := by
    refine (table_setChan ..).trans (table_setCtx c _ ?_)
    rw [State.ctx_setChan, Context.named, Context.named, call]
    rfl
  unfold completeMove
  dsimp only
  refine State.KeepsTable.post (State.KeepsTable.trans ?_ (table_setCtx c _)) _
  exact (moved.trans (table_relocate ..)).trans (table_ite (table_release ..) (.refl _))

theorem table_targetArrival {k : CallInfo} (call : (s.ctx c).call = some k) (p : ChanRef) :
    s.KeepsTable (s.targetArrival c k p) := by
  unfold targetArrival
  split
  · exact table_ite (table_completeMove call ..) (.refl s)
  · exact table_ite (table_completeMove call ..) (.refl s)
  · exact .refl s

theorem table_endSwitch (s : State) (c : CallIx) (o : Option ChanRef) (n : Nat) : s.KeepsTable (s.endSwitch c o n) := by
  unfold endSwitch
  split
  · exact table_loseSwitch ..
  · exact table_ite (table_loseSwitch ..) (table_failAttempt ..)

/-! ### The Call Unit -/

/-- The stage of a call replaced. -/
theorem table_setStage {k : CallInfo} (call : (s.ctx c).call = some k) {k' : CallInfo}
    (slot : k'.slot = k.slot := by exact rfl) :
    s.KeepsTable (s.setCtx c { s.ctx c with call := some k' }) :=
  table_setCtx c _ (by rw [Context.named, Context.named, call, Option.map_some, Option.map_some, slot])

theorem table_setupOutcome (s : State) (c : CallIx) (e : Bool) : s.KeepsTable (s.setupOutcome c e) := by
  unfold setupOutcome
  dsimp only
  split
  · exact .refl s
  · next k call =>
    split
    · exact table_ite (.refl s) (table_clearCall ..)
    · exact table_ite ((table_setStage call).post _) (table_clearCall ..)
    · exact .refl s

theorem table_callUnitOutcome (s : State) (b : BaseIx) (e : WindowEntry) (k : Bool) :
    s.KeepsTable (s.callUnitOutcome b e k) := by
  unfold callUnitOutcome
  split
  · unfold releaseOutcome
    dsimp only
    split
    · exact table_ite ((table_setChan ..).trans (table_freeIfDone ..)) (table_setChan ..)
    · exact table_setChan ..
  · split
    · exact table_ite (table_setupOutcome ..) (.refl s)
    · exact .refl s
  · exact .refl s

theorem table_outcome (s : State) (b : BaseIx) (e : WindowEntry) (k : Bool) : s.KeepsTable (s.outcome b e k) := by
  unfold outcome
  split
  · exact table_callUnitOutcome ..
  · split
    · exact table_sequencerOutcome ..
    · exact .refl s
  · exact .refl s
  · exact .refl s

theorem table_arrive (s : State) (p : ChanRef) (x : Tag) : s.KeepsTable (s.arrive p x) := by
  unfold arrive
  split
  · exact .refl s
  · split
    · exact table_release ..
    · split
      · exact .refl s
      · split
        · exact .refl s
        · next k call =>
          split
          · exact ((table_setChan ..).trans (table_setStage (s := s.setChan p _) call)).post _
          · exact table_targetArrival call p
          · exact .refl s
    · exact .refl s
    · exact .refl s
    · exact .refl s

theorem table_lose (s : State) (p : ChanRef) (x : Tag) : s.KeepsTable (s.lose p x) := by
  unfold lose
  split
  · exact .refl s
  · split
    · exact .refl s
    · split
      · exact table_clearCall ..
      · exact table_clearCall ..
      · exact table_clearCall ..
      · exact .refl s
      · exact .refl s

end Sys2Proof.Machine
end

