-- ==== Sys2Proof/Proofs/TableOfFrames.lean ====
section
/-! The laws of the handset table under registration, trains, reports, base frames, deadlines and the tick. -/

namespace Sys2Proof.Machine

open State

variable {s t : State} {i : SlotIx} {h : Handset}

/-! ### Access requests (R56 to R63) -/

theorem table_refuseAccess (s : State) (i : SlotIx) (r : AccessRequest) (w : AnswerCause) :
    s.KeepsTable (s.refuseAccess i r w).2 :=
  table_ite (table_post ..) (.refl s)

theorem Handset.withdrawn_fields (h : Handset) : h.withdrawn.tag = h.tag ∧ h.withdrawn.status.call = h.status.call ∧
    h.withdrawn.failures = h.failures ∧ h.withdrawn.barred = h.barred := by
  unfold withdrawn
  split
  · next status => rw [status]; exact ⟨rfl, rfl, rfl, rfl⟩
  · exact ⟨rfl, rfl, rfl, rfl⟩

section
variable (held : s.handset i = some h)

include held

/-- A failure counted (R59): below 3, or barred with a count of 3. -/
theorem table_deny (r : AccessRequest) : s.KeepsTable (s.deny i h r).2 := by
  unfold deny
  dsimp only
  split
  · next few =>
    exact (table_setHandset (h' := { h with failures := sat 3 h.failures }) held rfl rfl
      fun _ => ⟨few.le, fun three => absurd three few.ne⟩).trans (table_refuseAccess ..)
  · obtain ⟨tag, call, failures, barred⟩ := Handset.withdrawn_fields { h with failures := 3, barred := true }
    exact (table_setHandset held tag call fun _ => ⟨failures.le, fun _ => barred⟩).post _

theorem table_decideAttach (r : AccessRequest) : s.KeepsTable (s.decideAttach i h r).2 := by
  unfold decideAttach
  split
  · exact table_refuseAccess ..
  split
  · exact table_refuseAccess ..
  split
  · exact table_deny held r
  split
  · exact table_refuseAccess ..
  · next idle =>
    have attached : s.KeepsTable (s.setHandset i (some { h with
        failures := 0
        status := .attached r.base s.lifetimeTicks (match h.status with | .attached _ _ o => o | _ => none) })) :=
      table_setHandset held rfl (HandsetStatus.call_eq_none_iff.mpr idle).symm fun _ => ⟨Nat.zero_le _, nofun⟩
    exact table_ite attached (attached.post _)

theorem table_decideAccess (r : AccessRequest) : s.KeepsTable (s.decideAccess i h r).2 := by
  unfold decideAccess
  split
  · exact table_decideAttach held r
  · unfold decideLocate
    split
    · exact table_refuseAccess ..
    · exact table_refuseAccess ..
    · next status => exact (table_setStatus held _ (by rw [status]; rfl)).post _
  · unfold decideRenew
    split
    · exact table_refuseAccess ..
    · exact table_refuseAccess ..
    · next status =>
      have renewed (b : BaseIx) (n : Nat) (o : Option Nat) : s.KeepsTable (s.setStatus i h (.attached b n o)) :=
        table_setStatus held _ (by rw [status]; rfl)
      split
      · exact renewed ..
      · exact (renewed ..).post _
  · unfold decideDetach
    split
    · next status => exact (table_setStatus held _ (by rw [status]; rfl)).post _
    · next status =>
      split
      · exact .refl s
      · exact (table_setStatus held _ (by rw [status]; rfl)).trans (table_clearCall ..)
    · exact .refl s
  · unfold decideOriginate
    split
    · exact table_refuseAccess ..
    · split
      · exact table_refuseAccess ..
      · exact table_refuseAccess ..
      · next b _ origination status =>
        have kept : s.KeepsTable (s.setStatus i h (.attached r.base s.lifetimeTicks (some s.settings.timers.hold))) :=
          table_setStatus held _ (by rw [status]; rfl)
        have moved := table_ite (p := b = r.base) kept (kept.post (.located i r.tag b r.base))
        exact table_ite (moved.post _) moved
  · exact .refl s

end

theorem table_access (s : State) (r : AccessRequest) : s.KeepsTable (s.access r) := by
  unfold access
  split
  · exact table_ite (.refl s) (table_offer ..)
  · split
    · exact .refl s
    · next h held =>
      have seen := table_setHandset (h' := { h with lastAccess := some s.tick }) held rfl rfl id
      exact (seen.trans (table_decideAccess (State.handset_setHandset_self ..) r)).trans (table_offer ..)

/-! ### Trains and reports -/

theorem table_spoil (s : State) (b : BaseIx) : s.KeepsTable (s.spoil b) := table_setBase ..

theorem table_takeFirst (s : State) (b : BaseIx) (x : Byte) : s.KeepsTable (s.takeFirst b x) := by
  unfold takeFirst
  split
  · exact table_setTrain ..
  · exact (table_spoil ..).trans (table_setTrain ..)

theorem table_takeNext (s : State) (b : BaseIx) (x : Byte) : s.KeepsTable (s.takeNext b x) := by
  unfold takeNext
  split
  · exact .refl s
  · exact table_setTrain ..

theorem table_takeClose (s : State) (b : BaseIx) (x : Byte) : s.KeepsTable (s.takeClose b x) := by
  unfold takeClose
  split
  · exact .refl s
  · exact table_ite ((table_setTrain ..).trans (table_access ..)) ((table_setTrain ..).trans (table_spoil ..))

theorem table_completeSlot (s : State) (k : CapIx) (h : CaptureHeader) (w : CaptureStatus) :
    s.KeepsTable (s.completeSlot k h w) := table_still rfl rfl

theorem table_keepSample (s : State) (c : CallIx) (x : Sample) (v : Evaluation) : s.KeepsTable (s.keepSample c x v) := by
  have kept : s.KeepsTable (s.setCtx c ((s.ctx c).appended (x.decided v.verdict) v s.settings.evaluator)) :=
    table_setCtx c _
  unfold keepSample
  dsimp only
  refine State.KeepsTable.trans ?_ (table_foldl _ table_post _ _)
  exact kept.trans (table_still rfl rfl)

theorem table_takeSample (s : State) (c : CallIx) (k : CallInfo) (x : Sample) : s.KeepsTable (s.takeSample c k x) := by
  unfold takeSample completeWaiting
  dsimp only
  refine State.KeepsTable.trans ?_ (table_foldl _ (fun u _ => table_ite (table_completeSlot ..) (.refl u)) _ _)
  split
  · exact (table_keepSample ..).trans (table_startHandover ..)
  · exact table_keepSample ..

theorem table_acceptReport (s : State) (b : BaseIx) (c : CallIx) (k : CallInfo) (f : ReportFrame) :
    s.KeepsTable (s.acceptReport b c k f) := by
  unfold acceptReport
  exact table_ite ((table_setCtx c _).trans (table_setBase ..)) ((table_setCtx c _).trans (table_takeSample ..))

theorem table_takeReport (s : State) (b : BaseIx) (f : ReportFrame) : s.KeepsTable (s.takeReport b f) := by
  unfold takeReport
  split
  · exact .refl s
  · split
    · exact .refl s
    · dsimp only
      split
      · exact .refl s
      · split
        · split
          · exact table_acceptReport ..
          · exact table_acceptReport ..
          · exact table_acceptReport ..
          · exact table_setCtx _ _
          · exact table_setCtx _ _
        · exact .refl s

/-! ### Base frames and their deadlines -/

theorem table_fromService (s : State) (o : Origin) (act : BaseIx → State → State) (h : ∀ b, s.KeepsTable (act b s)) :
    s.KeepsTable (s.fromService o act) :=
  table_ite (h _) (.refl s)

theorem table_serviceBeat (s : State) (b : BaseIx) (h : Health) : s.KeepsTable (s.serviceBeat b h) := by
  unfold serviceBeat
  dsimp only
  split
  · exact table_ite ((table_setBase ..).post _) (table_setBase ..)
  · exact table_ite (table_setBase ..) ((table_setBase ..).post _)
  · exact (table_setBase ..).trans (table_leaveService ..)

theorem table_takeStatus (s : State) (b : BaseIx) (h : Health) : s.KeepsTable (s.takeStatus b h) := by
  unfold takeStatus
  dsimp only
  split
  · exact .refl s
  · exact (table_setBase ..).post _
  · exact table_setBase ..
  · exact table_serviceBeat ..
  · exact table_setBase ..

theorem table_takeEcho (s : State) (b : BaseIx) (x : Byte) : s.KeepsTable (s.takeEcho b x) := by
  unfold takeEcho
  dsimp only
  split
  · exact table_setBase ..
  · exact ((table_setBase ..).trans (table_sendOwed ..)).trans (table_outcome ..)

theorem table_takeEchoExpiry (b : BaseIx) (serial : Byte) (s : State) : s.KeepsTable (takeEchoExpiry b serial s) := by
  unfold takeEchoExpiry
  dsimp only
  split
  · exact .refl s
  · refine table_ite (State.KeepsTable.trans ?_ (table_ite (table_leaveService ..) (.refl _))) (.refl s)
    exact ((table_setBase ..).trans (table_sendOwed ..)).trans (table_outcome ..)

theorem table_takeSettleExpiry (b : BaseIx) (s : State) : s.KeepsTable (takeSettleExpiry b s) := by
  unfold takeSettleExpiry
  exact table_ite (table_ite (((table_setBase ..).post _).trans (table_offer ..)) (table_leaveService ..)) (.refl s)

theorem table_takeHeartbeatExpiry (b : BaseIx) (s : State) : s.KeepsTable (takeHeartbeatExpiry b s) :=
  table_ite (table_leaveService ..) (.refl s)

theorem table_takeGapExpiry (b : BaseIx) (s : State) : s.KeepsTable (takeGapExpiry b s) := by
  unfold takeGapExpiry
  split
  · exact .refl s
  · exact table_ite ((table_setTrain ..).trans (table_spoil ..)) (.refl s)

theorem table_takeCarrierLost (p : PortIx) (s : State) : s.KeepsTable (takeCarrierLost p s) := by
  unfold takeCarrierLost
  refine table_ite (State.KeepsTable.trans ?_ (table_foldl _ (fun u _ => table_dropBase u _) _ _)) ?_ <;>
    exact table_still rfl rfl

theorem table_takeCarrierRegained (p : PortIx) (s : State) : s.KeepsTable (takeCarrierRegained p s) :=
  table_ite (table_still rfl rfl) (table_still rfl rfl)

/-! ### Other deadlines and the tick -/

theorem table_takeLifetimeExpiry (i : SlotIx) (s : State) : s.KeepsTable (takeLifetimeExpiry i s) := by
  unfold takeLifetimeExpiry
  split
  · exact .refl s
  · next held =>
    split
    · next status => exact (table_setStatus held _ (by rw [status]; rfl)).post _
    · exact .refl s

theorem table_takeOriginationExpiry (i : SlotIx) (s : State) : s.KeepsTable (takeOriginationExpiry i s) := by
  unfold takeOriginationExpiry
  split
  · exact .refl s
  · next held =>
    split
    · next status => exact (table_setStatus held _ (by rw [status]; rfl)).post _
    · exact .refl s

theorem table_takeSetupExpiry (c : CallIx) (s : State) : s.KeepsTable (takeSetupExpiry c s) := by
  unfold takeSetupExpiry
  split
  · exact .refl s
  · exact table_ite (table_clearCall ..) (.refl s)

theorem table_takeSwitchExpiry (c : CallIx) (s : State) : s.KeepsTable (takeSwitchExpiry c s) := by
  unfold takeSwitchExpiry
  split
  · exact table_endSwitch ..
  · exact table_endSwitch ..
  · exact .refl s

theorem table_takeZoneExpiry (c : CallIx) (s : State) : s.KeepsTable (takeZoneExpiry c s) := by
  unfold takeZoneExpiry
  split
  · exact table_failAttempt ..
  · exact .refl s

theorem Handset.ticked_fields (h : Handset) : h.ticked.tag = h.tag ∧ h.ticked.status.call = h.status.call ∧
    h.ticked.failures = h.failures ∧ h.ticked.barred = h.barred := by
  unfold ticked
  split
  · next status => rw [status]; exact ⟨rfl, rfl, rfl, rfl⟩
  · exact ⟨rfl, rfl, rfl, rfl⟩

theorem table_countDeadlines (s : State) : s.KeepsTable s.countDeadlines := by
  have handset (i : SlotIx) : s.countDeadlines.handset i = (s.handset i).map Handset.ticked := Table.get_map ..
  refine table_records (fun i => ?_) (fun bounded i k held => ?_) (fun i => ?_) fun c => ?_
  · simp only [State.tagAt, handset, Option.map_map]
    exact congrArg (Option.map · _) (funext fun h => h.ticked_fields.1)
  · rw [handset] at held
    obtain ⟨h, here, rfl⟩ := Option.map_eq_some_iff.mp held
    obtain ⟨_, _, failures, barred⟩ := h.ticked_fields
    rw [failures, barred]
    exact bounded i h here
  · simp only [State.callAt, handset, Option.bind_map]
    exact congrArg (Option.bind _) (funext fun h => h.ticked_fields.2.1)
  · rw [show s.countDeadlines.ctx c = (s.ctx c).ticked from Table.get_map .., Context.named, Context.named,
      Context.ticked, Option.map_map]
    rfl

theorem table_takeTick (s : State) : s.KeepsTable (takeTick s) := by
  have always : s.KeepsTable s.countAlways := table_still rfl rfl
  exact table_ite (.refl s) (table_ite always (always.trans (table_countDeadlines _)))

end Sys2Proof.Machine
end

