-- ==== Sys2Proof/Proofs/TableOfRequests.lean ====
section
/-! The laws of the handset table under the requests, at the port and under the resets, and so under every step (O57,
O58). -/

namespace Sys2Proof.Machine

open State

variable {s t : State} {i : SlotIx} {h : Handset}

/-! ### Records by tag, by slot and by selector (R50, R51) -/

theorem State.findTag_eq_none_iff {tag : Tag} :
    s.findTag tag = none ↔ ∀ i h, s.handset i = some h → h.tag ≠ tag := by
  refine (Table.lowest_eq_none_iff ..).trans (forall_congr' fun i => ?_)
  change _ ↔ ∀ h, s.handsets.get i = some h → h.tag ≠ tag
  cases s.handsets.get i with
  | none => simp
  | some r => simp

/-- The lowest VACANT slot (R51). -/
theorem State.lowestVacant_eq_some_iff :
    s.handsets.lowest Option.isNone = some i ↔ s.handset i = none ∧ ∀ j < i, s.handset j ≠ none := by
  simp only [Table.lowest_eq_some_iff, Option.isNone_iff_eq_none, Option.isNone_eq_false_iff,
    Option.isSome_iff_ne_none, State.handset]

theorem State.select_held {k : Byte} {v : BitVec 32} (selected : s.select k v = .held i h) : s.handset i = some h := by
  unfold State.select at selected
  repeat' split at selected
  all_goals first
    | cases selected; assumption
    | cases selected

/-! ### Requests on handsets -/

theorem table_takeEnrol (x k : BitVec 32) (c : Byte) (s : State) : s.KeepsTable (takeEnrol x k c s).2 := by
  unfold takeEnrol
  split
  · split
    · exact .refl s
    · next new =>
      have new := State.findTag_eq_none_iff.mp (Option.not_isSome_iff_eq_none.mp new)
      split
      · exact .refl s
      · next vacant =>
        exact table_enrolled (State.lowestVacant_eq_some_iff.mp vacant).1 new ⟨Nat.zero_le _, nofun⟩ rfl
  · exact .refl s

theorem table_takeRemove (k : Byte) (v : BitVec 32) (s : State) : s.KeepsTable (takeRemove k v s).2 := by
  unfold takeRemove
  split
  · next selected =>
    split
    · exact .refl s
    · next idle => exact table_removed (State.select_held selected) (HandsetStatus.call_eq_none_iff.mpr idle)
  · exact .refl s

theorem table_takeBar (k : Byte) (v : BitVec 32) (s : State) : s.KeepsTable (takeBar k v s).2 := by
  unfold takeBar
  split
  · next i h selected =>
    split
    · exact .refl s
    · dsimp only
      have held := State.select_held selected
      split
      · obtain ⟨tag, call, failures, barred⟩ := Handset.withdrawn_fields { h with barred := true }
        exact (table_setHandset held tag call fun sound => ⟨failures.le.trans sound.1, fun _ => barred⟩).post _
      · exact table_setHandset held rfl rfl fun sound => ⟨sound.1, fun _ => rfl⟩
  · exact .refl s

theorem table_takeUnbar (k : Byte) (v : BitVec 32) (s : State) : s.KeepsTable (takeUnbar k v s).2 := by
  unfold takeUnbar
  split
  · next selected =>
    exact table_setHandset (State.select_held selected) rfl rfl fun _ => ⟨Nat.zero_le _, nofun⟩
  · exact .refl s

theorem table_takeQueryHandset (k : Byte) (v : BitVec 32) (s : State) : s.KeepsTable (takeQueryHandset k v s).2 := by
  unfold takeQueryHandset
  split <;> exact .refl s

/-! ### Requests on calls -/

/-- OPEN CALL takes nothing, or a FREE context for a record that is not ENGAGED. -/
theorem takeOpenCall_cases (x : BitVec 32) (d : Byte) (s : State) : (takeOpenCall x d s).2 = s ∨
    ∃ c p k h, (s.ctx c).call = none ∧ s.handset k.slot = some h ∧ h.status.call = none ∧
      (takeOpenCall x d s).2 = s.openContext c p k := by
  unfold takeOpenCall
  split
  · exact .inl rfl
  split
  · split
    · exact .inl rfl
    split
    · exact .inl rfl
    next h held =>
    split
    · exact .inl rfl
    split
    · exact .inl rfl
    next callable =>
    have idle : h.status.call = none := by
      cases status : h.status with
      | engaged b c d => rw [status] at callable; cases callable
      | _ => rfl
    split
    · exact .inl rfl
    split
    · exact .inl rfl
    next c lowest =>
    split
    · exact .inl rfl
    split
    · exact .inl rfl
    · exact .inl rfl
    split
    · exact .inl rfl
    · exact .inr ⟨c, _, _, h, State.lowestFree_free lowest, held, idle, rfl⟩
  · exact .inl rfl

/-- ADMIT CALL likewise. -/
theorem takeAdmitCall_cases (x : BitVec 32) (b z : Byte) (s : State) : (takeAdmitCall x b z s).2 = s ∨
    ∃ c p k h, (s.ctx c).call = none ∧ s.handset k.slot = some h ∧ h.status.call = none ∧
      (takeAdmitCall x b z s).2 = s.openContext c p k := by
  unfold takeAdmitCall
  split
  · exact .inl rfl
  split
  · split
    · exact .inl rfl
    split
    · exact .inl rfl
    split
    · exact .inl rfl
    next h held =>
    split
    · exact .inl rfl
    split
    · exact .inl rfl
    next idle =>
    split
    · exact .inl rfl
    next c lowest =>
    split
    · exact .inl rfl
    split
    · exact .inl rfl
    · exact .inl rfl
    split
    · exact .inl rfl
    · exact .inr ⟨c, _, _, h, State.lowestFree_free lowest, held, HandsetStatus.call_eq_none_iff.mpr idle, rfl⟩
  · exact .inl rfl

theorem table_takeOpenCall (x : BitVec 32) (d : Byte) (s : State) : s.KeepsTable (takeOpenCall x d s).2 := by
  rcases takeOpenCall_cases x d s with e | ⟨c, p, k, h, free, held, idle, e⟩ <;> rw [e]
  · exact .refl s
  · exact table_openContext p free held idle

theorem table_takeAdmitCall (x : BitVec 32) (b z : Byte) (s : State) : s.KeepsTable (takeAdmitCall x b z s).2 := by
  rcases takeAdmitCall_cases x b z s with e | ⟨c, p, k, h, free, held, idle, e⟩ <;> rw [e]
  · exact .refl s
  · exact table_openContext p free held idle

theorem table_takeCloseCall (c : Byte) (s : State) : s.KeepsTable (takeCloseCall c s).2 := by
  unfold takeCloseCall
  split
  · exact .refl s
  · split
    · exact .refl s
    · exact table_clearCall ..

theorem table_takeZoneGo (x y : Byte) (s : State) : s.KeepsTable (takeZoneGo x y s).2 := by
  unfold takeZoneGo offerMove
  split
  · next c ch _ _ =>
    dsimp only
    split
    · split
      · split
        · exact ((table_setCtx c _).trans (table_offer ..)).trans (table_setCtx c _)
        · exact ((table_setCtx c _).trans (table_offer ..)).trans (table_failAttempt ..)
        · exact ((table_setCtx c _).trans (table_offer ..)).trans (table_failAttempt ..)
      · exact .refl s
    · exact .refl s
  · exact .refl s

theorem table_takeZoneFail (c : Byte) (s : State) : s.KeepsTable (takeZoneFail c s).2 := by
  unfold takeZoneFail
  split
  · exact .refl s
  · split
    · split
      · exact table_failAttempt ..
      · exact .refl s
    · exact .refl s

theorem table_takeZoneComplete (c : Byte) (s : State) : s.KeepsTable (takeZoneComplete c s).2 := by
  unfold takeZoneComplete
  split
  · exact .refl s
  · dsimp only
    split
    · split
      · exact (table_post ..).trans (table_clearCall ..)
      · exact .refl s
    · exact .refl s

/-! ### Requests on run state, bases and conditions -/

theorem table_takeGo (s : State) : s.KeepsTable (takeGo s).2 := by
  unfold takeGo
  split
  · split
    · exact .refl s
    · exact table_enter ..
  · exact table_enter ..
  · exact table_enter ..
  · exact .refl s

theorem table_forceAll (s : State) : s.KeepsTable s.forceAll := table_foldl _ (fun u c => table_clearCall u c _) _ s

theorem table_takeStop (o : Byte) (s : State) : s.KeepsTable (takeStop o s).2 := by
  unfold takeStop
  split
  · exact .refl s
  · dsimp only
    split
    · exact table_ite (table_enter ..) (table_ite ((table_enter ..).trans (table_forceAll _)) (table_enter ..))
    · exact table_ite (table_forceAll s) (.refl s)
    · exact .refl s
    · exact .refl s

theorem table_haltAll (s : State) : s.KeepsTable s.haltAll := by
  have dropped := (table_enter s .halted .halt).trans (table_foldl dropBase table_dropBase (indices 32) _)
  unfold haltAll
  dsimp only
  generalize (indices 32).foldl dropBase (s.enter .halted .halt) = d at dropped ⊢
  exact dropped.trans (table_still rfl rfl)

theorem table_takeHalt (s : State) : s.KeepsTable (takeHalt s).2 := by
  unfold takeHalt
  split
  · exact table_haltAll s
  · exact .refl s
  · exact .refl s
  · exact .refl s

theorem table_takeAdmission (held : Bool) (b : Byte) (s : State) : s.KeepsTable (takeAdmission held b s).2 := by
  unfold takeAdmission
  split
  · exact .refl s
  · split
    · exact .refl s
    · split
      · exact .refl s
      · exact (table_setBase ..).trans (table_offer ..)

theorem table_takeClearConditions (k c : Byte) (s : State) : s.KeepsTable (takeClearConditions k c s).2 := by
  unfold takeClearConditions
  dsimp only
  split
  · exact .refl s
  · split
    · refine table_frame rfl fun d => ?_
      simp only [State.ctx, Table.get_map]
      rfl
    · split
      · exact .refl s
      · exact table_setCtx _ _

theorem table_driveMark (s : State) : s.KeepsTable s.driveMark := by
  unfold driveMark markEdge
  dsimp only
  repeat' split
  all_goals exact table_still rfl rfl

theorem table_markEdge (s : State) : s.KeepsTable s.markEdge := table_ite (.refl s) (table_still rfl rfl)

theorem table_takeMarkDriveEnd (s : State) : s.KeepsTable (takeMarkDriveEnd s) :=
  table_ite (table_still rfl rfl) (.refl s)

/-- Every request keeps the laws of the handset table. -/
theorem table_takeRequest (r : Request) (s : State) : s.KeepsTable (takeRequest r s).2 := by
  cases r with
  | go => exact table_takeGo s
  | stop o => exact table_takeStop o s
  | halt => exact table_takeHalt s
  | enrol x k c => exact table_takeEnrol x k c s
  | remove k v => exact table_takeRemove k v s
  | bar k v => exact table_takeBar k v s
  | unbar k v => exact table_takeUnbar k v s
  | queryHandset k v => exact table_takeQueryHandset k v s
  | holdAdmission b => exact table_takeAdmission true b s
  | openAdmission b => exact table_takeAdmission false b s
  | openCall x d => exact table_takeOpenCall x d s
  | closeCall c => exact table_takeCloseCall c s
  | admitCall x b z => exact table_takeAdmitCall x b z s
  | zoneGo c k => exact table_takeZoneGo c k s
  | zoneFail c => exact table_takeZoneFail c s
  | zoneComplete c => exact table_takeZoneComplete c s
  | clearConditions k c => exact table_takeClearConditions k c s
  | mark => exact table_driveMark s
  | _ =>
    -- settings, queries, notices and captures: neither a record nor a context changes
    simp only [takeRequest, takeSetPart, takeSetBase, takeSetNeighbours, takeSetTimers, takeSetEvaluator,
      takeReadSettings, takeRestoreBase, takeQueryBase, takeQueryCall, takeFetchNotice, takeCapture, takeCancelCapture,
      takeReadCapture, State.startCapture]
    repeat' split
    all_goals exact table_still rfl rfl

/-! ### The port and the resets -/

theorem table_setLink (s : State) (l : Link) : s.KeepsTable (s.setLink l) := table_still rfl rfl

/-- What the port does keeps the laws. -/
theorem table_port (s : State) : PortKeeps s.KeepsTable where
  link l _ kept := kept.trans (table_setLink _ l)
  execute _ _ kept := (kept.trans (table_takeRequest ..)).trans (table_setLink ..)

/-- A state with no ENGAGED record and no context in use. -/
theorem State.engagedBound_of_free (records : ∀ i h, t.handset i = some h → h.status.call = none)
    (contexts : ∀ c, (t.ctx c).call = none) : t.engagedBound := by
  refine (State.engagedBound_iff t).mpr fun i c => ?_
  have call : t.callAt i = none := by
    rw [State.callAt]
    cases held : t.handset i with
    | none => rfl
    | some h => exact records i h held
  rw [call, Context.named, contexts c]
  exact iff_of_false nofun nofun

theorem table_warmReset (s : State) : s.KeepsTable s.warmReset := by
  have handset (i : SlotIx) : s.warmReset.handset i = (s.handset i).map Handset.warm := Table.get_map ..
  have warmed {i : SlotIx} {h : Handset} (held : s.warmReset.handset i = some h) :
      ∃ k, s.handset i = some k ∧ k.warm = h := Option.map_eq_some_iff.mp (handset i ▸ held)
  refine ⟨fun unique i j h k heldi heldj same => ?_, fun bounded i h held => ?_,
    fun _ => State.engagedBound_of_free (fun i h held => ?_) fun c => ?_⟩
  · obtain ⟨x, wasi, rfl⟩ := warmed heldi
    obtain ⟨y, wasj, rfl⟩ := warmed heldj
    exact unique i j x y wasi wasj same
  · obtain ⟨x, was, rfl⟩ := warmed held
    exact bounded i x was
  · obtain ⟨x, _, rfl⟩ := warmed held
    rfl
  · rw [show s.warmReset.ctx c = (s.ctx c).warm from Table.get_map ..]
    rfl

/-- After cold reset every slot is VACANT and every context FREE, so the laws hold whatever was before. -/
theorem table_cold (s : State) : s.KeepsTable s.cold := by
  have vacant (i : SlotIx) : s.cold.handset i = none := State.reset_handset i
  refine ⟨fun _ i j h k held => ?_, fun _ i h held => ?_, fun _ => State.engagedBound_of_free (fun i h held => ?_) fun c => ?_⟩
  · cases (vacant i).symm.trans held
  · cases (vacant i).symm.trans held
  · cases (vacant i).symm.trans held
  · rw [show s.cold.ctx c = Context.cold from Table.get_fill ..]
    rfl

theorem table_takeReplySent (s : State) : s.KeepsTable (takeReplySent s) := by
  rcases (table_port s).replySent (.refl s) (table_setLink ..) with e | kept
  · exact e ▸ table_warmReset s
  · exact kept

theorem table_takeResetRelease (straps : Fin 8) (s : State) : s.KeepsTable (takeResetRelease straps s) := by
  have released : s.KeepsTable { s.cold with straps := straps } := (table_cold s).trans (table_still rfl rfl)
  exact table_ite (released.post _) (.refl s)

/-! ### Every step -/

/-- Every command keeps the laws of the handset table. -/
theorem exec_keepsTable (c : Instr) (e : exec c s = .next t) : s.KeepsTable t := by
  have run {u : State} (k : s.fresh.KeepsTable u) (e : Host.Outcome.next u = (.next t : Result)) : s.KeepsTable t := by
    cases e
    exact (table_still rfl rfl : s.KeepsTable s.fresh).trans k
  have port := table_port s.fresh
  cases c with
  | requestFrame bytes => exact run (port.bytes bytes (.refl _)) e
  | gapCountExpiry => exact run (port.gapCountExpiry (.refl _)) e
  | hrxByte x stop => exact run (port.hrxByte (.refl _) x stop) e
  | replySent => exact run (table_takeReplySent _) e
  | warmReset => exact run (table_ite (table_warmReset _) (.refl _)) e
  | coldReset =>
    cases e
    exact (table_cold s).trans (table_still rfl rfl)
  | resetRelease straps => exact run (table_takeResetRelease ..) e
  | tick => exact run (table_takeTick _) e
  | carrierLost p => exact run (table_takeCarrierLost ..) e
  | carrierRegained p => exact run (table_takeCarrierRegained ..) e
  | markEdge => exact run (table_ite (.refl _) (table_markEdge _)) e
  | status o w => exact run (table_ite (table_takeStatus ..) (.refl _)) e
  | echo o serial => exact run (table_ite (table_takeEcho ..) (.refl _)) e
  | fragFirst o x => exact run (table_fromService _ _ _ fun b => table_takeFirst _ b x) e
  | fragNext o x => exact run (table_fromService _ _ _ fun b => table_takeNext _ b x) e
  | fragClose o x => exact run (table_fromService _ _ _ fun b => table_takeClose _ b x) e
  | report o x => exact run (table_fromService _ _ _ fun b => table_takeReport _ b x) e
  | arrival o ch x => exact run (table_fromService _ _ _ fun b => table_arrive _ ⟨b, ch⟩ x) e
  | loss o ch x => exact run (table_fromService _ _ _ fun b => table_lose _ ⟨b, ch⟩ x) e
  | settleExpiry b => exact run (table_takeSettleExpiry ..) e
  | heartbeatExpiry b => exact run (table_takeHeartbeatExpiry ..) e
  | echoDeadlineExpiry b serial => exact run (table_takeEchoExpiry ..) e
  | gapDeadlineExpiry b => exact run (table_takeGapExpiry ..) e
  | lifetimeExpiry i => exact run (table_takeLifetimeExpiry ..) e
  | originationExpiry i => exact run (table_takeOriginationExpiry ..) e
  | setupDeadlineExpiry c => exact run (table_takeSetupExpiry ..) e
  | switchDeadlineExpiry c => exact run (table_takeSwitchExpiry ..) e
  | zoneDeadlineExpiry c => exact run (table_takeZoneExpiry ..) e
  | guardExpiry c => exact run (table_ite (table_setCtx c _) (.refl _)) e
  | penaltyExpiry c x => exact run (table_setCtx c _) e
  | markDriveEnd => exact run (table_takeMarkDriveEnd _) e
  | _ => exact run (port.submit (.refl _) _ _) e

theorem step_keepsTable (e : step s = .next t) : s.KeepsTable t := by
  unfold step at e
  split at e
  · cases e
    exact .refl s
  · next c rest _ =>
    exact (table_still rfl rfl : s.KeepsTable { s with pending := rest }).trans (exec_keepsTable c e)

/-- Settles O57: ENROL alone brings a tag in, and only one that no record holds; a count rises in a credential failure
alone, which bars the record at the third. -/
theorem handsetTableLawsKept : Obligations.HandsetTableLawsKept :=
  ⟨fun _ _ h e => (step_keepsTable e).tags h, fun _ _ h e => (step_keepsTable e).failures h⟩

/-- Settles O58: a record is engaged as a FREE context takes its call, and returns as the context becomes FREE. -/
theorem engagedBoundKept : Obligations.EngagedBoundKept :=
  fun _ _ h e => (step_keepsTable e).bound h

end Sys2Proof.Machine
end

