-- ==== Sys2Proof/Proofs/HandsetRequests.lean ====
section
/-! The host's requests on the handset table (O16, O17, O18, O19). -/

namespace Sys2Proof.Machine

open State

variable {s : State} {i : SlotIx} {h : Handset}

/-! ### Operands of ENROL (R51) -/

theorem asTag_setWidth {t : Tag} (pos : 0 < t.toNat) (small : t.toNat < 268435455) :
    asTag (t.setWidth 32) = some t := by
  have same : (t.setWidth 32).toNat = t.toNat := BitVec.toNat_setWidth_of_le (by decide)
  rw [asTag_eq_some (same.symm ▸ pos) (same.symm ▸ small), BitVec.setWidth_setWidth_of_le _ (by decide),
    BitVec.setWidth_eq]

theorem asCredential_setWidth (k : Credential) : asCredential (k.setWidth 32) = some k := by
  have same : (k.setWidth 32).toNat = k.toNat := BitVec.toNat_setWidth_of_le (by decide)
  have small : (k.setWidth 32).toNat ≤ 2097151 := by omega
  rw [asCredential, if_pos small, BitVec.setWidth_setWidth_of_le _ (by decide), BitVec.setWidth_eq]

theorem asCredential_eq_none {k : BitVec 32} (large : 2097151 < k.toNat) : asCredential k = none :=
  if_neg (Nat.not_le.mpr large)

theorem asClass_ofNat (c : Fin 16) : asClass (BitVec.ofNat 8 c.val) = some c := by
  rw [asClass, toNat_ofNat8 (by omega), toIndex_val]

theorem asClass_eq_none {c : Byte} (large : 15 < c.toNat) : asClass c = none := (toIndex_eq_none_iff ..).mpr large

/-! ### ENROL (R51) -/

section
variable {t : Tag} (pos : 0 < t.toNat) (small : t.toNat < 268435455) (k : Credential) (c : Fin 16)
include pos small

theorem takeEnrol_duplicate (held : s.findTag t ≠ none) :
    takeEnrol (t.setWidth 32) (k.setWidth 32) (BitVec.ofNat 8 c.val) s = (refuse .duplicate, s) := by
  simp only [takeEnrol, asTag_setWidth pos small, asCredential_setWidth, asClass_ofNat,
    Option.isSome_iff_ne_none.mpr held, if_true]

theorem takeEnrol_noRoom (new : s.findTag t = none) (full : s.handsets.lowest Option.isNone = none) :
    takeEnrol (t.setWidth 32) (k.setWidth 32) (BitVec.ofNat 8 c.val) s = (refuse .noRoom, s) := by
  simp only [takeEnrol, asTag_setWidth pos small, asCredential_setWidth, asClass_ofNat, new, full, Option.isSome_none,
    Bool.false_eq_true, if_false]

theorem takeEnrol_vacant (new : s.findTag t = none) (vacant : s.handsets.lowest Option.isNone = some i) :
    takeEnrol (t.setWidth 32) (k.setWidth 32) (BitVec.ofNat 8 c.val) s = (okay (byte2 i.val), s.setHandset i (some
      { tag := t, credential := k, cls := c, barred := false, failures := 0, lastAccess := none
        status := .enrolled none })) := by
  simp only [takeEnrol, asTag_setWidth pos small, asCredential_setWidth, asClass_ofNat, new, vacant, Option.isSome_none,
    Bool.false_eq_true, if_false]

end

theorem takeEnrol_badArg {t k : BitVec 32} {c : Byte}
    (bad : t.toNat = 0 ∨ 268435455 ≤ t.toNat ∨ 2097151 < k.toNat ∨ 15 < c.toNat) :
    takeEnrol t k c s = (refuse .badArg, s) := by
  unfold takeEnrol
  rcases bad with zero | high | credential | cls
  · rw [asTag_eq_none (.inl zero)]
  · rw [asTag_eq_none (.inr high)]
  · rw [asCredential_eq_none credential]
    cases asTag t <;> rfl
  · rw [asClass_eq_none cls]
    cases asTag t <;> cases asCredential k <;> rfl

/-- Settles O16: the three operands read back, and then the judgement is the search for the tag and for a VACANT slot. -/
theorem enrolFillsLowestVacantSlot : Obligations.EnrolFillsLowestVacantSlot := by
  refine ⟨fun tag s t k c idle pos small => ⟨fun ⟨i, h, held, same⟩ => ?_, fun full => ?_, fun i new vacant lowest => ?_⟩,
    fun tag s t k c idle bad => ?_⟩
  · have found : s.findTag t ≠ none := fun none => State.findTag_eq_none_iff.mp none i h held same
    exact answer_of_portFree idle tag (r := .enrol ..) (takeEnrol_duplicate (s := s.fresh) pos small k c found)
  · have new : s.findTag t = none := State.findTag_eq_none_iff.mpr fun i h held same => by
      obtain ⟨x, heldx, other⟩ := full i
      cases held.symm.trans heldx
      exact other same
    have noRoom : s.handsets.lowest Option.isNone = none := (Table.lowest_eq_none_iff ..).mpr fun i => by
      obtain ⟨h, held, _⟩ := full i
      exact Option.isNone_eq_false_iff.mpr (Option.isSome_iff_exists.mpr ⟨h, held⟩)
    exact answer_of_portFree idle tag (r := .enrol ..) (takeEnrol_noRoom (s := s.fresh) pos small k c new noRoom)
  · exact answer_of_portFree idle tag (r := .enrol ..) (takeEnrol_vacant (s := s.fresh) pos small k c
      (State.findTag_eq_none_iff.mpr new) (State.lowestVacant_eq_some_iff.mpr ⟨vacant, lowest⟩))
  · exact refused_of_take idle tag (r := .enrol ..) (takeEnrol_badArg bad)

/-! ### The record a request names (R50) -/

theorem State.names.select {k : Byte} {v : BitVec 32} (names : s.names k v i h) : s.select k v = .held i h := by
  have held := names.1
  rcases names.2 with ⟨rfl, slot⟩ | ⟨rfl, value, pos, small, _⟩
  · have found : toIndex 512 v.toNat = some i := slot ▸ toIndex_val ..
    simp only [State.select, if_neg (show (1 : Byte) ≠ 0 by decide), if_true, found, held]
  · simp only [State.select, if_true, asTag_eq_some (value ▸ pos) (value ▸ small), names.findTag, held]

theorem State.select_bad {k : Byte} {v : BitVec 32} (bad : 1 < k.toNat ∨ (k = 1 ∧ 511 < v.toNat) ∨
    (k = 0 ∧ (v.toNat = 0 ∨ 268435455 ≤ v.toNat))) : s.select k v = .bad := by
  rcases bad with kind | ⟨rfl, slot⟩ | ⟨rfl, tag⟩
  · have zero : k ≠ 0 := by rintro rfl; exact absurd kind (by decide)
    have one : k ≠ 1 := by rintro rfl; exact absurd kind (by decide)
    rw [State.select, if_neg zero, if_neg one]
  · have none : toIndex 512 v.toNat = none := (toIndex_eq_none_iff ..).mpr slot
    simp only [State.select, if_neg (show (1 : Byte) ≠ 0 by decide), if_true, none]
  · simp only [State.select, if_true, asTag_eq_none tag]

theorem State.select_missing {v : BitVec 32} (pos : 0 < v.toNat) (small : v.toNat < 268435455)
    (none : ∀ i h, s.handset i = some h → h.tag.toNat ≠ v.toNat) : s.select 0 v = .missing := by
  simp only [State.select, if_true, asTag_eq_some pos small, State.findTag_eq_none small none]

theorem State.select_vacant {v : BitVec 32} (slot : v.toNat = i.val) (vacant : s.handset i = none) :
    s.select 1 v = .vacant i := by
  have found : toIndex 512 v.toNat = some i := slot ▸ toIndex_val ..
  simp only [State.select, if_neg (show (1 : Byte) ≠ 0 by decide), if_true, found, vacant]

/-! ### REMOVE, BAR and UNBAR (R52 to R54) -/

theorem takeRemove_held {k : Byte} {v : BitVec 32} (named : s.select k v = .held i h) : takeRemove k v s =
    if h.status.state = .engaged then (refuse .inCall, s) else (okay [], s.setHandset i none) := by
  rw [takeRemove, named]

theorem takeBar_barred {k : Byte} {v : BitVec 32} (named : s.select k v = .held i h) (barred : h.barred = true) :
    takeBar k v s = (okay (byte1 h.status.state.code), s) := by
  simp only [takeBar, named, barred, if_true]

theorem takeBar_notAttached {k : Byte} {v : BitVec 32} (named : s.select k v = .held i h) (free : h.barred = false)
    (status : h.status.state ≠ .attached) : takeBar k v s =
      (okay (byte1 h.status.state.code), s.setHandset i (some { h with barred := true })) := by
  rw [takeBar, named]
  dsimp only
  rw [if_neg (Bool.eq_false_iff.mp free)]
  cases e : h.status with
  | attached => exact absurd (congrArg HandsetStatus.state e) status
  | enrolled | engaged => rfl

theorem takeBar_attached {k : Byte} {v : BitVec 32} {b : BaseIx} {lifetime : Nat} {origination : Option Nat}
    (named : s.select k v = .held i h) (free : h.barred = false) (status : h.status = .attached b lifetime origination) :
    takeBar k v s = (okay [1],
      (s.setHandset i (some { h with barred := true, status := .enrolled none })).post
        (.withdrawn i h.tag b origination.isSome)) := by
  rw [takeBar, named]
  dsimp only
  rw [if_neg (Bool.eq_false_iff.mp free), status]
  rfl

theorem takeUnbar_held {k : Byte} {v : BitVec 32} (named : s.select k v = .held i h) : takeUnbar k v s =
    (okay [], s.setHandset i (some { h with barred := false, failures := 0 })) := by
  rw [takeUnbar, named]

/-- A selection that is no record is refused with nothing changed. -/
theorem takes_of_select {k : Byte} {v : BitVec 32} {x : Selected} (named : s.select k v = x) (none : ∀ i h, x ≠ .held i h) :
    takeRemove k v s = (refuse x.refusal, s) ∧ takeBar k v s = (refuse x.refusal, s) ∧
      takeUnbar k v s = (refuse x.refusal, s) := by
  cases x with
  | held i h => exact absurd rfl (none i h)
  | _ => exact ⟨by rw [takeRemove, named], by rw [takeBar, named], by rw [takeUnbar, named]⟩

theorem refused_of_select {k : Byte} {v : BitVec 32} {x : Selected} (idle : s.portFree) (tag : Byte)
    (named : s.select k v = x) (none : ∀ i h, x ≠ .held i h) :
    exec (.remove tag k v) s = .next (s.fresh.answered 0x21 tag (refuse x.refusal)) ∧
    exec (.bar tag k v) s = .next (s.fresh.answered 0x22 tag (refuse x.refusal)) ∧
    exec (.unbar tag k v) s = .next (s.fresh.answered 0x23 tag (refuse x.refusal)) := by
  obtain ⟨remove, bar, unbar⟩ := takes_of_select (s := s.fresh) named none
  exact ⟨refused_of_take idle tag (r := .remove k v) remove, refused_of_take idle tag (r := .bar k v) bar,
    refused_of_take idle tag (r := .unbar k v) unbar⟩

/-! ### QUERY HANDSET (R55) -/

theorem takeQueryHandset_held {k : Byte} {v : BitVec 32} (named : s.select k v = .held i h) :
    takeQueryHandset k v s = (okay (h.bytes i), s) := by
  rw [takeQueryHandset, named]

theorem takeQueryHandset_vacant {k : Byte} {v : BitVec 32} (named : s.select k v = .vacant i) :
    takeQueryHandset k v s = (okay [0], s) := by
  rw [takeQueryHandset, named]
  rfl

theorem takeQueryHandset_bad {k : Byte} {v : BitVec 32} (named : s.select k v = .bad) :
    takeQueryHandset k v s = (refuse .badArg, s) := by
  rw [takeQueryHandset, named]
  rfl

theorem takeQueryHandset_missing {k : Byte} {v : BitVec 32} (named : s.select k v = .missing) :
    takeQueryHandset k v s = (refuse .noSuch, s) := by
  rw [takeQueryHandset, named]
  rfl

/-! ### The obligations -/

/-- Settles O17: the selection decides which record is meant, and its status what the request does. -/
theorem removeAndBarByTagOrSlot : Obligations.RemoveAndBarByTagOrSlot := by
  refine ⟨fun tag k v s i h idle names => ?_, fun tag k v s i h idle names => ?_, fun tag k v s idle => ?_⟩
  · have named : s.fresh.select k v = .held i h := State.names.select (s := s.fresh) names
    exact ⟨fun other => answer_of_portFree idle tag (r := .remove k v) ((takeRemove_held named).trans (if_neg other)),
      fun engaged => answer_of_portFree idle tag (r := .remove k v) ((takeRemove_held named).trans (if_pos engaged))⟩
  · have named : s.fresh.select k v = .held i h := State.names.select (s := s.fresh) names
    exact ⟨fun barred => answer_of_portFree idle tag (r := .bar k v) (takeBar_barred named barred),
      fun free other => answer_of_portFree idle tag (r := .bar k v) (takeBar_notAttached named free other),
      fun b l o free status => answer_of_portFree idle tag (r := .bar k v) (takeBar_attached named free status)⟩
  · refine ⟨fun bad => ?_, fun zero pos small none => ?_, fun i one slot vacant => ?_⟩
    · have named : s.select k v = .bad := State.select_bad bad
      exact ⟨refused_of_select idle tag named nofun,
        refused_of_take idle tag (r := .queryHandset k v) (takeQueryHandset_bad (s := s.fresh) named)⟩
    · subst zero
      have named : s.select 0 v = .missing := State.select_missing pos small none
      exact ⟨refused_of_select idle tag named nofun,
        refused_of_take idle tag (r := .queryHandset 0 v) (takeQueryHandset_missing (s := s.fresh) named)⟩
    · subst one
      exact refused_of_select idle tag (State.select_vacant slot vacant) nofun

/-- Settles O18: the flag and the count of the record named, in one write. -/
theorem unbarClearsFlagAndCount : Obligations.UnbarClearsFlagAndCount :=
  fun _ k v s _ _ idle names =>
    answer_of_portFree idle _ (r := .unbar k v) (takeUnbar_held (State.names.select (s := s.fresh) names))

/-- What names a record names it whatever credential it holds. -/
theorem State.names.withCredential {k : Byte} {v : BitVec 32} (names : s.names k v i h) (c : Credential) :
    (s.setHandset i (some { h with credential := c })).names k v i { h with credential := c } := by
  refine ⟨Table.get_set_self .., names.2.imp_right fun ⟨zero, value, pos, small, unique⟩ =>
    ⟨zero, value, pos, small, fun j x heldx same => ?_⟩⟩
  by_contra other
  exact other (unique j x ((Table.get_set_ne _ _ (Ne.symm other)).symm.trans heldx) same)

/-- Settles O19: the reply is written from the record's other fields, and a tag or slot names the same record whatever
its credential. -/
theorem queryHandsetHidesCredential : Obligations.QueryHandsetHidesCredential := by
  refine ⟨fun tag k v s i h c idle names => ⟨?_, ?_⟩, fun tag s i idle vacant => ?_⟩
  · exact answer_of_portFree idle tag (r := .queryHandset k v)
      (takeQueryHandset_held (State.names.select (s := s.fresh) names))
  · exact answer_of_portFree (s := s.setHandset i _) idle tag (r := .queryHandset k v)
      (takeQueryHandset_held (State.names.select (names.withCredential c)))
  · have slot : (BitVec.ofNat 32 i.val).toNat = i.val := by
      rw [BitVec.toNat_ofNat]
      omega
    have named : s.fresh.select 1 (BitVec.ofNat 32 i.val) = .vacant i := State.select_vacant slot vacant
    exact answer_of_portFree idle tag (r := .queryHandset ..) (q := (okay [0], s.fresh))
      (takeQueryHandset_vacant named)

end Sys2Proof.Machine
end

