-- ==== Sys2Proof/Proofs/HandsetAccess.lean ====
section
/-! Access requests and deadlines at a handset record: unknown and MALFORMED trains (O44), the decision on an ATTACH (O45)
and the two deadlines (O46). -/

namespace Sys2Proof.Machine

open State

variable {s t : State} {b : BaseIx} {i : SlotIx} {h : Handset} {r : AccessRequest} {train : Train}

/-! ### Requests of R57 -/

/-- The slot of a tag that one record alone holds. -/
theorem State.findTag_of_only {tag : Tag} (held : s.handset i = some h) (same : h.tag = tag)
    (only : ∀ j k, s.handset j = some k → k.tag = tag → j = i) : s.findTag tag = some i := by
  refine (Table.lowest_eq_some_iff ..).mpr ⟨?_, fun j before => ?_⟩
  · simp [show s.handsets.get i = some h from held, same]
  · cases e : s.handsets.get j with
    | none => rfl
    | some k => exact beq_eq_false_iff_ne.mpr fun tagged => Fin.ne_of_lt before (only j k e tagged)

theorem State.access_unknown (none : s.findTag r.tag = none) (kind : r.kind ≠ .malformed) :
    s.access r = s.answer r .none .unknown := by
  simp only [State.access, none, if_neg kind]

theorem State.access_ignored (none : s.findTag r.tag = none) (kind : r.kind = .malformed) : s.access r = s := by
  simp only [State.access, none, if_pos kind]

theorem State.access_malformed (found : s.findTag r.tag = some i) (held : s.handset i = some h)
    (kind : r.kind = .malformed) : s.access r =
      (s.setHandset i (some { h with lastAccess := some s.tick })).answer r (.slot i) .malformed := by
  simp only [State.access, found, held, State.decideAccess, kind]

/-- An answer whose base has room, sent. -/
theorem State.answer_sent (service : (s.base r.base).state = .inService) (room : (s.base r.base).window.length < 4)
    (owner : OrderOwner) (cause : AnswerCause) :
    s.answer r owner cause = s.send r.base (.answer r.tag cause) .registration owner := by
  rw [State.answer, State.offer_sent service room]

/-- Settles O44: a good train reaches the Registration Unit, which finds the tag or does not. -/
theorem unknownAndMalformedTrains : Obligations.UnknownAndMalformedTrains := by
  intro s o x train b r idle answered hears service room collecting good
  have closed : exec (.fragClose o x) s = .next (idle.access r) := congrArg Host.Outcome.next
    ((State.fromService_heard (s := s.fresh) hears service _).trans (State.takeClose_good (s := s.fresh) collecting good))
  have base : r.base = b := train.request_base b
  have sent (t : State) (bases : t.bases = s.bases) (owner : OrderOwner) (cause : AnswerCause) :
      t.answer r owner cause = t.send b (.answer r.tag cause) .registration owner := by
    have same : t.base r.base = s.base b := (congrArg (Table.get · r.base) bases).trans (congrArg s.base base)
    exact (State.answer_sent (same ▸ service) (same ▸ room) owner cause).trans (by rw [base])
  refine ⟨fun none kind => ?_, fun none kind => ?_, fun i h names tagged only kind => ?_⟩
  · have unknown := State.access_unknown (s := idle) (State.findTag_eq_none_iff.mpr none) kind
    exact closed.trans (congrArg Host.Outcome.next (unknown.trans (sent idle rfl ..)))
  · have ignored := State.access_ignored (s := idle) (State.findTag_eq_none_iff.mpr none) kind
    exact closed.trans (congrArg Host.Outcome.next ignored)
  · have malformed := State.access_malformed (s := idle) (State.findTag_of_only names.1 tagged only) names.1 kind
    exact closed.trans (congrArg Host.Outcome.next (malformed.trans (sent (idle.setHandset i _) rfl ..)))

/-! ### The decision on an ATTACH (R58, R59) -/

theorem State.decideAttach_closed (shut : s.closedAt r.base = true) :
    s.decideAttach i h r = (.closed, s.post (.refused i r.tag r.base r.kind .closed)) := by
  rw [State.decideAttach, if_pos shut, State.refuseAccess_eq _ _ _ rfl]

section
variable (serves : s.closedAt r.base = false)
include serves

theorem State.decideAttach_barred (barred : h.barred = true) :
    s.decideAttach i h r = (.barred, s.post (.refused i r.tag r.base r.kind .barred)) := by
  rw [State.decideAttach, if_neg (Bool.eq_false_iff.mp serves), if_pos barred, State.refuseAccess_eq _ _ _ rfl]

theorem State.decideAttach_wrong (free : h.barred = false) (wrong : r.credential ≠ some h.credential) :
    s.decideAttach i h r = s.deny i h r := by
  rw [State.decideAttach, if_neg (Bool.eq_false_iff.mp serves), if_neg (Bool.eq_false_iff.mp free), if_pos wrong]

theorem State.decideAttach_engaged (free : h.barred = false) (right : r.credential = some h.credential)
    (engaged : h.status.state = .engaged) :
    s.decideAttach i h r = (.inCall, s.post (.refused i r.tag r.base r.kind .inCall)) := by
  rw [State.decideAttach, if_neg (Bool.eq_false_iff.mp serves), if_neg (Bool.eq_false_iff.mp free),
    if_neg (not_not.mpr right), if_pos engaged, State.refuseAccess_eq _ _ _ rfl]

theorem State.decideAttach_accepted (free : h.barred = false) (right : r.credential = some h.credential)
    (idle : h.status.state ≠ .engaged) : s.decideAttach i h r = (.accept, s.attach i h r) := by
  rw [State.decideAttach, if_neg (Bool.eq_false_iff.mp serves), if_neg (Bool.eq_false_iff.mp free),
    if_neg (not_not.mpr right), if_neg idle]

end

theorem State.attach_enrolled {zone : Option ZoneIx} (status : h.status = .enrolled zone) : s.attach i h r =
    (s.setHandset i (some { h with failures := 0, status := .attached r.base s.lifetimeTicks none })).post
      (.attached i r.tag r.base h.status.location) := by
  have elsewhere : (HandsetStatus.enrolled zone).location ≠ .base r.base := by cases zone <;> nofun
  simp only [State.attach, status, if_neg elsewhere]

/-- A record attached anew keeps its pending origination, and posts when its location was another base. -/
theorem State.attach_attached {at_ : BaseIx} {lifetime : Nat} {origination : Option Nat}
    (status : h.status = .attached at_ lifetime origination) : s.attach i h r =
      let t := s.setHandset i (some { h with failures := 0, status := .attached r.base s.lifetimeTicks origination })
      if at_ = r.base then t else t.post (.attached i r.tag r.base (.base at_)) := by
  simp only [State.attach, status, HandsetStatus.location, Location.base.injEq]

theorem State.deny_first (few : h.failures < 2) : s.deny i h r =
    (.denied, (s.setHandset i (some { h with failures := h.failures + 1 })).post
      (.refused i r.tag r.base r.kind .denied)) := by
  have counted : sat 3 h.failures = h.failures + 1 := Nat.min_eq_right (by omega)
  simp only [State.deny, counted]
  rw [if_pos (by omega), State.refuseAccess_eq _ _ _ rfl]

/-- The third failure bars the record and withdraws an ATTACHED one. -/
theorem State.deny_third (two : h.failures = 2) : s.deny i h r =
    (.denied,
      let after := { h with failures := 3, barred := true }.withdrawn
      (s.setHandset i (some after)).post (.barredByFailures i r.tag r.base after.status.state)) := by
  simp only [State.deny, two]
  rfl

theorem Handset.withdrawn_eq (h : Handset) : h.withdrawn =
    { h with status := match h.status with
      | .attached _ _ _ => .enrolled none
      | x => x } := by
  unfold Handset.withdrawn
  cases h with
  | mk tag credential cls barred failures lastAccess status => cases status <;> rfl

/-- Settles O45: the tests of R58 in their order, then the acceptance by the record's state or the failure by its count.
-/
theorem attachAcceptedOrDenied : Obligations.AttachAcceptedOrDenied := by
  intro s i h r kind
  have decide : s.decideAccess i h r = s.decideAttach i h r := by simp only [State.decideAccess, kind]
  rw [decide, ← kind]
  refine ⟨State.decideAttach_closed, fun serves => ⟨State.decideAttach_barred serves,
    fun free right => ⟨State.decideAttach_engaged serves free right, fun zone status => ?_,
      fun at_ lifetime origination status => ?_⟩,
    fun free wrong => ⟨fun few => ?_, fun two => ?_⟩⟩⟩
  · have idle : h.status.state ≠ .engaged := by rw [status]; nofun
    rw [State.decideAttach_accepted serves free right idle, State.attach_enrolled status]
    rfl
  · have idle : h.status.state ≠ .engaged := by rw [status]; nofun
    rw [State.decideAttach_accepted serves free right idle, State.attach_attached status]
    rfl
  · rw [State.decideAttach_wrong serves free wrong, State.deny_first few]
  · have denied := State.deny_third (s := s) (i := i) (r := r) two
    rw [Handset.withdrawn_eq] at denied
    exact (State.decideAttach_wrong serves free wrong).trans denied

/-! ### Lifetime and origination (R65, R66) -/

theorem takeLifetimeExpiry_due {origination : Option Nat} (held : s.handset i = some h)
    (status : h.status = .attached b 0 origination) : takeLifetimeExpiry i s =
      (s.setHandset i (some { h with status := .enrolled none })).post (.lapsed i h.tag b origination.isSome) := by
  simp only [takeLifetimeExpiry, held, status, State.setStatus]

theorem takeLifetimeExpiry_notDue
    (early : ∀ h b origination, s.handset i = some h → h.status ≠ .attached b 0 origination) :
    takeLifetimeExpiry i s = s := by
  unfold takeLifetimeExpiry
  split
  · rfl
  · next h held =>
    split
    · next b origination status => exact absurd status (early h b origination held)
    · rfl

theorem takeOriginationExpiry_due {lifetime : Nat} (held : s.handset i = some h)
    (status : h.status = .attached b lifetime (some 0)) : takeOriginationExpiry i s =
      (s.setHandset i (some { h with status := .attached b lifetime none })).post (.originationExpired i h.tag b) := by
  simp only [takeOriginationExpiry, held, status, State.setStatus]

theorem takeOriginationExpiry_notDue
    (early : ∀ h b lifetime, s.handset i = some h → h.status ≠ .attached b lifetime (some 0)) :
    takeOriginationExpiry i s = s := by
  unfold takeOriginationExpiry
  split
  · rfl
  · next h held =>
    split
    · next b lifetime status => exact absurd status (early h b lifetime held)
    · rfl

/-- Settles O46, by the record's deadline: at 0 it lapses, else nothing happens. -/
theorem handsetDeadlinesLapse : Obligations.HandsetDeadlinesLapse := fun s _ =>
  ⟨fun _ _ _ held status => congrArg Host.Outcome.next (takeLifetimeExpiry_due (s := s.fresh) held status),
    fun early => congrArg Host.Outcome.next (takeLifetimeExpiry_notDue (s := s.fresh) early),
    fun _ _ _ held status => congrArg Host.Outcome.next (takeOriginationExpiry_due (s := s.fresh) held status),
    fun early => congrArg Host.Outcome.next (takeOriginationExpiry_notDue (s := s.fresh) early)⟩

end Sys2Proof.Machine
end

