-- ==== Sys2Proof/Proofs/CandidateRework.lean ====
section
/-! The insertion rule (R121) and the candidates after a completed handover (R143), as the statements spell them. -/

namespace Sys2Proof.Machine

/-! ### The insertion rule (R121) -/

section
variable {α : Type} {cand : α → Candidate} {make : Candidate → α} {target : Target} {p : Fin 8} {average : Nat} {l : List α}

theorem lowestPlace_mem {k a : Nat} (found : lowestPlace cand l = some (k, a)) : ∃ e ∈ l, (cand e).average = a := by
  induction l generalizing k with
  | nil => cases found
  | cons e l ih =>
    rw [lowestPlace] at found
    split at found
    · cases found
      exact ⟨e, List.mem_cons_self, rfl⟩
    · next rest =>
      split at found
      · cases found
        exact ⟨e, List.mem_cons_self, rfl⟩
      · cases found
        obtain ⟨v, mem, same⟩ := ih rest
        exact ⟨v, List.mem_cons_of_mem _ mem, same⟩

theorem lowestPlace_append (before : List α) {e : α} {after : List α}
    (least : ∀ v ∈ before, (cand e).average ≤ (cand v).average) (last : ∀ v ∈ after, (cand e).average < (cand v).average) :
    lowestPlace cand (before ++ e :: after) = some (before.length, (cand e).average) := by
  induction before with
  | nil =>
    cases rest : lowestPlace cand after with
    | none => simp only [List.nil_append, lowestPlace, rest, List.length_nil]
    | some found =>
      obtain ⟨k, a⟩ := found
      have above : (cand e).average < a := by
        obtain ⟨v, mem, same⟩ := lowestPlace_mem rest
        exact same ▸ last v mem
      simp only [List.nil_append, lowestPlace, rest, if_pos above, List.length_nil]
  | cons v before ih =>
    have rest := ih fun v mem => least v (List.mem_cons_of_mem _ mem)
    have first : ¬(cand v).average < (cand e).average := Nat.not_lt.mpr (least v List.mem_cons_self)
    simp only [List.cons_append, lowestPlace, rest, if_neg first, List.length_cons]

theorem insertRule_held (held : ∃ e ∈ l, (cand e).target = target) : insertRule cand make target p average l = l := by
  obtain ⟨e, mem, same⟩ := held
  have any : (l.any fun e => (cand e).target == target) = true := List.any_eq_true.mpr ⟨e, mem, beq_iff_eq.mpr same⟩
  rw [insertRule, if_pos any]

theorem not_any_of_new (new : ∀ e ∈ l, (cand e).target ≠ target) : ¬(l.any fun e => (cand e).target == target) = true :=
  fun any => by
    obtain ⟨e, mem, same⟩ := List.any_eq_true.mp any
    exact new e mem (beq_iff_eq.mp same)

theorem insertRule_room (new : ∀ e ∈ l, (cand e).target ≠ target) (room : l.length < 6) :
    insertRule cand make target p average l = l ++ [make (Candidate.fresh target p average)] := by
  rw [insertRule, if_neg (not_any_of_new new), if_pos room]

/-- In a full list the last entry of the lowest average gives way to a higher one. -/
theorem insertRule_full {before : List α} {e : α} {after : List α} (split : l = before ++ e :: after)
    (new : ∀ e ∈ l, (cand e).target ≠ target) (full : 6 ≤ l.length)
    (least : ∀ v ∈ before, (cand e).average ≤ (cand v).average) (last : ∀ v ∈ after, (cand e).average < (cand v).average) :
    insertRule cand make target p average l =
      if (cand e).average < average then before ++ after ++ [make (Candidate.fresh target p average)] else l := by
  have erased : (before ++ e :: after).eraseIdx before.length = before ++ after := by
    rw [List.eraseIdx_append_of_length_le (Nat.le_refl _), Nat.sub_self, List.eraseIdx_cons_zero]
  rw [insertRule, if_neg (not_any_of_new new), if_neg (Nat.not_lt.mpr full), split, lowestPlace_append before least last]
  simp only [erased]

end

/-! ### The rework (R143) -/

theorem placeOf_eq_some_iff {list : List Neighbour} {target : Target} {k : Fin 8} : placeOf list target = some k ↔
    (list[k.val]?).map Neighbour.target = some target ∧ ∀ j < k, (list[j.val]?).map Neighbour.target ≠ some target := by
  rw [placeOf, ← Fin.find?_eq_find?_finRange, Fin.find?_eq_some_iff]
  simp only [beq_iff_eq, beq_eq_false_iff_ne]

theorem positionOf_eq_some_iff {list : List Neighbour} {target : Target} {k : Fin 8} : positionOf list target = some k ↔
    (list[k.val]?).map Neighbour.target = some target ∧ ∀ j < k, (list[j.val]?).map Neighbour.target ≠ some target := by
  simp only [positionOf, Option.bind_eq_some_iff, toIndex_eq_some_iff, exists_eq_right',
    List.findIdx?_eq_some_iff_getElem, beq_iff_eq]
  constructor
  · rintro ⟨inside, here, before⟩
    refine ⟨by rw [List.getElem?_eq_getElem inside, Option.map_some, here], fun j less same => ?_⟩
    rw [List.getElem?_eq_getElem (Nat.lt_trans less inside), Option.map_some, Option.some_inj] at same
    exact before j less same
  · rintro ⟨here, before⟩
    obtain ⟨n, found, same⟩ := Option.map_eq_some_iff.mp here
    obtain ⟨inside, rfl⟩ := List.getElem?_eq_some_iff.mp found
    refine ⟨inside, same, fun j less tagged => before ⟨j, Nat.lt_trans less k.isLt⟩ less ?_⟩
    rw [List.getElem?_eq_getElem (Nat.lt_trans less inside), Option.map_some, tagged]

theorem positionOf_eq_placeOf (list : List Neighbour) (target : Target) : positionOf list target = placeOf list target :=
  Option.ext fun _ => positionOf_eq_some_iff.trans placeOf_eq_some_iff.symm

theorem lowestPlace_reworked (l : List Candidate) :
    lowestPlace id (l.map Candidate.reworked) = lowestPlace id l := by
  induction l with
  | nil => rfl
  | cons e l ih => simp only [List.map_cons, lowestPlace, ih]; rfl

theorem insertRule_reworked (target : Target) (p : Fin 8) (average : Nat) (l : List Candidate) :
    (insertRule id id target p average l).map Candidate.reworked =
      insertRule id id target p average (l.map Candidate.reworked) := by
  have any : ((l.map Candidate.reworked).any fun e => (id e).target == target) =
      l.any fun e => (id e).target == target := List.any_map
  unfold insertRule
  rw [any, lowestPlace_reworked, List.length_map]
  split
  · rfl
  · split
    · rw [List.map_append]; rfl
    · split
      · rfl
      · split
        · rw [List.map_append, ← List.eraseIdx_map]; rfl
        · rfl

theorem offeredEntry_insertRule (target : Target) (p : Fin 8) (average : Nat) (l : List Candidate) :
    offeredEntry l (Candidate.fresh target p average) (insertRule id id target p average l) :=
  ⟨insertRule_held, insertRule_room, fun _ _ _ split new full least last => insertRule_full split new full least last⟩

theorem placed_reworked (list : List Neighbour) (base : BaseIx) (l : List Candidate) :
    ((l.filter fun e => e.target != .localBase base).filterMap (Candidate.placedIn list)).map Candidate.reworked =
      remainingEntries list base l := by
  rw [List.map_filterMap]
  refine congrArg (List.filterMap · _) (funext fun e => ?_)
  rw [Candidate.placedIn, positionOf_eq_placeOf, Option.map_map]
  rfl

variable {list : List Neighbour} {old new : BaseIx} {l : List Candidate} {noted : Option Nat}

theorem reworkList_kept (none_ : noted = none ∨ placeOf list (.localBase old) = none) :
    reworkList noted old new list l = remainingEntries list new l := by
  unfold reworkList
  rw [positionOf_eq_placeOf]
  rcases none_ with e | e
  · rw [e]
    exact placed_reworked ..
  · rw [e]
    cases noted <;> exact placed_reworked ..

theorem reworkList_offered {average : Nat} {p : Fin 8} (known : noted = some average)
    (place : placeOf list (.localBase old) = some p) : reworkList noted old new list l =
      insertRule id id (.localBase old) p average (remainingEntries list new l) := by
  unfold reworkList
  rw [positionOf_eq_placeOf, known, place, ← placed_reworked]
  exact insertRule_reworked ..

/-! ### Every entry after the rework -/

theorem Candidate.of_remaining {list : List Neighbour} {base : BaseIx} {l : List Candidate} {e : Candidate}
    (mem : e ∈ remainingEntries list base l) : e.dwell = 0 ∧ e.misses = 0 ∧ e.lastScore = none ∧
      e.lastCompare = .unordered ∧ e.target ≠ .localBase base := by
  obtain ⟨v, memv, found⟩ := List.mem_filterMap.mp mem
  obtain ⟨k, _, rfl⟩ := Option.map_eq_some_iff.mp found
  exact ⟨rfl, rfl, rfl, rfl, bne_iff_ne.mp (List.mem_filter.mp memv).2⟩

theorem mem_insertRule {target : Target} {p : Fin 8} {average : Nat} {l : List Candidate} {e : Candidate}
    (mem : e ∈ insertRule id id target p average l) : e ∈ l ∨ e = Candidate.fresh target p average := by
  unfold insertRule at mem
  split at mem
  · exact .inl mem
  · split at mem
    · exact (List.mem_append.mp mem).imp_right List.mem_singleton.mp
    · split at mem
      · exact .inl mem
      · split at mem
        · exact (List.mem_append.mp mem).imp List.mem_of_mem_eraseIdx List.mem_singleton.mp
        · exact .inl mem

/-- Every entry after the rework is a remaining one or the former serving base, offered. -/
theorem Candidate.of_reworkList {e : Candidate} (other : old ≠ new) (mem : e ∈ reworkList noted old new list l) :
    e.dwell = 0 ∧ e.misses = 0 ∧ e.lastScore = none ∧ e.lastCompare = .unordered ∧ e.target ≠ .localBase new := by
  by_cases none_ : noted = none ∨ placeOf list (.localBase old) = none
  · rw [reworkList_kept none_] at mem
    exact Candidate.of_remaining mem
  · obtain ⟨known, place⟩ := not_or.mp none_
    obtain ⟨average, known⟩ := Option.ne_none_iff_exists'.mp known
    obtain ⟨p, place⟩ := Option.ne_none_iff_exists'.mp place
    rw [reworkList_offered known place] at mem
    rcases mem_insertRule mem with mem | rfl
    · exact Candidate.of_remaining mem
    · exact ⟨rfl, rfl, rfl, rfl, fun same => other (Target.localBase.inj same)⟩

end Sys2Proof.Machine
end

