-- ==== Sys2Proof/Proofs/HandoverCompletion.lean ====
section
/-! ARRIVAL at the target channel of a handover (R142, R143; O48). -/

namespace Sys2Proof.Machine

open State

variable {s : State} {c : CallIx} {i : CallInfo} {h : Handset}

/-! ### From the arrival to the completion -/

/-- An arrival at the channel that an ACTIVE call has RESERVED goes to the Sequencer. -/
theorem State.arrive_target {p : ChanRef} {owner : Owner} {tag : Tag} (exists_ : s.chanExists p = true)
    (reserved : s.chan p = .reserved owner tag) (use : (s.ctx owner.call).use = owner.use)
    (call : (s.ctx owner.call).call = some i) (stage : i.stage = .active) :
    s.arrive p tag = s.targetArrival owner.call i p := by
  simp only [State.arrive, exists_, reserved, use, call, stage, Bool.not_true, Bool.false_eq_true, if_false, ne_eq,
    not_true_eq_false, or_self]

theorem State.targetArrival_switching {p : ChanRef} {rescue : Bool} {old : Option ChanRef} {strays deadline : Nat}
    (phase : (s.ctx c).phase = .switching p rescue old strays deadline) :
    s.targetArrival c i p = s.completeMove c i p rescue old strays := by
  simp only [State.targetArrival, phase, if_true]

theorem State.targetArrival_preparing {p : ChanRef} {rescue : Bool} (phase : (s.ctx c).phase = .preparing p rescue) :
    s.targetArrival c i p = s.completeMove c i p rescue (some i.serving) 0 := by
  simp only [State.targetArrival, phase, if_true]

/-! ### The parts of a completion (R142) -/

theorem State.relocate_engaged {slot : SlotIx} {at_ b : BaseIx} {detach : Bool} (held : s.handset slot = some h)
    (status : h.status = .engaged at_ c detach) : s.relocate slot b = s.setStatus slot h (.engaged b c detach) := by
  simp only [State.relocate, held, status]

theorem State.base_release_ne (s : State) (p : ChanRef) (o : Option Owner) {b : BaseIx} (other : b ≠ p.base) :
    (s.release p o).base b = s.base b := by
  rcases s.release_cases p o with ⟨_, e⟩ | ⟨_, _, e⟩ | ⟨_, _, e⟩ <;> rw [e]
  · rfl
  all_goals exact State.base_setBase_ne s _ (Ne.symm other)

/-- What releasing the former serving channel leaves alone: other channels and bases, and the records. -/
theorem State.releaseFormer_gives (s : State) (p : ChanRef) (o : Owner) :
    (∀ q, q ≠ p → (s.releaseFormer p o).chan q = s.chan q) ∧
    (∀ b, b ≠ p.base → (s.releaseFormer p o).base b = s.base b) ∧ (s.releaseFormer p o).handsets = s.handsets := by
  unfold releaseFormer
  split
  · exact ⟨fun q other => s.chan_release_ne _ (Ne.symm other), fun b other => s.base_release_ne p _ other,
      (s.release_gives p o).2.2.2.2⟩
  · exact ⟨fun _ _ => rfl, fun _ _ => rfl, rfl⟩

/-- The call moved to the target channel, with its record: the state of a completion before the former channel goes. -/
def State.movedTo (s : State) (c : CallIx) (i : CallInfo) (h : Handset) (target : ChanRef) (detach : Bool) : State :=
  ((s.setChan target (.busy (s.ownerOf c))).setCtx c { s.ctx c with call := some { i with serving := target } }).setStatus
    i.slot h (.engaged target.base c detach)

/-- A context at the end of a local handover, but for its call (R142, R143). -/
def Context.completed (x : Context) (t : Settings) (old new : BaseIx) (list : List Neighbour) : Context :=
  { x.rework old new list with phase := .none, guard := loadUnlessZero t.timers.guard }

theorem State.completeMove_eq {target : ChanRef} {rescue detach : Bool} {old : Option ChanRef} {strays : Nat} {at_ : BaseIx}
    (held : s.handset i.slot = some h) (status : h.status = .engaged at_ c detach) :
    s.completeMove c i target rescue old strays =
      let left := (s.movedTo c i h target detach).releaseFormer i.serving (s.ownerOf c)
      (left.setCtx c ((left.ctx c).completed s.settings i.serving.base target.base (s.cfg target.base).neighbours)).post
        (.completed (i.ref c) old target rescue strays (left.ctx c).attempts) := by
  have relocated := State.relocate_engaged (b := target.base) (s := (s.setChan target (.busy (s.ownerOf c))).setCtx c
    { s.ctx c with call := some { i with serving := target } }) held status
  unfold State.completeMove
  dsimp only
  rw [relocated]
  rfl

/-- What `left` has of `s` once a call has moved to its target channel and its former channel is given up. -/
structure State.MovedOn (s : State) (c : CallIx) (i : CallInfo) (h : Handset) (target : ChanRef) (detach : Bool)
    (left : State) : Prop where
  taken : left.chan target = .busy (s.ownerOf c)
  former : (left.chan i.serving).heldBy (s.ownerOf c) = false
  chans : ∀ q, q ≠ target → q ≠ i.serving → left.chan q = s.chan q
  ctx : left.ctx c = { s.ctx c with call := some { i with serving := target } }
  others : ∀ d, d ≠ c → left.ctx d = s.ctx d
  record : left.handset i.slot = some { h with status := .engaged target.base c detach }
  bases : ∀ b, b ≠ i.serving.base → left.base b = s.base b
  classes : left.classes = s.classes
  tick : left.tick = s.tick
  settings : left.settings = s.settings

theorem State.movedOn (s : State) (c : CallIx) (i : CallInfo) (h : Handset) {target : ChanRef} (detach : Bool)
    (away : target ≠ i.serving) :
    s.MovedOn c i h target detach ((s.movedTo c i h target detach).releaseFormer i.serving (s.ownerOf c)) := by
  obtain ⟨chans, bases, handsets⟩ := (s.movedTo c i h target detach).releaseFormer_gives i.serving (s.ownerOf c)
  obtain ⟨former, classes, contexts, tick⟩ := (s.movedTo c i h target detach).giveUp_gives (s.ownerOf c) (some i.serving)
  exact {
    taken := (chans target away).trans (State.chan_setChan_self ..)
    former := former _ rfl
    chans := fun q other leaves => (chans q leaves).trans (State.chan_setChan_ne s _ (Ne.symm other))
    ctx := (contexts c).trans (State.ctx_setCtx_self ..)
    others := fun d other => (contexts d).trans (State.ctx_setCtx_ne _ _ (Ne.symm other))
    record := (congrArg (Table.get · i.slot) handsets).trans (State.handset_setStatus_self ..)
    bases := bases
    classes := classes
    tick := tick
    settings := (releaseFormer_keeps ..).settings }

/-! ### The statement -/

/-- Settles O48: both phases complete the same move; what it leaves is read off its parts. -/
theorem targetArrivalCompletesHandover : Obligations.TargetArrivalCompletesHandover := by
  intro s o ch c i h rescue detach old strays deadline at_ p hears service below reserved call active phase away held status
  have arrived : exec (.arrival o ch i.tag) s = .next (s.fresh.completeMove c i p rescue old strays) := by
    have target := State.arrive_target (s := s.fresh) (State.chanExists_of_lt below) reserved rfl call active
    refine congrArg Host.Outcome.next ((State.fromService_heard (s := s.fresh) hears service _).trans (target.trans ?_))
    rcases phase with switching | ⟨preparing, rfl, rfl⟩
    · exact State.targetArrival_switching (s := s.fresh) switching
    · exact State.targetArrival_preparing (s := s.fresh) preparing
  rw [State.completeMove_eq (s := s.fresh) held status] at arrived
  have elsewhere : p ≠ i.serving := fun same => away (congrArg ChanRef.base same).symm
  have left := s.fresh.movedOn c i h detach elsewhere
  dsimp only at arrived
  generalize (s.fresh.movedTo c i h p detach).releaseFormer i.serving (s.fresh.ownerOf c) = u at arrived left
  rw [left.ctx] at arrived
  let x := ({ s.ctx c with call := some { i with serving := p } } : Context).completed s.settings i.serving.base p.base
    (s.cfg p.base).neighbours
  let n := NoticeBody.completed (i.ref c) old p rescue strays (s.ctx c).attempts
  have ctx : ((u.setCtx c x).post n).ctx c = x := State.ctx_setCtx_self ..
  refine ⟨(u.setCtx c x).post n, arrived, left.taken, left.former, left.chans, ?_⟩
  rw [ctx]
  refine ⟨rfl, rfl, rfl, rfl, ⟨reworkList_kept, fun noted k known place => ?_⟩, rfl, fun e => Candidate.of_reworkList away,
    rfl, fun d other => (State.ctx_setCtx_ne u x (Ne.symm other)).trans (left.others d other), left.record, ?_, left.bases,
    left.settings⟩
  · have offered : x.candidates = _ := reworkList_offered known place
    rw [offered]
    exact offeredEntry_insertRule ..
  · have filed := State.post_class_self (u.setCtx c x) n
    rw [State.setCtx_classes, State.setCtx_tick, left.classes, left.tick] at filed
    exact filed

end Sys2Proof.Machine
end

