-- ==== Sys2Proof/Proofs/CallClearing.lean ====
section
/-! How the start of a clearing ends for the context (R83, R84), and with it CLOSE CALL (O23) and the deadlines of a call
(O53). -/

namespace Sys2Proof.Machine

open State

variable {s : State} {c : CallIx} {i : CallInfo}

/-! ### The clearing and the channels it leaves -/

/-- A clearing that starts: the context is FREE when its releases leave it no channel, and CLEARING otherwise (R84). -/
theorem State.clearCall_ctx (w : ClearCause) (call : (s.ctx c).call = some i) (stage : ∀ k, i.stage ≠ .clearing k) :
    (s.clearCall c w).ctx c = if (s.clearCall c w).owned (s.ownerOf c) = [] then ((s.ctx c).clearing i w).freed
      else (s.ctx c).clearing i w := by
  obtain ⟨u, e, ctx, _, _⟩ := State.clearCall_released (w := w) call stage
  have callu : (u.ctx c).call = some { i with stage := .clearing w } := by rw [ctx]; rfl
  have owner : u.ownerOf c = s.ownerOf c := by
    show Owner.mk c (u.ctx c).use = _
    rw [ctx]
    rfl
  rw [e, ← owner]
  by_cases gone : ∀ p, (u.chan p).ownedBy (u.ownerOf c) = false
  · have last := State.freeIfDone_last callu rfl gone
    have left : (u.freeIfDone c).owned (u.ownerOf c) = [] := (State.owned_eq_nil_iff _).mpr fun p => by
      rw [last, State.chan, (sameLinks_freeContext ..).channels]
      exact gone p
    rw [if_pos left, last, State.ctx_freeContext, ctx]
  · have waits := State.freeIfDone_waits callu (.inr (by simpa using gone))
    rw [waits, if_neg (gone ∘ (State.owned_eq_nil_iff _).mp), ctx]

/-! ### Capture slots that a clearing from SETUP leaves alone -/

theorem State.release_slots (s : State) (p : ChanRef) (o : Option Owner) : (s.release p o).slots = s.slots := by
  rcases s.release_cases p o with ⟨_, e⟩ | ⟨_, _, e⟩ | ⟨_, _, e⟩ <;> rw [e] <;> rfl

theorem State.releases_slots (o : Option Owner) (l : List ChanRef) (s : State) :
    (l.foldl (fun t p => t.release p o) s).slots = s.slots := by
  induction l generalizing s with
  | nil => rfl
  | cons p l ih => exact (ih _).trans (s.release_slots p o)

theorem State.returnRecord_slots (s : State) (i : CallInfo) (w : ClearCause) : (s.returnRecord i w).slots = s.slots := by
  unfold returnRecord
  repeat' split
  all_goals rfl

theorem State.endDrain_slots (s : State) : s.endDrain.slots = s.slots := by
  rcases s.endDrain_cases with ⟨_, _, e⟩ | ⟨_, e⟩ <;> rw [e]
  rfl

theorem State.freeIfDone_slots (s : State) (c : CallIx) : (s.freeIfDone c).slots = s.slots := by
  rcases s.freeIfDone_cases c with e | ⟨i, w, _, _, _, e⟩ <;> rw [e]
  exact (State.endDrain_slots _).trans (State.returnRecord_slots (s.setCtx c (s.ctx c).freed) i w)

/-- A call not ACTIVE has no captures to end (R174). -/
theorem State.clearCall_slots (w : ClearCause) (call : (s.ctx c).call = some i) (idle : i.stage ≠ .active) :
    (s.clearCall c w).slots = s.slots := by
  rcases s.clearCall_cases c w with ⟨_, e⟩ | ⟨j, callj, _, e⟩ <;> rw [e]
  cases call.symm.trans callj
  dsimp only
  rw [if_neg idle, State.freeIfDone_slots, State.releases_slots]
  rfl

/-! ### CLOSE CALL (R82) -/

theorem takeCloseCall_noSuch (free : (s.ctx c).call = none) :
    takeCloseCall (BitVec.ofNat 8 c.val) s = (refuse .noSuch, s) := by
  simp only [takeCloseCall, asCall_byte, free, if_true]

/-- A context in use is cleared with cause CLOSED, and the reply gives its state then. -/
theorem takeCloseCall_used (call : (s.ctx c).call = some i) : takeCloseCall (BitVec.ofNat 8 c.val) s =
    (okay (byte1 ((s.clearCall c .closed).callCode c)), s.clearCall c .closed) := by
  simp only [takeCloseCall, asCall_byte, call, reduceCtorEq, if_false]

theorem State.callCode_of_free (free : (s.ctx c).call = none) : s.callCode c = 0 := by
  simp only [State.callCode, free]

theorem State.callCode_of_clearing {cause : ClearCause} (call : (s.ctx c).call = some i)
    (stage : i.stage = .clearing cause) : s.callCode c = 3 := by
  simp only [State.callCode, call, stage, Stage.code]

/-- Settles O23: whether the releases leave the context a channel decides its state and the byte of the reply. -/
theorem closeCallStartsClearing : Obligations.CloseCallStartsClearing := by
  intro tag s idle
  refine ⟨fun x high => refused_of_take idle tag (r := .closeCall x) (takeCloseCall_badArg high),
    fun c => ⟨fun free => ?free, fun i cause call stage => ?clearing, fun i call stage => ?used⟩⟩
  case free => exact refused_of_take idle tag (r := .closeCall _) (takeCloseCall_noSuch (s := s.fresh) free)
  case clearing =>
    have taken := takeCloseCall_used (s := s.fresh) call
    rw [State.clearCall_clearing (s := s.fresh) call stage, State.callCode_of_clearing (s := s.fresh) call stage] at taken
    exact answer_of_portFree idle tag (r := .closeCall _) taken
  case used =>
    have other : ∀ k, i.stage ≠ .clearing k := by
      rcases stage with e | ⟨d, e⟩ <;> simp [e]
    refine ⟨_, answer_of_portFree idle tag (r := .closeCall _) (takeCloseCall_used (s := s.fresh) call), ?_⟩
    have keeps := clearCall_keeps s.fresh c .closed
    have trains := s.fresh.clearCall_trains c .closed
    obtain ⟨concerns, unheld, _⟩ := s.fresh.clearCall_starts .closed call other
    have ctx := State.clearCall_ctx (s := s.fresh) .closed call other
    generalize s.fresh.clearCall c .closed = t at keeps trains concerns unheld ctx
    refine ⟨?state, ?phase, ?guard, unheld, concerns.others, keeps.settings, trains, keeps.tick⟩
    case state =>
      split
      · next gone =>
        have free : (t.ctx c).call = none := congrArg Context.call (ctx.trans (if_pos gone))
        rw [State.callCode_of_free free, State.answered_link, keeps.link]
        exact ⟨free, rfl⟩
      · next owns =>
        have clearing : (t.ctx c).call = some { i with stage := .clearing .closed } :=
          congrArg Context.call (ctx.trans (if_neg owns))
        rw [State.callCode_of_clearing clearing rfl, State.answered_link, keeps.link]
        exact ⟨clearing, rfl⟩
    all_goals
      rw [State.ctx_answered, ctx]
      split <;> rfl

/-! ### The setup deadline (R80, R81) -/

theorem takeSetupExpiry_due (call : (s.ctx c).call = some i) (due : i.stage = .setup (some 0)) :
    takeSetupExpiry c s = s.clearCall c (.setupFailed .timeout) := by
  simp only [takeSetupExpiry, call, due, if_true, State.failSetup]

theorem takeSetupExpiry_notDue (notDue : ∀ i, (s.ctx c).call = some i → i.stage ≠ .setup (some 0)) :
    takeSetupExpiry c s = s := by
  unfold takeSetupExpiry
  split
  · rfl
  · next i call => exact if_neg (notDue i call)

/-! ### The zone deadline (R152) -/

section
variable {zone : ZoneIx} {base : BaseIx} {rescue : Bool}

/-- The attempt that a due zone deadline ends: no channel is claimed for it, so nothing is released (R132). -/
theorem takeZoneExpiry_due (call : (s.ctx c).call = some i) (due : (s.ctx c).phase = .handingOut zone base rescue 0) :
    takeZoneExpiry c s =
      ((s.setCtx c ((s.ctx c).failed s.settings.timers.penalty (.foreignBase zone base))).post
        (.failed (i.ref c) i.serving (.foreignBase zone base) .zoneTimeout .handingOut rescue
          (s.ctx c).attempts)).markFailure := by
  have target : (s.ctx c).phase.target = some (.foreignBase zone base) := by rw [due]; rfl
  have expired : takeZoneExpiry c s = s.failAttempt c .zoneTimeout := by simp only [takeZoneExpiry, due]
  rw [expired, State.failAttempt_eq call target, State.failAttemptOn_eq, due]
  rfl

theorem takeZoneExpiry_notDue (notDue : ∀ zone base rescue, (s.ctx c).phase ≠ .handingOut zone base rescue 0) :
    takeZoneExpiry c s = s := by
  unfold takeZoneExpiry
  split
  · next phase => exact absurd phase (notDue _ _ _)
  · rfl

end

/-! ### Guard and penalties (R144, R127) -/

theorem takeGuardExpiry_due (due : (s.ctx c).guard = some 0) :
    takeGuardExpiry c s = s.setCtx c { s.ctx c with guard := none } := if_pos due

theorem takeGuardExpiry_notDue (notDue : (s.ctx c).guard ≠ some 0) : takeGuardExpiry c s = s := if_neg notDue

/-- Candidates without a due penalty for the target are all kept as they are. -/
theorem map_unpenalised_eq_self {target : Target} {l : List Candidate}
    (notDue : ∀ e ∈ l, e.target = target → e.penalty ≠ some 0) : l.map (Candidate.unpenalised target) = l :=
  (List.map_congr_left fun e mem => if_neg fun due => notDue e mem due.1 due.2).trans (List.map_id l)

theorem takePenaltyExpiry_notDue {target : Target}
    (notDue : ∀ e ∈ (s.ctx c).candidates, e.target = target → e.penalty ≠ some 0) : takePenaltyExpiry c target s = s := by
  simp only [takePenaltyExpiry, map_unpenalised_eq_self notDue]
  exact congrArg (fun contexts => { s with contexts := contexts }) (Table.set_get_self ..)

/-- Settles O53, deadline by deadline. -/
theorem callDeadlinesExpire : Obligations.CallDeadlinesExpire := by
  refine ⟨fun s c => ⟨fun i call due => ?setup, fun notDue =>
      congrArg Host.Outcome.next (takeSetupExpiry_notDue (s := s.fresh) notDue)⟩,
    fun s c => ⟨fun i zone base rescue call due => ?zone,
      fun notDue => congrArg Host.Outcome.next (takeZoneExpiry_notDue (s := s.fresh) notDue),
      fun due => congrArg Host.Outcome.next (takeGuardExpiry_due (s := s.fresh) due),
      fun notDue => congrArg Host.Outcome.next (takeGuardExpiry_notDue (s := s.fresh) notDue),
      fun target => ⟨⟨_, rfl, rfl⟩, fun notDue =>
        congrArg Host.Outcome.next (takePenaltyExpiry_notDue (s := s.fresh) notDue)⟩⟩⟩
  case setup =>
    have other : ∀ k, i.stage ≠ .clearing k := by simp [due]
    obtain ⟨concerns, unheld, _⟩ := s.fresh.clearCall_starts (.setupFailed .timeout) call other
    have keeps := clearCall_keeps s.fresh c (.setupFailed .timeout)
    exact ⟨_, congrArg Host.Outcome.next (takeSetupExpiry_due (s := s.fresh) call due),
      s.fresh.call_clearCall _ call other, unheld, concerns.others, keeps.settings,
      State.clearCall_slots (s := s.fresh) _ call (by simp [due]), keeps.link⟩
  case zone =>
    have expired := takeZoneExpiry_due (s := s.fresh) call due
    rw [Context.failed, penalise_eq] at expired
    exact congrArg Host.Outcome.next expired

end Sys2Proof.Machine
end

