-- ==== Sys2Proof/Proofs/EvaluationBounds.lean ====
section
/-! What an evaluation leaves of averages, scores and targets (R108, R109, R114): the facts behind the laws of the call
contexts. -/

namespace Sys2Proof.Machine

theorem forall_mem_none {α : Type} {P : α → Prop} : ∀ a ∈ (none : Option α), P a := by
  simp

/-! ### Averages (R109 to R111) -/

/-- Smoothing does not go beyond the term, nor away from it. -/
theorem smooth_le_max (k a term : Nat) : smooth k a term ≤ max a term := by
  unfold smooth
  split
  · exact Nat.le_max_right ..
  split
  · next nonzero up =>
    obtain ⟨j, rfl⟩ := Nat.exists_eq_succ_of_ne_zero nonzero
    have one : 1 ≤ 2 ^ j := Nat.one_le_two_pow
    have step : (term - a + 2 ^ j) / 2 ^ (j + 1) ≤ term - a := by
      rw [Nat.pow_succ]
      generalize 2 ^ j = half at one
      rcases Nat.eq_zero_or_pos (term - a) with zero | some_
      · rw [zero, Nat.div_eq_of_lt (by omega)]
      · exact Nat.div_le_of_le_mul (by nlinarith)
    have sum : a + (term - a + 2 ^ j) / 2 ^ (j + 1) ≤ a + (term - a) := Nat.add_le_add_left step a
    rw [Nat.add_sub_cancel' up] at sum
    exact sum.trans (Nat.le_max_right ..)
  · exact (Nat.sub_le ..).trans (Nat.le_max_left ..)

/-- The term of a diverging reading lies between the average and the reading. -/
theorem clampedTerm_le_max {limit a l : Nat} (far : diverges limit a l = true) :
    clampedTerm limit a l ≤ max a (4 * l) := by
  simp only [diverges, Bool.or_eq_true, decide_eq_true_eq] at far
  unfold clampedTerm
  split <;> omega

/-- An average after a valid level stays within 0..400. -/
theorem EvaluatorSettings.averageIf_le (e : EvaluatorSettings) {a level : Option Nat} (old : ∀ n ∈ a, n ≤ 400)
    (valid : ∀ l ∈ level, l ≤ 100) : ∀ n ∈ (e.averageIf a level).average, n ≤ 400 := by
  cases level with
  | none => exact old
  | some l =>
    have low : 4 * l ≤ 400 := Nat.mul_le_mul_left 4 (valid l rfl)
    cases a with
    | none =>
      rintro n ⟨⟩
      exact low
    | some a =>
      have held : a ≤ 400 := old a rfl
      have moved {term : Nat} (within : term ≤ max a (4 * l)) : smooth e.smoothing a term ≤ 400 :=
        (smooth_le_max ..).trans (Nat.max_le.mpr ⟨held, within.trans (Nat.max_le.mpr ⟨held, low⟩)⟩)
      simp only [EvaluatorSettings.averageIf, EvaluatorSettings.average]
      split
      · next far =>
        split <;> rintro n ⟨⟩
        · exact moved (clampedTerm_le_max far)
        · exact held
      · rintro n ⟨⟩
        exact moved (Nat.le_max_right ..)

/-! ### Scores (R114) -/

theorem EvaluatorSettings.storedScore_inRange {e : EvaluatorSettings} {raw n : Int} (stored : e.storedScore raw = some n) :
    scoreInRange n := by
  unfold EvaluatorSettings.storedScore at stored
  split at stored
  · split at stored <;> cases stored
    unfold scoreInRange
    omega
  · next fits =>
    cases stored
    simp only [saturates, Bool.or_eq_true, decide_eq_true_eq, not_or, not_lt] at fits
    exact ⟨fits.1, fits.2⟩

/-! ### One entry under one sample -/

/-- What a sample makes of an entry that it keeps: the target stays, and average and score stay within their ranges. -/
structure Candidate.Keeps (c c' : Candidate) : Prop where
  target : c'.target = c.target
  average : c.average ≤ 400 → c'.average ≤ 400
  score : (∀ n ∈ c.lastScore, scoreInRange n) → ∀ n ∈ c'.lastScore, scoreInRange n

theorem Candidate.Keeps.refl (c : Candidate) : c.Keeps c := ⟨rfl, id, id⟩

/-- The neighbour readings of a sample that are valid are levels 0..100 (R98). -/
def Sample.levelled (x : Sample) : Prop := ∀ n ∈ x.neighbours, ∀ l ∈ n.reading.level, l ≤ 100

section
variable {x : Sample} (levelled : x.levelled) (e : EvaluatorSettings)

include levelled

/-- The average of an entry after the reading that names it. -/
theorem Candidate.average_le {c : Candidate} {n : NeighbourReading} (named : x.names c.target = some n)
    (old : c.average ≤ 400) : (e.averageIf (some c.average) n.reading.level).average.getD c.average ≤ 400 := by
  have bounded := e.averageIf_le (a := some c.average) (by rintro _ ⟨⟩; exact old)
    (levelled n (List.mem_of_find?_eq_some named))
  cases found : (e.averageIf (some c.average) n.reading.level).average with
  | none => exact old
  | some a => exact bounded a found

/-- A weighed entry (R119): it keeps what the laws ask, and its score in this sample is one that may be stored. -/
theorem Candidate.keeps_weigh (list : List Neighbour) (low : Target → Bool) (serving : Option Nat) (c : Candidate) :
    c.Keeps (e.weigh list low serving x c).entry ∧ ∀ n ∈ (e.weigh list low serving x c).score, scoreInRange n := by
  unfold EvaluatorSettings.weigh
  split
  · exact ⟨.refl c, forall_mem_none⟩
  · next named =>
    have scored (raw : Option Int) : ∀ n ∈ raw.bind e.storedScore, scoreInRange n := fun n stored => by
      obtain ⟨_, _, stored⟩ := Option.bind_eq_some_iff.mp stored
      exact EvaluatorSettings.storedScore_inRange stored
    exact ⟨⟨rfl, Candidate.average_le levelled e named, fun _ => scored _⟩, scored _⟩

/-- An entry of a doubtful sample (R118). -/
theorem Candidate.keeps_weighDoubtful (c : Candidate) : c.Keeps (e.weighDoubtful x c).entry := by
  unfold EvaluatorSettings.weighDoubtful
  split
  · exact .refl c
  · next named => exact ⟨rfl, Candidate.average_le levelled e named, id⟩

end

theorem Weighed.missed_some {w w' : Weighed} (kept : w.missed = some w') :
    w.entry.Keeps w'.entry ∧ w'.score = w.score := by
  unfold Weighed.missed at kept
  split at kept
  · cases kept
    exact ⟨.refl _, rfl⟩
  · split at kept <;> cases kept
    exact ⟨⟨rfl, id, id⟩, rfl⟩

/-! ### The insertion rule (R121) -/

section
variable {α : Type} {cand : α → Candidate} {make : Candidate → α} {target : Target} {p : Fin 8} {average : Nat} {l : List α}

theorem lowestPlace_lt {k a : Nat} (found : lowestPlace cand l = some (k, a)) : k < l.length := by
  induction l generalizing k a with
  | nil => cases found
  | cons e l ih =>
    rw [lowestPlace] at found
    split at found
    · cases found
      exact Nat.succ_pos _
    · next rest =>
      split at found <;> cases found
      · exact Nat.succ_pos _
      · exact Nat.succ_lt_succ (ih rest)

/-- An offer changes nothing, or puts a new target at the end of what it leaves of the list. -/
theorem insertRule_cases (cand : α → Candidate) (make : Candidate → α) (target : Target) (p : Fin 8) (average : Nat)
    (l : List α) : insertRule cand make target p average l = l ∨
      ∃ rest, rest.Sublist l ∧ (l.length ≤ 6 → rest.length < 6) ∧ (∀ e ∈ l, (cand e).target ≠ target) ∧
        insertRule cand make target p average l = rest ++ [make (Candidate.fresh target p average)] := by
  unfold insertRule
  split
  · exact .inl rfl
  · next new =>
    have new : ∀ e ∈ l, (cand e).target ≠ target := by simpa using new
    split
    · next room => exact .inr ⟨l, List.Sublist.refl l, fun _ => room, new, rfl⟩
    split
    · exact .inl rfl
    · next k _ lowest =>
      split
      · refine .inr ⟨l.eraseIdx k, List.eraseIdx_sublist .., fun few => ?_, new, rfl⟩
        have inside := lowestPlace_lt lowest
        rw [List.length_eraseIdx_of_lt inside]
        omega
      · exact .inl rfl

/-- At most 6 entries, never two with the same target (R108). -/
def distinct (cand : α → Candidate) (l : List α) : Prop :=
  l.length ≤ 6 ∧ (l.map fun e => (cand e).target).Nodup

theorem distinct_insertRule (made : ∀ c, cand (make c) = c) (h : distinct cand l) :
    distinct cand (insertRule cand make target p average l) := by
  rcases insertRule_cases cand make target p average l with e | ⟨rest, sub, few, new, e⟩ <;> rw [e]
  · exact h
  · obtain ⟨length, nodup⟩ := h
    refine ⟨by simpa using few length, ?_⟩
    rw [List.map_append, List.nodup_append]
    refine ⟨nodup.sublist (sub.map _), List.nodup_singleton _, ?_⟩
    simp only [List.mem_map, List.map_cons, made, List.map_nil, List.mem_singleton, forall_eq]
    rintro _ ⟨v, mem, rfl⟩
    exact new v (sub.subset mem)

theorem forall_insertRule {P : α → Prop} (h : ∀ e ∈ l, P e) (new : P (make (Candidate.fresh target p average))) :
    ∀ e ∈ insertRule cand make target p average l, P e := by
  rcases insertRule_cases cand make target p average l with e | ⟨rest, sub, _, _, e⟩ <;> rw [e]
  · exact h
  · intro v mem
    rcases List.mem_append.mp mem with mem | mem
    · exact h v (sub.subset mem)
    · exact List.mem_singleton.mp mem ▸ new

end

/-! ### Stages 4 and 5 for the whole list -/

theorem distinct_missed {l : List Weighed} (h : distinct Weighed.entry l) :
    distinct Weighed.entry (l.filterMap Weighed.missed) := by
  have sub : ((l.filterMap Weighed.missed).map fun w => w.entry.target).Sublist (l.map fun w => w.entry.target) := by
    induction l with
    | nil => exact List.Sublist.refl _
    | cons w l ih =>
      have rest := ih ⟨(Nat.le_succ _).trans h.1, (List.nodup_cons.mp h.2).2⟩
      rw [List.filterMap_cons]
      split
      · exact rest.cons _
      · next w' kept =>
        rw [List.map_cons, List.map_cons, (Weighed.missed_some kept).1.target]
        exact rest.cons_cons _
  exact ⟨(List.length_filterMap_le ..).trans h.1, h.2.sublist sub⟩

theorem distinct_offered {l : List Weighed} (readings : List NeighbourReading) (h : distinct Weighed.entry l) :
    distinct Weighed.entry (readings.foldl offerReading l) := by
  induction readings generalizing l with
  | nil => exact h
  | cons n readings ih =>
    refine ih ?_
    unfold offerReading
    split
    · exact distinct_insertRule (fun _ => rfl) h
    · exact h

/-- An entry that a valid neighbour reading of a sample brings in. -/
def Sample.brings (x : Sample) (c : Candidate) : Prop :=
  ∃ n ∈ x.neighbours, ∃ l, n.reading.level = some l ∧ c = Candidate.fresh n.target n.position (4 * l)

theorem forall_offered {P : Weighed → Prop} {readings : List NeighbourReading} {l : List Weighed} (h : ∀ w ∈ l, P w)
    (new : ∀ n ∈ readings, ∀ l, n.reading.level = some l →
      P (Weighed.untouched (Candidate.fresh n.target n.position (4 * l)))) :
    ∀ w ∈ readings.foldl offerReading l, P w := by
  induction readings generalizing l with
  | nil => exact h
  | cons n readings ih =>
    refine ih ?_ fun m mem => new m (List.mem_cons_of_mem _ mem)
    unfold offerReading
    split
    · next level valid => exact forall_insertRule h (new n List.mem_cons_self level (by rw [valid]; rfl))
    · exact h

/-! ### The choice (R123 to R126) -/

theorem choose_some {test : Weighed → Bool} {l : List Weighed} {w : Weighed} {n : Int}
    (chosen : choose test l = some (w, n)) : w ∈ l ∧ w.score = some n ∧ test w = true := by
  have sound : ∀ b ∈ choose test l, b.1 ∈ l ∧ b.1.score = some b.2 ∧ test b.1 = true := by
    refine List.foldlRecOn l _ (motive := fun best : Option (Weighed × Int) =>
      ∀ b ∈ best, b.1 ∈ l ∧ b.1.score = some b.2 ∧ test b.1 = true) forall_mem_none fun best h v mem => ?_
    split
    · exact h
    · next m scored =>
      split
      · next passes =>
        have taken : ∀ b ∈ some (v, m), b.1 ∈ l ∧ b.1.score = some b.2 ∧ test b.1 = true := by
          rintro _ ⟨⟩
          exact ⟨mem, scored, passes⟩
        split
        · exact taken
        · split
          · exact taken
          · exact h
      · exact h
  exact sound _ chosen

/-- Whatever a judgement answers, its best candidate is an entry with its score, and so is the one it hands on, which is
eligible; and it hands one on only in phase NONE. -/
theorem EvaluatorSettings.judge_sound (e : EvaluatorSettings) (eligible : Candidate → Bool) (idle guarded : Bool)
    (uplink : Option Nat) (l : List Weighed) :
    (∀ b ∈ (e.judge eligible idle guarded uplink l).best, ∃ w ∈ l, w.score = some b.2) ∧
    ∀ b ∈ (e.judge eligible idle guarded uplink l).chosen, eligible b.1 = true ∧ idle = true := by
  have best {test : Weighed → Bool} : ∀ b ∈ bestOf (choose test l), ∃ w ∈ l, w.score = some b.2 := by
    intro b found
    obtain ⟨⟨w, n⟩, chosen, rfl⟩ := Option.map_eq_some_iff.mp found
    obtain ⟨mem, scored, _⟩ := choose_some chosen
    exact ⟨w, mem, scored⟩
  have move {test : Weighed → Bool} {w : Weighed × Int}
      (chosen : choose (fun w => test w && eligible w.entry) l = some w) (d : Decision) :
      (∀ b ∈ (Verdict.move d w).best, ∃ w ∈ l, w.score = some b.2) ∧
      ∀ b ∈ (Verdict.move d w).chosen, eligible b.1 = true := by
    obtain ⟨mem, scored, passes⟩ := choose_some chosen
    refine ⟨by rintro _ ⟨⟩; exact ⟨_, mem, scored⟩, by rintro _ ⟨⟩; exact (Bool.and_eq_true_iff.mp passes).2⟩
  have applied {p : Prop} [Decidable p] {test : Weighed → Bool} {w : Weighed × Int}
      (found : (if p then choose test l else none) = some w) : choose test l = some w := by
    split at found
    · exact found
    · cases found
  unfold EvaluatorSettings.judge
  dsimp only
  split
  · exact ⟨best, forall_mem_none⟩
  · next busy =>
    have idle : idle = true := by simpa using busy
    split
    · next rescue => exact (move (applied rescue) .rescue).imp_right fun h b mem => ⟨h b mem, idle⟩
    split
    · exact ⟨best, forall_mem_none⟩
    split
    · next trigger => exact (move trigger .trigger).imp_right fun h b mem => ⟨h b mem, idle⟩
    split
    · next rescues => exact ⟨applied rescues ▸ best, forall_mem_none⟩
    · next trigger => exact ⟨trigger ▸ best, forall_mem_none⟩
    · exact ⟨best, forall_mem_none⟩

/-! ### A whole evaluation (R117) -/

section
variable {x : Sample} (levelled : x.levelled) (k : EvalContext) (serving uplink : Option Nat) (l : List Candidate)

/-- The evaluation of a doubtful sample (R118): averages alone. -/
theorem evaluate_doubtful (doubtful : x.doubtful = true) :
    (evaluate k serving uplink l x).candidates = (l.map (k.settings.weighDoubtful x)).map Weighed.entry ∧
      (evaluate k serving uplink l x).verdict = { decision := .doubtful, best := none, chosen := none } := by
  unfold evaluate
  rw [if_pos doubtful]
  exact ⟨rfl, rfl⟩

/-- The entries of an evaluation, weighed, with misses counted, and offered the sample's readings (R119 to R121). -/
def Sample.weighs (k : EvalContext) (serving : Option Nat) (l : List Candidate) (x : Sample) : List Weighed :=
  x.neighbours.foldl offerReading ((l.map (k.settings.weigh k.list k.low
    (if x.downlink.level.isSome && !(k.settings.averageIf serving x.downlink.level).aside
      then (k.settings.averageIf serving x.downlink.level).average else none) x)).filterMap Weighed.missed)

theorem evaluate_sound (sound : x.doubtful = false) :
    (evaluate k serving uplink l x).candidates = (x.weighs k serving l).map Weighed.entry ∧
      (evaluate k serving uplink l x).verdict = k.settings.judge k.eligible k.idle k.guarded
        (k.settings.averageIf uplink x.uplink).average (x.weighs k serving l) := by
  unfold evaluate
  rw [if_neg (Bool.eq_false_iff.mp sound)]
  exact ⟨rfl, rfl⟩

theorem evaluate_averages :
    (evaluate k serving uplink l x).serving = (k.settings.averageIf serving x.downlink.level).average ∧
    (evaluate k serving uplink l x).uplink = (k.settings.averageIf uplink x.uplink).average := by
  unfold evaluate
  split <;> exact ⟨rfl, rfl⟩

include levelled in
/-- An entry that went through the evaluation: one that was held, or one that a reading brought; its score in this sample
is one that may be stored. -/
theorem Sample.weighs_sound : ∀ w ∈ x.weighs k serving l,
    ((∃ c ∈ l, c.Keeps w.entry) ∨ x.brings w.entry) ∧ ∀ n ∈ w.score, scoreInRange n := by
  refine forall_offered (fun w mem => ?_) fun n mem level valid => ⟨.inr ⟨n, mem, level, valid, rfl⟩, forall_mem_none⟩
  obtain ⟨v, weighed, kept⟩ := List.mem_filterMap.mp mem
  obtain ⟨c, held, rfl⟩ := List.mem_map.mp weighed
  obtain ⟨keeps, scored⟩ := Candidate.keeps_weigh levelled k.settings k.list k.low _ c
  obtain ⟨missed, score⟩ := Weighed.missed_some kept
  refine ⟨.inl ⟨c, held, missed.target.trans keeps.target, missed.average ∘ keeps.average, missed.score ∘ keeps.score⟩, ?_⟩
  rwa [score]

include levelled in
/-- Every candidate after an evaluation was held before or came with the sample. -/
theorem mem_evaluate {c' : Candidate} (mem : c' ∈ (evaluate k serving uplink l x).candidates) :
    (∃ c ∈ l, c.Keeps c') ∨ x.brings c' := by
  cases doubtful : x.doubtful with
  | true =>
    rw [(evaluate_doubtful k serving uplink l doubtful).1] at mem
    obtain ⟨_, weighed, rfl⟩ := List.mem_map.mp mem
    obtain ⟨c, held, rfl⟩ := List.mem_map.mp weighed
    exact .inl ⟨c, held, Candidate.keeps_weighDoubtful levelled k.settings c⟩
  | false =>
    rw [(evaluate_sound k serving uplink l doubtful).1] at mem
    obtain ⟨w, offered, rfl⟩ := List.mem_map.mp mem
    exact (Sample.weighs_sound levelled k serving l w offered).1

include levelled in
theorem evaluate_best_inRange : ∀ b ∈ (evaluate k serving uplink l x).verdict.best, scoreInRange b.2 := by
  cases doubtful : x.doubtful with
  | true =>
    rw [(evaluate_doubtful k serving uplink l doubtful).2]
    exact forall_mem_none
  | false =>
    rw [(evaluate_sound k serving uplink l doubtful).2]
    intro b best
    obtain ⟨w, mem, scored⟩ := (EvaluatorSettings.judge_sound ..).1 b best
    exact (Sample.weighs_sound levelled k serving l w mem).2 _ scored

/-- An entry handed on is eligible, and handed on in phase NONE (R122, R123). -/
theorem evaluate_chosen : ∀ b ∈ (evaluate k serving uplink l x).verdict.chosen, k.eligible b.1 = true ∧ k.idle = true := by
  cases doubtful : x.doubtful with
  | true =>
    rw [(evaluate_doubtful k serving uplink l doubtful).2]
    exact forall_mem_none
  | false =>
    rw [(evaluate_sound k serving uplink l doubtful).2]
    exact (EvaluatorSettings.judge_sound ..).2

/-- An evaluation leaves at most 6 entries with different targets (R108). -/
theorem distinct_evaluate (h : distinct id l) : distinct id (evaluate k serving uplink l x).candidates := by
  have weighed {weigh : Candidate → Weighed} (same : ∀ c, (weigh c).entry.target = c.target) :
      distinct Weighed.entry (l.map weigh) := by
    refine ⟨(List.length_map _).le.trans h.1, ?_⟩
    rw [List.map_map]
    exact (List.map_congr_left fun c _ => same c) ▸ h.2
  have entries {ws : List Weighed} (h : distinct Weighed.entry ws) : distinct id (ws.map Weighed.entry) :=
    ⟨(List.length_map _).le.trans h.1, by rw [List.map_map]; exact h.2⟩
  cases doubtful : x.doubtful with
  | true =>
    rw [(evaluate_doubtful k serving uplink l doubtful).1]
    refine entries (weighed fun c => ?_)
    unfold EvaluatorSettings.weighDoubtful
    split <;> rfl
  | false =>
    rw [(evaluate_sound k serving uplink l doubtful).1]
    refine entries (distinct_offered _ (distinct_missed (weighed fun c => ?_)))
    unfold EvaluatorSettings.weigh
    split <;> rfl

end

/-! ### The sample of a report (R96 to R100) -/

theorem level_classed_le {v : BitVec 7} {l : Nat} (valid : (classed v).level = some l) : l ≤ 100 := by
  unfold classed at valid
  split at valid
  · cases valid
    assumption
  · split at valid <;> cases valid

/-- Each neighbour entry of a sample is a listed target with a classed reading. -/
theorem mem_readNeighbours {list : List Neighbour} {seen : List (Fin 8)} {readings : List (Fin 8 × BitVec 7)}
    {n : NeighbourReading} (mem : n ∈ (readNeighbours list seen readings).1) :
    (∃ m ∈ list, n.target = m.target) ∧ ∃ v, n.reading = classed v := by
  induction readings generalizing seen with
  | nil => cases mem
  | cons q readings ih =>
    obtain ⟨p, v⟩ := q
    unfold readNeighbours at mem
    dsimp only at mem
    split at mem
    · exact ih mem
    · split at mem
      · exact ih mem
      · next m listed =>
        rcases List.mem_cons.mp mem with rfl | mem
        · exact ⟨⟨m, List.mem_of_getElem? listed, rfl⟩, v, rfl⟩
        · exact ih mem

section
variable (number : BitVec 32) (tick : Tick) (tolerance : Nat) (list : List Neighbour) (f : ReportFrame)

theorem buildSample_levelled : (buildSample number tick tolerance list f).levelled := by
  intro n mem l valid
  obtain ⟨_, v, reading⟩ := mem_readNeighbours mem
  exact level_classed_le (reading ▸ valid)

theorem buildSample_downlink_le : ∀ l ∈ (buildSample number tick tolerance list f).downlink.level, l ≤ 100 :=
  fun _ valid => level_classed_le valid

theorem buildSample_uplink_le : ∀ l ∈ (buildSample number tick tolerance list f).uplink, l ≤ 100 := by
  intro l valid
  obtain ⟨r, read, valid⟩ := Option.bind_eq_some_iff.mp valid
  obtain ⟨v, _, rfl⟩ := Option.map_eq_some_iff.mp read
  exact level_classed_le valid

end

end Sys2Proof.Machine
end

