-- ==== Sys2Proof/Proofs/ContextEdits.lean ====
section
/-! What can happen to a call context as far as rings, candidates, averages and scores go (R102, R108, R109, R114): a sample
joins, a handover completes, or the fields stay or are cleared. Each of these keeps each law of the context. -/

namespace Sys2Proof.Machine

/-! ### Edits of a context -/

/-- What the laws read of a candidate. -/
def Candidate.read (c : Candidate) : Target × Nat × Option Int := (c.target, c.average, c.lastScore)

/-- The serving base of a context that is not FREE. -/
def Context.servedAt (x : Context) : Option BaseIx := x.call.map fun i => i.serving.base

/-- A neighbour list that does not name the base itself, where `checked` says so (R3). -/
def notItself (checked : Prop) (list : List Neighbour) (b : BaseIx) : Prop :=
  checked → ∀ n ∈ list, n.target ≠ .localBase b

/-- An edit of a context. `checked` says that neighbour lists have passed the configuration check. -/
inductive Context.Edit (checked : Prop) (x : Context) : Context → Prop
  /-- ring, averages and candidates stay or are cleared, and with candidates the serving base stays -/
  | calm {x' : Context} (ring : (x'.ring = x.ring ∧ x'.nextSample = x.nextSample) ∨ x'.ring = [])
      (serving : x'.serving = x.serving ∨ x'.serving = none) (uplink : x'.uplink = x.uplink ∨ x'.uplink = none)
      (candidates : x'.candidates.map Candidate.read = x.candidates.map Candidate.read ∧
        (x'.servedAt = x.servedAt ∨ x'.call = none) ∨ x'.candidates = []) : Edit checked x x'
  /-- the sample of a report joins the ring and is evaluated (R101 to R103) -/
  | sampled (i : CallInfo) (call : x.call = some i) (list : List Neighbour)
      (away : notItself checked list i.serving.base) (k : EvalContext) (tick : Tick) (tolerance : Nat) (f : ReportFrame)
      (e : EvaluatorSettings) : Edit checked x
        (let smp := buildSample x.nextSample tick tolerance list f
         let v := evaluate k x.serving x.uplink x.candidates smp
         x.appended (smp.decided v.verdict) v e)
  /-- a local handover completes (R142, R143) -/
  | moved (i : CallInfo) (call : x.call = some i) (target : ChanRef) (list : List Neighbour)
      (away : notItself checked list target.base) (st : Settings) : Edit checked x
        (({ x with call := some { i with serving := target } } : Context).completed st i.serving.base target.base list)

/-! ### The laws of one context -/

/-- The ring of a context in order (R102). -/
def Context.ringOrdered (x : Context) : Prop :=
  x.ring.length ≤ 16 ∧ ∀ (k : Nat) (y : Sample), x.ring[k]? = some y →
    y.number = x.nextSample - BitVec.ofNat 32 (x.ring.length - k)

/-- The averages of a context within 0..400 (R109). -/
def Context.averagesBounded (x : Context) : Prop :=
  (∀ a ∈ x.serving, a ≤ 400) ∧ (∀ a ∈ x.uplink, a ≤ 400) ∧ ∀ e ∈ x.candidates, e.average ≤ 400

/-- The scores of a context within −256..255 (R114). -/
def Context.scoresBounded (x : Context) : Prop :=
  (∀ e ∈ x.candidates, ∀ n ∈ e.lastScore, scoreInRange n) ∧ ∀ y ∈ x.ring, ∀ p ∈ y.best, scoreInRange p.2

/-- No candidate of a context is its serving base (R108). -/
def Context.servingApart (x : Context) : Prop :=
  ∀ b ∈ x.servedAt, ∀ e ∈ x.candidates, e.target ≠ .localBase b

theorem State.servingNoCandidate_iff (s : State) : s.servingNoCandidate ↔ ∀ c, (s.ctx c).servingApart := by
  simp only [State.servingNoCandidate, Context.servingApart, Context.servedAt, Option.mem_def, Option.map_eq_some_iff,
    forall_exists_index, and_imp, forall_apply_eq_imp_iff₂]

/-! ### A sample joins -/

theorem lastSamples_append (ring : List Sample) (smp : Sample) :
    lastSamples 16 (ring ++ [smp]) = (ring ++ [smp]).drop (ring.length + 1 - 16) := by
  rw [lastSamples, List.length_append, List.length_singleton]

theorem Context.ringOrdered_appended {x : Context} (h : x.ringOrdered) {smp : Sample} (number : smp.number = x.nextSample)
    (v : Evaluation) (e : EvaluatorSettings) : (x.appended smp v e).ringOrdered := by
  obtain ⟨few, numbers⟩ := h
  show (lastSamples 16 (x.ring ++ [smp])).length ≤ 16 ∧ ∀ (k : Nat) (y : Sample),
    (lastSamples 16 (x.ring ++ [smp]))[k]? = some y →
      y.number = x.nextSample + 1 - BitVec.ofNat 32 ((lastSamples 16 (x.ring ++ [smp])).length - k)
  rw [lastSamples_append, List.length_drop, List.length_append, List.length_singleton]
  refine ⟨by omega, fun k y at_ => ?_⟩
  rw [List.getElem?_drop] at at_
  generalize dropped : x.ring.length + 1 - 16 = d at at_
  have inside : d + k < x.ring.length + 1 := by
    simpa using (List.getElem?_eq_some_iff.mp at_).1
  have place : x.ring.length + 1 - d - k = x.ring.length - (d + k) + 1 := by omega
  rw [place, BitVec.ofNat_add, show x.nextSample + 1 - (BitVec.ofNat 32 (x.ring.length - (d + k)) + BitVec.ofNat 32 1) =
    x.nextSample - BitVec.ofNat 32 (x.ring.length - (d + k)) from add_sub_add_right_eq_sub ..]
  rcases Nat.lt_succ_iff_lt_or_eq.mp inside with before | last
  · rw [List.getElem?_append_left before] at at_
    exact numbers _ y at_
  · rw [last, List.getElem?_concat_length] at at_
    cases at_
    rw [last, Nat.sub_self, number]
    exact (sub_zero _).symm

section
variable {x : Context} (k : EvalContext) {smp : Sample} (levelled : smp.levelled) (e : EvaluatorSettings)

theorem Context.distinct_appended (h : distinct id x.candidates) :
    distinct id (x.appended (smp.decided (evaluate k x.serving x.uplink x.candidates smp).verdict)
      (evaluate k x.serving x.uplink x.candidates smp) e).candidates :=
  distinct_evaluate k x.serving x.uplink x.candidates h

include levelled in
theorem Context.averagesBounded_appended (h : x.averagesBounded) (downlink : ∀ l ∈ smp.downlink.level, l ≤ 100)
    (up : ∀ l ∈ smp.uplink, l ≤ 100) :
    (x.appended (smp.decided (evaluate k x.serving x.uplink x.candidates smp).verdict)
      (evaluate k x.serving x.uplink x.candidates smp) e).averagesBounded := by
  obtain ⟨serving, uplink, candidates⟩ := h
  obtain ⟨served, lifted⟩ := evaluate_averages (x := smp) k x.serving x.uplink x.candidates
  refine ⟨fun a here => ?_, fun a here => ?_, fun c mem => ?_⟩
  · exact k.settings.averageIf_le serving downlink a (served ▸ here)
  · exact k.settings.averageIf_le uplink up a (lifted ▸ here)
  · rcases mem_evaluate levelled k x.serving x.uplink x.candidates mem with ⟨old, held, keeps⟩ | ⟨n, named, l, valid, rfl⟩
    · exact keeps.average (candidates old held)
    · exact Nat.mul_le_mul_left 4 (levelled n named l valid)

include levelled in
theorem Context.scoresBounded_appended (h : x.scoresBounded) :
    (x.appended (smp.decided (evaluate k x.serving x.uplink x.candidates smp).verdict)
      (evaluate k x.serving x.uplink x.candidates smp) e).scoresBounded := by
  obtain ⟨candidates, ring⟩ := h
  refine ⟨fun c mem => ?_, fun y mem => ?_⟩
  · rcases mem_evaluate levelled k x.serving x.uplink x.candidates mem with ⟨old, held, keeps⟩ | ⟨n, named, l, valid, rfl⟩
    · exact keeps.score (candidates old held)
    · exact forall_mem_none
  · rcases List.mem_append.mp (List.mem_of_mem_drop mem) with old | new
    · exact ring y old
    · rw [List.mem_singleton.mp new]
      exact evaluate_best_inRange levelled k x.serving x.uplink x.candidates

include levelled in
theorem Context.servingApart_appended (h : x.servingApart)
    (away : ∀ b ∈ x.servedAt, ∀ n ∈ smp.neighbours, n.target ≠ .localBase b) :
    (x.appended (smp.decided (evaluate k x.serving x.uplink x.candidates smp).verdict)
      (evaluate k x.serving x.uplink x.candidates smp) e).servingApart := by
  intro b served c mem
  rcases mem_evaluate levelled k x.serving x.uplink x.candidates mem with ⟨old, held, keeps⟩ | ⟨n, named, l, valid, rfl⟩
  · exact keeps.target ▸ h b served old held
  · exact away b served n named

end

/-! ### A handover completes -/

section
variable {x : Context} {old new : BaseIx} {list : List Neighbour}

/-- Every entry after a completed handover: a remaining one, with its target and average, or the old serving base. -/
theorem mem_reworkList {noted : Option Nat} {l : List Candidate} {e : Candidate} (mem : e ∈ reworkList noted old new list l) :
    e.lastScore = none ∧ ((∃ v ∈ l, e.target = v.target ∧ e.average = v.average ∧ e.target ≠ .localBase new) ∨
      e.target = .localBase old ∧ (∃ n ∈ list, n.target = .localBase old) ∧ some e.average = noted) := by
  have remaining {e : Candidate} (mem : e ∈ remainingEntries list new l) : e.lastScore = none ∧
      ∃ v ∈ l, e.target = v.target ∧ e.average = v.average ∧ e.target ≠ .localBase new := by
    obtain ⟨_, _, score, _, away⟩ := Candidate.of_remaining mem
    obtain ⟨v, kept, placed⟩ := List.mem_filterMap.mp mem
    obtain ⟨k, _, rfl⟩ := Option.map_eq_some_iff.mp placed
    exact ⟨score, v, (List.mem_filter.mp kept).1, rfl, rfl, away⟩
  by_cases none_ : noted = none ∨ placeOf list (.localBase old) = none
  · rw [reworkList_kept none_] at mem
    exact (remaining mem).imp_right .inl
  · obtain ⟨known, place⟩ := not_or.mp none_
    obtain ⟨average, rfl⟩ := Option.ne_none_iff_exists'.mp known
    obtain ⟨p, place⟩ := Option.ne_none_iff_exists'.mp place
    rw [reworkList_offered rfl place] at mem
    rcases mem_insertRule mem with mem | rfl
    · exact (remaining mem).imp_right .inl
    · obtain ⟨n, listed, target⟩ := Option.map_eq_some_iff.mp (placeOf_eq_some_iff.mp place).1
      exact ⟨rfl, .inr ⟨rfl, ⟨n, List.mem_of_getElem? listed, target⟩, rfl⟩⟩

theorem distinct_reworkList {noted : Option Nat} {l : List Candidate} (h : distinct id l) :
    distinct id (reworkList noted old new list l) := by
  have remaining : distinct id (remainingEntries list new l) := by
    have sub : ((remainingEntries list new l).map Candidate.target).Sublist (l.map Candidate.target) := by
      refine List.Sublist.trans ?_ ((List.filter_sublist (p := fun e => e.target != .localBase new)).map _)
      unfold remainingEntries
      generalize l.filter (fun e => e.target != .localBase new) = kept
      induction kept with
      | nil => exact List.Sublist.refl _
      | cons e kept ih =>
        rw [List.filterMap_cons]
        split
        · exact ih.cons _
        · next placed =>
          obtain ⟨k, _, rfl⟩ := Option.map_eq_some_iff.mp placed
          exact ih.cons_cons _
    refine ⟨?_, h.2.sublist sub⟩
    simpa using sub.length_le.trans (by simpa using h.1)
  by_cases none_ : noted = none ∨ placeOf list (.localBase old) = none
  · rwa [reworkList_kept none_]
  · obtain ⟨known, place⟩ := not_or.mp none_
    obtain ⟨average, known⟩ := Option.ne_none_iff_exists'.mp known
    obtain ⟨p, place⟩ := Option.ne_none_iff_exists'.mp place
    rw [reworkList_offered known place]
    exact distinct_insertRule (fun _ => rfl) remaining

theorem Context.averagesBounded_completed (h : x.averagesBounded) (st : Settings) (call : Option CallInfo) :
    (({ x with call := call } : Context).completed st old new list).averagesBounded := by
  obtain ⟨serving, _, candidates⟩ := h
  refine ⟨fun a found => ?_, forall_mem_none, fun e mem => ?_⟩
  · obtain ⟨c, held, rfl⟩ := Option.map_eq_some_iff.mp found
    exact candidates c (List.mem_of_find?_eq_some held)
  · rcases (mem_reworkList mem).2 with ⟨v, held, _, same, _⟩ | ⟨_, _, noted⟩
    · exact same ▸ candidates v held
    · exact serving _ noted.symm

end

/-! ### Every edit -/

section
variable {checked : Prop} {x x' : Context}

/-- What holds of the target, average and score of every candidate still does after a calm edit. -/
theorem forall_of_read {P : Target × Nat × Option Int → Prop} {l l' : List Candidate}
    (same : l'.map Candidate.read = l.map Candidate.read) (h : ∀ e ∈ l, P e.read) : ∀ e ∈ l', P e.read := by
  rw [← List.forall_mem_map (f := Candidate.read)] at h ⊢
  rwa [same]

theorem Context.Edit.ringOrdered (edit : x.Edit checked x') (h : x.ringOrdered) : x'.ringOrdered := by
  cases edit with
  | calm ring =>
    rcases ring with ⟨ring, next⟩ | ring
    · rwa [Context.ringOrdered, ring, next]
    · simp [Context.ringOrdered, ring]
  | sampled i call list away k tick tolerance f e => exact Context.ringOrdered_appended h rfl _ e
  | moved i call target list away st => exact h

theorem Context.Edit.distinct (edit : x.Edit checked x') (h : distinct id x.candidates) :
    Machine.distinct id x'.candidates := by
  cases edit with
  | calm _ _ _ candidates =>
    rcases candidates with ⟨same, _⟩ | none
    · have targets := congrArg (List.map Prod.fst) same
      rw [List.map_map, List.map_map] at targets
      have length : x'.candidates.length = x.candidates.length := by simpa using congrArg List.length same
      exact ⟨length.le.trans h.1, (congrArg List.Nodup targets).mpr h.2⟩
    · simp [Machine.distinct, none]
  | sampled i call list away k tick tolerance f e => exact Context.distinct_appended k e h
  | moved i call target list away st => exact distinct_reworkList h

theorem Context.Edit.averagesBounded (edit : x.Edit checked x') (h : x.averagesBounded) : x'.averagesBounded := by
  cases edit with
  | calm _ serving uplink candidates =>
    obtain ⟨served, lifted, averages⟩ := h
    refine ⟨?_, ?_, ?_⟩
    · rcases serving with e | e <;> rw [e]
      · exact served
      · exact forall_mem_none
    · rcases uplink with e | e <;> rw [e]
      · exact lifted
      · exact forall_mem_none
    · rcases candidates with ⟨same, _⟩ | none
      · exact forall_of_read (P := fun r => r.2.1 ≤ 400) same averages
      · simp [none]
  | sampled i call list away k tick tolerance f e =>
    exact Context.averagesBounded_appended k (buildSample_levelled _ _ _ _ _) e h (buildSample_downlink_le _ _ _ _ _)
      (buildSample_uplink_le _ _ _ _ _)
  | moved i call target list away st => exact Context.averagesBounded_completed h st _

theorem Context.Edit.scoresBounded (edit : x.Edit checked x') (h : x.scoresBounded) : x'.scoresBounded := by
  obtain ⟨scores, best⟩ := h
  cases edit with
  | calm ring _ _ candidates =>
    refine ⟨?_, ?_⟩
    · rcases candidates with ⟨same, _⟩ | none
      · exact forall_of_read (P := fun r => ∀ n ∈ r.2.2, scoreInRange n) same scores
      · simp [none]
    · rcases ring with ⟨e, _⟩ | e <;> rw [e]
      · exact best
      · exact fun _ mem => absurd mem List.not_mem_nil
  | sampled i call list away k tick tolerance f e =>
    exact Context.scoresBounded_appended k (buildSample_levelled _ _ _ _ _) e ⟨scores, best⟩
  | moved i call target list away st =>
    refine ⟨fun e mem => ?_, best⟩
    rw [(mem_reworkList mem).1]
    exact forall_mem_none

/-- Where neighbour lists have passed the check, no edit makes the serving base a candidate. -/
theorem Context.Edit.servingApart (edit : x.Edit True x') (h : x.servingApart) : x'.servingApart := by
  cases edit with
  | calm _ _ _ candidates =>
    rcases candidates with ⟨same, served | free⟩ | none
    · intro b here
      exact forall_of_read (P := fun r => r.1 ≠ .localBase b) same (h b (served ▸ here))
    · simp [Context.servingApart, Context.servedAt, free]
    · simp [Context.servingApart, none]
  | sampled i call list away k tick tolerance f e =>
    refine Context.servingApart_appended k (buildSample_levelled _ _ _ _ _) e h fun b served n mem => ?_
    obtain ⟨⟨m, listed, target⟩, _⟩ := mem_readNeighbours mem
    rw [Context.servedAt, call] at served
    cases served
    exact target ▸ away trivial m listed
  | moved i call target list away st =>
    rintro _ ⟨⟩ e mem
    rcases (mem_reworkList mem).2 with ⟨_, _, _, _, other⟩ | ⟨former, ⟨n, listed, named⟩, _⟩
    · exact other
    · exact fun same => away trivial n listed (named.trans (former.symm.trans same))

end

end Sys2Proof.Machine
end

