-- ==== Sys2Proof/Proofs/Upholding.lean ====
section
/-! The laws of O59 under the shared operations, the Handover Sequencer and the Call Unit, in the order of the definitions:
the configuration check and the UNUSED bases as laws of the state, the laws of the call contexts through their edits. -/

namespace Sys2Proof.Machine

open State

variable {watched checked : Prop} {s t u : State} {b : BaseIx} {c : CallIx}

/-! ### Upholding the laws -/

/-- A step from `s` to `t` keeps the configuration checked and, where `watched` says so, the UNUSED bases disabled; and each
context goes through edits alone, from checked neighbour lists where `checked` says so. -/
structure State.Upholds (watched checked : Prop) (s t : State) : Prop where
  config : s.configChecked → t.configChecked
  unused : watched → s.unusedAreDisabled → t.unusedAreDisabled
  contexts : ∀ c, Relation.ReflTransGen (Context.Edit checked) (s.ctx c) (t.ctx c)

theorem State.Upholds.refl (s : State) : s.Upholds watched checked s := ⟨id, fun _ => id, fun _ => .refl⟩

theorem State.Upholds.trans (h : s.Upholds watched checked t) (k : t.Upholds watched checked u) :
    s.Upholds watched checked u :=
  ⟨k.config ∘ h.config, fun w => k.unused w ∘ h.unused w, fun c => (h.contexts c).trans (k.contexts c)⟩

theorem upholds_ite {p : Prop} [Decidable p] (h : s.Upholds watched checked t) (k : s.Upholds watched checked u) :
    s.Upholds watched checked (if p then t else u) := by
  split
  · exact h
  · exact k

theorem upholds_foldl {α : Type} (f : State → α → State) (h : ∀ s a, State.Upholds watched checked s (f s a)) (l : List α)
    (s : State) : s.Upholds watched checked (l.foldl f s) := by
  induction l generalizing s with
  | nil => exact .refl s
  | cons a l ih => exact (h s a).trans (ih _)

/-! ### Updates -/

/-- A change of anything but run state, settings, bases and contexts. -/
theorem upholds_frame (runState : t.runState = s.runState) (settings : t.settings = s.settings)
    (bases : t.bases = s.bases) (contexts : t.contexts = s.contexts) : s.Upholds watched checked t := by
  refine ⟨?_, fun _ => ?_, fun c => ?_⟩
  · simp only [State.configChecked, runState, settings, imp_self]
  · simp only [State.unusedAreDisabled, State.base, State.cfg, settings, bases, imp_self]
  · simp only [State.ctx, contexts]
    exact .refl

theorem upholds_post (s : State) (n : NoticeBody) : s.Upholds watched checked (s.post n) := upholds_frame rfl rfl rfl rfl

theorem State.Upholds.post (h : s.Upholds watched checked t) (n : NoticeBody) : s.Upholds watched checked (t.post n) :=
  h.trans (upholds_post t n)

theorem upholds_setChan (s : State) (p : ChanRef) (k : Channel) : s.Upholds watched checked (s.setChan p k) :=
  upholds_frame rfl rfl rfl rfl

/-- A run state entered: HALTED, or one from a state whose configuration is checked. -/
theorem upholds_enter (s : State) (r : RunState) (w : RunCause)
    (checkedFirst : r ≠ .halted → s.configChecked → configCheck s.settings = none) :
    s.Upholds watched checked (s.enter r w) :=
  ⟨fun h running => checkedFirst running h, fun _ => id, fun _ => .refl⟩

theorem upholds_enter_running (w : RunCause) (r : RunState) (running : s.runState ≠ .halted) :
    s.Upholds watched checked (s.enter r w) :=
  upholds_enter s r w fun _ h => h running

/-- Base records replaced: each UNUSED exactly if it was, and then with an empty window still. -/
theorem upholds_bases (rs : Table BaseRecord 32)
    (same : watched → ∀ b, ((rs.get b).state = .unused ↔ (s.base b).state = .unused) ∧
      ((s.base b).state = .unused → (s.base b).window = [] → (rs.get b).window = [])) :
    s.Upholds watched checked { s with bases := rs } := by
  refine ⟨id, fun w h b => ?_, fun _ => .refl⟩
  obtain ⟨disabled, empty⟩ := h b
  obtain ⟨state, window⟩ := same w b
  exact ⟨state.trans disabled, fun e => window (state.mp e) (empty (state.mp e))⟩

theorem upholds_setBase (b : BaseIx) (r : BaseRecord)
    (state : watched → (r.state = .unused ↔ (s.base b).state = .unused) := by exact fun _ => Iff.rfl)
    (window : watched → (s.base b).state = .unused → (s.base b).window = [] → r.window = [] := by exact fun _ _ => id) :
    s.Upholds watched checked (s.setBase b r) := by
  refine upholds_bases _ fun w d => ?_
  rw [Table.get_set]
  split
  · next same => exact same ▸ ⟨state w, window w⟩
  · exact ⟨Iff.rfl, fun _ => id⟩

/-- A base in use replaced by one in use. -/
theorem upholds_setBase_used {r : BaseRecord} (used : watched → (s.base b).state ≠ .unused)
    (new : watched → r.state ≠ .unused) : s.Upholds watched checked (s.setBase b r) :=
  upholds_setBase b r (fun w => iff_of_false (new w) (used w)) fun w e => absurd e (used w)

theorem upholds_contexts (xs : Table Context 96) (edit : ∀ c, (s.ctx c).Edit checked (xs.get c)) :
    s.Upholds watched checked { s with contexts := xs } :=
  ⟨id, fun _ => id, fun c => .single (edit c)⟩

theorem upholds_setCtx (c : CallIx) (x : Context) (edit : (s.ctx c).Edit checked x) :
    s.Upholds watched checked (s.setCtx c x) := by
  refine ⟨id, fun _ => id, fun d => ?_⟩
  by_cases same : c = d
  · subst same
    rw [State.ctx_setCtx_self]
    exact .single edit
  · rw [State.ctx_setCtx_ne s x same]

/-- An edit that leaves alone what the laws read. -/
theorem Context.Edit.still {x x' : Context} (ring : x'.ring = x.ring := by exact rfl)
    (next : x'.nextSample = x.nextSample := by exact rfl) (serving : x'.serving = x.serving := by exact rfl)
    (uplink : x'.uplink = x.uplink := by exact rfl)
    (candidates : x'.candidates.map Candidate.read = x.candidates.map Candidate.read := by exact rfl)
    (served : x'.servedAt = x.servedAt := by exact rfl) : x.Edit checked x' :=
  .calm (.inl ⟨ring, next⟩) (.inl serving) (.inl uplink) (.inl ⟨candidates, .inl served⟩)

/-- The call of a context replaced by one with the same serving base. -/
theorem Context.servedAt_of_call {x x' : Context} {i i' : CallInfo} (call : x.call = some i) (call' : x'.call = some i')
    (serving : i'.serving = i.serving) : x'.servedAt = x.servedAt := by
  rw [Context.servedAt, Context.servedAt, call, call', Option.map_some, Option.map_some, serving]

/-! ### Orders and channels -/

theorem not_unused_of_inService {r : BaseRecord} (service : r.state = .inService) : r.state ≠ .unused := by
  simp [service]

theorem upholds_send (s : State) (b : BaseIx) (o : Order) (p : Placer) (w : OrderOwner)
    (used : watched → (s.base b).state ≠ .unused) : s.Upholds watched checked (s.send b o p w) := by
  refine State.Upholds.trans (t := s.setBase b _) (upholds_setBase_used used ?_) (upholds_frame rfl rfl rfl rfl)
  exact used

theorem upholds_overflow (s : State) (b : BaseIx) (o : Order) :
    s.Upholds watched checked (s.setBase b ((s.base b).overflow o)) :=
  upholds_setBase b _ (fun _ => by rw [BaseRecord.overflow_state]) fun _ _ => (BaseRecord.overflow_window ..).trans

theorem upholds_offer (s : State) (b : BaseIx) (o : Order) (p : Placer) (w : OrderOwner) :
    s.Upholds watched checked (s.offer b o p w).2 := by
  rcases s.offer_cases b o p w with ⟨_, e⟩ | ⟨service, _, e⟩ | ⟨_, _, e⟩ <;> rw [e]
  · exact .refl s
  · exact upholds_send s b o p w fun _ => not_unused_of_inService service
  · exact upholds_overflow ..

theorem upholds_sendOwed (s : State) (b : BaseIx) (used : watched → (s.base b).state ≠ .unused) :
    s.Upholds watched checked (s.sendOwed b) := by
  rcases s.sendOwed_cases b with ⟨_, e⟩ | ⟨_, _, e⟩ | ⟨c, _, _, _, e⟩ <;> rw [e]
  · exact .refl s
  · exact (upholds_setBase b _).trans (upholds_send _ b _ _ _ (by simpa using used))
  · exact ((upholds_setBase b _).trans (upholds_send _ b _ _ _ (by simpa using used))).trans (upholds_setChan ..)

theorem upholds_release (s : State) (p : ChanRef) (o : Option Owner) : s.Upholds watched checked (s.release p o) := by
  rcases s.release_cases p o with ⟨_, e⟩ | ⟨service, _, e⟩ | ⟨_, _, e⟩ <;> rw [e]
  · exact upholds_setChan ..
  · exact (upholds_send s _ _ _ _ fun _ => not_unused_of_inService service).trans (upholds_setChan ..)
  · exact (upholds_overflow ..).trans (upholds_setChan ..)

/-! ### The mark line, captures, records -/

theorem upholds_markFailure (s : State) : s.Upholds watched checked s.markFailure := by
  obtain ⟨_, _, _, e⟩ := s.markFailure_frame
  rw [e]
  exact upholds_frame rfl rfl rfl rfl

theorem upholds_endCaptures (s : State) (c : CallIx) : s.Upholds watched checked (s.endCaptures c) := by
  obtain ⟨_, _, e⟩ := s.endCaptures_frame c
  rw [e]
  exact upholds_frame rfl rfl rfl rfl

theorem upholds_engage (s : State) (i : SlotIx) (b : BaseIx) (c : CallIx) :
    s.Upholds watched checked (s.engage i b c) := by
  unfold engage
  split <;> exact upholds_frame rfl rfl rfl rfl

theorem upholds_relocate (s : State) (i : SlotIx) (b : BaseIx) : s.Upholds watched checked (s.relocate i b) := by
  unfold relocate
  repeat' split
  all_goals exact upholds_frame rfl rfl rfl rfl

theorem upholds_returnRecord (s : State) (i : CallInfo) (w : ClearCause) :
    s.Upholds watched checked (s.returnRecord i w) := by
  unfold returnRecord
  repeat' split
  all_goals exact upholds_frame rfl rfl rfl rfl

/-! ### Clearing -/

theorem upholds_endDrain (s : State) : s.Upholds watched checked s.endDrain := by
  rcases s.endDrain_cases with ⟨draining, _, e⟩ | ⟨_, e⟩ <;> rw [e]
  · exact upholds_enter_running _ _ (by simp [draining])
  · exact .refl s

/-- A context emptied of what the laws read, but for its ring. -/
theorem Context.Edit.cleared {x x' : Context} (ring : x'.ring = x.ring) (next : x'.nextSample = x.nextSample)
    (serving : x'.serving = none) (uplink : x'.uplink = none) (candidates : x'.candidates = []) : x.Edit checked x' :=
  .calm (.inl ⟨ring, next⟩) (.inr serving) (.inr uplink) (.inr candidates)

theorem upholds_freeContext (s : State) (c : CallIx) (i : CallInfo) (w : ClearCause) :
    s.Upholds watched checked (s.freeContext c i w) := by
  have freed : s.Upholds watched checked (s.setCtx c (s.ctx c).freed) :=
    upholds_setCtx c _ (.cleared rfl rfl rfl rfl rfl)
  exact ((freed.trans (upholds_returnRecord ..)).post _).trans (upholds_endDrain _)

theorem upholds_freeIfDone (s : State) (c : CallIx) : s.Upholds watched checked (s.freeIfDone c) := by
  rcases s.freeIfDone_cases c with e | ⟨i, w, _, _, _, e⟩ <;> rw [e]
  · exact .refl s
  · exact upholds_freeContext s c i w

theorem upholds_clearCall (s : State) (c : CallIx) (w : ClearCause) : s.Upholds watched checked (s.clearCall c w) := by
  rcases s.clearCall_cases c w with ⟨_, e⟩ | ⟨i, call, _, e⟩ <;> rw [e]
  · exact .refl s
  · have begun : s.Upholds watched checked (s.setCtx c ((s.ctx c).clearing i w)) :=
      upholds_setCtx c _ (.still (served := Context.servedAt_of_call call rfl rfl))
    dsimp only
    refine (upholds_ite (p := i.stage = .active) (begun.trans (upholds_endCaptures _ c)) begun).trans ?_
    exact (upholds_foldl _ (fun u p => upholds_release u p _) _ _).trans (upholds_freeIfDone ..)

/-! ### Handover failures -/

theorem map_read_penalise (ticks : Nat) (target : Target) (l : List Candidate) :
    (penalise ticks target l).map Candidate.read = l.map Candidate.read := by
  unfold penalise
  split
  · rfl
  · rw [List.map_map]
    refine List.map_congr_left fun e _ => ?_
    dsimp only [Function.comp]
    split <;> rfl

theorem upholds_releaseFormer (s : State) (p : ChanRef) (o : Owner) :
    s.Upholds watched checked (s.releaseFormer p o) :=
  upholds_ite (upholds_release ..) (.refl s)

theorem upholds_failAttemptOn (s : State) (c : CallIx) (i : CallInfo) (x : Target) (p : Option ChanRef) (n : PhaseName)
    (r : Bool) (w : HandoverReason) : s.Upholds watched checked (s.failAttemptOn c i x p n r w) := by
  have given : s.Upholds watched checked (s.giveUp (s.ownerOf c) p) := by
    cases p with
    | none => exact .refl s
    | some p => exact upholds_releaseFormer ..
  rw [State.failAttemptOn_eq]
  exact ((given.trans (upholds_setCtx c _ (.still (candidates := map_read_penalise ..)))).post _).trans
    (upholds_markFailure _)

theorem upholds_failAttempt (s : State) (c : CallIx) (w : HandoverReason) :
    s.Upholds watched checked (s.failAttempt c w) := by
  unfold failAttempt
  dsimp only
  split
  · exact upholds_failAttemptOn ..
  · exact .refl s

theorem upholds_loseSwitch (s : State) (c : CallIx) (w : LostCase) : s.Upholds watched checked (s.loseSwitch c w) := by
  unfold loseSwitch
  dsimp only
  split
  · exact ((upholds_post ..).trans (upholds_markFailure _)).trans (upholds_clearCall ..)
  · exact .refl s

/-! ### Base loss -/

theorem upholds_phaseLoss (s : State) (b : BaseIx) (c : CallIx) (i : CallInfo) :
    s.Upholds watched checked (s.phaseLoss b c i) := by
  have noted (x : Phase) : s.Upholds watched checked (s.setCtx c { s.ctx c with phase := x }) :=
    upholds_setCtx c _ .still
  unfold phaseLoss
  dsimp only
  split
  · exact .refl s
  · exact upholds_ite (upholds_failAttempt ..) (upholds_ite (upholds_clearCall ..) (.refl s))
  · exact upholds_ite (upholds_loseSwitch ..) (upholds_ite (noted _) (.refl s))
  · exact upholds_ite (upholds_clearCall ..) (.refl s)
  · exact upholds_ite (noted _) (.refl s)

theorem upholds_lossRule (b : BaseIx) (s : State) (c : CallIx) : s.Upholds watched checked (lossRule b s c) := by
  unfold lossRule
  dsimp only
  split
  · exact .refl s
  · split
    · exact upholds_ite (upholds_clearCall ..) (.refl s)
    · exact upholds_freeIfDone ..
    · exact upholds_ite (upholds_phaseLoss ..) (upholds_ite (upholds_clearCall ..) (.refl s))

theorem upholds_baseLoss (s : State) (b : BaseIx) : s.Upholds watched checked (s.baseLoss b) := by
  have emptied : s.Upholds watched checked (s.setBase b (s.base b).emptied) :=
    upholds_setBase b _ (window := fun _ _ _ => rfl)
  have freed : s.Upholds watched checked { (s.setBase b (s.base b).emptied).setTrain b none with
      channels := s.channels.set b (Table.fill 8 Channel.free) } :=
    emptied.trans (upholds_frame rfl rfl rfl rfl)
  exact freed.trans (upholds_foldl _ (upholds_lossRule b) _ _)

section
variable (used : watched → (s.base b).state ≠ .unused) {new : BaseState} (stays : watched → new ≠ .unused)

include used stays

theorem upholds_setBaseState : s.Upholds watched checked (s.setBaseState b new) := upholds_setBase_used used stays

theorem upholds_leaveService (w : BaseCause) : s.Upholds watched checked (s.leaveService b new w) :=
  ((upholds_setBaseState used stays).post _).trans (upholds_baseLoss ..)

end

theorem upholds_dropBase (s : State) (b : BaseIx) : s.Upholds watched checked (s.dropBase b) := by
  rcases s.dropBase_cases b with ⟨up, e⟩ | ⟨fault, e⟩ | ⟨_, e⟩ <;> rw [e]
  · refine (upholds_setBaseState (fun _ => ?_) fun _ => by decide).trans (upholds_baseLoss ..)
    rcases up with e | e <;> simp [e]
  · exact upholds_setBaseState (fun _ => by simp [fault]) fun _ => by decide
  · exact .refl s

/-! ### Calls taken in, and the Handover Sequencer -/

theorem upholds_openContext (s : State) (c : CallIx) (p : ChanRef) (i : CallInfo) :
    s.Upholds watched checked (s.openContext c p i) := by
  have opened : s.Upholds watched checked (s.setCtx c ((s.ctx c).opened i)) :=
    upholds_setCtx c _ (.calm (.inr rfl) (.inr rfl) (.inr rfl) (.inr rfl))
  exact ((opened.trans (upholds_setChan ..)).trans (upholds_engage ..)).trans (upholds_offer ..)

theorem upholds_prepare (s : State) (c : CallIx) (i : CallInfo) (p : ChanRef) (r : Bool) :
    s.Upholds watched checked (s.prepare c i p r) := by
  have claimed (k : Channel) : s.Upholds watched checked
      ((s.setCtx c { (s.ctx c).nextOrder with phase := .preparing p r }).setChan p k) :=
    (upholds_setCtx c _ .still).trans (upholds_setChan ..)
  unfold prepare
  dsimp only
  split
  · exact (claimed _).trans (upholds_offer ..)
  · exact ((claimed _).trans (upholds_offer ..)).trans (upholds_failAttempt ..)
  · exact ((claimed _).trans (upholds_offer ..)).trans (upholds_failAttempt ..)

theorem upholds_startHandover (s : State) (c : CallIx) (i : CallInfo) (e : Candidate) (r : Bool) :
    s.Upholds watched checked (s.startHandover c i e r) := by
  unfold startHandover
  split
  · unfold startLocal
    dsimp only
    have begun : s.Upholds watched checked (s.setCtx c { s.ctx c with attempts := sat 255 (s.ctx c).attempts }) :=
      upholds_setCtx c _ .still
    split
    · exact begun.trans (upholds_failAttemptOn ..)
    · exact begun.trans (upholds_failAttemptOn ..)
    · exact begun.trans (upholds_prepare ..)
  · exact (upholds_setCtx c _ .still).post _

theorem upholds_startSwitch (s : State) (c : CallIx) (i : CallInfo) (p : ChanRef) (r : Bool) :
    s.Upholds watched checked (s.startSwitch c i p r) := by
  have offered : s.Upholds watched checked
      ((s.setCtx c (s.ctx c).nextOrder).offerMove c i (.localBase p.base) p.channel).2 :=
    (upholds_setCtx c _ .still).trans (upholds_offer ..)
  unfold startSwitch
  dsimp only
  split
  · exact offered.trans (upholds_setCtx c _ .still)
  · exact offered.trans (upholds_failAttempt ..)
  · exact offered.trans (upholds_failAttempt ..)

theorem upholds_sequencerOutcome (s : State) (c : CallIx) (use n : BitVec 8) (k : OrderKind) (e : Bool) :
    s.Upholds watched checked (s.sequencerOutcome c use n k e) := by
  unfold sequencerOutcome
  dsimp only
  split
  · exact .refl s
  · split
    · exact upholds_ite (upholds_startSwitch ..) (upholds_failAttempt ..)
    · exact upholds_ite (.refl s) (upholds_failAttempt ..)
    · exact upholds_ite (.refl s) (upholds_failAttempt ..)
    · exact .refl s

theorem relocate_still (s : State) (i : SlotIx) (b : BaseIx) : s.Still (s.relocate i b) := by
  unfold relocate
  repeat' split
  all_goals exact ⟨rfl, rfl, rfl⟩

/-- The completion of a local handover: one edit of its context, by the neighbour list of the target base. -/
theorem upholds_completeMove {i : CallInfo} (call : (s.ctx c).call = some i) (p : ChanRef)
    (away : notItself checked (s.cfg p.base).neighbours p.base) (r : Bool) (o : Option ChanRef) (n : Nat) :
    s.Upholds watched checked (s.completeMove c i p r o n) := by
  unfold completeMove
  dsimp only
  generalize same : (s.setChan p (.busy (s.ownerOf c))).setCtx c { s.ctx c with call := some { i with serving := p } } = v
  have rest : v.Upholds watched checked ((v.relocate i.slot p.base).releaseFormer i.serving (s.ownerOf c)) :=
    (upholds_relocate ..).trans (upholds_releaseFormer ..)
  have still : v.Still ((v.relocate i.slot p.base).releaseFormer i.serving (s.ownerOf c)) :=
    (relocate_still ..).trans (still_ite (release_still ..) (.refl _))
  generalize (v.relocate i.slot p.base).releaseFormer i.serving (s.ownerOf c) = left at rest still
  subst same
  refine ⟨rest.config, rest.unused, fun d => ?_⟩
  rw [ctx_post]
  by_cases this : c = d
  · subst this
    rw [State.ctx_setCtx_self, still.ctx, State.ctx_setCtx_self]
    exact .single (.moved i call p (s.cfg p.base).neighbours away s.settings)
  · rw [State.ctx_setCtx_ne _ _ this, still.ctx, State.ctx_setCtx_ne _ _ this, State.ctx_setChan]

theorem upholds_targetArrival {i : CallInfo} (call : (s.ctx c).call = some i) (p : ChanRef)
    (away : notItself checked (s.cfg p.base).neighbours p.base) :
    s.Upholds watched checked (s.targetArrival c i p) := by
  unfold targetArrival
  split
  · split
    · next same => exact upholds_completeMove call _ (same ▸ away) ..
    · exact .refl s
  · split
    · next same => exact upholds_completeMove call _ (same ▸ away) ..
    · exact .refl s
  · exact .refl s

theorem upholds_endSwitch (s : State) (c : CallIx) (o : Option ChanRef) (n : Nat) :
    s.Upholds watched checked (s.endSwitch c o n) := by
  unfold endSwitch
  split
  · exact upholds_loseSwitch ..
  · exact upholds_ite (upholds_loseSwitch ..) (upholds_failAttempt ..)

/-! ### The Call Unit -/

/-- The call of a context replaced by one with the same serving base. -/
theorem upholds_setCall {i : CallInfo} (call : (s.ctx c).call = some i) {i' : CallInfo}
    (serving : i'.serving = i.serving := by exact rfl) :
    s.Upholds watched checked (s.setCtx c { s.ctx c with call := some i' }) :=
  upholds_setCtx c _ (.still (served := Context.servedAt_of_call call rfl serving))

theorem upholds_setupOutcome (s : State) (c : CallIx) (e : Bool) : s.Upholds watched checked (s.setupOutcome c e) := by
  unfold setupOutcome
  dsimp only
  split
  · exact .refl s
  · next call =>
    split
    · exact upholds_ite (.refl s) (upholds_clearCall ..)
    · exact upholds_ite ((upholds_setCall call).post _) (upholds_clearCall ..)
    · exact .refl s

theorem upholds_callUnitOutcome (s : State) (b : BaseIx) (e : WindowEntry) (k : Bool) :
    s.Upholds watched checked (s.callUnitOutcome b e k) := by
  unfold callUnitOutcome
  split
  · unfold releaseOutcome
    dsimp only
    split
    · exact upholds_ite ((upholds_setChan ..).trans (upholds_freeIfDone ..)) (upholds_setChan ..)
    · exact upholds_setChan ..
  · split
    · exact upholds_ite (upholds_setupOutcome ..) (.refl s)
    · exact .refl s
  · exact .refl s

theorem upholds_outcome (s : State) (b : BaseIx) (e : WindowEntry) (k : Bool) :
    s.Upholds watched checked (s.outcome b e k) := by
  unfold outcome
  split
  · exact upholds_callUnitOutcome ..
  · split
    · exact upholds_sequencerOutcome ..
    · exact .refl s
  · exact .refl s
  · exact .refl s

theorem upholds_arrive (s : State) (p : ChanRef) (x : Tag)
    (away : notItself checked (s.cfg p.base).neighbours p.base) : s.Upholds watched checked (s.arrive p x) := by
  unfold arrive
  split
  · exact .refl s
  · split
    · exact upholds_release ..
    · split
      · exact .refl s
      · split
        · exact .refl s
        · next call =>
          split
          · exact ((upholds_setChan ..).trans (upholds_setCall (s := s.setChan p _) call)).post _
          · exact upholds_targetArrival call p away
          · exact .refl s
    · exact .refl s
    · exact .refl s
    · exact .refl s

theorem upholds_lose (s : State) (p : ChanRef) (x : Tag) : s.Upholds watched checked (s.lose p x) := by
  unfold lose
  split
  · exact .refl s
  · split
    · exact .refl s
    · split
      · exact upholds_clearCall ..
      · exact upholds_clearCall ..
      · exact upholds_clearCall ..
      · exact .refl s
      · exact .refl s

end Sys2Proof.Machine
end

