-- ==== Sys2Proof/Proofs/UpholdingFrames.lean ====
section
/-! The laws of O59 under registration, trains, reports, base frames, deadlines and the tick. -/

namespace Sys2Proof.Machine

open State

variable {watched checked : Prop} {s t u : State} {b : BaseIx} {c : CallIx}

/-! ### Registration and trains -/

theorem upholds_setHandset (s : State) (i : SlotIx) (h : Option Handset) : s.Upholds watched checked (s.setHandset i h) :=
  upholds_frame rfl rfl rfl rfl

theorem upholds_setStatus (s : State) (i : SlotIx) (h : Handset) (w : HandsetStatus) :
    s.Upholds watched checked (s.setStatus i h w) :=
  upholds_frame rfl rfl rfl rfl

theorem upholds_refuseAccess (s : State) (i : SlotIx) (r : AccessRequest) (w : AnswerCause) :
    s.Upholds watched checked (s.refuseAccess i r w).2 :=
  upholds_ite (upholds_post ..) (.refl s)

theorem upholds_decideAttach (s : State) (i : SlotIx) (h : Handset) (r : AccessRequest) :
    s.Upholds watched checked (s.decideAttach i h r).2 := by
  unfold decideAttach
  split
  · exact upholds_refuseAccess ..
  split
  · exact upholds_refuseAccess ..
  split
  · unfold deny
    dsimp only
    split
    · exact (upholds_setHandset ..).trans (upholds_refuseAccess ..)
    · exact (upholds_setHandset ..).post _
  split
  · exact upholds_refuseAccess ..
  · exact upholds_ite (upholds_setHandset ..) ((upholds_setHandset ..).post _)

theorem upholds_originate (s : State) (i : SlotIx) (h : Handset) (b : BaseIx) (o : Option Nat) (r : AccessRequest) :
    s.Upholds watched checked (s.originate i h b o r) := by
  unfold originate
  repeat' split
  all_goals exact upholds_frame rfl rfl rfl rfl

theorem upholds_decideAccess (s : State) (i : SlotIx) (h : Handset) (r : AccessRequest) :
    s.Upholds watched checked (s.decideAccess i h r).2 := by
  unfold decideAccess
  split
  · exact upholds_decideAttach ..
  · unfold decideLocate
    split
    · exact upholds_refuseAccess ..
    · exact upholds_refuseAccess ..
    · exact upholds_frame rfl rfl rfl rfl
  · unfold decideRenew
    split
    · exact upholds_refuseAccess ..
    · exact upholds_refuseAccess ..
    · split <;> exact upholds_frame rfl rfl rfl rfl
  · unfold decideDetach
    split
    · exact upholds_frame rfl rfl rfl rfl
    · split
      · exact .refl s
      · exact (upholds_setStatus ..).trans (upholds_clearCall ..)
    · exact .refl s
  · unfold decideOriginate
    split
    · exact upholds_refuseAccess ..
    · split
      · exact upholds_refuseAccess ..
      · exact upholds_refuseAccess ..
      · exact upholds_originate ..
  · exact .refl s

theorem upholds_access (s : State) (r : AccessRequest) : s.Upholds watched checked (s.access r) := by
  unfold access
  split
  · exact upholds_ite (.refl s) (upholds_offer ..)
  · split
    · exact .refl s
    · exact ((upholds_setHandset ..).trans (upholds_decideAccess ..)).trans (upholds_offer ..)

theorem upholds_setTrain (s : State) (b : BaseIx) (x : Option Train) : s.Upholds watched checked (s.setTrain b x) :=
  upholds_frame rfl rfl rfl rfl

theorem upholds_spoil (s : State) (b : BaseIx) : s.Upholds watched checked (s.spoil b) := upholds_setBase b _

theorem upholds_takeFirst (s : State) (b : BaseIx) (x : Byte) : s.Upholds watched checked (s.takeFirst b x) := by
  unfold takeFirst
  split
  · exact upholds_setTrain ..
  · exact (upholds_spoil ..).trans (upholds_setTrain ..)

theorem upholds_takeNext (s : State) (b : BaseIx) (x : Byte) : s.Upholds watched checked (s.takeNext b x) := by
  unfold takeNext
  split
  · exact .refl s
  · exact upholds_setTrain ..

theorem upholds_takeClose (s : State) (b : BaseIx) (x : Byte) : s.Upholds watched checked (s.takeClose b x) := by
  unfold takeClose
  split
  · exact .refl s
  · exact upholds_ite ((upholds_setTrain ..).trans (upholds_access ..)) ((upholds_setTrain ..).trans (upholds_spoil ..))

/-! ### Reports -/

theorem upholds_completeSlot (s : State) (k : CapIx) (h : CaptureHeader) (w : CaptureStatus) :
    s.Upholds watched checked (s.completeSlot k h w) :=
  upholds_frame rfl rfl rfl rfl

/-- A report's sample joins the ring of its context and is acted on. -/
theorem upholds_takeSample {i : CallInfo} (call : (s.ctx c).call = some i) {list : List Neighbour}
    (away : notItself checked list i.serving.base) (tick : Tick) (tolerance : Nat) (f : ReportFrame) :
    s.Upholds watched checked (s.takeSample c i (buildSample (s.ctx c).nextSample tick tolerance list f)) := by
  have kept (v : Evaluation) (e : v = evaluate (s.evalContext c i) (s.ctx c).serving (s.ctx c).uplink (s.ctx c).candidates
      (buildSample (s.ctx c).nextSample tick tolerance list f)) :
      s.Upholds watched checked (s.keepSample c (buildSample (s.ctx c).nextSample tick tolerance list f) v) := by
    have appended : s.Upholds watched checked (s.setCtx c ((s.ctx c).appended
        ((buildSample (s.ctx c).nextSample tick tolerance list f).decided v.verdict) v s.settings.evaluator)) := by
      subst e
      exact upholds_setCtx c _ (.sampled i call list away ..)
    unfold keepSample
    dsimp only
    refine State.Upholds.trans ?_ (upholds_foldl _ upholds_post _ _)
    exact appended.trans (upholds_frame rfl rfl rfl rfl)
  unfold takeSample completeWaiting
  dsimp only
  refine State.Upholds.trans ?_ (upholds_foldl _ (fun u _ => upholds_ite (upholds_completeSlot ..) (.refl u)) _ _)
  split
  · exact (kept _ rfl).trans (upholds_startHandover ..)
  · exact kept _ rfl

theorem upholds_acceptReport {i : CallInfo} (call : (s.ctx c).call = some i)
    (away : notItself checked (s.cfg i.serving.base).neighbours i.serving.base) (b : BaseIx) (f : ReportFrame) :
    s.Upholds watched checked (s.acceptReport b c i f) := by
  unfold acceptReport
  dsimp only
  split
  · have counted : s.Upholds watched checked (s.setCtx c { s.ctx c with packed := sat 255 (s.ctx c).packed }) :=
      upholds_setCtx c _ .still
    exact counted.trans (upholds_setBase b _)
  · generalize min 255 _ = n
    have counted : s.Upholds watched checked (s.setCtx c { s.ctx c with unlisted := n }) := upholds_setCtx c _ .still
    have taken := upholds_takeSample (watched := watched) (s := s.setCtx c { s.ctx c with unlisted := n }) (c := c)
      (by rw [State.ctx_setCtx_self]; exact call) away s.tick s.settings.evaluator.diversity f
    rw [State.ctx_setCtx_self] at taken
    exact counted.trans taken

theorem upholds_takeReport (s : State) (b : BaseIx) (f : ReportFrame)
    (away : notItself checked (s.cfg b).neighbours b) : s.Upholds watched checked (s.takeReport b f) := by
  unfold takeReport
  split
  · exact .refl s
  · split
    · exact .refl s
    · dsimp only
      split
      · exact .refl s
      · next c _ _ _ i call =>
        split
        · next here =>
          have served : i.serving.base = b := congrArg ChanRef.base here.2
          rw [← served] at away
          split
          · exact upholds_acceptReport call away ..
          · exact upholds_acceptReport call away ..
          · exact upholds_acceptReport call away ..
          · exact upholds_setCtx c _ .still
          · exact upholds_setCtx c _ .still
        · exact .refl s

/-! ### Base frames -/

/-- A base in service outside HALTED has a checked neighbour list, which does not name it. -/
theorem State.notItself_of_inService (laws : checked → s.configChecked ∧ s.unusedAreDisabled)
    (running : s.runState ≠ .halted) (service : (s.base b).state = .inService) :
    notItself checked (s.cfg b).neighbours b := by
  intro c n listed target
  obtain ⟨config, unused⟩ := laws c
  have enabled : (s.cfg b).enabled = true :=
    Bool.eq_true_of_not_eq_false (not_unused_of_inService service ∘ (unused b).1.mpr)
  have reaches := (((configCheck_eq_none_iff _).mp (config running)).2 b enabled).1 n listed
  simp only [Settings.reaches, target] at reaches
  exact reaches.1 rfl

theorem upholds_fromService (s : State) (o : Origin) (act : BaseIx → State → State)
    (h : ∀ b, s.runState ≠ .halted → (s.base b).state = .inService → s.Upholds watched checked (act b s)) :
    s.Upholds watched checked (s.fromService o act) := by
  unfold fromService
  split
  · next taken =>
    simp only [Bool.and_eq_true, decide_eq_true_eq] at taken
    exact h _ (running_of_hears taken.1) taken.2
  · exact .refl s

theorem upholds_serviceBeat (s : State) (b : BaseIx) (h : Health) (service : (s.base b).state = .inService) :
    s.Upholds watched checked (s.serviceBeat b h) := by
  unfold serviceBeat
  dsimp only
  split
  · exact upholds_ite ((upholds_setBase b _).post _) (upholds_setBase b _)
  · exact upholds_ite (upholds_setBase b _) ((upholds_setBase b _).post _)
  · refine (upholds_setBase b _).trans (upholds_leaveService (fun _ => ?_) (fun _ => by decide) _)
    rw [State.base_setBase_self]
    exact not_unused_of_inService service

theorem upholds_takeStatus (s : State) (b : BaseIx) (h : Health) : s.Upholds watched checked (s.takeStatus b h) := by
  unfold takeStatus
  dsimp only
  split
  · exact .refl s
  · next down =>
    exact (upholds_setBase_used (fun _ => by simp [down]) fun _ => by simp).post _
  · exact upholds_setBase b _
  · next service => exact upholds_serviceBeat s b h service
  · exact upholds_setBase b _

theorem not_unused_of_takesEcho {r : BaseRecord} (takes : r.state.takesEcho = true) : r.state ≠ .unused := by
  rintro e
  simp [e, BaseState.takesEcho] at takes

/-- An entry leaves the window of a base in use, what the base owes is sent, and the order has its outcome. -/
theorem upholds_departed (used : watched → (s.base b).state ≠ .unused) (serial : Byte) (n : Nat) (e : WindowEntry)
    (k : Bool) : s.Upholds watched checked (((s.setBase b ((s.base b).depart serial n)).sendOwed b).outcome b e k) := by
  have departed : s.Upholds watched checked (s.setBase b ((s.base b).depart serial n)) := upholds_setBase_used used used
  refine (departed.trans (upholds_sendOwed _ b ?_)).trans (upholds_outcome ..)
  rw [State.base_setBase_self]
  exact used

theorem upholds_takeEcho (s : State) (b : BaseIx) (x : Byte) (used : (s.base b).state ≠ .unused) :
    s.Upholds watched checked (s.takeEcho b x) := by
  unfold takeEcho
  dsimp only
  split
  · exact upholds_setBase b _
  · exact upholds_departed (fun _ => used) ..

/-! ### Deadlines and the tick -/

/-- A base with the same settings is in use after what upholds the law of UNUSED bases if it was before. -/
theorem State.Upholds.used (h : s.Upholds watched checked t) (w : watched) (law : s.unusedAreDisabled)
    (settings : t.settings = s.settings) (used : (s.base b).state ≠ .unused) : (t.base b).state ≠ .unused := by
  intro e
  have off := ((h.unused w law) b).1.mp e
  rw [State.cfg, settings] at off
  exact used ((law b).1.mpr off)

theorem upholds_takeEchoExpiry (b : BaseIx) (serial : Byte) (s : State) (law : watched → s.unusedAreDisabled) :
    s.Upholds watched checked (takeEchoExpiry b serial s) := by
  unfold takeEchoExpiry
  dsimp only
  split
  · exact .refl s
  · next e found =>
    have used (w : watched) : (s.base b).state ≠ .unused := fun unused => by
      simp [(law w b).2 unused] at found
    have departed := upholds_departed (checked := checked) used serial (sat 3 (s.base b).noEcho) e false
    refine upholds_ite (departed.trans (upholds_ite ?_ (.refl _))) (.refl s)
    refine upholds_leaveService (fun w => departed.used w (law w) ?_ (used w)) (fun _ => by decide) _
    exact (((setBase_keeps ..).trans (sendOwed_keeps ..)).trans (outcome_keeps ..)).settings

theorem upholds_takeSettleExpiry (b : BaseIx) (s : State) : s.Upholds watched checked (takeSettleExpiry b s) := by
  unfold takeSettleExpiry
  dsimp only
  split
  · next due =>
    have used (_ : watched) : (s.base b).state ≠ .unused := by simp [due.1]
    refine upholds_ite (State.Upholds.trans (State.Upholds.post ?_ _) (upholds_offer ..)) (upholds_leaveService used ?_ _)
    · exact upholds_setBase_used used fun _ => by simp
    · exact fun _ => by decide
  · exact .refl s

theorem upholds_takeHeartbeatExpiry (b : BaseIx) (s : State) :
    s.Upholds watched checked (takeHeartbeatExpiry b s) := by
  unfold takeHeartbeatExpiry
  dsimp only
  split
  · next due => exact upholds_leaveService (fun _ => not_unused_of_takesEcho due.1) (fun _ => by decide) _
  · exact .refl s

theorem upholds_takeGapExpiry (b : BaseIx) (s : State) : s.Upholds watched checked (takeGapExpiry b s) := by
  unfold takeGapExpiry
  split
  · exact .refl s
  · exact upholds_ite ((upholds_setTrain ..).trans (upholds_spoil ..)) (.refl s)

theorem upholds_takeCarrierLost (p : PortIx) (s : State) : s.Upholds watched checked (takeCarrierLost p s) := by
  unfold takeCarrierLost
  unfold dropPort
  dsimp only
  refine upholds_ite (State.Upholds.trans ?_ (upholds_foldl _ (fun u _ => upholds_dropBase u _) _ _)) ?_ <;>
    exact upholds_frame rfl rfl rfl rfl

theorem upholds_takeCarrierRegained (p : PortIx) (s : State) : s.Upholds watched checked (takeCarrierRegained p s) :=
  upholds_ite (upholds_frame rfl rfl rfl rfl) (upholds_frame rfl rfl rfl rfl)

theorem upholds_takeLifetimeExpiry (i : SlotIx) (s : State) : s.Upholds watched checked (takeLifetimeExpiry i s) := by
  unfold takeLifetimeExpiry
  repeat' split
  all_goals exact upholds_frame rfl rfl rfl rfl

theorem upholds_takeOriginationExpiry (i : SlotIx) (s : State) :
    s.Upholds watched checked (takeOriginationExpiry i s) := by
  unfold takeOriginationExpiry
  repeat' split
  all_goals exact upholds_frame rfl rfl rfl rfl

theorem upholds_takeSetupExpiry (c : CallIx) (s : State) : s.Upholds watched checked (takeSetupExpiry c s) := by
  unfold takeSetupExpiry
  split
  · exact .refl s
  · exact upholds_ite (upholds_clearCall ..) (.refl s)

theorem upholds_takeSwitchExpiry (c : CallIx) (s : State) : s.Upholds watched checked (takeSwitchExpiry c s) := by
  unfold takeSwitchExpiry
  split
  · exact upholds_endSwitch ..
  · exact upholds_endSwitch ..
  · exact .refl s

theorem upholds_takeZoneExpiry (c : CallIx) (s : State) : s.Upholds watched checked (takeZoneExpiry c s) := by
  unfold takeZoneExpiry
  split
  · exact upholds_failAttempt ..
  · exact .refl s

theorem upholds_takeGuardExpiry (c : CallIx) (s : State) : s.Upholds watched checked (takeGuardExpiry c s) :=
  upholds_ite (upholds_setCtx c _ .still) (.refl s)

theorem map_read_map {f : Candidate → Candidate} (same : ∀ e, (f e).read = e.read) (l : List Candidate) :
    (l.map f).map Candidate.read = l.map Candidate.read := by
  rw [List.map_map]
  exact List.map_congr_left fun e _ => same e

theorem upholds_takePenaltyExpiry (c : CallIx) (x : Target) (s : State) :
    s.Upholds watched checked (takePenaltyExpiry c x s) := by
  refine upholds_setCtx c _ (.still (candidates := map_read_map (fun e => ?_) _))
  unfold Candidate.unpenalised
  split <;> rfl

theorem Context.servedAt_ticked (x : Context) : x.ticked.servedAt = x.servedAt := by
  simp only [Context.servedAt, Context.ticked, Option.map_map]
  rfl

theorem upholds_countDeadlines (s : State) : s.Upholds watched checked s.countDeadlines := by
  have bases : s.Upholds watched checked { s with bases := s.bases.map BaseRecord.ticked } := by
    refine upholds_bases _ fun _ b => ?_
    rw [Table.get_map]
    exact ⟨Iff.rfl, fun _ none => List.map_eq_nil_iff.mpr none⟩
  have contexts (u : State) : u.Upholds watched checked { u with contexts := u.contexts.map Context.ticked } := by
    refine upholds_contexts _ fun c => ?_
    rw [Table.get_map]
    exact .still (candidates := map_read_map (f := fun e => { e with penalty := countDown e.penalty }) (fun _ => rfl) _)
      (served := Context.servedAt_ticked _)
  exact (bases.trans (contexts _)).trans (upholds_frame rfl rfl rfl rfl)

theorem upholds_takeTick (s : State) : s.Upholds watched checked (takeTick s) := by
  have always : s.Upholds watched checked s.countAlways := upholds_frame rfl rfl rfl rfl
  exact upholds_ite (.refl s) (upholds_ite always (always.trans (upholds_countDeadlines _)))

end Sys2Proof.Machine
end

