-- ==== Sys2Proof/Proofs/ContextLaws.lean ====
section
/-! The laws of O59 under the requests, at the port and under the resets, and so under every step. -/

namespace Sys2Proof.Machine

open State

variable {watched checked : Prop} {s t u : State} {b : BaseIx} {c : CallIx}

/-! ### Settings -/

/-- Settings replaced: checked if they were, or in HALTED, with every base enabled that was. -/
theorem upholds_settings (st : Settings)
    (config : s.runState ≠ .halted → configCheck s.settings = none → configCheck st = none)
    (enabled : ∀ b, (st.bases.get b).enabled = (s.cfg b).enabled) :
    s.Upholds watched checked { s with settings := st } := by
  refine ⟨fun h running => config running (h running), fun _ h b => ?_, fun _ => .refl⟩
  have same : (({ s with settings := st } : State).cfg b).enabled = (s.cfg b).enabled := enabled b
  rw [same]
  exact h b

/-- The check reads the zone and the bases alone. -/
theorem configCheck_timers_evaluator (st : Settings) (v : TimerSettings) (e : EvaluatorSettings) :
    configCheck { st with timers := v, evaluator := e } = none ↔ configCheck st = none :=
  (configCheck_eq_none_iff _).trans (configCheck_eq_none_iff st).symm

theorem upholds_takeSetTimers (ps : List (Byte × BitVec 16)) (s : State) :
    s.Upholds watched checked (takeSetTimers ps s).2 := by
  unfold takeSetTimers
  split
  · exact .refl s
  · exact upholds_settings _ (fun _ => (configCheck_timers_evaluator ..).mpr) fun _ => rfl

theorem upholds_takeSetEvaluator (ps : List (Byte × BitVec 16)) (s : State) :
    s.Upholds watched checked (takeSetEvaluator ps s).2 := by
  unfold takeSetEvaluator
  split
  · exact .refl s
  · exact upholds_settings _ (fun _ => (configCheck_timers_evaluator ..).mpr) fun _ => rfl

theorem upholds_takeSetPart (z p : Byte) (s : State) : s.Upholds watched checked (takeSetPart z p s).2 := by
  unfold takeSetPart
  split
  · exact .refl s
  · next halted =>
    split
    · exact upholds_settings _ (fun running => absurd running halted) fun _ => rfl
    · exact .refl s

theorem upholds_takeSetNeighbours (b : Byte) (es : List (Byte × Byte)) (s : State) :
    s.Upholds watched checked (takeSetNeighbours b es s).2 := by
  unfold takeSetNeighbours
  split
  · exact .refl s
  · next halted =>
    split
    · split
      · exact .refl s
      · refine upholds_settings _ (fun running => absurd running halted) fun d => ?_
        rw [Table.get_set]
        split
        · next same => rw [← same]
        · rfl
    · exact .refl s

/-- A base that changes its enabled flag in HALTED, where its window is empty, keeps the law of UNUSED bases. -/
theorem BaseRecord.enabling_unused (r : BaseRecord) (was now : Bool) (window : r.window = [])
    (law : r.state = .unused ↔ was = false) :
    ((r.enabling was now).state = .unused ↔ now = false) ∧ (r.enabling was now).window = [] := by
  cases was <;> cases now
  · exact ⟨law, window⟩
  · exact ⟨by simp [BaseRecord.enabling], window⟩
  · exact ⟨by simp [BaseRecord.enabling], window⟩
  · exact ⟨law, window⟩

theorem upholds_takeSetBase (b e n : Byte) (s : State) (off : watched → s.haltedIsOff) :
    s.Upholds watched checked (takeSetBase b e n s).2 := by
  unfold takeSetBase
  split
  · exact .refl s
  · next halted =>
    split
    · next b on _ _ =>
      refine ⟨fun _ running => absurd running halted, fun w law d => ?_, fun _ => .refl⟩
      have window := (s.linkOff_iff.mp (off w (not_not.mp halted)) b).1.2.1
      obtain ⟨state, empty⟩ := BaseRecord.enabling_unused (s.base b) (s.cfg b).enabled on window (law b).1
      dsimp only [State.cfg, State.base, State.setBase]
      rw [Table.get_set, Table.get_set]
      split
      · exact ⟨state, fun _ => empty⟩
      · exact law d
    · exact .refl s

/-! ### Run state and bases -/

theorem upholds_takeGo (s : State) : s.Upholds watched checked (takeGo s).2 := by
  unfold takeGo
  split
  · split
    · exact .refl s
    · next passed => exact upholds_enter _ _ _ fun _ _ => passed
  · next standby => exact upholds_enter_running _ _ (by simp [standby])
  · next draining => exact upholds_enter_running _ _ (by simp [draining])
  · exact .refl s

theorem upholds_forceAll (s : State) : s.Upholds watched checked s.forceAll :=
  upholds_foldl _ (fun u c => upholds_clearCall u c _) _ s

theorem upholds_takeStop (o : Byte) (s : State) : s.Upholds watched checked (takeStop o s).2 := by
  unfold takeStop
  split
  · exact .refl s
  · dsimp only
    split
    · next serving =>
      have entered (r : RunState) (w : RunCause) : s.Upholds watched checked (s.enter r w) :=
        upholds_enter_running w r (by simp [serving])
      exact upholds_ite (entered ..) (upholds_ite ((entered ..).trans (upholds_forceAll _)) (entered ..))
    · exact upholds_ite (upholds_forceAll s) (.refl s)
    · exact .refl s
    · exact .refl s

theorem upholds_haltAll (s : State) : s.Upholds watched checked s.haltAll := by
  have dropped : s.Upholds watched checked ((indices 32).foldl dropBase (s.enter .halted .halt)) :=
    (upholds_enter s .halted .halt fun halted => absurd rfl halted).trans (upholds_foldl dropBase upholds_dropBase ..)
  unfold haltAll
  dsimp only
  generalize (indices 32).foldl dropBase (s.enter .halted .halt) = d at dropped ⊢
  have emptied : d.Upholds watched checked { d with bases := d.bases.map BaseRecord.emptied } := by
    refine upholds_bases _ fun _ b => ?_
    rw [Table.get_map]
    exact ⟨Iff.rfl, fun _ _ => rfl⟩
  exact (dropped.trans emptied).trans (upholds_frame rfl rfl rfl rfl)

theorem upholds_takeHalt (s : State) : s.Upholds watched checked (takeHalt s).2 := by
  unfold takeHalt
  split
  · exact upholds_haltAll s
  · exact .refl s
  · exact .refl s
  · exact .refl s

theorem upholds_takeAdmission (held : Bool) (b : Byte) (s : State) :
    s.Upholds watched checked (takeAdmission held b s).2 := by
  unfold takeAdmission
  split
  · exact .refl s
  · split
    · exact .refl s
    · split
      · exact .refl s
      · exact (upholds_setBase _ _).trans (upholds_offer ..)

theorem upholds_takeRestoreBase (b : Byte) (s : State) : s.Upholds watched checked (takeRestoreBase b s).2 := by
  unfold takeRestoreBase
  split
  · exact .refl s
  · dsimp only
    split
    · exact .refl s
    · split
      · exact .refl s
      · next fault =>
        exact upholds_setBase_used (fun _ => by simp [not_not.mp fault]) fun _ => by simp

theorem upholds_takeQueryBase (b o : Byte) (s : State) : s.Upholds watched checked (takeQueryBase b o s).2 := by
  unfold takeQueryBase
  split
  · exact upholds_ite (upholds_setBase _ _) (.refl s)
  · exact .refl s

/-! ### Calls and conditions -/

theorem upholds_takeOpenCall (x : BitVec 32) (d : Byte) (s : State) :
    s.Upholds watched checked (takeOpenCall x d s).2 := by
  rcases takeOpenCall_cases x d s with e | ⟨c, p, k, h, _, _, _, e⟩ <;> rw [e]
  · exact .refl s
  · exact upholds_openContext ..

theorem upholds_takeAdmitCall (x : BitVec 32) (b z : Byte) (s : State) :
    s.Upholds watched checked (takeAdmitCall x b z s).2 := by
  rcases takeAdmitCall_cases x b z s with e | ⟨c, p, k, h, _, _, _, e⟩ <;> rw [e]
  · exact .refl s
  · exact upholds_openContext ..

theorem upholds_takeCloseCall (c : Byte) (s : State) : s.Upholds watched checked (takeCloseCall c s).2 := by
  unfold takeCloseCall
  split
  · exact .refl s
  · split
    · exact .refl s
    · exact upholds_clearCall ..

theorem upholds_takeZoneGo (x y : Byte) (s : State) : s.Upholds watched checked (takeZoneGo x y s).2 := by
  unfold takeZoneGo offerMove
  split
  · next c ch _ _ =>
    dsimp only
    have noted (u : State) (p : Phase) : u.Upholds watched checked (u.setCtx c { u.ctx c with phase := p }) :=
      upholds_setCtx c _ .still
    have given (p : Phase) : s.Upholds watched checked (s.setCtx c { (s.ctx c).nextOrder with phase := p }) :=
      upholds_setCtx c _ .still
    split
    · split
      · split
        · exact ((given _).trans (upholds_offer ..)).trans (noted ..)
        · exact ((given _).trans (upholds_offer ..)).trans (upholds_failAttempt ..)
        · exact ((given _).trans (upholds_offer ..)).trans (upholds_failAttempt ..)
      · exact .refl s
    · exact .refl s
  · exact .refl s

theorem upholds_takeZoneFail (c : Byte) (s : State) : s.Upholds watched checked (takeZoneFail c s).2 := by
  unfold takeZoneFail
  split
  · exact .refl s
  · split
    · split
      · exact upholds_failAttempt ..
      · exact .refl s
    · exact .refl s

theorem upholds_takeZoneComplete (c : Byte) (s : State) : s.Upholds watched checked (takeZoneComplete c s).2 := by
  unfold takeZoneComplete
  split
  · exact .refl s
  · dsimp only
    split
    · split
      · exact (upholds_post ..).trans (upholds_clearCall ..)
      · exact .refl s
    · exact .refl s

theorem upholds_takeClearConditions (k c : Byte) (s : State) :
    s.Upholds watched checked (takeClearConditions k c s).2 := by
  unfold takeClearConditions
  dsimp only
  split
  · exact .refl s
  · split
    · have unstuck : s.Upholds watched checked { s with
          contexts := s.contexts.map (Context.unstick (c.getLsbD 0) (c.getLsbD 1)) } := by
        refine upholds_contexts _ fun d => ?_
        rw [Table.get_map]
        exact .still
      exact unstuck.trans (upholds_frame rfl rfl rfl rfl)
    · split
      · exact .refl s
      · exact upholds_setCtx _ _ .still

theorem upholds_driveMark (s : State) : s.Upholds watched checked s.driveMark := by
  unfold driveMark markEdge
  dsimp only
  repeat' split
  all_goals exact upholds_frame rfl rfl rfl rfl

theorem upholds_markEdge (s : State) : s.Upholds watched checked s.markEdge :=
  upholds_ite (.refl s) (upholds_frame rfl rfl rfl rfl)

theorem upholds_takeMarkDriveEnd (s : State) : s.Upholds watched checked (takeMarkDriveEnd s) :=
  upholds_ite (upholds_frame rfl rfl rfl rfl) (.refl s)

/-- Every request upholds the laws. -/
theorem upholds_takeRequest (r : Request) (s : State) (off : watched → s.haltedIsOff) :
    s.Upholds watched checked (takeRequest r s).2 := by
  cases r with
  | go => exact upholds_takeGo s
  | stop o => exact upholds_takeStop o s
  | halt => exact upholds_takeHalt s
  | setPart z p => exact upholds_takeSetPart z p s
  | setBase b e n => exact upholds_takeSetBase b e n s off
  | setNeighbours b es => exact upholds_takeSetNeighbours b es s
  | setTimers ps => exact upholds_takeSetTimers ps s
  | setEvaluator ps => exact upholds_takeSetEvaluator ps s
  | holdAdmission b => exact upholds_takeAdmission true b s
  | openAdmission b => exact upholds_takeAdmission false b s
  | restoreBase b => exact upholds_takeRestoreBase b s
  | queryBase b o => exact upholds_takeQueryBase b o s
  | openCall x d => exact upholds_takeOpenCall x d s
  | closeCall c => exact upholds_takeCloseCall c s
  | admitCall x b z => exact upholds_takeAdmitCall x b z s
  | zoneGo c k => exact upholds_takeZoneGo c k s
  | zoneFail c => exact upholds_takeZoneFail c s
  | zoneComplete c => exact upholds_takeZoneComplete c s
  | clearConditions k c => exact upholds_takeClearConditions k c s
  | mark => exact upholds_driveMark s
  | _ =>
    -- queries, records, notices and captures: run state, settings, bases and contexts stay
    simp only [takeRequest, takeReadSettings, takeEnrol, takeRemove, takeBar, takeUnbar, takeQueryHandset, takeQueryCall,
      takeFetchNotice, takeCapture, takeCancelCapture, takeReadCapture, State.startCapture]
    repeat' split
    all_goals exact upholds_frame rfl rfl rfl rfl

/-! ### The port and the resets -/

theorem upholds_setLink (s : State) (l : Link) : s.Upholds watched checked (s.setLink l) := upholds_frame rfl rfl rfl rfl

/-- What the port does upholds the laws and, where watched, keeps the base link off in HALTED. -/
theorem upholds_port (s : State) :
    PortKeeps fun u => s.Upholds watched checked u ∧ (watched → u.haltedIsOff) where
  link l executing h := ⟨h.1.trans (upholds_setLink ..), fun w => lawful_haltedIsOff.port.link l executing (h.2 w)⟩
  execute b none h := ⟨(h.1.trans (upholds_takeRequest _ _ h.2)).trans (upholds_setLink ..),
    fun w => lawful_haltedIsOff.port.execute b none (h.2 w)⟩

theorem upholds_warmReset (s : State) : s.Upholds watched checked s.warmReset := by
  refine ⟨fun _ running => absurd rfl running, fun _ _ b => ?_, fun c => ?_⟩
  · rw [show s.warmReset.base b = (s.base b).warm (s.cfg b) from Table.get_zip ..,
      show s.warmReset.cfg b = s.cfg b from rfl]
    cases enabled : (s.cfg b).enabled <;> simp [BaseRecord.warm, enabled, BaseRecord.cold]
  · rw [show s.warmReset.ctx c = (s.ctx c).warm from Table.get_map ..]
    exact .single (.calm (.inr rfl) (.inr rfl) (.inr rfl) (.inr rfl))

/-- After cold reset every law holds, whatever was before. -/
theorem upholds_cold (s : State) : s.Upholds watched checked s.cold := by
  obtain ⟨_, _, _, _, _, _, _, _, _, _, _, _, _, _, _, _, _, _, config, unused, _⟩ := lawsHoldAtReset
  refine ⟨fun _ => config, fun _ _ => unused, fun c => ?_⟩
  rw [show s.cold.ctx c = Context.cold from Table.get_fill ..]
  exact .single (.calm (.inr rfl) (.inr rfl) (.inr rfl) (.inr rfl))

theorem upholds_takeReplySent (s : State) (off : watched → s.haltedIsOff) :
    s.Upholds watched checked (takeReplySent s) := by
  have ended := lawful_haltedIsOff.moves (s := s) (t := s.setLink { s.link with sending := .idle, executing := none })
  rcases (upholds_port (watched := watched) (checked := checked) s).replySent ⟨.refl s, off⟩
    ⟨upholds_setLink .., fun w => ended (off w) (moves_setLink ..)⟩ with e | kept
  · exact e ▸ upholds_warmReset s
  · exact kept.1

theorem upholds_takeResetRelease (straps : Fin 8) (s : State) :
    s.Upholds watched checked (takeResetRelease straps s) := by
  have released : s.Upholds watched checked { s.cold with straps := straps } :=
    (upholds_cold s).trans (upholds_frame rfl rfl rfl rfl)
  exact upholds_ite (released.post _) (.refl s)

/-! ### Every step -/

/-- Every command upholds the laws, from a state that keeps what each of them rests on. -/
theorem exec_upholds (laws : checked → s.configChecked ∧ s.unusedAreDisabled)
    (off : watched → s.unusedAreDisabled ∧ s.haltedIsOff) (c : Instr) (e : exec c s = .next t) :
    s.Upholds watched checked t := by
  have run {u : State} (k : s.fresh.Upholds watched checked u) (e : Host.Outcome.next u = (.next t : Result)) :
      s.Upholds watched checked t := by
    cases e
    exact (upholds_frame rfl rfl rfl rfl : s.Upholds watched checked s.fresh).trans k
  have away {b : BaseIx} (running : s.fresh.runState ≠ .halted) (service : (s.fresh.base b).state = .inService) :
      notItself checked (s.fresh.cfg b).neighbours b :=
    State.notItself_of_inService (s := s) laws running service
  have port := upholds_port (watched := watched) (checked := checked) s.fresh
  have ready : s.fresh.Upholds watched checked s.fresh ∧ (watched → s.fresh.haltedIsOff) :=
    ⟨.refl _, fun w => (off w).2⟩
  cases c with
  | requestFrame bytes => exact run (port.bytes bytes ready).1 e
  | gapCountExpiry => exact run (port.gapCountExpiry ready).1 e
  | hrxByte x stop => exact run (port.hrxByte ready x stop).1 e
  | replySent => exact run (upholds_takeReplySent _ ready.2) e
  | warmReset => exact run (upholds_ite (upholds_warmReset _) (.refl _)) e
  | coldReset =>
    cases e
    exact (upholds_cold s).trans (upholds_frame rfl rfl rfl rfl)
  | resetRelease straps => exact run (upholds_takeResetRelease ..) e
  | tick => exact run (upholds_takeTick _) e
  | carrierLost p => exact run (upholds_takeCarrierLost ..) e
  | carrierRegained p => exact run (upholds_takeCarrierRegained ..) e
  | markEdge => exact run (upholds_ite (.refl _) (upholds_markEdge _)) e
  | status o w => exact run (upholds_ite (upholds_takeStatus ..) (.refl _)) e
  | echo o serial =>
    refine run ?_ e
    split
    · next taken =>
      exact upholds_takeEcho _ _ serial (not_unused_of_takesEcho (Bool.and_eq_true_iff.mp taken).2)
    · exact .refl _
  | fragFirst o x => exact run (upholds_fromService _ _ _ fun b _ _ => upholds_takeFirst _ b x) e
  | fragNext o x => exact run (upholds_fromService _ _ _ fun b _ _ => upholds_takeNext _ b x) e
  | fragClose o x => exact run (upholds_fromService _ _ _ fun b _ _ => upholds_takeClose _ b x) e
  | report o x =>
    exact run (upholds_fromService _ _ _ fun b running service => upholds_takeReport _ b x (away running service)) e
  | arrival o ch x =>
    exact run (upholds_fromService _ _ _ fun b running service => upholds_arrive _ ⟨b, ch⟩ x (away running service)) e
  | loss o ch x => exact run (upholds_fromService _ _ _ fun b _ _ => upholds_lose _ ⟨b, ch⟩ x) e
  | settleExpiry b => exact run (upholds_takeSettleExpiry ..) e
  | heartbeatExpiry b => exact run (upholds_takeHeartbeatExpiry ..) e
  | echoDeadlineExpiry b serial => exact run (upholds_takeEchoExpiry _ _ _ fun w => (off w).1) e
  | gapDeadlineExpiry b => exact run (upholds_takeGapExpiry ..) e
  | lifetimeExpiry i => exact run (upholds_takeLifetimeExpiry ..) e
  | originationExpiry i => exact run (upholds_takeOriginationExpiry ..) e
  | setupDeadlineExpiry c => exact run (upholds_takeSetupExpiry ..) e
  | switchDeadlineExpiry c => exact run (upholds_takeSwitchExpiry ..) e
  | zoneDeadlineExpiry c => exact run (upholds_takeZoneExpiry ..) e
  | guardExpiry c => exact run (upholds_takeGuardExpiry ..) e
  | penaltyExpiry c x => exact run (upholds_takePenaltyExpiry ..) e
  | markDriveEnd => exact run (upholds_takeMarkDriveEnd _) e
  | _ => exact run (port.submit ready _ _).1 e

theorem step_upholds (laws : checked → s.configChecked ∧ s.unusedAreDisabled)
    (off : watched → s.unusedAreDisabled ∧ s.haltedIsOff) (e : step s = .next t) : s.Upholds watched checked t := by
  unfold step at e
  split at e
  · cases e
    exact .refl s
  · next c rest _ =>
    exact (upholds_frame rfl rfl rfl rfl : s.Upholds watched checked { s with pending := rest }).trans
      (exec_upholds (s := { s with pending := rest }) laws off c e)

/-- A law of one context that every edit keeps is kept in every context. -/
theorem State.Upholds.each (h : s.Upholds watched checked t) {P : Context → Prop}
    (edit : ∀ {x x' : Context}, x.Edit checked x' → P x → P x') (law : ∀ c, P (s.ctx c)) (c : CallIx) : P (t.ctx c) := by
  have run {x x' : Context} (r : Relation.ReflTransGen (Context.Edit checked) x x') (k : P x) : P x' := by
    induction r with
    | refl => exact k
    | tail _ last ih => exact edit last ih
  exact run (h.contexts c) (law c)

/-- A step with nothing watched and no neighbour list checked. -/
theorem step_upholds_plain (e : step s = .next t) : s.Upholds False False t := step_upholds False.elim False.elim e

/-- Settles O59: every step changes a context by calm edits, samples and completed handovers alone, each of which keeps its
laws; a serving base is no candidate because a checked neighbour list does not name its own base. -/
theorem contextLawsKept : Obligations.ContextLawsKept :=
  ⟨fun _ _ law e => (step_upholds_plain e).each (P := Context.ringOrdered) Context.Edit.ringOrdered law,
    fun _ _ law e => (step_upholds_plain e).each (P := fun x => distinct id x.candidates) Context.Edit.distinct law,
    fun _ _ law e => (step_upholds_plain e).each (P := Context.averagesBounded) Context.Edit.averagesBounded law,
    fun _ _ law e => (step_upholds_plain e).each (P := Context.scoresBounded) Context.Edit.scoresBounded law,
    fun _ _ law e => (step_upholds_plain e).config law,
    fun _ _ law off e => (step_upholds (watched := True) (checked := False) False.elim (fun _ => ⟨law, off⟩) e).unused
      trivial law,
    fun s t law config unused e => t.servingNoCandidate_iff.mpr
      ((step_upholds (watched := False) (fun _ => ⟨config, unused⟩) False.elim e).each Context.Edit.servingApart
        (s.servingNoCandidate_iff.mp law))⟩

end Sys2Proof.Machine
end

