-- ==== Sys2Proof/Proofs/SampleOfReport.lean ====
section
/-! The sample that a report makes (R96 to R100), field by field. -/

namespace Sys2Proof.Machine

/-! ### Readings -/

theorem uplinkPasses_iff (r : UplinkReading) : uplinkPasses r = true ↔ oddCheck r := beq_iff_eq

theorem classed_eq (v : BitVec 7) : classed v =
    if v.toNat ≤ 100 then .valid v.toNat else if v.toNat < 127 then .range v.toNat else .absent := by
  simp only [classed, Nat.lt_succ_iff]

theorem level_classed (v : BitVec 7) : (classed v).level = if v.toNat ≤ 100 then some v.toNat else none := by
  unfold classed
  split
  · rfl
  · split <;> rfl

theorem usableLevel_eq_some_iff (r : UplinkReading) (n : Nat) :
    usableLevel r = some n ↔ oddCheck r ∧ r.value.toNat ≤ 100 ∧ r.value.toNat = n := by
  unfold usableLevel
  split
  · next passes => simp [(uplinkPasses_iff r).mp passes, level_classed]
  · next fails => simp [mt (uplinkPasses_iff r).mpr fails]

/-- A pair is doubtful when both levels are usable and lie further apart than the tolerance (R97). -/
theorem doubtfulPair_iff (tolerance : Nat) (a b : UplinkReading) :
    doubtfulPair tolerance a b = true ↔ oddCheck a ∧ oddCheck b ∧ a.value.toNat ≤ 100 ∧ b.value.toNat ≤ 100 ∧
      (a.value.toNat + tolerance < b.value.toNat ∨ b.value.toNat + tolerance < a.value.toNat) := by
  unfold doubtfulPair
  split
  · next m n first second =>
    obtain ⟨oddA, lowA, rfl⟩ := (usableLevel_eq_some_iff a m).mp first
    obtain ⟨oddB, lowB, rfl⟩ := (usableLevel_eq_some_iff b n).mp second
    simp only [oddA, oddB, lowA, lowB, true_and, Bool.or_eq_true, decide_eq_true_eq]
    omega
  · next none_ =>
    refine iff_of_false nofun fun ⟨oddA, oddB, lowA, lowB, _⟩ => ?_
    exact none_ _ _ ((usableLevel_eq_some_iff a _).mpr ⟨oddA, lowA, rfl⟩)
      ((usableLevel_eq_some_iff b _).mpr ⟨oddB, lowB, rfl⟩)

/-! ### Neighbour readings -/

/-- The first reading of a report is the first of its position; the others of that position are dropped. -/
theorem firstNamed_cons (r : Fin 8 × BitVec 7) (l : List (Fin 8 × BitVec 7)) :
    firstNamed (r :: l) = r :: (firstNamed l).filter fun q => r.1 != q.1 := by
  simp only [firstNamed, List.zipIdx_cons, List.zipIdx_succ, List.filter_cons, List.filter_map, List.map_map,
    List.take_zero, List.all_nil, if_true, List.map_cons, List.filter_filter, Function.comp_def, List.take_succ_cons,
    List.all_cons, zero_add]

/-- The readings of a report against a list, of the positions not named before. -/
theorem readNeighbours_eq (list : List Neighbour) (seen : List (Fin 8)) (l : List (Fin 8 × BitVec 7)) :
    readNeighbours list seen l =
      let new := (firstNamed l).filter fun q => !seen.contains q.1
      (new.filterMap fun q => (list[q.1.val]?).map fun n => { position := q.1, target := n.target, reading := classed q.2 },
        (new.filter fun q => decide (list.length ≤ q.1.val)).length) := by
  induction l generalizing seen with
  | nil => rfl
  | cons r l ih =>
    obtain ⟨p, x⟩ := r
    have later : (firstNamed l).filter (fun q => !(p :: seen).contains q.1) =
        ((firstNamed l).filter fun q => p != q.1).filter fun q => !seen.contains q.1 := by
      rw [List.filter_filter]
      refine List.filter_congr fun q _ => ?_
      rw [List.contains_cons, Bool.not_or, Bool.and_comm, bne_comm]
      rfl
    rw [readNeighbours, ih, firstNamed_cons, List.filter_cons, later]
    dsimp only
    cases named : seen.contains p with
    | true => rfl
    | false =>
      simp only [Bool.false_eq_true, if_false, Bool.not_false, if_true, List.filterMap_cons, List.filter_cons]
      cases listed : list[p.val]? with
      | none => simp [List.getElem?_eq_none_iff.mp listed]
      | some n =>
        obtain ⟨inside, _⟩ := List.getElem?_eq_some_iff.mp listed
        simp [Nat.not_le.mpr inside]

theorem readNeighbours_listed (list : List Neighbour) (l : List (Fin 8 × BitVec 7)) :
    readNeighbours list [] l = (listedReadings list l, unlistedReadings list l) := by
  rw [readNeighbours_eq]
  simp [listedReadings, unlistedReadings, classed_eq]

/-! ### The sample -/

section
variable (number : BitVec 32) (tick : Tick) (tolerance : Nat) (list : List Neighbour) (f : ReportFrame)

theorem buildSample_neighbours :
    (buildSample number tick tolerance list f).neighbours = listedReadings list f.neighbours :=
  congrArg Prod.fst (readNeighbours_listed ..)

theorem buildSample_doubtful_iff : (buildSample number tick tolerance list f).doubtful = true ↔
    oddCheck f.readingA ∧ oddCheck f.readingB ∧ f.readingA.value.toNat ≤ 100 ∧ f.readingB.value.toNat ≤ 100 ∧
      (f.readingA.value.toNat + tolerance < f.readingB.value.toNat ∨
        f.readingB.value.toNat + tolerance < f.readingA.value.toNat) :=
  doubtfulPair_iff ..

/-- Reading A is taken if it passes, else B if it passes, else none (R96). -/
theorem selectUplink_cases (a b : UplinkReading) :
    (oddCheck a ∧ selectUplink a b = (some a.value, .a)) ∨
      (¬oddCheck a ∧ oddCheck b ∧ selectUplink a b = (some b.value, .b)) ∨
      (¬oddCheck a ∧ ¬oddCheck b ∧ selectUplink a b = (none, .none)) := by
  simp only [← uplinkPasses_iff, selectUplink]
  split
  · next first => exact .inl ⟨first, rfl⟩
  · next first =>
    split
    · next second => exact .inr (.inl ⟨first, second, rfl⟩)
    · next second => exact .inr (.inr ⟨first, second, rfl⟩)

/-- Whether a reading is a range value. -/
def Reading.isRange : Reading → Bool
  | .range _ => true
  | _ => false

/-- A range value is one above 100 that is not 127 (R96). -/
theorem isRange_classed_iff (v : BitVec 7) : (classed v).isRange = true ↔ 100 < v.toNat ∧ v.toNat < 127 := by
  rw [classed_eq]
  split
  · next low => exact iff_of_false nofun fun high => absurd high.1 (Nat.not_lt.mpr low)
  · next high =>
    split
    · next below => exact iff_of_true rfl ⟨Nat.not_le.mp high, below⟩
    · next absent => exact iff_of_false nofun fun h => absent h.2

theorem buildSample_uplinkRange : (buildSample number tick tolerance list f).uplinkRange =
    ((selectUplink f.readingA f.readingB).1.map classed).any Reading.isRange := by
  unfold buildSample
  dsimp only
  cases (selectUplink f.readingA f.readingB).1.map classed with
  | none => rfl
  | some v => cases v <;> rfl

/-- The uplink of a sample (R96): its source, and the level or range value of the reading taken. -/
structure Sample.UplinkOf (smp : Sample) (a b : UplinkReading) : Prop where
  first : oddCheck a → smp.source = .a
  second : ¬oddCheck a → oddCheck b → smp.source = .b
  neither : ¬oddCheck a → ¬oddCheck b → smp.source = .none ∧ smp.uplink = none ∧ smp.uplinkRange = false
  taken : ∀ v, (smp.source = .a ∧ v = a.value) ∨ (smp.source = .b ∧ v = b.value) →
    smp.uplink = (if v.toNat ≤ 100 then some v.toNat else none) ∧
      (smp.uplinkRange = true ↔ 100 < v.toNat ∧ v.toNat < 127)

theorem buildSample_uplinkOf : (buildSample number tick tolerance list f).UplinkOf f.readingA f.readingB := by
  have of {chosen : Option (BitVec 7) × UplinkSource} (e : selectUplink f.readingA f.readingB = chosen) :
      (buildSample number tick tolerance list f).source = chosen.2 ∧
        (buildSample number tick tolerance list f).uplink = (chosen.1.map classed).bind Reading.level ∧
        (buildSample number tick tolerance list f).uplinkRange = (chosen.1.map classed).any Reading.isRange := by
    subst e
    exact ⟨rfl, rfl, buildSample_uplinkRange ..⟩
  rcases selectUplink_cases f.readingA f.readingB with ⟨a, e⟩ | ⟨a, b, e⟩ | ⟨a, b, e⟩ <;>
    obtain ⟨source, uplink, range⟩ := of e
  · refine ⟨fun _ => source, fun n => absurd a n, fun n => absurd a n, ?_⟩
    rintro _ (⟨_, rfl⟩ | ⟨other, _⟩)
    · exact ⟨uplink.trans (level_classed _), range ▸ isRange_classed_iff _⟩
    · rw [source] at other; cases other
  · refine ⟨fun n => absurd n a, fun _ _ => source, fun _ n => absurd b n, ?_⟩
    rintro _ (⟨other, _⟩ | ⟨_, rfl⟩)
    · rw [source] at other; cases other
    · exact ⟨uplink.trans (level_classed _), range ▸ isRange_classed_iff _⟩
  · refine ⟨fun n => absurd n a, fun _ n => absurd n b, fun _ _ => ⟨source, uplink, range⟩, ?_⟩
    rintro _ (⟨other, _⟩ | ⟨other, _⟩) <;> rw [source] at other <;> cases other

end

end Sys2Proof.Machine
end

