-- ==== Sys2Proof/Proofs/ConditionsOfSample.lean ====
section
/-! The DIVERGE and SATURATE conditions that an evaluation meets (R111, R112, R114, R118). -/

namespace Sys2Proof.Machine

variable (e : EvaluatorSettings) (x : Sample)

/-! ### DIVERGE -/

theorem beyondLimit_some (a l : Nat) :
    beyondLimit e (some a) (some l) = if diverges e.divergence a l then some (l, a) else none := by
  simp [beyondLimit, diverges]

/-- A reading meets DIVERGE when it lies beyond the limit of the average held (R111). -/
theorem EvaluatorSettings.diverged_averageIf (held level : Option Nat) :
    (e.averageIf held level).diverged = (beyondLimit e held level).isSome := by
  cases level with
  | none => cases held <;> rfl
  | some l =>
    cases held with
    | none => rfl
    | some a =>
      rw [beyondLimit_some]
      unfold averageIf average
      dsimp only
      split
      · split <;> rfl
      · rfl

/-- A condition is reported with the reading and the average held. -/
theorem beyondLimit_eq (held level : Option Nat) : beyondLimit e held level =
    if (e.averageIf held level).diverged then some (level.getD 0, held.getD 0) else none := by
  rw [e.diverged_averageIf]
  cases level with
  | none => cases held <;> rfl
  | some l =>
    cases held with
    | none => rfl
    | some a =>
      rw [beyondLimit_some]
      split <;> rfl

theorem beyondLimit_toList (subject : DivergeSubject) (held level : Option Nat) :
    (if (e.averageIf held level).diverged then [(subject, level.getD 0, held.getD 0)] else []) =
      (beyondLimit e held level).toList.map fun q => (subject, q) := by
  rw [beyondLimit_eq]
  split <;> rfl

/-- What stage 3 reports of one entry: its reading and average held, when the reading lies beyond the limit. -/
def entryDiverged (c : Candidate) : Option (Nat × Nat) :=
  beyondLimit e (some c.average) ((x.names c.target).bind fun n => n.reading.level)

theorem diverged_of_named {c : Candidate} {n : NeighbourReading} (named : x.names c.target = some n) :
    (if (e.averageIf (some c.average) n.reading.level).diverged then n.reading.level else none).map
      (fun l => (l, c.average)) = entryDiverged e x c := by
  rw [entryDiverged, named, Option.bind_some, e.diverged_averageIf]
  cases n.reading.level with
  | none => rfl
  | some l =>
    rw [beyondLimit_some]
    split <;> rfl

theorem EvaluatorSettings.weigh_diverged (list : List Neighbour) (low : Target → Bool) (serving : Option Nat)
    (c : Candidate) : (e.weigh list low serving x c).diverged.map (fun l => (l, c.average)) = entryDiverged e x c := by
  unfold weigh
  split
  · next unnamed => rw [entryDiverged, unnamed]; rfl
  · next named => exact diverged_of_named e x named

theorem EvaluatorSettings.weighDoubtful_diverged (c : Candidate) :
    (e.weighDoubtful x c).diverged.map (fun l => (l, c.average)) = entryDiverged e x c := by
  unfold weighDoubtful
  split
  · next unnamed => rw [entryDiverged, unnamed]; rfl
  · next named => exact diverged_of_named e x named

theorem filterMap_zip_map {α β γ : Type} (f : α → β) (g : α × β → Option γ) (l : List α) :
    (l.zip (l.map f)).filterMap g = l.filterMap fun a => g (a, f a) := by
  induction l with
  | nil => rfl
  | cons a l ih => simp only [List.map_cons, List.zip_cons_cons, List.filterMap_cons, ih]

/-- The conditions reported, in place order, of whatever weighs each entry so. -/
theorem divergences_eq (serving uplink : Option Nat) (candidates : List Candidate) {weigh : Candidate → Weighed}
    (reports : ∀ c, (weigh c).diverged.map (fun l => (l, c.average)) = entryDiverged e x c) :
    divergences x (serving, uplink) (e.averageIf serving x.downlink.level) (e.averageIf uplink x.uplink) candidates
      (candidates.map weigh) = divergesMet e serving uplink candidates x := by
  unfold divergences divergesMet
  dsimp only
  rw [beyondLimit_toList, beyondLimit_toList, filterMap_zip_map]
  refine congrArg (_ ++ ·) (List.filterMap_congr fun c _ => ?_)
  have reported := congrArg (Option.map fun q => (DivergeSubject.candidate c.target, q)) (reports c)
  rw [Option.map_map] at reported
  exact reported

/-! ### SATURATE -/

/-- The serving average that scores are measured against (R113). -/
theorem measuredAgainst_eq (serving : Option Nat) : measuredAgainst e serving x =
    if x.downlink.level.isSome && !(e.averageIf serving x.downlink.level).aside
      then (e.averageIf serving x.downlink.level).average else none := by
  unfold measuredAgainst
  cases x.downlink with
  | valid l =>
    generalize averaged : e.averageIf serving (Reading.valid l).level = a
    rw [Reading.level] at averaged
    dsimp only
    rw [averaged]
    cases a.aside <;> rfl
  | range l => rfl
  | absent => rfl

theorem saturations_map {weigh : Candidate → Weighed} (same : ∀ c, (weigh c).entry.target = c.target)
    (candidates : List Candidate) : saturations (candidates.map weigh) =
      candidates.filterMap fun c => (weigh c).saturated.map fun raw => (c.target, raw) := by
  rw [saturations, List.filterMap_map]
  refine List.filterMap_congr fun c _ => ?_
  simp only [Function.comp_apply, same]

theorem EvaluatorSettings.weigh_target (list : List Neighbour) (low : Target → Bool) (serving : Option Nat)
    (c : Candidate) : (e.weigh list low serving x c).entry.target = c.target := by
  unfold weigh
  split <;> rfl

/-! ### Both -/

/-- The conditions of an evaluation (R111, R112, R114, R118). -/
theorem evaluate_conditions (k : EvalContext) (serving uplink : Option Nat) (candidates : List Candidate) :
    (evaluate k serving uplink candidates x).diverged = divergesMet k.settings serving uplink candidates x ∧
      (evaluate k serving uplink candidates x).saturated = saturatesMet k serving candidates x := by
  unfold evaluate saturatesMet
  dsimp only
  split
  · exact ⟨divergences_eq k.settings x serving uplink candidates (k.settings.weighDoubtful_diverged x), rfl⟩
  · refine ⟨divergences_eq k.settings x serving uplink candidates (k.settings.weigh_diverged x _ _ _), ?_⟩
    rw [measuredAgainst_eq]
    exact saturations_map (k.settings.weigh_target x _ _ _) candidates

end Sys2Proof.Machine
end

