-- ==== Sys2Proof/Proofs/SampleTaken.lean ====
section
/-! The event of a sample (R103): the sample kept with its notices, the decision handed on, the waiting slots completed. One
rule for each. -/

namespace Sys2Proof.Machine

open State

variable {s t : State} {c : CallIx}

/-! ### Notices filed one after another -/

theorem State.posts_frame (l : List NoticeBody) (s : State) :
    l.foldl post s = { s with classes := (l.foldl post s).classes } := by
  induction l generalizing s with
  | nil => rfl
  | cons n l ih => exact ih (s.post n)

/-- Notices of one class, filed in order in that class alone. -/
theorem State.posts_classes {k : Fin 8} {l : List NoticeBody} (same : ∀ n ∈ l, n.cls = k) (s : State) :
    (l.foldl post s).classes.get k = (s.classes.get k).fileAll s.tick l ∧
      ∀ j, j ≠ k → (l.foldl post s).classes.get j = s.classes.get j := by
  induction l generalizing s with
  | nil => exact ⟨rfl, fun _ _ => rfl⟩
  | cons n l ih =>
    obtain ⟨filed, others⟩ := ih (fun m mem => same m (List.mem_cons_of_mem n mem)) (s.post n)
    have cls : n.cls = k := same n List.mem_cons_self
    refine ⟨filed.trans ?_, fun j other => (others j other).trans (State.post_class_ne _ n (cls ▸ Ne.symm other))⟩
    rw [← cls, State.post_class_self]
    rfl

/-! ### The sample kept -/

theorem Evaluation.cls_of_mem_notices {v : Evaluation} {e : EvaluatorSettings} {number : BitVec 32} {n : NoticeBody}
    (mem : n ∈ v.notices e c number) : n.cls = 3 := by
  rcases List.mem_append.mp mem with mem | mem <;> split at mem
  · cases mem
  · obtain ⟨_, _, rfl⟩ := List.mem_map.mp mem
    rfl
  · cases mem
  · obtain ⟨_, _, rfl⟩ := List.mem_map.mp mem
    rfl

section
variable (s) (smp : Sample) (v : Evaluation)

theorem State.keepSample_frame : s.keepSample c smp v =
    { s.setCtx c ((s.ctx c).appended (smp.decided v.verdict) v s.settings.evaluator) with
      divergeSticky := s.divergeSticky || v.setsDiverge s.settings.evaluator
      saturateSticky := s.saturateSticky || v.setsSaturate s.settings.evaluator
      classes := (s.keepSample c smp v).classes } :=
  State.posts_frame ..

theorem State.keepSample_classes :
    (s.keepSample c smp v).classes.get 3 =
      (s.classes.get 3).fileAll s.tick (v.notices s.settings.evaluator c smp.number) ∧
    ∀ j, j ≠ 3 → (s.keepSample c smp v).classes.get j = s.classes.get j :=
  State.posts_classes (fun _ => Evaluation.cls_of_mem_notices) _

end

/-! ### What the choice of a target reads -/

/-- `t` has what the evaluation of context `c` reads in `s`, its phase and guard apart. -/
structure State.Chooses (s t : State) (c : CallIx) : Prop where
  settings : t.settings = s.settings
  bases : t.bases = s.bases
  channels : t.channels = s.channels
  use : (t.ctx c).use = (s.ctx c).use

section
variable (h : s.Chooses t c)
include h

theorem State.Chooses.ownerOf : t.ownerOf c = s.ownerOf c := congrArg (Owner.mk c) h.use

theorem State.Chooses.freeChannels (b : BaseIx) : t.freeChannels b = s.freeChannels b := by
  unfold State.freeChannels State.chanExists State.cfg State.chan
  rw [h.settings, h.channels]

theorem State.Chooses.ownsElsewhere (b : BaseIx) : t.ownsElsewhere c b = s.ownsElsewhere c b := by
  simp only [State.ownsElsewhere, State.owned, State.chan, h.ownerOf, h.channels]

theorem State.Chooses.eligible (b : BaseIx) (e : Candidate) : t.eligible c b e = s.eligible c b e := by
  unfold State.eligible State.base State.freeChannelCount
  rw [h.bases, h.ownsElsewhere]
  cases e.target with
  | localBase a => dsimp only; rw [h.freeChannels]
  | foreignBase z a => rfl

theorem State.Chooses.evalContext (i : CallInfo) (phase : (t.ctx c).phase = (s.ctx c).phase)
    (guard : (t.ctx c).guard = (s.ctx c).guard) : t.evalContext c i = s.evalContext c i := by
  have low : t.lowFree = s.lowFree := funext fun x => by
    cases x with
    | localBase a => rw [State.lowFree, State.lowFree, State.freeChannelCount, State.freeChannelCount, h.freeChannels]
    | foreignBase z a => rfl
  have eligible : t.eligible c i.serving.base = s.eligible c i.serving.base := funext (h.eligible _)
  simp only [State.evalContext, State.cfg, h.settings, low, eligible, phase, guard]

end

/-- An entry at a local base is eligible only where an attempt can begin (R122). -/
theorem State.eligible_local {b a : BaseIx} {e : Candidate} (target : e.target = .localBase a)
    (eligible : s.eligible c b e = true) : (s.base a).state = .inService ∧ s.freeChannels a ≠ [] ∧
      (s.base a).window.length < 4 ∧ s.ownsElsewhere c b = false := by
  simp only [State.eligible, target, Bool.and_eq_true, decide_eq_true_eq, Bool.not_eq_true'] at eligible
  obtain ⟨_, ⟨⟨⟨service, _⟩, some_⟩, room⟩, near⟩ := eligible
  exact ⟨service, List.ne_nil_of_length_pos some_, room, near⟩

/-! ### The decision handed on -/

theorem State.startHandover_foreign {e : Candidate} {z : ZoneIx} {a : BaseIx} (target : e.target = .foreignBase z a)
    (s : State) (c : CallIx) (i : CallInfo) (r : Bool) : s.startHandover c i e r =
      (s.setCtx c { s.ctx c with
        attempts := min 255 ((s.ctx c).attempts + 1), phase := .handingOut z a r s.settings.timers.zone }).post
        (.zoneOutRequest (i.ref c) i.serving z a e.average (s.ctx c).serving r (min 255 ((s.ctx c).attempts + 1))) := by
  unfold startHandover
  rw [target]
  rfl

theorem State.setCtx_setCtx (s : State) (c : CallIx) (x y : Context) : (s.setCtx c x).setCtx c y = s.setCtx c y := by
  simp only [State.setCtx, Table.set_set]

/-- The context as its attempt to reach a local channel begins (R134). -/
def Context.begun (x : Context) (p : ChanRef) (r : Bool) : Context :=
  { x with attempts := min 255 (x.attempts + 1), orderNo := x.orderNo + 1, phase := .preparing p r }

/-- An attempt at an eligible local base claims its lowest FREE channel, and its ASSIGN is sent (R134). -/
theorem State.startHandover_local {e : Candidate} {a : BaseIx} {i : CallInfo} {ch : ChanIx} {rest : List ChanIx}
    (target : e.target = .localBase a) (service : (s.base a).state = .inService)
    (free : s.freeChannels a = ch :: rest) (room : (s.base a).window.length < 4)
    (near : s.ownsElsewhere c i.serving.base = false) (r : Bool) :
    s.startHandover c i e r =
      { ((s.setCtx c ((s.ctx c).begun ⟨a, ch⟩ r)).setChan ⟨a, ch⟩ (.reserved (s.ownerOf c) i.tag)).setBase a
          { s.base a with
            nextSerial := (s.base a).nextSerial + 1
            window := (s.base a).window ++ [newEntry (s.base a) .assign .sequencer
              (.call c (s.ctx c).use ((s.ctx c).orderNo + 1)) (some ch) s.settings.timers.echo] } with
        ordersOut := s.ordersOut ++ [{ base := a, serial := (s.base a).nextSerial, order := .assign ch c i.tag }] } := by
  have begun : s.Chooses (s.setCtx c { s.ctx c with attempts := sat 255 (s.ctx c).attempts }) c :=
    ⟨rfl, rfl, rfl, by rw [State.ctx_setCtx_self]⟩
  have judged : (s.setCtx c { s.ctx c with attempts := sat 255 (s.ctx c).attempts }).judgeClaim a
      (.target c i.serving.base) = .granted ch := by
    simp only [State.judgeClaim, begun.ownsElsewhere, begun.freeChannels, near, free, State.base_setCtx, service,
      ne_eq, not_true_eq_false, if_false, Bool.false_eq_true]
  unfold startHandover
  rw [target]
  unfold startLocal
  dsimp only
  rw [judged]
  unfold prepare
  dsimp only
  rw [State.offer_sent (by exact service) (by exact room), begun.ownerOf, State.ctx_setCtx_self, State.setCtx_setCtx]
  rfl

/-- What handing a decision on leaves alone: everything but attempts, phase and order number of the context, one base, one
channel, the orders sent and the HANDOVER class. -/
structure State.HandsOn (s t : State) (c : CallIx) : Prop where
  ctx : ∃ n p o, t.ctx c = { s.ctx c with attempts := n, phase := p, orderNo := o }
  others : ∀ d, d ≠ c → t.ctx d = s.ctx d
  slots : t.slots = s.slots
  handsets : t.handsets = s.handsets
  diverge : t.divergeSticky = s.divergeSticky
  saturate : t.saturateSticky = s.saturateSticky
  classes : ∀ k, k ≠ 1 → t.classes.get k = s.classes.get k
  core : s.Keeps t

theorem State.HandsOn.refl (s : State) (c : CallIx) : s.HandsOn s c :=
  ⟨⟨_, _, _, rfl⟩, fun _ _ => rfl, rfl, rfl, rfl, rfl, fun _ _ => rfl, .refl s⟩

theorem State.handsOn_foreign {e : Candidate} {z : ZoneIx} {a : BaseIx} (target : e.target = .foreignBase z a)
    (i : CallInfo) (r : Bool) : s.HandsOn (s.startHandover c i e r) c := by
  have core := startHandover_keeps s c i e r
  rw [State.startHandover_foreign target] at core ⊢
  exact ⟨⟨_, _, _, State.ctx_setCtx_self ..⟩, fun d other => State.ctx_setCtx_ne _ _ (Ne.symm other), rfl, rfl, rfl, rfl,
    fun k other => State.post_class_ne _ _ (Ne.symm other), core⟩

theorem State.handsOn_local {e : Candidate} {a : BaseIx} {i : CallInfo} (target : e.target = .localBase a)
    (eligible : s.eligible c i.serving.base e = true) (r : Bool) : s.HandsOn (s.startHandover c i e r) c := by
  obtain ⟨service, some_, room, near⟩ := State.eligible_local target eligible
  obtain ⟨ch, rest, free⟩ := List.exists_cons_of_ne_nil some_
  have core := startHandover_keeps s c i e r
  rw [State.startHandover_local target service free room near] at core ⊢
  exact ⟨⟨_, _, _, State.ctx_setCtx_self ..⟩, fun d other => State.ctx_setCtx_ne _ _ (Ne.symm other), rfl, rfl, rfl, rfl,
    fun _ _ => rfl, core⟩

theorem State.handsOn {e : Candidate} {i : CallInfo} (eligible : s.eligible c i.serving.base e = true) (r : Bool) :
    s.HandsOn (s.startHandover c i e r) c := by
  cases target : e.target with
  | localBase a => exact State.handsOn_local target eligible r
  | foreignBase z a => exact State.handsOn_foreign target i r

/-! ### The waiting slots -/

theorem CaptureSlot.awaits_eq_some_iff {x : CaptureSlot} {h : CaptureHeader} :
    x.awaits c = some h ↔ x = .armedNext h ∧ h.call = c := by
  unfold CaptureSlot.awaits
  split
  · next k =>
    split
    · next same =>
      constructor
      · rintro ⟨⟩
        exact ⟨rfl, same⟩
      · rintro ⟨⟨⟩, _⟩
        rfl
    · next other =>
      refine iff_of_false nofun ?_
      rintro ⟨⟨⟩, same⟩
      exact other same
  · next none_ => exact iff_of_false nofun fun h' => none_ _ h'.1

/-- The slots of a list that await a call, with their headers. -/
def State.awaiting (s : State) (c : CallIx) (ks : List CapIx) : List (CapIx × CaptureHeader) :=
  ks.filterMap fun k => ((s.slots.get k).awaits c).map fun h => (k, h)

theorem State.waitingSlots_eq (s : State) (c : CallIx) : s.waitingSlots c = s.awaiting c (indices 4) := by
  refine List.filterMap_congr fun k _ => ?_
  cases s.slots.get k with
  | armedNext h =>
    simp only [CaptureSlot.awaits]
    split <;> rfl
  | _ => rfl

/-- A slot after the sample of a call: complete with the last samples of the ring if it awaited the call. -/
def CaptureSlot.afterSample (c : CallIx) (ring : List Sample) (z : ZoneIx) (x : CaptureSlot) : CaptureSlot :=
  match x.awaits c with
  | some h => .complete h .ok (ring.drop (ring.length - h.count)) z
  | none => x

/-- What the completion of waiting slots leaves: slots completed, DONE notices filed, nothing else changed. -/
structure State.Completes (s t : State) (c : CallIx) (ks : List CapIx) : Prop where
  frame : t = { s with slots := t.slots, classes := t.classes }
  slots : ∀ k ∈ ks, t.slots.get k = (s.slots.get k).afterSample c (s.ctx c).ring s.settings.zone
  others : ∀ k, k ∉ ks → t.slots.get k = s.slots.get k
  done : t.classes.get 6 = (s.classes.get 6).fileAll s.tick
    (ks.filterMap fun k => ((s.slots.get k).awaits c).map fun _ => .captureDone k c .ok)
  classes : ∀ j, j ≠ 6 → t.classes.get j = s.classes.get j

/-- The waiting slots of a list without repetition, completed one after another. -/
theorem State.completes {ks : List CapIx} (nodup : ks.Nodup) {u : State} (agree : ∀ k ∈ ks, u.slots.get k = s.slots.get k) :
    u.Completes (u.completeWaiting (s.awaiting c ks)) c ks := by
  induction ks generalizing u with
  | nil => exact ⟨rfl, nofun, fun _ _ => rfl, rfl, fun _ _ => rfl⟩
  | cons k ks ih =>
    obtain ⟨new, nodup⟩ := List.nodup_cons.mp nodup
    have here : u.slots.get k = s.slots.get k := agree k List.mem_cons_self
    have later : ∀ j ∈ ks, u.slots.get j = s.slots.get j := fun j mem => agree j (List.mem_cons_of_mem k mem)
    cases waits : (s.slots.get k).awaits c with
    | none =>
      obtain ⟨frame, slots, others, done, classes⟩ := ih nodup later
      have skipped : s.awaiting c (k :: ks) = s.awaiting c ks := by
        rw [State.awaiting, List.filterMap_cons, waits]
        rfl
      rw [skipped]
      have same : (u.slots.get k).afterSample c (u.ctx c).ring u.settings.zone = u.slots.get k := by
        rw [CaptureSlot.afterSample, here, waits]
      refine ⟨frame, fun j mem => ?_, fun j away => others j (mt (List.mem_cons_of_mem k) away), ?_, classes⟩
      · rcases List.mem_cons.mp mem with rfl | mem
        · rw [same, others j new]
        · exact slots j mem
      · rw [List.filterMap_cons, here, waits]
        exact done
    | some h =>
      obtain ⟨armed, call⟩ := CaptureSlot.awaits_eq_some_iff.mp waits
      have taken : u.completeWaiting (s.awaiting c (k :: ks)) =
          (u.completeSlot k h .ok).completeWaiting (s.awaiting c ks) := by
        rw [State.awaiting, List.filterMap_cons, waits]
        exact congrArg (State.completeWaiting · _) (if_pos (here.trans armed))
      have other {j : CapIx} (mem : j ∈ ks) : k ≠ j := fun same => new (same ▸ mem)
      have stays {j : CapIx} (away : k ≠ j) : (u.completeSlot k h .ok).slots.get j = u.slots.get j :=
        State.slots_setSlot_ne _ _ away
      obtain ⟨frame, slots, others, done, classes⟩ := ih (u := u.completeSlot k h .ok) nodup fun j mem =>
        (stays (other mem)).trans (later j mem)
      rw [taken]
      refine ⟨frame, fun j mem => ?_, fun j away => ?_, ?_, fun j away => ?_⟩
      · rcases List.mem_cons.mp mem with rfl | mem
        · rw [others j new, CaptureSlot.afterSample, here, waits]
          exact (State.slots_setSlot_self ..).trans (by rw [call]; rfl)
        · rw [slots j mem, stays (other mem)]
          rfl
      · obtain ⟨apart, away⟩ := not_or.mp (mt List.mem_cons.mpr away)
        exact (others j away).trans (stays (Ne.symm apart))
      · rw [List.filterMap_cons, here, waits]
        refine done.trans ?_
        have rest : (ks.filterMap fun j => (((u.completeSlot k h .ok).slots.get j).awaits c).map fun _ =>
            NoticeBody.captureDone j c .ok) =
            ks.filterMap fun j => ((u.slots.get j).awaits c).map fun _ => NoticeBody.captureDone j c .ok :=
          List.filterMap_congr fun j mem => by rw [stays (other mem)]
        rw [rest, show (u.completeSlot k h .ok).classes.get 6 =
          (u.classes.get 6).file { tick := u.tick, body := .captureDone k c .ok } from
            call ▸ State.post_class_self _ (.captureDone k h.call .ok)]
        rfl
      · exact (classes j away).trans (State.post_class_ne _ _ (Ne.symm away))

end Sys2Proof.Machine
end

