-- ==== Sys2Proof/Proofs/ReportTaken.lean ====
section
/-! REPORT (O50): packed, a stray, or a sample that is evaluated and acted on. -/

namespace Sys2Proof.Machine

open State

variable {s t : State} {b : BaseIx} {c : CallIx} {i : CallInfo} {f : ReportFrame}

/-! ### Which reports are taken (R90 to R95) -/

/-- A report of no ACTIVE call served at its base and channel changes nothing. -/
theorem State.takeReport_elsewhere (none_ : ∀ (c : CallIx) (i : CallInfo), c.val = f.call.toNat →
    (s.ctx c).call = some i → ¬(i.stage = .active ∧ i.serving = ⟨b, f.channel⟩)) : s.takeReport b f = s := by
  unfold takeReport
  split
  · rfl
  · next c index =>
    split
    · rfl
    · dsimp only
      split
      · rfl
      · next i call => exact if_neg (none_ c i ((toIndex_eq_some_iff ..).mp index) call)

section
variable (index : c.val = f.call.toNat) (few : f.count.toNat ≤ 4) (call : (s.ctx c).call = some i)
  (active : i.stage = .active) (serving : i.serving = ⟨b, f.channel⟩)
include index few call active serving

/-- During a switch a report of the call is a stray (R93). -/
theorem State.takeReport_strays (switch : (s.ctx c).phase.name = .switching ∨ (s.ctx c).phase.name = .switchingOut) :
    s.takeReport b f = s.setCtx c (s.ctx c).strayed := by
  simp only [takeReport, ← index, toIndex_val, Nat.not_lt.mpr few, if_false, call, active, serving, and_self, if_true]
  cases phase : (s.ctx c).phase with
  | switching => rfl
  | switchingOut => rfl
  | _ => rw [phase] at switch; rcases switch with e | e <;> cases e

/-- Outside a switch a report of the call is accepted (R95). -/
theorem State.takeReport_accepted (inside : (s.ctx c).phase.name ≠ .switching)
    (out : (s.ctx c).phase.name ≠ .switchingOut) : s.takeReport b f = s.acceptReport b c i f := by
  simp only [takeReport, ← index, toIndex_val, Nat.not_lt.mpr few, if_false, call, active, serving, and_self, if_true]
  cases phase : (s.ctx c).phase with
  | switching => rw [phase] at inside; exact absurd rfl inside
  | switchingOut => rw [phase] at out; exact absurd rfl out
  | _ => rfl

end

theorem State.packs_iff (x : Context) : s.packs x = true ↔
    ∃ t, x.lastAccepted = some t ∧ (s.tick - t).toNat < s.settings.timers.spacing := by
  unfold State.packs
  cases x.lastAccepted with
  | none => simp
  | some t => simp

/-- The context with the readings of a report that its list does not name counted (R99). -/
def Context.counting (x : Context) (n : Nat) : Context := { x with unlisted := min 255 (x.unlisted + n) }

theorem State.acceptReport_sample (apart : s.packs (s.ctx c) = false) (b : BaseIx) (i : CallInfo) (f : ReportFrame) :
    s.acceptReport b c i f =
      (s.setCtx c ((s.ctx c).counting (unlistedReadings (s.cfg i.serving.base).neighbours f.neighbours))).takeSample c i
        (buildSample (s.ctx c).nextSample s.tick s.settings.evaluator.diversity (s.cfg i.serving.base).neighbours f) := by
  unfold acceptReport
  dsimp only
  rw [apart, readNeighbours_listed]
  rfl

/-! ### The event of a sample -/

theorem State.keepSample_chooses (s : State) (c : CallIx) (smp : Sample) (v : Evaluation) :
    s.Chooses (s.keepSample c smp v) c := by
  refine ⟨(keepSample_keeps ..).settings, ?_, ?_, ?_⟩
  · rw [State.keepSample_frame]; rfl
  · rw [State.keepSample_frame]; rfl
  · rw [ctx_keepSample]; rfl

/-- The event of a sample: the state kept, the state handed on, the slots completed. -/
theorem State.takeSample_stages (s : State) (c : CallIx) (i : CallInfo) (smp : Sample) :
    let v := evaluate (s.evalContext c i) (s.ctx c).serving (s.ctx c).uplink (s.ctx c).candidates smp
    let kept := s.keepSample c smp v
    ∃ moved, kept.HandsOn moved c ∧ moved.Completes (s.takeSample c i smp) c (indices 4) ∧
      (v.verdict.chosen = none → moved = kept) ∧
      ∀ w, v.verdict.chosen = some w → moved = kept.startHandover c i w.1 (v.verdict.decision == .rescue) ∧
        kept.eligible c i.serving.base w.1 = true := by
  dsimp only
  generalize evaluated : evaluate (s.evalContext c i) (s.ctx c).serving (s.ctx c).uplink (s.ctx c).candidates smp = v
  have completes {moved : State} (slots : moved.slots = (s.keepSample c smp v).slots) :
      moved.Completes (moved.completeWaiting ((s.keepSample c smp v).waitingSlots c)) c (indices 4) := by
    rw [State.waitingSlots_eq]
    exact State.completes nodup_indices fun k _ => congrArg (Table.get · k) slots
  unfold takeSample
  dsimp only
  rw [evaluated]
  cases chosen : v.verdict.chosen with
  | none => exact ⟨_, .refl _ c, completes rfl, fun _ => rfl, nofun⟩
  | some w =>
    have eligible : (s.keepSample c smp v).eligible c i.serving.base w.1 = true := by
      rw [(State.keepSample_chooses ..).eligible]
      exact (evaluate_chosen _ _ _ _ w (evaluated ▸ chosen)).1
    have handed := State.handsOn eligible (v.verdict.decision == .rescue)
    refine ⟨_, handed, completes handed.slots, nofun, ?_⟩
    rintro _ ⟨⟩
    exact ⟨rfl, eligible⟩

/-- The first of the FREE channels is the lowest (R71). -/
theorem State.freeChannels_lowest {a : BaseIx} {ch : ChanIx} {rest : List ChanIx} (e : s.freeChannels a = ch :: rest) :
    ch ∈ s.freeChannels a ∧ ∀ k ∈ s.freeChannels a, ch ≤ k := by
  have ascending : (s.freeChannels a).Pairwise (· < ·) := (List.pairwise_lt_finRange 8).filter _
  rw [e] at ascending ⊢
  refine ⟨List.mem_cons_self, fun k mem => ?_⟩
  rcases List.mem_cons.mp mem with same | later
  · exact same ▸ le_refl ch
  · exact ((List.pairwise_cons.mp ascending).1 k later).le

/-! ### The stages of a report that becomes a sample -/

/-- What keeping a sample leaves: the sample and its evaluation in the context, the conditions in the stickies or filed. -/
structure State.SampleKept (s t : State) (c : CallIx) (n : Nat) (smp : Sample) (v : Evaluation) : Prop where
  ctx : t.ctx c = ((s.ctx c).counting n).appended smp v s.settings.evaluator
  others : ∀ d, d ≠ c → t.ctx d = s.ctx d
  slots : t.slots = s.slots
  handsets : t.handsets = s.handsets
  orders : t.ordersOut = []
  diverge : t.divergeSticky = (s.divergeSticky || v.setsDiverge s.settings.evaluator)
  saturate : t.saturateSticky = (s.saturateSticky || v.setsSaturate s.settings.evaluator)
  reported : t.classes.get 3 = (s.classes.get 3).fileAll s.tick (v.notices s.settings.evaluator c smp.number)
  classes : ∀ j, j ≠ 3 → t.classes.get j = s.classes.get j
  chooses : s.Chooses t c
  core : s.Keeps t

theorem State.chooses_counting (s : State) (c : CallIx) (n : Nat) :
    s.Chooses (s.fresh.setCtx c ((s.ctx c).counting n)) c :=
  ⟨rfl, rfl, rfl, by rw [State.ctx_setCtx_self]; rfl⟩

theorem State.sampleKept (s : State) (c : CallIx) (n : Nat) (smp : Sample) (v : Evaluation) :
    s.SampleKept ((s.fresh.setCtx c ((s.ctx c).counting n)).keepSample c smp v) c n (smp.decided v.verdict) v := by
  have counted : (s.fresh.setCtx c ((s.ctx c).counting n)).ctx c = (s.ctx c).counting n := State.ctx_setCtx_self ..
  have chooses := (s.chooses_counting c n)
  have kept := State.keepSample_chooses (s.fresh.setCtx c ((s.ctx c).counting n)) c smp v
  obtain ⟨reported, classes⟩ := State.keepSample_classes (c := c) (s.fresh.setCtx c ((s.ctx c).counting n)) smp v
  refine ⟨?_, fun d other => ?_, ?_, ?_, ?_, ?_, ?_, reported, classes, ?_, ?_⟩
  · rw [ctx_keepSample, counted]; rfl
  · rw [State.keepSample_frame]
    exact (State.ctx_setCtx_ne _ _ (Ne.symm other)).trans (State.ctx_setCtx_ne _ _ (Ne.symm other))
  · rw [State.keepSample_frame]; rfl
  · rw [State.keepSample_frame]; rfl
  · rw [State.keepSample_frame]; rfl
  · rw [State.keepSample_frame]; rfl
  · rw [State.keepSample_frame]; rfl
  · exact ⟨kept.settings.trans chooses.settings, kept.bases.trans chooses.bases, kept.channels.trans chooses.channels,
      kept.use.trans chooses.use⟩
  · exact ((fresh_keeps s).trans (setCtx_keeps ..)).trans (keepSample_keeps ..)

/-- The sample that a report of a call served at a base makes, but for its decision. -/
def State.reportSample (s : State) (c : CallIx) (b : BaseIx) (f : ReportFrame) : Sample :=
  buildSample (s.ctx c).nextSample s.tick s.settings.evaluator.diversity (s.cfg b).neighbours f

/-- The evaluation of a sample in its context. -/
def State.evaluation (s : State) (c : CallIx) (i : CallInfo) (smp : Sample) : Evaluation :=
  evaluate (s.evalContext c i) (s.ctx c).serving (s.ctx c).uplink (s.ctx c).candidates smp

/-- The stages of a report that becomes a sample: `kept`, `moved`, and the state after it. -/
theorem State.acceptReport_stages (apart : s.packs (s.ctx c) = false) (serving : i.serving.base = b) (f : ReportFrame) :
    let v := s.evaluation c i (s.reportSample c b f)
    ∃ kept moved, s.SampleKept kept c (unlistedReadings (s.cfg b).neighbours f.neighbours)
        ((s.reportSample c b f).decided v.verdict) v ∧
      kept.HandsOn moved c ∧ moved.Completes (s.fresh.acceptReport b c i f) c (indices 4) ∧
      (v.verdict.chosen = none → moved = kept) ∧
      ∀ w, v.verdict.chosen = some w → moved = kept.startHandover c i w.1 (v.verdict.decision == .rescue) ∧
        kept.eligible c i.serving.base w.1 = true := by
  generalize unlisted : unlistedReadings (s.cfg b).neighbours f.neighbours = n
  have sampled : s.fresh.acceptReport b c i f =
      (s.fresh.setCtx c ((s.ctx c).counting n)).takeSample c i (s.reportSample c b f) := by
    rw [State.acceptReport_sample (s := s.fresh) apart, serving, ← unlisted]
    rfl
  have counted : (s.fresh.setCtx c ((s.ctx c).counting n)).ctx c = (s.ctx c).counting n := State.ctx_setCtx_self ..
  have context : (s.fresh.setCtx c ((s.ctx c).counting n)).evalContext c i = s.evalContext c i :=
    (s.chooses_counting c n).evalContext i (by rw [counted]; rfl) (by rw [counted]; rfl)
  obtain ⟨moved, handed, completes, none_, some_⟩ :=
    State.takeSample_stages (s.fresh.setCtx c ((s.ctx c).counting n)) c i (s.reportSample c b f)
  rw [context, counted] at handed none_ some_
  rw [sampled]
  exact ⟨_, moved, s.sampleKept c n _ _, handed, completes, none_, some_⟩

end Sys2Proof.Machine
end

