-- ==== Sys2Proof/Proofs/ReportSampled.lean ====
section
/-! A report that becomes a sample (O50), and with it the whole of REPORT. -/

namespace Sys2Proof.Machine

open State

variable {s kept moved t : State} {c : CallIx} {i : CallInfo} {n : Nat} {smp : Sample} {v : Evaluation} {ks : List CapIx}

/-! ### After the completion of slots -/

section
variable (h : moved.Completes t c ks)
include h

theorem State.Completes.ctx (d : CallIx) : t.ctx d = moved.ctx d := (congrArg (State.ctx · d) h.frame :)
theorem State.Completes.orders : t.ordersOut = moved.ordersOut := (congrArg State.ordersOut h.frame :)
theorem State.Completes.bases : t.bases = moved.bases := (congrArg State.bases h.frame :)
theorem State.Completes.channels : t.channels = moved.channels := (congrArg State.channels h.frame :)
theorem State.Completes.settings : t.settings = moved.settings := (congrArg State.settings h.frame :)
theorem State.Completes.handsets : t.handsets = moved.handsets := (congrArg State.handsets h.frame :)
theorem State.Completes.link : t.link = moved.link := (congrArg State.link h.frame :)
theorem State.Completes.diverge : t.divergeSticky = moved.divergeSticky := (congrArg State.divergeSticky h.frame :)
theorem State.Completes.saturate : t.saturateSticky = moved.saturateSticky := (congrArg State.saturateSticky h.frame :)

end

/-! ### The context after the sample -/

/-- The context with its sample, but for attempts, phase and order number. -/
theorem State.ctx_sampled (h : s.SampleKept kept c n smp v) (handed : kept.HandsOn moved c) (k : moved.Completes t c ks) :
    ∃ a p o, t.ctx c = { ((s.ctx c).counting n).appended smp v s.settings.evaluator with
      attempts := a, phase := p, orderNo := o } := by
  obtain ⟨a, p, o, ctx⟩ := handed.ctx
  exact ⟨a, p, o, by rw [k.ctx, ctx, h.ctx]⟩

/-! ### What the decision does (R126, R134, R149) -/

section
variable (h : s.SampleKept kept c n smp v)
include h

/-- No entry chosen: no attempt. -/
theorem State.SampleKept.notHanded (k : kept.Completes t c ks) :
    (t.ctx c).phase = (s.ctx c).phase ∧ (t.ctx c).orderNo = (s.ctx c).orderNo ∧
      (t.ctx c).attempts = (s.ctx c).attempts ∧ t.ordersOut = [] ∧ t.bases = s.bases ∧ t.channels = s.channels ∧
      t.classes.get 1 = s.classes.get 1 := by
  rw [k.ctx, h.ctx]
  exact ⟨rfl, rfl, rfl, k.orders.trans h.orders, k.bases.trans h.chooses.bases, k.channels.trans h.chooses.channels,
    (k.classes 1 (by decide)).trans (h.classes 1 (by decide))⟩

/-- An entry in another zone chosen: the host is asked. -/
theorem State.SampleKept.handedOut {e : Candidate} {z : ZoneIx} {a : BaseIx} (target : e.target = .foreignBase z a)
    {r : Bool} (k : (kept.startHandover c i e r).Completes t c ks) :
    (t.ctx c).attempts = min 255 ((s.ctx c).attempts + 1) ∧
      (t.ctx c).phase = .handingOut z a r s.settings.timers.zone ∧ (t.ctx c).orderNo = (s.ctx c).orderNo ∧
      t.ordersOut = [] ∧ t.bases = s.bases ∧ t.channels = s.channels ∧
      t.classes.get 1 = (s.classes.get 1).file
        { tick := s.tick
          body := .zoneOutRequest (i.ref c) i.serving z a e.average v.serving r
            (min 255 ((s.ctx c).attempts + 1)) } := by
  rw [State.startHandover_foreign target] at k
  have filed := (k.classes 1 (by decide)).trans (State.post_class_self _ _)
  have ctx := (k.ctx c).trans ((State.ctx_post ..).trans (State.ctx_setCtx_self ..))
  have attempts : (kept.ctx c).attempts = (s.ctx c).attempts := by rw [h.ctx]; rfl
  have orderNo : (kept.ctx c).orderNo = (s.ctx c).orderNo := by rw [h.ctx]; rfl
  have serving : (kept.ctx c).serving = v.serving := by rw [h.ctx]; rfl
  refine ⟨?_, ?_, ?_, k.orders.trans h.orders, k.bases.trans h.chooses.bases, k.channels.trans h.chooses.channels, ?_⟩
  · rw [ctx, ← attempts]
  · rw [ctx, ← h.core.settings]
  · rw [ctx, ← orderNo]
  · rw [← attempts, ← serving, ← h.core.tick, ← h.classes 1 (by decide)]
    exact filed

/-- An eligible entry of this zone chosen: the lowest FREE channel of its base is claimed and its ASSIGN sent. -/
theorem State.SampleKept.handedOver {e : Candidate} {a : BaseIx} (target : e.target = .localBase a) {r : Bool}
    (eligible : kept.eligible c i.serving.base e = true) (k : (kept.startHandover c i e r).Completes t c ks) :
    (t.ctx c).attempts = min 255 ((s.ctx c).attempts + 1) ∧
      ∃ ch, ch ∈ s.freeChannels a ∧ (∀ k ∈ s.freeChannels a, ch ≤ k) ∧
        (t.ctx c).phase = .preparing ⟨a, ch⟩ r ∧ (t.ctx c).orderNo = (s.ctx c).orderNo + 1 ∧
        t.channels = (s.setChan ⟨a, ch⟩ (.reserved (s.ownerOf c) i.tag)).channels ∧
        t.bases = (s.setBase a { s.base a with
          nextSerial := (s.base a).nextSerial + 1
          window := (s.base a).window ++ [newEntry (s.base a) .assign .sequencer
            (.call c (s.ctx c).use ((s.ctx c).orderNo + 1)) (some ch) s.settings.timers.echo] }).bases ∧
        t.ordersOut = [{ base := a, serial := (s.base a).nextSerial, order := .assign ch c i.tag }] ∧
        t.classes.get 1 = s.classes.get 1 := by
  obtain ⟨service, some_, room, near⟩ := State.eligible_local target eligible
  obtain ⟨ch, rest, free⟩ := List.exists_cons_of_ne_nil some_
  rw [State.startHandover_local target service free room near] at k
  rw [h.chooses.freeChannels] at free
  obtain ⟨mem, lowest⟩ := State.freeChannels_lowest free
  have ctx := (k.ctx c).trans (State.ctx_setCtx_self ..)
  have attempts : (kept.ctx c).attempts = (s.ctx c).attempts := by rw [h.ctx]; rfl
  have orderNo : (kept.ctx c).orderNo = (s.ctx c).orderNo := by rw [h.ctx]; rfl
  have base : kept.base a = s.base a := congrArg (Table.get · a) h.chooses.bases
  refine ⟨?_, ch, mem, lowest, ?_, ?_, ?_, ?_, ?_, (k.classes 1 (by decide)).trans (h.classes 1 (by decide))⟩
  · rw [ctx, ← attempts]; rfl
  · rw [ctx]; rfl
  · rw [ctx, ← orderNo]; rfl
  · have claimed : t.channels = (kept.setChan ⟨a, ch⟩ (.reserved (kept.ownerOf c) i.tag)).channels := k.channels
    rw [claimed, h.chooses.ownerOf]
    simp only [State.setChan, h.chooses.channels]
  · have sent : t.bases = (kept.setBase a _).bases := k.bases
    rw [sent, base, orderNo, h.chooses.use, h.chooses.settings]
    simp only [State.setBase, h.chooses.bases]
  · refine k.orders.trans ?_
    rw [← base]
    exact congrArg (· ++ _) h.orders

end

/-! ### REPORT -/

/-- The stickies and notices of an evaluation, by the conditions that it met (R111, R112, R114, R168). -/
theorem State.evaluation_sets (s : State) (c : CallIx) (i : CallInfo) (smp : Sample) :
    let e := s.settings.evaluator
    let diverged := divergesMet e (s.ctx c).serving (s.ctx c).uplink (s.ctx c).candidates smp
    let saturated := saturatesMet (s.evalContext c i) (s.ctx c).serving (s.ctx c).candidates smp
    (s.evaluation c i smp).setsDiverge e = (e.divergeMasked && !diverged.isEmpty) ∧
      (s.evaluation c i smp).setsSaturate e = (e.saturateMasked && !saturated.isEmpty) ∧
      ∀ number, (s.evaluation c i smp).notices e c number =
        (if e.divergeMasked then [] else diverged.map fun q => .diverge c number q.1 q.2.1 q.2.2) ++
          if e.saturateMasked then [] else saturated.map fun q => .saturate c number q.1 q.2 := by
  have diverged : (s.evaluation c i smp).diverged =
      divergesMet s.settings.evaluator (s.ctx c).serving (s.ctx c).uplink (s.ctx c).candidates smp :=
    (evaluate_conditions ..).1
  have saturated : (s.evaluation c i smp).saturated =
      saturatesMet (s.evalContext c i) (s.ctx c).serving (s.ctx c).candidates smp :=
    (evaluate_conditions ..).2
  dsimp only
  rw [← diverged, ← saturated]
  exact ⟨rfl, rfl, fun _ => rfl⟩

/-- A stray counted (R93). -/
theorem exec_report_strays {o : Origin} {f : ReportFrame}
    (taken : exec (.report o f) s = .next (s.fresh.setCtx c (s.ctx c).strayed))
    (switch : (s.ctx c).phase.name = .switching ∨ (s.ctx c).phase.name = .switchingOut) :
    (∃ p r old n d, (s.ctx c).phase = .switching p r old n d ∧
      exec (.report o f) s = .next (s.fresh.setCtx c { s.ctx c with
        strays := min 255 ((s.ctx c).strays + 1), phase := .switching p r old (min 255 (n + 1)) d })) ∨
    ∃ z a ch r old n d, (s.ctx c).phase = .switchingOut z a ch r old n d ∧
      exec (.report o f) s = .next (s.fresh.setCtx c { s.ctx c with
        strays := min 255 ((s.ctx c).strays + 1), phase := .switchingOut z a ch r old (min 255 (n + 1)) d }) := by
  unfold Context.strayed at taken
  cases phase : (s.ctx c).phase with
  | switching p r old n d =>
    rw [phase] at taken
    exact .inl ⟨p, r, old, n, d, rfl, taken⟩
  | switchingOut z a ch r old n d =>
    rw [phase] at taken
    exact .inr ⟨z, a, ch, r, old, n, d, rfl, taken⟩
  | _ => rw [phase] at switch; rcases switch with e | e <;> cases e

/-- Settles O50: a report is sorted by call, phase and spacing; a sample is kept, then its decision is handed on, then the
waiting slots complete, and each stage says what it leaves. -/
theorem reportTakenPackedOrStray : Obligations.ReportTakenPackedOrStray := by
  intro s from_ f b hears service few
  have taken : exec (.report from_ f) s = .next (s.fresh.takeReport b f) :=
    congrArg Host.Outcome.next (State.fromService_heard (s := s.fresh) hears service _)
  refine ⟨fun none_ => taken.trans (congrArg _ (State.takeReport_elsewhere none_)),
    fun c i index call active serving => ?_⟩
  by_cases switch : (s.ctx c).phase.name = .switching ∨ (s.ctx c).phase.name = .switchingOut
  · rw [State.takeReport_strays (s := s.fresh) index few call active serving switch] at taken
    rcases exec_report_strays taken switch with inside | out
    · exact .inl inside
    · exact .inr (.inl out)
  obtain ⟨inside, out⟩ := not_or.mp switch
  rw [State.takeReport_accepted (s := s.fresh) index few call active serving inside out] at taken
  refine .inr (.inr ⟨inside, out, fun near => taken.trans (congrArg _ (if_pos ((State.packs_iff _).mpr near))),
    fun far => ?_⟩)
  have apart : s.packs (s.ctx c) = false := Bool.eq_false_iff.mpr fun near => by
    obtain ⟨t, last, soon⟩ := (State.packs_iff _).mp near
    exact absurd soon (Nat.not_lt.mpr (far t last))
  obtain ⟨kept, moved, sampled, handed, completed, none_, some_⟩ :=
    State.acceptReport_stages (b := b) apart (congrArg ChanRef.base serving) f
  generalize s.fresh.acceptReport b c i f = t at taken completed
  obtain ⟨a, p, o, ctx⟩ := State.ctx_sampled sampled handed completed
  have slots : moved.slots = s.slots := handed.slots.trans sampled.slots
  have settings : moved.settings = s.settings := handed.core.settings.trans sampled.core.settings
  have uplink : (s.reportSample c b f).UplinkOf f.readingA f.readingB := buildSample_uplinkOf ..
  have listed : (s.reportSample c b f).neighbours = _ := buildSample_neighbours ..
  have doubtful : (s.reportSample c b f).doubtful = true ↔ _ := buildSample_doubtful_iff ..
  refine ⟨t, taken, (s.reportSample c b f).decided (s.evaluation c i (s.reportSample c b f)).verdict, ?ring, ?next, ?last,
    rfl, rfl, rfl, uplink.first, uplink.second, uplink.neither, uplink.taken, listed, ?unlisted,
    doubtful, ⟨rfl, rfl, ?serving, ?uplink, ?candidates, ?conditions, ?guard, ?use, ?none, ?some⟩,
    ?slots, ?done, ?others, ?call, ?settings, ?handsets, ?link⟩
  case ring => rw [ctx]; exact lastSamples_append ..
  case next => rw [ctx]; rfl
  case last => rw [ctx]; rfl
  case unlisted => rw [ctx]; rfl
  case serving => rw [ctx]; rfl
  case uplink => rw [ctx]; rfl
  case candidates => rw [ctx]; rfl
  case conditions =>
    obtain ⟨divergeSet, saturateSet, notices⟩ := s.evaluation_sets c i (s.reportSample c b f)
    refine ⟨?_, ?_, ?_, ?_, ?_⟩
    · rw [ctx]; exact congrArg (_ || ·) divergeSet
    · exact (completed.diverge.trans (handed.diverge.trans sampled.diverge)).trans (congrArg (_ || ·) divergeSet)
    · rw [ctx]; exact congrArg (_ || ·) saturateSet
    · exact (completed.saturate.trans (handed.saturate.trans sampled.saturate)).trans (congrArg (_ || ·) saturateSet)
    · refine (completed.classes 3 (by decide)).trans ((handed.classes 3 (by decide)).trans (sampled.reported.trans ?_))
      exact congrArg _ (notices _)
  case guard => rw [ctx]; rfl
  case use => rw [ctx]; rfl
  case none =>
    intro chosen
    have same := none_ chosen
    subst same
    exact sampled.notHanded completed
  case some =>
    intro entry m chosen
    obtain ⟨same, eligible⟩ := some_ _ chosen
    subst same
    cases target : entry.target with
    | localBase a =>
      obtain ⟨attempts, begun⟩ := sampled.handedOver target eligible completed
      refine ⟨attempts, nofun, ?_⟩
      rintro _ ⟨⟩
      exact begun
    | foreignBase z a =>
      obtain ⟨attempts, asked⟩ := sampled.handedOut target completed
      refine ⟨attempts, ?_, nofun⟩
      rintro _ _ ⟨⟩
      exact asked
  case slots =>
    intro k
    have after := completed.slots k (mem_indices k)
    rw [slots, settings, ← completed.ctx] at after
    exact after
  case done =>
    rw [completed.done, slots, handed.classes 6 (by decide), sampled.classes 6 (by decide), handed.core.tick,
      sampled.core.tick]
  case others =>
    intro d other
    rw [completed.ctx, handed.others d other, sampled.others d other]
  case call => rw [ctx]; exact call
  case settings => exact completed.settings.trans settings
  case handsets => exact completed.handsets.trans (handed.handsets.trans sampled.handsets)
  case link => exact completed.link.trans (handed.core.link.trans sampled.core.link)

end Sys2Proof.Machine
end

