-- ==== Sys2Proof/Proofs/ZoneRequests.lean ====
section
/-! The host's requests on a handover out of the zone: ZONE GO, ZONE FAIL and ZONE COMPLETE (R151, R152, R155; O25). -/

namespace Sys2Proof.Machine

open State

variable {s : State} {c : CallIx} {i : CallInfo}

/-! ### The notice classes that a clearing leaves alone -/

section
variable {k : Fin 8}

theorem State.foldl_class {α : Type} {f : State → α → State}
    (same : ∀ s a, (f s a).classes.get k = s.classes.get k) (l : List α) (s : State) :
    (l.foldl f s).classes.get k = s.classes.get k := by
  induction l generalizing s with
  | nil => rfl
  | cons a l ih => exact (ih _).trans (same s a)

/-- Captures that end are told in the CAPTURE class. -/
theorem State.endCaptures_class (capture : k ≠ 6) (s : State) (c : CallIx) :
    (s.endCaptures c).classes.get k = s.classes.get k := by
  have completed (s : State) (j : CapIx) (h : CaptureHeader) :
      (s.completeSlot j h .callEnded).classes.get k = s.classes.get k := State.post_class_ne _ _ (Ne.symm capture)
  refine State.foldl_class (fun s j => ?_) _ s
  unfold endCapture
  split
  · split
    · exact completed ..
    · rfl
  · split
    · exact completed ..
    · rfl
  · rfl

/-- A record that returns is told in the REGISTRATION class. -/
theorem State.returnRecord_class (record : k ≠ 4) (s : State) (i : CallInfo) (w : ClearCause) :
    (s.returnRecord i w).classes.get k = s.classes.get k := by
  unfold returnRecord
  split
  · rfl
  split
  · split
    · rfl
    split
    · exact State.post_class_ne _ _ (Ne.symm record)
    split
    · exact State.post_class_ne _ _ (Ne.symm record)
    · rfl
  · rfl

/-- A drain that ends is told in the STATE class. -/
theorem State.endDrain_class (drain : k ≠ 7) (s : State) : s.endDrain.classes.get k = s.classes.get k := by
  rcases s.endDrain_cases with ⟨_, _, e⟩ | ⟨_, e⟩ <;> rw [e]
  exact State.post_class_ne _ _ (Ne.symm drain)

theorem State.freeIfDone_class (record : k ≠ 4) (drain : k ≠ 7)
    (ended : ∀ i w, (s.ctx c).call = some i → i.stage = .clearing w → (i.endNotice c w).cls ≠ k) :
    (s.freeIfDone c).classes.get k = s.classes.get k := by
  rcases s.freeIfDone_cases c with e | ⟨i, w, call, stage, _, e⟩ <;> rw [e]
  exact ((State.endDrain_class drain _).trans (State.post_class_ne _ _ (ended i w call stage))).trans
    (State.returnRecord_class record (s.setCtx c (s.ctx c).freed) i w)

/-- A clearing posts in the classes of captures, records and drains, and in that of its end notice. -/
theorem State.clearCall_class (capture : k ≠ 6) (record : k ≠ 4) (drain : k ≠ 7) {w : ClearCause}
    (ended : ∀ i : CallInfo, (i.endNotice c w).cls ≠ k) : (s.clearCall c w).classes.get k = s.classes.get k := by
  rcases s.clearCall_cases c w with ⟨_, e⟩ | ⟨i, _, _, e⟩ <;> rw [e]
  have told : (if i.stage = .active then (s.setCtx c ((s.ctx c).clearing i w)).endCaptures c
      else s.setCtx c ((s.ctx c).clearing i w)).classes.get k = s.classes.get k := by
    split
    · exact State.endCaptures_class capture ..
    · rfl
  have begun := still_ite (p := i.stage = .active) (endCaptures_still (s.setCtx c ((s.ctx c).clearing i w)) c) (.refl _)
  dsimp only
  generalize (if i.stage = .active then (s.setCtx c ((s.ctx c).clearing i w)).endCaptures c
      else s.setCtx c ((s.ctx c).clearing i w)) = u at told begun
  have released := State.foldl_class (k := k) (f := fun t p => t.release p (some (u.ownerOf c)))
    (fun t p => congrArg (Table.get · k) (t.release_gives p _).2.2.2.1) (u.heldBy (u.ownerOf c)) u
  have still := begun.trans (still_foldl (fun t p => t.release p (some (u.ownerOf c))) (fun t p => release_still t p _)
    (u.heldBy (u.ownerOf c)) u)
  refine (State.freeIfDone_class record drain fun j v call stage => ?_).trans (released.trans told)
  rw [still.ctx, State.ctx_setCtx_self] at call
  cases call
  cases stage
  exact ended _

end

/-! ### The failure of a request to another zone (R127, R132) -/

/-- The attempt that HANDING_OUT records, failed: no channel is claimed for it, so nothing is released. -/
theorem State.failAttempt_handingOut {zone : ZoneIx} {base : BaseIx} {rescue : Bool} {deadline : Nat}
    (call : (s.ctx c).call = some i) (phase : (s.ctx c).phase = .handingOut zone base rescue deadline)
    (reason : HandoverReason) : s.failAttempt c reason =
      ((s.setCtx c ((s.ctx c).failed s.settings.timers.penalty (.foreignBase zone base))).post
        (.failed (i.ref c) i.serving (.foreignBase zone base) reason .handingOut rescue (s.ctx c).attempts)).markFailure := by
  rw [State.failAttempt_eq call (by rw [phase]; rfl), State.failAttemptOn_eq, phase]
  rfl

theorem Context.failed_eq (x : Context) (ticks : Nat) (target : Target) : x.failed ticks target = { x with
    phase := .none
    candidates := x.candidates.map fun e =>
      if e.target = target ∧ ticks ≠ 0 then { e with penalty := some ticks } else e } := by
  rw [Context.failed, penalise_eq]

/-- Giving out an order number leaves the phase. -/
theorem Context.nextOrder_of_phase {x : Context} {phase : Phase} (same : x.phase = phase) :
    { x.nextOrder with phase := phase } = x.nextOrder := by
  rw [← same]
  rfl

/-! ### Operands -/

@[simp] theorem asChannel_byte (ch : ChanIx) : asChannel (BitVec.ofNat 8 ch.val) = some ch := by
  rw [asChannel, toNat_ofNat8 (by omega), toIndex_val]

theorem takeZoneGo_badChannel {y : Byte} (large : 7 < y.toNat) (x : Byte) : takeZoneGo x y s = (refuse .badArg, s) := by
  have none_ : asChannel y = none := (toIndex_eq_none_iff ..).mpr large
  unfold takeZoneGo
  rw [none_]
  split
  · next ch => cases ch
  · rfl

/-! ### The wrong state -/

section
variable (other : ∀ i, (s.ctx c).call = some i → i.stage = .active → (s.ctx c).phase.name ≠ .handingOut)

include other

theorem takeZoneGo_wrongState (ch : ChanIx) :
    takeZoneGo (BitVec.ofNat 8 c.val) (BitVec.ofNat 8 ch.val) s = (refuse .wrongState, s) := by
  simp only [takeZoneGo, asCall_byte, asChannel_byte]
  split
  · next i _ _ _ _ call phase => exact if_neg fun active => other i call active (by rw [phase]; rfl)
  · rfl

theorem takeZoneFail_wrongState : takeZoneFail (BitVec.ofNat 8 c.val) s = (refuse .wrongState, s) := by
  simp only [takeZoneFail, asCall_byte]
  split
  · next i _ _ _ _ call phase => exact if_neg fun active => other i call active (by rw [phase]; rfl)
  · rfl

end

theorem takeZoneComplete_wrongState
    (other : ∀ i, (s.ctx c).call = some i → i.stage = .active → (s.ctx c).phase.name ≠ .switchingOut) :
    takeZoneComplete (BitVec.ofNat 8 c.val) s = (refuse .wrongState, s) := by
  simp only [takeZoneComplete, asCall_byte]
  split
  · next i _ _ _ _ _ _ _ call phase => exact if_neg fun active => other i call active (by rw [phase]; rfl)
  · rfl

/-! ### The requests taken -/

section
variable (call : (s.ctx c).call = some i) (active : i.stage = .active)

include call active

section
variable {zone : ZoneIx} {base : BaseIx} {rescue : Bool} {deadline : Nat}
  (phase : (s.ctx c).phase = .handingOut zone base rescue deadline)

include phase

theorem takeZoneFail_handingOut : takeZoneFail (BitVec.ofNat 8 c.val) s = (okay [], s.failAttempt c .zoneRefused) := by
  simp only [takeZoneFail, asCall_byte, call, phase, active, if_true]

section
variable (service : (s.base i.serving.base).state = .inService) (ch : ChanIx)

include service

/-- The MOVE sent: the call goes on in SWITCHING_OUT. -/
theorem takeZoneGo_sent (room : (s.base i.serving.base).window.length < 4) :
    takeZoneGo (BitVec.ofNat 8 c.val) (BitVec.ofNat 8 ch.val) s = (okay [4],
      { (s.setCtx c { (s.ctx c).nextOrder with
          phase := .switchingOut zone base ch rescue (some i.serving) 0 s.settings.timers.switch }).setBase
        i.serving.base { s.base i.serving.base with
          nextSerial := (s.base i.serving.base).nextSerial + 1
          window := (s.base i.serving.base).window ++ [newEntry (s.base i.serving.base) .move .sequencer
            ((s.ctx c).nextOrder.sequencerOwner c) (some i.serving.channel) s.settings.timers.echo] } with
        ordersOut := s.ordersOut ++ [{ base := i.serving.base, serial := (s.base i.serving.base).nextSerial
                                       order := .move i.serving.channel (.foreignBase zone base) ch }] }) := by
  simp only [takeZoneGo, asCall_byte, asChannel_byte, call, phase, active, if_true]
  unfold offerMove
  rw [State.offer_sent (by exact service) (by exact room)]
  simp only [State.ctx_send, State.ctx_setCtx_self]
  simp only [State.send_eq, State.setCtx, State.setBase, Table.set_set]
  rfl

/-- No room for the MOVE: the attempt fails with its order number spent. -/
theorem takeZoneGo_full (full : 4 ≤ (s.base i.serving.base).window.length) :
    takeZoneGo (BitVec.ofNat 8 c.val) (BitVec.ofNat 8 ch.val) s = (refuse .orderWindowFull,
      ((s.setCtx c ((s.ctx c).nextOrder.failed s.settings.timers.penalty (.foreignBase zone base))).post
        (.failed (i.ref c) i.serving (.foreignBase zone base) .orderWindowFull .handingOut rescue
          (s.ctx c).attempts)).markFailure) := by
  have counted : { (s.ctx c).nextOrder with phase := .handingOut zone base rescue deadline } = (s.ctx c).nextOrder :=
    Context.nextOrder_of_phase phase
  have same : (s.setCtx c (s.ctx c).nextOrder).setBase i.serving.base (s.base i.serving.base) =
      s.setCtx c (s.ctx c).nextOrder :=
    congrArg (fun bases => { s.setCtx c (s.ctx c).nextOrder with bases := bases }) (Table.set_get_self ..)
  simp only [takeZoneGo, asCall_byte, asChannel_byte, call, phase, active, if_true, counted]
  unfold offerMove
  rw [State.offer_full (by exact service) (by exact full)]
  refine (congrArg (fun u : State => (refuse .orderWindowFull, u.failAttempt c .orderWindowFull)) same).trans ?_
  rw [State.failAttempt_handingOut (by rw [State.ctx_setCtx_self]; exact call) (by rw [State.ctx_setCtx_self]; exact phase),
    State.ctx_setCtx_self, State.setCtx_setCtx]
  rfl

end

end

/-- The notice of a completed handover out of the zone, then the clearing (R155). -/
theorem takeZoneComplete_switchingOut {zone : ZoneIx} {base : BaseIx} {ch : ChanIx} {rescue : Bool}
    {old : Option ChanRef} {strays deadline : Nat}
    (phase : (s.ctx c).phase = .switchingOut zone base ch rescue old strays deadline) :
    let t := (s.post (.zoneOutDone (i.ref c) old zone base ch strays rescue (s.ctx c).attempts)).clearCall c
      (.handedOut zone)
    takeZoneComplete (BitVec.ofNat 8 c.val) s = (okay (byte1 (t.callCode c)), t) := by
  simp only [takeZoneComplete, asCall_byte, call, phase, active, if_true]

end

/-- A clearing that starts, with the code of the call state that a reply then gives (R82, R155). -/
theorem State.clearCall_callCode (w : ClearCause) (call : (s.ctx c).call = some i) (stage : ∀ k, i.stage ≠ .clearing k) :
    ((s.clearCall c w).ctx c).call = none ∧ (s.clearCall c w).callCode c = 0 ∨
      ((s.clearCall c w).ctx c).call = some { i with stage := .clearing w } ∧ (s.clearCall c w).callCode c = 3 := by
  rcases s.call_clearCall w call stage with free | clearing
  · exact .inl ⟨free, State.callCode_of_free free⟩
  · exact .inr ⟨clearing, State.callCode_of_clearing clearing rfl⟩

/-! ### The statement -/

/-- Settles O25: each request by the phase of its call, and the clearing that ZONE COMPLETE starts. -/
theorem zoneRequestsRunHandoverOut : Obligations.ZoneRequestsRunHandoverOut := by
  refine ⟨fun tag x y s idle => ⟨fun high => ?_, fun high =>
      ⟨refused_of_take idle tag (r := .zoneFail x) (takeZoneFail_badArg high),
        refused_of_take idle tag (r := .zoneComplete x) (takeZoneComplete_badArg high)⟩⟩,
    fun tag s c idle inactive => ⟨fun ch => ?_, ?_, ?_⟩, fun tag s c i idle call active => ⟨?out, ?complete, ?_, ?_⟩⟩
  · rcases high with large | large
    · exact refused_of_take idle tag (r := .zoneGo x y) (takeZoneGo_badChannel large x)
    · exact refused_of_take idle tag (r := .zoneGo x y) (takeZoneGo_badArg large y)
  · exact refused_of_take idle tag (r := .zoneGo ..)
      (takeZoneGo_wrongState (s := s.fresh) (fun j callj active => absurd active (inactive j callj)) ch)
  · exact refused_of_take idle tag (r := .zoneFail ..)
      (takeZoneFail_wrongState (s := s.fresh) fun j callj active => absurd active (inactive j callj))
  · exact refused_of_take idle tag (r := .zoneComplete ..)
      (takeZoneComplete_wrongState (s := s.fresh) fun j callj active => absurd active (inactive j callj))
  case out =>
    intro zone base rescue deadline phase
    refine ⟨fun ch service room => ?_, fun ch service full => ?_, ?_⟩
    · exact answer_of_portFree idle tag (r := .zoneGo ..)
        (takeZoneGo_sent (s := s.fresh) call active phase service ch room)
    · have taken := takeZoneGo_full (s := s.fresh) call active phase service ch full
      rw [Context.failed_eq] at taken
      exact answer_of_portFree idle tag (r := .zoneGo ..) taken
    · have taken := takeZoneFail_handingOut (s := s.fresh) call active phase
      rw [State.failAttempt_handingOut (s := s.fresh) call phase, Context.failed_eq] at taken
      exact answer_of_portFree idle tag (r := .zoneFail ..) taken
  case complete =>
    intro zone base ch rescue old strays deadline phase
    have taken := takeZoneComplete_switchingOut (s := s.fresh) call active phase
    dsimp only at taken
    generalize posted : s.fresh.post (.zoneOutDone (i.ref c) old zone base ch strays rescue (s.fresh.ctx c).attempts) = p
      at taken
    have filed : p.classes.get 1 = _ := posted ▸ State.post_class_self s.fresh (.zoneOutDone ..)
    have callp : (p.ctx c).call = some i := posted ▸ call
    have live : ∀ k, i.stage ≠ .clearing k := by simp [active]
    obtain ⟨concerns, _, ctx, _⟩ := p.clearCall_starts (.handedOut zone) callp live
    have keeps := clearCall_keeps p c (.handedOut zone)
    have class_ : (p.clearCall c (.handedOut zone)).classes.get 1 = p.classes.get 1 :=
      State.clearCall_class (by decide) (by decide) (by decide) fun _ => by simp [CallInfo.endNotice, NoticeBody.cls]
    have code := State.clearCall_callCode (.handedOut zone) callp live
    refine ⟨_, answer_of_portFree idle tag (r := .zoneComplete ..) taken, ?_, class_.trans filed, ?_,
      fun d other => (concerns.others d other).trans (posted ▸ rfl), keeps.settings.trans (posted ▸ rfl)⟩
    · rw [State.answered_link, keeps.link]
      rcases code with ⟨free, code⟩ | ⟨clearing, code⟩ <;> rw [code]
      · exact .inl ⟨free, posted ▸ rfl⟩
      · exact .inr ⟨clearing, posted ▸ rfl⟩
    · rw [State.ctx_answered]
      rcases ctx with e | e <;> rw [e] <;> rfl
  · intro other
    exact ⟨fun ch => refused_of_take idle tag (r := .zoneGo ..)
        (takeZoneGo_wrongState (s := s.fresh) (fun _ _ _ => other) ch),
      refused_of_take idle tag (r := .zoneFail ..) (takeZoneFail_wrongState (s := s.fresh) fun _ _ _ => other)⟩
  · intro other
    exact refused_of_take idle tag (r := .zoneComplete ..)
      (takeZoneComplete_wrongState (s := s.fresh) fun _ _ _ => other)

end Sys2Proof.Machine
end

