-- ==== Sys2Proof/Proofs/SampleSmoothing.lean ====
section
/-! What one sample makes of averages, scores, compares and dwells (R109 to R119; O51). -/

namespace Sys2Proof.Machine

/-! ### Smoothing (R109) -/

/-- The step of an average over a distance `d`: `d / 2^k` rounded to the nearest whole number, halves away from zero. -/
def smoothStep (k d : Nat) : Nat := (d + 2 ^ (k - 1)) / 2 ^ k

section
variable {k : Nat}

theorem smooth_up (nonzero : k ≠ 0) {a term : Nat} (up : a ≤ term) : smooth k a term = a + smoothStep k (term - a) := by
  rw [smooth, if_neg nonzero, if_pos up, smoothStep]

/-- Downwards; at the term itself both forms hold. -/
theorem smooth_down (nonzero : k ≠ 0) {a term : Nat} (down : term ≤ a) :
    smooth k a term = a - smoothStep k (a - term) := by
  rw [smooth, if_neg nonzero, smoothStep]
  split
  · next up =>
    have same : a = term := Nat.le_antisymm up down
    subst same
    have half : 2 ^ (k - 1) / 2 ^ k = 0 :=
      Nat.div_eq_of_lt (Nat.pow_lt_pow_right Nat.one_lt_two (Nat.sub_one_lt nonzero))
    simp only [Nat.sub_self, Nat.zero_add, half, Nat.add_zero, Nat.sub_zero]
  · rfl

/-- The step lies within half a unit of the quotient, a half going up. -/
theorem smoothStep_rounds (nonzero : k ≠ 0) (d : Nat) :
    2 ^ k * (2 * smoothStep k d) ≤ 2 * d + 2 ^ k ∧ 2 * d < 2 ^ k * (2 * smoothStep k d) + 2 ^ k := by
  obtain ⟨j, rfl⟩ := Nat.exists_eq_succ_of_ne_zero nonzero
  have double : 2 ^ (j + 1) = 2 * 2 ^ j := Nat.pow_succ'
  have whole := Nat.div_add_mod (d + 2 ^ j) (2 ^ (j + 1))
  have rest := Nat.mod_lt (d + 2 ^ j) (Nat.two_pow_pos (j + 1))
  simp only [smoothStep, Nat.succ_eq_add_one, Nat.add_sub_cancel]
  rw [Nat.mul_left_comm]
  omega

theorem smoothStep_le (nonzero : k ≠ 0) (d : Nat) : smoothStep k d ≤ d := by
  obtain ⟨near, _⟩ := smoothStep_rounds nonzero d
  have two : 2 ≤ 2 ^ k := Nat.le_self_pow nonzero 2
  by_contra beyond
  have far : 2 ^ k * (2 * (d + 1)) ≤ 2 ^ k * (2 * smoothStep k d) := Nat.mul_le_mul_left _ (by omega)
  have grown : 2 * (2 * d + 1) ≤ 2 ^ k * (2 * d + 1) := Nat.mul_le_mul_right _ two
  have apart : 2 ^ k * (2 * (d + 1)) = 2 ^ k * (2 * d + 1) + 2 ^ k := by ring
  omega

end

theorem smooth_zero (a term : Nat) : smooth 0 a term = term := if_pos rfl

/-- Smoothing stays between the average and the term. -/
theorem smooth_between (k a term : Nat) : min a term ≤ smooth k a term ∧ smooth k a term ≤ max a term := by
  refine ⟨?_, smooth_le_max k a term⟩
  by_cases zero : k = 0
  · subst zero
    rw [smooth_zero]
    exact Nat.min_le_right ..
  · rcases Nat.le_total a term with up | down
    · rw [smooth_up zero up]
      omega
    · have within := smoothStep_le zero (a - term)
      rw [smooth_down zero down]
      omega

/-- The distance moved is the quotient rounded, whichever the direction. -/
theorem smooth_rounds (k a term : Nat) :
    (a ≤ term → 2 ^ k * (2 * (smooth k a term - a)) ≤ 2 * (term - a) + 2 ^ k ∧
      2 * (term - a) < 2 ^ k * (2 * (smooth k a term - a)) + 2 ^ k) ∧
    (term ≤ a → 2 ^ k * (2 * (a - smooth k a term)) ≤ 2 * (a - term) + 2 ^ k ∧
      2 * (a - term) < 2 ^ k * (2 * (a - smooth k a term)) + 2 ^ k) := by
  by_cases zero : k = 0
  · subst zero
    rw [smooth_zero, Nat.pow_zero]
    omega
  · refine ⟨fun up => ?_, fun down => ?_⟩
    · rw [smooth_up zero up, Nat.add_sub_cancel_left]
      exact smoothStep_rounds zero _
    · rw [smooth_down zero down, Nat.sub_sub_self ((smoothStep_le zero _).trans (Nat.sub_le ..))]
      exact smoothStep_rounds zero _

/-! ### An average after a reading (R110, R111) -/

section
variable (e : EvaluatorSettings) {old l : Nat}

theorem diverges_eq_true_iff (limit a l : Nat) :
    diverges limit a l = true ↔ a + 4 * limit < 4 * l ∨ 4 * l + 4 * limit < a := by
  simp only [diverges, Bool.or_eq_true, decide_eq_true_eq]

theorem EvaluatorSettings.averageIf_within (low : 4 * l ≤ old + 4 * e.divergence) (high : old ≤ 4 * l + 4 * e.divergence) :
    e.averageIf (some old) (some l) =
      { average := some (smooth e.smoothing old (4 * l)), diverged := false, aside := false } := by
  have near : ¬diverges e.divergence old l = true := by
    rw [diverges_eq_true_iff]
    omega
  simp only [averageIf, average, if_neg near]

section
variable (far : old + 4 * e.divergence < 4 * l ∨ 4 * l + 4 * e.divergence < old)

include far

theorem EvaluatorSettings.averageIf_aside (unmasked : e.divergeMasked = false) :
    e.averageIf (some old) (some l) = { average := some old, diverged := true, aside := true } := by
  simp only [averageIf, average, if_pos ((diverges_eq_true_iff ..).mpr far), unmasked, Bool.false_eq_true, if_false]

theorem EvaluatorSettings.averageIf_clamped (masked : e.divergeMasked = true) : e.averageIf (some old) (some l) =
    { average := some (smooth e.smoothing old (if old < 4 * l then old + 4 * e.divergence else old - 4 * e.divergence))
      diverged := true, aside := false } := by
  simp only [averageIf, average, if_pos ((diverges_eq_true_iff ..).mpr far), masked, if_true, clampedTerm]

end

end

/-! ### Score, compare and dwell (R113 to R116) -/

theorem offsetAt_eq (list : List Neighbour) (p : Fin 8) :
    offsetAt list p = ((list[p.val]?).map Neighbour.offset).getD 0 := by
  unfold offsetAt
  cases list[p.val]? <;> rfl

theorem saturates_eq_true_iff (raw : Int) : saturates raw = true ↔ raw < -256 ∨ 255 < raw := by
  simp only [saturates, Bool.or_eq_true, decide_eq_true_eq]

theorem dwellAfter_compareOf (dwell : Nat) (score : Int) :
    dwellAfter dwell (compareOf (some score)) = if 0 ≤ score then min 15 (dwell + 1) else 0 := by
  rcases lt_trichotomy score 0 with worse | equal | better
  · simp only [compareOf, if_neg (not_lt.mpr worse.le), if_neg worse.ne, if_neg (not_le.mpr worse), dwellAfter]
  · simp only [compareOf, equal, lt_irrefl, le_refl, if_true, if_false, dwellAfter, sat]
  · simp only [compareOf, if_pos better, if_pos better.le, dwellAfter, sat]

section
variable (e : EvaluatorSettings) {raw : Int}

theorem EvaluatorSettings.storedScore_within (low : -256 ≤ raw) (high : raw ≤ 255) :
    e.storedScore raw = some raw ∧ (some raw).filter saturates = none := by
  have fits : ¬saturates raw = true := by
    rw [saturates_eq_true_iff]
    omega
  exact ⟨if_neg fits, by rw [Option.filter_some, if_neg fits]⟩

theorem EvaluatorSettings.storedScore_beyond (out : raw < -256 ∨ 255 < raw) :
    e.storedScore raw = (if e.saturateMasked then some (max (-256) (min 255 raw)) else none) ∧
      (some raw).filter saturates = some raw := by
  have beyond := (saturates_eq_true_iff raw).mpr out
  exact ⟨if_pos beyond, by rw [Option.filter_some, if_pos beyond]⟩

end

/-! ### An entry that a sample names, or does not name (R117 to R119) -/

/-- The raw score of a named entry (R113), where its reading is valid and not set aside and there is a serving average. -/
def EvaluatorSettings.rawOf (e : EvaluatorSettings) (list : List Neighbour) (low : Target → Bool) (serving : Option Nat)
    (n : NeighbourReading) (c : Candidate) : Option Int :=
  match n.reading.level, serving with
  | some _, some a =>
    if (e.averageIf (some c.average) n.reading.level).aside then none
    else some (e.rawScore ((e.averageIf (some c.average) n.reading.level).average.getD c.average)
      (offsetAt list c.position) a (low c.target))
  | _, _ => none

section
variable (e : EvaluatorSettings) (list : List Neighbour) (low : Target → Bool) (serving : Option Nat) {x : Sample}
  {c : Candidate}

theorem Sample.names_eq_none (unnamed : ∀ n ∈ x.neighbours, n.target ≠ c.target) : x.names c.target = none :=
  List.find?_eq_none.mpr fun n mem named => unnamed n mem (beq_iff_eq.mp named)

theorem Sample.names_eq_some {before after : List NeighbourReading} {n : NeighbourReading}
    (split : x.neighbours = before ++ n :: after) (first : ∀ m ∈ before, m.target ≠ c.target)
    (named : n.target = c.target) : x.names c.target = some n := by
  refine List.find?_eq_some_iff_append.mpr ⟨beq_iff_eq.mpr named, before, after, split, fun m mem => ?_⟩
  simpa using first m mem

theorem EvaluatorSettings.weigh_unnamed (unnamed : x.names c.target = none) :
    e.weigh list low serving x c = Weighed.untouched c ∧ e.weighDoubtful x c = Weighed.untouched c := by
  simp only [weigh, weighDoubtful, unnamed, and_self]

variable {n : NeighbourReading}

theorem EvaluatorSettings.weighDoubtful_named (named : x.names c.target = some n) :
    let taken := e.averageIf (some c.average) n.reading.level
    e.weighDoubtful x c =
      { entry := { c with average := taken.average.getD c.average }, named := true, before := c.dwell
        score := none, diverged := if taken.diverged then n.reading.level else none, saturated := none } := by
  simp only [weighDoubtful, named, Weighed.untouched]

theorem EvaluatorSettings.weigh_named (named : x.names c.target = some n) :
    let taken := e.averageIf (some c.average) n.reading.level
    let raw := e.rawOf list low serving n c
    let score := raw.bind e.storedScore
    e.weigh list low serving x c =
      { entry := { c with
          average := taken.average.getD c.average, lastCompare := compareOf score, lastScore := score
          dwell := dwellAfter c.dwell (compareOf score), misses := 0 }
        named := true, before := c.dwell, score := score
        diverged := if taken.diverged then n.reading.level else none, saturated := raw.filter saturates } := by
  unfold weigh
  rw [named]
  rfl

theorem EvaluatorSettings.rawOf_eq_none
    (unscored : serving = none ∨ (e.averageIf (some c.average) n.reading.level).aside = true ∨
      ∀ l, n.reading ≠ .valid l) : e.rawOf list low serving n c = none := by
  unfold rawOf
  split
  · next l a level =>
    rcases unscored with none_ | aside | invalid
    · cases none_
    · exact if_pos aside
    · cases read : n.reading with
      | valid l => exact absurd read (invalid l)
      | range | absent => rw [read] at level; cases level
  · rfl

theorem EvaluatorSettings.rawOf_eq_some {l a : Nat} (read : n.reading = .valid l)
    (taken : (e.averageIf (some c.average) n.reading.level).aside = false) :
    e.rawOf list low (some a) n c =
      some (((e.averageIf (some c.average) n.reading.level).average.getD c.average : Int) +
        4 * ((list[c.position.val]?).map Neighbour.offset).getD 0 - a - 4 * e.hysteresis -
        (if low c.target then 4 * e.loadPenalty else 0)) := by
  simp only [rawOf, read, Reading.level] at taken ⊢
  rw [if_neg (Bool.eq_false_iff.mp taken), rawScore, offsetAt_eq]
  push_cast
  rfl

end

/-! ### The statement -/

/-- A raw score as it is stored and reported (R114): kept in range, otherwise clamped or dropped and reported. -/
theorem EvaluatorSettings.weigh_scored (e : EvaluatorSettings) {list : List Neighbour} {low : Target → Bool}
    {serving : Option Nat} {x : Sample} {c : Candidate} {n : NeighbourReading} {raw : Int}
    (named : x.names c.target = some n) (scored : e.rawOf list low serving n c = some raw) :
    let w := e.weigh list low serving x c
    (-256 ≤ raw → raw ≤ 255 → w.score = some raw ∧ w.saturated = none) ∧
    (255 < raw → w.score = (if e.saturateMasked then some 255 else none) ∧ w.saturated = some raw) ∧
    (raw < -256 → w.score = (if e.saturateMasked then some (-256) else none) ∧ w.saturated = some raw) := by
  have weighed := e.weigh_named list low serving named
  dsimp only at weighed
  rw [scored] at weighed
  rw [weighed]
  refine ⟨fun least most => e.storedScore_within least most, fun above => ?_, fun below => ?_⟩
  · have stored := e.storedScore_beyond (.inr above)
    rwa [min_eq_left above.le, max_eq_right (by decide)] at stored
  · have stored := e.storedScore_beyond (.inl below)
    rwa [min_eq_right (by omega), max_eq_left below.le] at stored

/-- Settles O51: the rounded step, the cases of a reading, an entry named or not, and the conditions of the sample. -/
theorem smoothingMovesTowardsReading : Obligations.SmoothingMovesTowardsReading := by
  refine ⟨⟨smooth_zero, fun k a term =>
      ⟨(smooth_between k a term).1, (smooth_between k a term).2, smooth_rounds k a term⟩⟩,
    fun e a => ⟨rfl, fun _ => rfl, ?_⟩, fun e list low serving x c => ⟨fun unnamed => ?_, ?_⟩,
    fun k serving uplink candidates x => ?_⟩
  · rintro old l rfl
    exact ⟨e.averageIf_within, fun far => ⟨e.averageIf_aside far, e.averageIf_clamped far⟩⟩
  · exact e.weigh_unnamed list low serving (Sample.names_eq_none unnamed)
  · intro before n after split first target w taken offset
    have named := Sample.names_eq_some split first target
    have weighed : w = _ := e.weigh_named list low serving named
    refine ⟨e.weighDoubtful_named named, by rw [weighed], by rw [weighed], by rw [weighed], ?_, fun unscored => ?_,
      fun l a read measured kept => ?_⟩
    · rw [weighed]
      dsimp only
      generalize (e.rawOf list low serving n c).bind e.storedScore = score
      cases score with
      | none => rfl
      | some m =>
        rw [dwellAfter_compareOf]
        rfl
    · rw [weighed]
      simp only [e.rawOf_eq_none list low serving unscored]
      exact ⟨rfl, rfl⟩
    · subst measured
      exact e.weigh_scored named (e.rawOf_eq_some list low read kept)
  · obtain ⟨downlink, up⟩ := evaluate_averages (x := x) k serving uplink candidates
    obtain ⟨diverged, saturated⟩ := evaluate_conditions x k serving uplink candidates
    refine ⟨downlink, up, diverged, saturated, fun doubtful => ?_⟩
    obtain ⟨entries, verdict⟩ := evaluate_doubtful k serving uplink candidates doubtful
    rw [List.map_map] at entries
    exact ⟨entries, verdict, saturated.trans (if_pos doubtful)⟩

end Sys2Proof.Machine
end

