-- ==== Sys2Proof/Proofs/TargetChoice.lean ====
section
/-! The choice of a target: the best of the scored entries, the decision over it, misses and eligibility (R113, R117, R120
to R126; O52). -/

namespace Sys2Proof.Machine

/-! ### The choice (R125) -/

section
variable {p : Weighed → Bool} {test : Weighed → Prop} {l : List Weighed} {w : Weighed} {n : Int}

/-- One more entry at the end of a list, weighed against the best so far. -/
def challenge (p : Weighed → Bool) (best : Option (Weighed × Int)) (w : Weighed) : Option (Weighed × Int) :=
  match w.score with
  | none => best
  | some s =>
    if p w then
      match best with
      | none => some (w, s)
      | some b => if beats (w, s) b then some (w, s) else some b
    else best

theorem choose_concat (p : Weighed → Bool) (l : List Weighed) (w : Weighed) :
    choose p (l ++ [w]) = challenge p (choose p l) w := by
  unfold choose
  rw [List.foldl_append]
  rfl

/-- An entry without a score, or that fails the test, is passed over. -/
theorem challenge_passed (out : w.score = none ∨ p w = false) (best : Option (Weighed × Int)) :
    challenge p best w = best := by
  unfold challenge
  rcases out with unscored | fails
  · rw [unscored]
  · split
    · rfl
    · rw [fails]; rfl

section
variable (scored : w.score = some n) (passes : p w = true)

include scored passes

theorem challenge_first : challenge p none w = some (w, n) := by
  simp only [challenge, scored, passes, if_true]

theorem challenge_next (b : Weighed × Int) :
    challenge p (some b) w = if beats (w, n) b then some (w, n) else some b := by
  simp only [challenge, scored, passes, if_true]

end

theorem beats_eq_true_iff (a b : Weighed × Int) :
    beats a b = true ↔ b.2 < a.2 ∨ (a.2 = b.2 ∧ b.1.entry.dwell < a.1.entry.dwell) := by
  simp only [beats, Bool.or_eq_true, Bool.and_eq_true, decide_eq_true_eq]

theorem comesFirst.concat_passed {v : Weighed} (first : comesFirst test l w n)
    (least : test v → ∀ m, v.score = some m → m < n ∨ (m = n ∧ v.entry.dwell ≤ w.entry.dwell)) :
    comesFirst test (l ++ [v]) w n := by
  obtain ⟨before, after, rfl, scored, passes, earlier, later⟩ := first
  refine ⟨before, after ++ [v], by simp, scored, passes, earlier, fun u mem => ?_⟩
  rcases List.mem_append.mp mem with mem | mem
  · exact later u mem
  · exact List.mem_singleton.mp mem ▸ least

theorem comesFirst_concat_last (scored : w.score = some n) (passes : test w)
    (most : ∀ v ∈ l, test v → ∀ m, v.score = some m → m < n ∨ (m = n ∧ v.entry.dwell < w.entry.dwell)) :
    comesFirst test (l ++ [w]) w n :=
  ⟨l, [], rfl, scored, passes, most, fun _ mem => absurd mem List.not_mem_nil⟩

theorem comesFirst.greatest (first : comesFirst test l w n) :
    ∀ v ∈ l, test v → ∀ m, v.score = some m → m < n ∨ (m = n ∧ v.entry.dwell ≤ w.entry.dwell) := by
  obtain ⟨before, after, rfl, scored, passes, earlier, later⟩ := first
  intro v mem pass m score
  rcases List.mem_append.mp mem with mem | mem
  · exact (earlier v mem pass m score).imp_right (And.imp_right Nat.le_of_lt)
  · rcases List.mem_cons.mp mem with rfl | mem
    · exact .inr ⟨Option.some.inj (score.symm.trans scored), Nat.le_refl _⟩
    · exact later v mem pass m score

/-- What a choice answers: the entry that comes first, or nothing when no entry that passes is scored. -/
def chosenFrom (p : Weighed → Bool) (l : List Weighed) : Option (Weighed × Int) → Prop
  | none => ∀ w ∈ l, p w = true → w.score = none
  | some (w, n) => comesFirst (fun w => p w = true) l w n

/-- The answer stays right as an entry is added that is passed over. -/
theorem chosenFrom_passed {best : Option (Weighed × Int)} (chosen : chosenFrom p l best)
    (out : w.score = none ∨ p w = false) : chosenFrom p (l ++ [w]) best := by
  cases best with
  | none =>
    intro v mem passes
    rcases List.mem_append.mp mem with mem | mem
    · exact chosen v mem passes
    · cases List.mem_singleton.mp mem
      exact out.resolve_right (by simp [passes])
  | some b =>
    have first : comesFirst (fun w => p w = true) l b.1 b.2 := chosen
    refine first.concat_passed fun passes m score => ?_
    rcases out with unscored | fails
    · simp [unscored] at score
    · simp [fails] at passes

/-- The answer stays right as a scored entry that passes is weighed against it. -/
theorem chosenFrom_challenged {best : Option (Weighed × Int)} (chosen : chosenFrom p l best)
    (scored : w.score = some n) (passes : p w = true) : chosenFrom p (l ++ [w]) (challenge p best w) := by
  cases best with
  | none =>
    rw [challenge_first scored passes]
    refine comesFirst_concat_last (test := fun w => p w = true) scored passes fun v mem pass m score => ?_
    simp [chosen v mem pass] at score
  | some b =>
    have first : comesFirst (fun w => p w = true) l b.1 b.2 := chosen
    rw [challenge_next scored passes]
    split
    · next better =>
      replace better := (beats_eq_true_iff (w, n) b).mp better
      dsimp only at better
      refine comesFirst_concat_last (test := fun w => p w = true) scored passes fun v mem pass m score => ?_
      have below := first.greatest v mem pass m score
      omega
    · next worse =>
      replace worse := mt (beats_eq_true_iff (w, n) b).mpr worse
      dsimp only at worse
      refine first.concat_passed fun _ m score => ?_
      cases scored.symm.trans score
      omega

theorem choose_chosenFrom (p : Weighed → Bool) (l : List Weighed) : chosenFrom p l (choose p l) := by
  induction l using List.reverseRecOn with
  | nil => exact fun _ mem => absurd mem List.not_mem_nil
  | append_singleton l v ih =>
    rw [choose_concat]
    by_cases out : v.score = none ∨ p v = false
    · rw [challenge_passed out]
      exact chosenFrom_passed ih out
    · obtain ⟨scored, passes⟩ := not_or.mp out
      obtain ⟨n, scored⟩ := Option.ne_none_iff_exists'.mp scored
      exact chosenFrom_challenged ih scored (by simpa using passes)

variable (same : ∀ w, p w = true ↔ test w)

include same

/-- The entry chosen comes first among the scored ones that pass. -/
theorem choose_first (chosen : choose p l = some (w, n)) : comesFirst test l w n := by
  have first := choose_chosenFrom p l
  rw [chosen] at first
  have tests : (fun w => p w = true) = test := funext fun w => propext (same w)
  exact tests ▸ first

theorem choose_eq_none_iff : choose p l = none ↔ ∀ w ∈ l, test w → w.score = none := by
  refine ⟨fun none_ w mem pass => ?_, fun unscored => ?_⟩
  · have answer := choose_chosenFrom p l
    rw [none_] at answer
    exact answer w mem ((same w).mpr pass)
  · by_contra some_
    obtain ⟨⟨w, n⟩, chosen⟩ := Option.ne_none_iff_exists'.mp some_
    obtain ⟨mem, scored, passes⟩ := choose_some chosen
    simp [unscored w mem ((same w).mp passes)] at scored

/-- A test that only scored entries pass finds nothing exactly when no entry passes. -/
theorem choose_ne_none_iff (scored : ∀ w, test w → w.score ≠ none) : choose p l ≠ none ↔ ∃ w ∈ l, test w := by
  rw [Ne, choose_eq_none_iff same]
  refine ⟨fun some_ => ?_, fun ⟨w, mem, pass⟩ none_ => scored w pass (none_ w mem pass)⟩
  by_contra none_
  exact some_ fun w mem pass => absurd ⟨w, mem, pass⟩ none_

end

/-! ### The tests (R124, R125) -/

section
variable (e : EvaluatorSettings) (w : Weighed)

theorem EvaluatorSettings.rescueTest_iff : e.rescueTest w = true ↔ passesRescue e w := by
  unfold rescueTest passesRescue
  cases w.score with
  | none => simp
  | some n => simp

theorem EvaluatorSettings.triggerTest_iff : e.triggerTest w = true ↔ passesTrigger e w := by
  simp only [triggerTest, passesTrigger, Bool.and_eq_true, Bool.or_eq_true, beq_iff_eq, decide_eq_true_eq,
    Option.isSome_iff_ne_none, and_assoc]

variable {e w}

theorem passesRescue.scored (passes : passesRescue e w) : w.score ≠ none := by
  obtain ⟨⟨n, scored, _⟩, _⟩ := passes
  simp [scored]

theorem passesTrigger.scored (passes : passesTrigger e w) : w.score ≠ none := passes.1

end

/-! ### The decision (R123 to R126) -/

/-- An outcome that hands nothing on and reports the best of all scored entries. -/
def Verdict.watch (d : Decision) (l : List Weighed) : Verdict :=
  { decision := d, best := bestOf (choose (fun _ => true) l), chosen := none }

/-- The outcome that reports the entry it would have handed on, were it eligible. -/
def Verdict.block (w : Weighed × Int) : Verdict := { decision := .blocked, best := bestOf (some w), chosen := none }

theorem Verdict.watch_best (d : Decision) (l : List Weighed) :
    ((∀ w ∈ l, w.score = none) → (Verdict.watch d l).best = none) ∧
      ((∃ w ∈ l, w.score ≠ none) → ∃ w n, (Verdict.watch d l).best = some (w.entry.target, n) ∧
        comesFirst (fun _ => True) l w n) := by
  have any : ∀ w : Weighed, (fun _ => true) w = true ↔ (fun _ => True) w := fun _ => iff_of_true rfl trivial
  refine ⟨fun unscored => ?_, fun ⟨w, mem, scored⟩ => ?_⟩
  · rw [watch, (choose_eq_none_iff any).mpr fun w mem _ => unscored w mem]
    rfl
  · have some_ : choose (fun _ => true) l ≠ none := fun none_ => scored ((choose_eq_none_iff any).mp none_ w mem trivial)
    obtain ⟨⟨w, n⟩, chosen⟩ := Option.ne_none_iff_exists'.mp some_
    exact ⟨w, n, by rw [watch, chosen]; rfl, choose_first any chosen⟩

/-- Stage 6 as a chain of choices (R123 to R126): those that hand an entry on, `rescue` and `trigger`, and what they would
be were every entry eligible, `rescues` and `triggers`. -/
def Verdict.chain (idle guarded : Bool) (rescue trigger rescues triggers : Option (Weighed × Int)) (l : List Weighed) :
    Verdict :=
  if idle then
    rescue.elim
      (if guarded then Verdict.watch .guarded l
        else trigger.elim
          (rescues.elim (triggers.elim (Verdict.watch .none l) Verdict.block) Verdict.block) (Verdict.move .trigger))
      (Verdict.move .rescue)
  else Verdict.watch .held l

/-- What a chain of choices answers, by its decision. -/
inductive Verdict.Answers (rescue trigger rescues triggers : Option (Weighed × Int)) (l : List Weighed) : Verdict → Prop
  | watch {d : Decision} (watched : d = .held ∨ d = .guarded ∨ d = .none) :
    Answers rescue trigger rescues triggers l (Verdict.watch d l)
  | rescue {w : Weighed × Int} (chosen : rescue = some w) :
    Answers rescue trigger rescues triggers l (Verdict.move .rescue w)
  | trigger {w : Weighed × Int} (chosen : trigger = some w) :
    Answers rescue trigger rescues triggers l (Verdict.move .trigger w)
  | blocked {w : Weighed × Int} (chosen : rescues = some w ∨ rescues = none ∧ triggers = some w) :
    Answers rescue trigger rescues triggers l (Verdict.block w)

theorem Verdict.chain_answers (idle guarded : Bool) (rescue trigger rescues triggers : Option (Weighed × Int))
    (l : List Weighed) :
    Verdict.Answers rescue trigger rescues triggers l (Verdict.chain idle guarded rescue trigger rescues triggers l) := by
  cases idle with
  | false => exact .watch (.inl rfl)
  | true =>
    cases rescue with
    | some w => exact .rescue rfl
    | none =>
      cases guarded with
      | true => exact .watch (.inr (.inl rfl))
      | false =>
        cases trigger with
        | some w => exact .trigger rfl
        | none =>
          cases rescues with
          | some w => exact .blocked (.inl rfl)
          | none =>
            cases triggers with
            | some w => exact .blocked (.inr ⟨rfl, rfl⟩)
            | none => exact .watch (.inr (.inr rfl))

/-- The choice by a test that counts only where rescue applies (R124). -/
def EvaluatorSettings.rescueChoice (e : EvaluatorSettings) (uplink : Option Nat) (p : Weighed → Bool)
    (l : List Weighed) : Option (Weighed × Int) :=
  if uplink.any fun u => decide (u < 4 * e.rescueFloor) then choose p l else none

theorem rescueApplies_iff (e : EvaluatorSettings) (uplink : Option Nat) :
    (uplink.any fun u => decide (u < 4 * e.rescueFloor)) = true ↔ rescueApplies e uplink := by
  simp only [Option.any_eq_true, decide_eq_true_eq, rescueApplies]

section
variable {e : EvaluatorSettings} {uplink : Option Nat} {p : Weighed → Bool} {test : Weighed → Prop} {l : List Weighed}
  (same : ∀ w, p w = true ↔ test w)

include same

theorem EvaluatorSettings.rescueChoice_first {w : Weighed} {n : Int} (chosen : e.rescueChoice uplink p l = some (w, n)) :
    comesFirst test l w n := by
  unfold rescueChoice at chosen
  split at chosen
  · exact choose_first same chosen
  · cases chosen

theorem EvaluatorSettings.rescueChoice_ne_none_iff (scored : ∀ w, test w → w.score ≠ none) :
    e.rescueChoice uplink p l ≠ none ↔ rescueApplies e uplink ∧ ∃ w ∈ l, test w := by
  unfold rescueChoice
  split
  · next applies => rw [choose_ne_none_iff same scored, and_iff_right ((rescueApplies_iff e uplink).mp applies)]
  · next not_ => exact iff_of_false (· rfl) fun rescue => not_ ((rescueApplies_iff e uplink).mpr rescue.1)

end

section
variable (e : EvaluatorSettings) (eligible : Candidate → Bool) (idle guarded : Bool) (uplink : Option Nat)
  (l : List Weighed)

theorem EvaluatorSettings.judge_eq : e.judge eligible idle guarded uplink l = Verdict.chain idle guarded
    (e.rescueChoice uplink (fun w => e.rescueTest w && eligible w.entry) l)
    (choose (fun w => e.triggerTest w && eligible w.entry) l)
    (e.rescueChoice uplink e.rescueTest l) (choose e.triggerTest l) l := by
  unfold judge rescueChoice
  cases idle with
  | false => rfl
  | true =>
    dsimp only
    generalize choose (fun w => e.triggerTest w && eligible w.entry) l = trigger
    generalize choose e.triggerTest l = triggers
    cases uplink with
    | none =>
      simp only [Option.any_none, Bool.false_eq_true, if_false]
      cases guarded with
      | true => rfl
      | false =>
        cases trigger with
        | some w => rfl
        | none => cases triggers <;> rfl
    | some u =>
      rw [Option.any_some]
      generalize (if decide (u < 4 * e.rescueFloor) = true then choose (fun w => e.rescueTest w && eligible w.entry) l
        else none) = rescue
      generalize (if decide (u < 4 * e.rescueFloor) = true then choose e.rescueTest l else none) = rescues
      cases rescue with
      | some w => rfl
      | none =>
        cases guarded with
        | true => rfl
        | false =>
          cases trigger with
          | some w => rfl
          | none =>
            cases rescues with
            | some w => rfl
            | none => cases triggers <;> rfl

end

section
variable (e : EvaluatorSettings) (eligible : Candidate → Bool)

theorem EvaluatorSettings.rescueTest_eligible_iff (w : Weighed) :
    (e.rescueTest w && eligible w.entry) = true ↔ passesRescue e w ∧ eligible w.entry = true := by
  rw [Bool.and_eq_true, e.rescueTest_iff]

theorem EvaluatorSettings.triggerTest_eligible_iff (w : Weighed) :
    (e.triggerTest w && eligible w.entry) = true ↔ passesTrigger e w ∧ eligible w.entry = true := by
  rw [Bool.and_eq_true, e.triggerTest_iff]

section
variable (uplink : Option Nat) (l : List Weighed)

theorem EvaluatorSettings.rescue_ne_none_iff :
    e.rescueChoice uplink (fun w => e.rescueTest w && eligible w.entry) l ≠ none ↔
      rescueApplies e uplink ∧ ∃ w ∈ l, passesRescue e w ∧ eligible w.entry = true :=
  e.rescueChoice_ne_none_iff (e.rescueTest_eligible_iff eligible) fun _ pass => pass.1.scored

theorem EvaluatorSettings.rescues_ne_none_iff :
    e.rescueChoice uplink e.rescueTest l ≠ none ↔ rescueApplies e uplink ∧ ∃ w ∈ l, passesRescue e w :=
  e.rescueChoice_ne_none_iff e.rescueTest_iff fun _ pass => pass.scored

theorem EvaluatorSettings.trigger_ne_none_iff : choose (fun w => e.triggerTest w && eligible w.entry) l ≠ none ↔
    ∃ w ∈ l, passesTrigger e w ∧ eligible w.entry = true :=
  choose_ne_none_iff (e.triggerTest_eligible_iff eligible) fun _ pass => pass.1.scored

theorem EvaluatorSettings.triggers_ne_none_iff : choose e.triggerTest l ≠ none ↔ ∃ w ∈ l, passesTrigger e w :=
  choose_ne_none_iff e.triggerTest_iff fun _ pass => pass.scored

end

/-! ### The decision by the tests that some entry passes -/

section
variable {guarded : Bool} {uplink : Option Nat} {l : List Weighed}

theorem EvaluatorSettings.judge_rescue
    (rescued : rescueApplies e uplink ∧ ∃ w ∈ l, passesRescue e w ∧ eligible w.entry = true) :
    (e.judge eligible true guarded uplink l).decision = .rescue := by
  obtain ⟨w, chosen⟩ := Option.ne_none_iff_exists'.mp ((e.rescue_ne_none_iff eligible uplink l).mpr rescued)
  rw [judge_eq, chosen]
  rfl

section
variable (noRescue : ¬(rescueApplies e uplink ∧ ∃ w ∈ l, passesRescue e w ∧ eligible w.entry = true))

include noRescue

theorem EvaluatorSettings.judge_guarded : (e.judge eligible true true uplink l).decision = .guarded := by
  rw [judge_eq, not_not.mp (mt (e.rescue_ne_none_iff eligible uplink l).mp noRescue)]
  rfl

theorem EvaluatorSettings.judge_trigger (triggered : ∃ w ∈ l, passesTrigger e w ∧ eligible w.entry = true) :
    (e.judge eligible true false uplink l).decision = .trigger := by
  obtain ⟨w, chosen⟩ := Option.ne_none_iff_exists'.mp ((e.trigger_ne_none_iff eligible l).mpr triggered)
  rw [judge_eq, not_not.mp (mt (e.rescue_ne_none_iff eligible uplink l).mp noRescue), chosen]
  rfl

theorem EvaluatorSettings.judge_blocked (noTrigger : ¬∃ w ∈ l, passesTrigger e w ∧ eligible w.entry = true)
    (passes : (rescueApplies e uplink ∧ ∃ w ∈ l, passesRescue e w) ∨ ∃ w ∈ l, passesTrigger e w) :
    (e.judge eligible true false uplink l).decision = .blocked := by
  rw [← e.rescues_ne_none_iff, ← e.triggers_ne_none_iff] at passes
  rw [judge_eq, not_not.mp (mt (e.rescue_ne_none_iff eligible uplink l).mp noRescue),
    not_not.mp (mt (e.trigger_ne_none_iff eligible l).mp noTrigger)]
  cases rescues : e.rescueChoice uplink e.rescueTest l with
  | some w => rfl
  | none =>
    obtain ⟨w, triggers⟩ := Option.ne_none_iff_exists'.mp (passes.resolve_left (not_not.mpr rescues))
    rw [triggers]
    rfl

end

theorem EvaluatorSettings.judge_none (noRescue : ¬(rescueApplies e uplink ∧ ∃ w ∈ l, passesRescue e w))
    (noTrigger : ¬∃ w ∈ l, passesTrigger e w) : (e.judge eligible true false uplink l).decision = .none := by
  have noRescued : ¬(rescueApplies e uplink ∧ ∃ w ∈ l, passesRescue e w ∧ eligible w.entry = true) :=
    fun ⟨applies, w, mem, pass, _⟩ => noRescue ⟨applies, w, mem, pass⟩
  have noTriggered : ¬∃ w ∈ l, passesTrigger e w ∧ eligible w.entry = true :=
    fun ⟨w, mem, pass, _⟩ => noTrigger ⟨w, mem, pass⟩
  rw [judge_eq, not_not.mp (mt (e.rescue_ne_none_iff eligible uplink l).mp noRescued),
    not_not.mp (mt (e.trigger_ne_none_iff eligible l).mp noTriggered),
    not_not.mp (mt (e.rescues_ne_none_iff uplink l).mp noRescue),
    not_not.mp (mt (e.triggers_ne_none_iff l).mp noTrigger)]
  rfl

end

end

/-! ### What the decision reports -/

/-- Every decision reports and hands on what its choice names. -/
theorem EvaluatorSettings.judge_answers (e : EvaluatorSettings) (eligible : Candidate → Bool) (idle guarded : Bool)
    (uplink : Option Nat) (l : List Weighed) : Verdict.Answers
      (e.rescueChoice uplink (fun w => e.rescueTest w && eligible w.entry) l)
      (choose (fun w => e.triggerTest w && eligible w.entry) l) (e.rescueChoice uplink e.rescueTest l)
      (choose e.triggerTest l) l (e.judge eligible idle guarded uplink l) := by
  rw [judge_eq]
  exact Verdict.chain_answers ..

section
variable {rescue trigger rescues triggers : Option (Weighed × Int)} {l : List Weighed} {v : Verdict}
  (answers : Verdict.Answers rescue trigger rescues triggers l v)

include answers

theorem Verdict.Answers.of_rescue (decided : v.decision = .rescue) : ∃ w n, rescue = some (w, n) ∧
    v.best = some (w.entry.target, n) ∧ v.chosen = some (w.entry, n) := by
  cases answers with
  | rescue chosen => exact ⟨_, _, chosen, rfl, rfl⟩
  | trigger | blocked => cases decided
  | watch watched =>
    cases decided
    simp at watched

theorem Verdict.Answers.of_trigger (decided : v.decision = .trigger) : ∃ w n, trigger = some (w, n) ∧
    v.best = some (w.entry.target, n) ∧ v.chosen = some (w.entry, n) := by
  cases answers with
  | trigger chosen => exact ⟨_, _, chosen, rfl, rfl⟩
  | rescue | blocked => cases decided
  | watch watched =>
    cases decided
    simp at watched

theorem Verdict.Answers.of_blocked (decided : v.decision = .blocked) : v.chosen = none ∧
    ∃ w n, v.best = some (w.entry.target, n) ∧
      (rescues = some (w, n) ∨ rescues = none ∧ triggers = some (w, n)) := by
  cases answers with
  | blocked chosen => exact ⟨rfl, _, _, rfl, chosen⟩
  | rescue | trigger => cases decided
  | watch watched =>
    cases decided
    simp at watched

theorem Verdict.Answers.of_watched (decided : v.decision = .held ∨ v.decision = .guarded ∨ v.decision = .none) :
    v.chosen = none ∧ ((∀ w ∈ l, w.score = none) → v.best = none) ∧
      ((∃ w ∈ l, w.score ≠ none) → ∃ w n, v.best = some (w.entry.target, n) ∧ comesFirst (fun _ => True) l w n) := by
  cases answers with
  | watch => exact ⟨rfl, Verdict.watch_best ..⟩
  | rescue | trigger | blocked => rcases decided with d | d | d <;> cases d

end

/-! ### Misses, and the stages of a sample (R117, R120, R121) -/

theorem Weighed.missed_named {w : Weighed} (named : w.named = true) : w.missed = some w := by
  simp only [missed, named, if_true]

section
variable {w : Weighed} (unnamed : w.named = false)

include unnamed

theorem Weighed.missed_stays (few : w.entry.misses < 2) :
    w.missed = some { w with entry := { w.entry with misses := w.entry.misses + 1 } } := by
  simp only [missed, unnamed, Bool.false_eq_true, if_false, if_pos few]

theorem Weighed.missed_leaves (many : 2 ≤ w.entry.misses) : w.missed = none := by
  simp only [missed, unnamed, Bool.false_eq_true, if_false, if_neg (Nat.not_lt.mpr many)]

end

/-- The entries of a sample that is not doubtful, as the statement spells them. -/
theorem Sample.weighs_eq (k : EvalContext) (serving : Option Nat) (l : List Candidate) (x : Sample) :
    x.weighs k serving l = offeredEntries (weighedEntries k serving l x) x.neighbours := by
  unfold weighs offeredEntries weighedEntries
  rw [measuredAgainst_eq]
  rfl

/-! ### Eligibility (R113, R122) -/

section
variable (s : State) (c : CallIx) (serving : BaseIx) (e : Candidate)

theorem State.ownsElsewhere_eq_false_iff :
    s.ownsElsewhere c serving = false ↔ ∀ p, (s.chan p).ownedBy (s.ownerOf c) = true → p.base = serving := by
  simp only [ownsElsewhere, owned, List.any_eq_false, List.mem_filter, State.mem_allChannels, true_and, bne_iff_ne, ne_eq,
    not_not]

theorem State.freeChannelCount_pos_iff (a : BaseIx) : 1 ≤ s.freeChannelCount a ↔ s.freeChannels a ≠ [] :=
  List.length_pos_iff

theorem BaseRecord.closed_eq_false_iff (r : BaseRecord) : r.closed = false ↔ r.held = false ∧ r.degraded = false := by
  rw [closed, Bool.or_eq_false_iff]

theorem State.eligible_iff : s.eligible c serving e = true ↔ e.penalty = none ∧
    ((∃ zone a, e.target = .foreignBase zone a) ∨
      ∃ a, e.target = .localBase a ∧ (s.base a).state = .inService ∧ (s.base a).held = false ∧
        (s.base a).degraded = false ∧ s.freeChannels a ≠ [] ∧ (s.base a).window.length < 4 ∧
        ∀ p, (s.chan p).ownedBy (s.ownerOf c) = true → p.base = serving) := by
  rw [← State.ownsElsewhere_eq_false_iff, eligible, Bool.and_eq_true, Option.isNone_iff_eq_none]
  refine and_congr_right fun _ => ?_
  cases target : e.target with
  | foreignBase zone a => exact iff_of_true rfl (.inl ⟨zone, a, rfl⟩)
  | localBase a =>
    simp only [Bool.and_eq_true, decide_eq_true_eq, Bool.not_eq_true', BaseRecord.closed_eq_false_iff,
      State.freeChannelCount_pos_iff, reduceCtorEq, exists_false, false_or, Target.localBase.injEq, exists_eq_left',
      and_assoc]

theorem State.lowFree_iff (t : Target) :
    s.lowFree t = true ↔ ∃ a, t = .localBase a ∧ (s.freeChannels a).length < 2 := by
  cases t with
  | foreignBase zone a => simp [lowFree]
  | localBase a => simp [lowFree, freeChannelCount]

end

/-! ### The statement -/

/-- Settles O52: the choice, misses, insertion and the stages one by one, then the decision and what it reports. -/
theorem choiceTakesBestScore : Obligations.ChoiceTakesBestScore := by
  refine ⟨fun p l => ⟨choose_eq_none_iff fun _ => Iff.rfl, fun w n chosen => choose_first (fun _ => Iff.rfl) chosen⟩,
    fun w => ⟨Weighed.missed_named, Weighed.missed_stays, Weighed.missed_leaves⟩,
    fun t p average l => ⟨insertRule_held, insertRule_room, fun before w after split new full least last =>
      insertRule_full split new full least last⟩,
    fun k serving uplink candidates x sound => ?stages, fun e eligible idle guarded uplink l => ?decision,
    fun s c serving e => ⟨s.eligible_iff c serving e, s.lowFree_iff e.target⟩⟩
  case stages =>
    have stages := evaluate_sound k serving uplink candidates sound
    rwa [Sample.weighs_eq] at stages
  case decision =>
    refine ⟨?_, ?_, ?_, ?_, ?_, ?_, ?best⟩
    · rintro rfl
      rw [e.judge_eq]
      rfl
    · rintro rfl
      exact e.judge_rescue eligible
    · rintro rfl noRescue rfl
      exact e.judge_guarded eligible noRescue
    · rintro rfl noRescue rfl
      exact e.judge_trigger eligible noRescue
    · rintro rfl noRescue rfl
      exact e.judge_blocked eligible noRescue
    · rintro rfl noRescue rfl
      exact e.judge_none eligible noRescue
    case best =>
      have answers := e.judge_answers eligible idle guarded uplink l
      refine ⟨fun decided => ?_, fun decided => ?_, fun decided => ?_, answers.of_watched⟩
      · obtain ⟨w, n, chosen, reported⟩ := answers.of_rescue decided
        exact ⟨w, n, EvaluatorSettings.rescueChoice_first (e.rescueTest_eligible_iff eligible) chosen, reported⟩
      · obtain ⟨w, n, chosen, reported⟩ := answers.of_trigger decided
        exact ⟨w, n, choose_first (e.triggerTest_eligible_iff eligible) chosen, reported⟩
      · obtain ⟨kept, w, n, best, chosen⟩ := answers.of_blocked decided
        refine ⟨kept, w, n, best, fun rescuer => ?_, fun noRescuer => ?_⟩
        · have some_ := (e.rescues_ne_none_iff uplink l).mpr rescuer
          exact EvaluatorSettings.rescueChoice_first e.rescueTest_iff (chosen.resolve_right fun none_ => some_ none_.1)
        · have none_ := not_not.mp (mt (e.rescues_ne_none_iff uplink l).mp noRescuer)
          exact choose_first e.triggerTest_iff (chosen.resolve_left (by simp [none_])).2

end Sys2Proof.Machine
end

