-- ==== Sys2Proof/Proofs/SwitchDeadline.lean ====
section
/-! The deadline of a switch: the attempt reverts, or the call is lost in switch (R132, R133, R140, R154; O54). -/

namespace Sys2Proof.Machine

open State

variable {s : State} {c : CallIx} {i : CallInfo} {target : Target}

/-! ### The expiry -/

/-- A due deadline of SWITCHING or SWITCHING_OUT ends the switch; HANDING_OUT has the zone deadline. -/
theorem takeSwitchExpiry_due (due : (s.ctx c).phase.deadline = some 0) (switch : (s.ctx c).phase.name ≠ .handingOut) :
    takeSwitchExpiry c s = s.endSwitch c (s.ctx c).phase.old (s.ctx c).phase.strays := by
  cases phase : (s.ctx c).phase with
  | none | preparing => simp [phase, Phase.deadline] at due
  | handingOut => simp [phase, Phase.name] at switch
  | switching | switchingOut =>
    rw [phase] at due
    cases due
    simp only [takeSwitchExpiry, phase, Phase.old, Phase.strays]

theorem takeSwitchExpiry_notDue (notDue : (s.ctx c).phase.deadline ≠ some 0 ∨ (s.ctx c).phase.name = .handingOut) :
    takeSwitchExpiry c s = s := by
  unfold takeSwitchExpiry
  split
  · next phase => simp [phase, Phase.deadline, Phase.name] at notDue
  · next phase => simp [phase, Phase.deadline, Phase.name] at notDue
  · rfl

/-! ### How the switch ends -/

section
variable {old : Option ChanRef} {strays : Nat}

/-- The call was heard on its old link, and goes on there. -/
theorem State.endSwitch_reverts (link : old ≠ none) (heard : strays ≠ 0) :
    s.endSwitch c old strays = s.failAttempt c .reverted := by
  cases old with
  | none => exact absurd rfl link
  | some p => exact if_neg heard

/-- No old link is left, or nothing was heard on it. -/
theorem State.endSwitch_loses (lost : old = none ∨ strays = 0) :
    s.endSwitch c old strays = s.loseSwitch c (if old = none then .oldLinkGone else .noStrays) := by
  cases old with
  | none => rfl
  | some p => exact if_pos (lost.resolve_left nofun)

end

theorem State.ctx_markFailure (s : State) (d : CallIx) : s.markFailure.ctx d = s.ctx d := by
  obtain ⟨_, _, _, e⟩ := s.markFailure_frame
  rw [e]
  rfl

theorem State.markFailure_classes (s : State) : s.markFailure.classes = s.classes := by
  obtain ⟨_, _, _, e⟩ := s.markFailure_frame
  rw [e]

/-- A switch lost (R133): the notice, the mark and the clearing with cause LOST. -/
theorem State.loseSwitch_eq (call : (s.ctx c).call = some i) (phase : (s.ctx c).phase.target = some target)
    (why : LostCase) : s.loseSwitch c why =
      ((s.post (.lostInSwitch (i.ref c) (s.ctx c).phase.old target why (s.ctx c).phase.strays (s.ctx c).phase.rescue
        (s.ctx c).attempts)).markFailure).clearCall c .lost := by
  simp only [State.loseSwitch, call, phase]

/-- The clearing of a lost switch tells nothing more in the HANDOVER class. -/
theorem State.loseSwitch_class (call : (s.ctx c).call = some i) (phase : (s.ctx c).phase.target = some target)
    (why : LostCase) : (s.loseSwitch c why).classes.get 1 = (s.classes.get 1).file
      { tick := s.tick
        body := .lostInSwitch (i.ref c) (s.ctx c).phase.old target why (s.ctx c).phase.strays (s.ctx c).phase.rescue
          (s.ctx c).attempts } := by
  rw [State.loseSwitch_eq call phase]
  refine (State.clearCall_class (by decide) (by decide) (by decide) fun _ => by
    simp [CallInfo.endNotice, NoticeBody.cls]).trans ?_
  rw [State.markFailure_classes]
  exact State.post_class_self s (.lostInSwitch ..)

/-- An ACTIVE call whose switch is lost is FREE or CLEARING with LOST, in no phase. -/
theorem State.loseSwitch_ctx (call : (s.ctx c).call = some i) (active : i.stage = .active)
    (phase : (s.ctx c).phase.target = some target) (why : LostCase) :
    (s.loseSwitch c why).ctx c = (s.ctx c).clearing i .lost ∨
      (s.loseSwitch c why).ctx c = ((s.ctx c).clearing i .lost).freed := by
  rw [State.loseSwitch_eq call phase]
  have told (n : NoticeBody) : (s.post n).markFailure.ctx c = s.ctx c := State.ctx_markFailure ..
  obtain ⟨_, _, ctx, _⟩ := State.clearCall_starts _ .lost ((congrArg Context.call (told _)).trans call) (by simp [active])
  rwa [told] at ctx

/-! ### The statement -/

/-- Settles O54: the expiry fails the attempt when the old link was heard, and loses the switch otherwise. -/
theorem switchDeadlineRevertsOrLoses : Obligations.SwitchDeadlineRevertsOrLoses := by
  refine fun s c => ⟨fun i target rescue old strays call active switch => ?due,
    fun notDue => congrArg Host.Outcome.next (takeSwitchExpiry_notDue (s := s.fresh) notDue)⟩
  have fields : (s.ctx c).phase.target = some target ∧ (s.ctx c).phase.rescue = rescue ∧ (s.ctx c).phase.old = old ∧
      (s.ctx c).phase.strays = strays ∧ (s.ctx c).phase.deadline = some 0 ∧ (s.ctx c).phase.name ≠ .handingOut := by
    rcases switch with ⟨p, rfl, phase⟩ | ⟨z, b, ch, rfl, phase⟩ <;> rw [phase] <;> exact ⟨rfl, rfl, rfl, rfl, rfl, nofun⟩
  obtain ⟨aimed, rfl, rfl, rfl, due, notHanding⟩ := fields
  have expired := takeSwitchExpiry_due (s := s.fresh) due notHanding
  refine ⟨_, congrArg Host.Outcome.next expired, ?_⟩
  by_cases lost : (s.ctx c).phase.old = none ∨ (s.ctx c).phase.strays = 0
  · rw [State.endSwitch_loses (by exact lost)]
    have filed := State.loseSwitch_class (s := s.fresh) call aimed
    refine ⟨?_, (concerns_loseSwitch ..).others, (loseSwitch_keeps ..).settings,
      fun link heard => absurd lost (not_or.mpr ⟨link, heard⟩), fun _ => ⟨?_, filed _⟩⟩
    all_goals rcases State.loseSwitch_ctx (s := s.fresh) call active aimed _ with e | e <;> rw [e]
    · rfl
    · rfl
    · exact .inr rfl
    · exact .inl rfl
  · obtain ⟨link, heard⟩ := not_or.mp lost
    rw [State.endSwitch_reverts (by exact link) (by exact heard)]
    obtain ⟨⟨stays, phase, _, _, filed, others⟩, _⟩ := State.failAttempt_fails (s := s) (w := s.fresh) call rfl
      (fun _ _ => rfl) rfl rfl rfl aimed .reverted
    exact ⟨phase, others, (failAttempt_keeps ..).settings, fun _ _ => ⟨stays, filed⟩, fun gone => absurd gone lost⟩

end Sys2Proof.Machine
end

