-- ==== Sys2Proof/Proofs/Notices.lean ====
section
/-! Notices posted and fetched, and ATTN (R161 to R163, R166, R167; O26). -/

namespace Sys2Proof

theorem Table.list_eq_map_get {α : Type} {n : Nat} (t : Table α n) : t.list = (indices n).map t.get := by
  obtain ⟨l, size⟩ := t
  subst size
  exact (List.map_get_finRange l).symm

end Sys2Proof

namespace Sys2Proof.Machine

variable {s : State}

/-! ### A class that can be fetched from -/

theorem NoticeClass.fetchable_iff (c : NoticeClass) :
    (!c.masked && !c.fifo.isEmpty) = true ↔ c.masked = false ∧ c.fifo ≠ [] := by
  simp only [Bool.and_eq_true, Bool.not_eq_true', List.isEmpty_eq_false_iff]

theorem NoticeClass.unfetchable_iff (c : NoticeClass) :
    (!c.masked && !c.fifo.isEmpty) = false ↔ c.masked = true ∨ c.fifo = [] := by
  simp only [Bool.and_eq_false_iff, Bool.not_eq_false', List.isEmpty_iff]

theorem State.fetchClass_eq_some_iff (k : Fin 8) : s.fetchClass = some k ↔
    ((s.classes.get k).masked = false ∧ (s.classes.get k).fifo ≠ []) ∧
      ∀ j < k, (s.classes.get j).masked = true ∨ (s.classes.get j).fifo = [] := by
  simp only [fetchClass, Table.lowest_eq_some_iff, NoticeClass.fetchable_iff, NoticeClass.unfetchable_iff]

theorem State.fetchClass_eq_none_iff :
    s.fetchClass = none ↔ ∀ j, (s.classes.get j).masked = true ∨ (s.classes.get j).fifo = [] := by
  simp only [fetchClass, Table.lowest_eq_none_iff, NoticeClass.unfetchable_iff]

/-- ATTN with the pin not held: some class can be fetched from (R167, R8). -/
theorem State.attn_iff : s.attn = true ↔
    s.resetHeld = false ∧ ∃ k, (s.classes.get k).masked = false ∧ (s.classes.get k).fifo ≠ [] := by
  rw [attn, Bool.and_eq_true, Bool.not_eq_true', Table.any_iff]
  exact and_congr_right' (exists_congr fun k => (s.classes.get k).fetchable_iff)

/-! ### Fills (R166) -/

theorem State.fills_eq (s : State) :
    s.fills = (indices 8).map fun j => BitVec.ofNat 8 (s.classes.get j).fifo.length := by
  rw [fills, Table.list_eq_map_get, List.flatMap_map, List.map_eq_flatMap]
  rfl

/-- The fills once one class has been replaced. -/
theorem State.fills_set (s : State) (k : Fin 8) (c : NoticeClass) :
    ({ s with classes := s.classes.set k c } : State).fills =
      (indices 8).map fun j => BitVec.ofNat 8 (if j = k then c.fifo.length else (s.classes.get j).fifo.length) := by
  rw [State.fills_eq]
  refine List.map_congr_left fun j _ => congrArg (BitVec.ofNat 8) ?_
  rw [Table.get_set, apply_ite (fun d : NoticeClass => d.fifo.length)]
  exact if_congr eq_comm rfl rfl

/-! ### FETCH NOTICE (R163, R166) -/

theorem takeFetchNotice_none (empty : s.fetchClass = none) :
    takeFetchNotice s = ({ status := .none, results := s.fills }, s) := by
  simp only [takeFetchNotice, empty]

theorem takeFetchNotice_some {k : Fin 8} {n : Notice} {rest : List Notice} (class_ : s.fetchClass = some k)
    (held : (s.classes.get k).fifo = n :: rest) :
    takeFetchNotice s =
      (okay (n.bytes (s.classes.get k).lost ++
          (indices 8).map fun j => BitVec.ofNat 8 (if j = k then rest.length else (s.classes.get j).fifo.length)),
        { s with classes := s.classes.set k { s.classes.get k with fifo := rest, lost := false } }) := by
  simp only [takeFetchNotice, class_, held, State.fills_set]

/-! ### Posting (R161, R162) -/

theorem State.post_room {n : NoticeBody} (room : (s.classes.get n.cls).fifo.length < 8) :
    s.post n = { s with classes := s.classes.set n.cls { s.classes.get n.cls with
      fifo := (s.classes.get n.cls).fifo ++ [{ tick := s.tick, body := n }] } } := by
  rw [post, NoticeClass.file, if_pos room]

theorem State.post_full {n : NoticeBody} (full : 8 ≤ (s.classes.get n.cls).fifo.length) :
    s.post n = { s with classes := s.classes.set n.cls { s.classes.get n.cls with lost := true } } := by
  rw [post, NoticeClass.file, if_neg (Nat.not_lt.mpr full)]

/-! ### The statement -/

/-- Settles O26: the class to fetch from is the lowest that passes, or there is none. -/
theorem noticesPostedAndFetched : Obligations.NoticesPostedAndFetched := by
  refine ⟨fun tag s idle => ⟨fun k n rest unmasked held before => ?fetched, fun nothing => ?none_⟩,
    fun s n => ⟨State.post_room, State.post_full⟩, fun s => State.attn_iff⟩
  case fetched =>
    have class_ : s.fetchClass = some k :=
      (State.fetchClass_eq_some_iff k).mpr ⟨⟨unmasked, held ▸ List.cons_ne_nil n rest⟩, before⟩
    exact answer_of_portFree idle tag (r := .fetchNotice) (takeFetchNotice_some (s := s.fresh) class_ held)
  case none_ =>
    rw [← State.fills_eq]
    exact answer_of_portFree idle tag (r := .fetchNotice)
      (takeFetchNotice_none (s := s.fresh) (State.fetchClass_eq_none_iff.mpr nothing))

end Sys2Proof.Machine
end

