-- ==== Sys2Proof/Proofs/MasksAndConditions.lean ====
section
/-! MASK NOTICES and CLEAR CONDITIONS (R165, R169; O27). -/

namespace Sys2Proof.Machine

variable {s : State}

/-! ### The mask byte -/

/-- A number is the sum of its bits, up to the highest one counted. -/
theorem sum_testBit (x n : Nat) :
    ((indices n).map fun k => if x.testBit k.val then 2 ^ k.val else 0).sum = x % 2 ^ n := by
  induction n with
  | zero => simp [indices, Nat.mod_one]
  | succ n ih =>
    rw [indices] at ih ⊢
    simp only [List.finRange_succ_last, List.map_append, List.map_map, Function.comp_def, Fin.val_castSucc, ih,
      List.map_cons, List.map_nil, List.sum_append, List.sum_singleton, Fin.val_last, Nat.mod_pow_succ,
      ← Nat.toNat_testBit]
    cases x.testBit n <;> simp

/-- The masks read back as the byte whose bits they are. -/
theorem State.maskByte_eq {mask : Byte} (bits : ∀ k, (s.classes.get k).masked = mask.getLsbD k.val) :
    s.maskByte = mask := by
  simp only [maskByte, bits, BitVec.getLsbD, sum_testBit]
  rw [Nat.mod_eq_of_lt mask.isLt, BitVec.ofNat_toNat, BitVec.setWidth_eq]

/-- A mask byte without its LINK bit (R165). -/
theorem getLsbD_and_not_link (mask : Byte) (k : Fin 8) :
    (mask &&& 0xFE).getLsbD k.val = (decide (k ≠ 0) && mask.getLsbD k.val) := by
  have rest : (0xFE : Byte).getLsbD k.val = decide (k ≠ 0) := by decide +revert
  rw [BitVec.getLsbD_and, rest, Bool.and_comm]

/-! ### MASK NOTICES (R165) -/

theorem get_maskClass (mask : Byte) (cs : Table NoticeClass 8) (j k : Fin 8) : (maskClass mask cs j).get k =
    if j = k then { cs.get k with masked := decide (k ≠ 0) && mask.getLsbD k.val } else cs.get k := by
  rw [maskClass, Table.get_set]
  split
  · next same => rw [same]
  · rfl

/-- The classes named have the masks of the byte, the others are as they were. -/
theorem get_foldl_maskClass (mask : Byte) (l : List (Fin 8)) (cs : Table NoticeClass 8) (k : Fin 8) :
    (l.foldl (maskClass mask) cs).get k =
      if k ∈ l then { cs.get k with masked := decide (k ≠ 0) && mask.getLsbD k.val } else cs.get k := by
  induction l generalizing cs with
  | nil => rfl
  | cons j l ih =>
    rw [List.foldl_cons, ih, get_maskClass]
    by_cases same : j = k
    · simp only [same, if_true, List.mem_cons_self, ite_self]
    · simp only [if_neg same, List.mem_cons, Ne.symm same, false_or]

theorem get_maskClasses (mask : Byte) (cs : Table NoticeClass 8) (k : Fin 8) :
    ((indices 8).foldl (maskClass mask) cs).get k =
      { cs.get k with masked := decide (k ≠ 0) && mask.getLsbD k.val } :=
  (get_foldl_maskClass ..).trans (if_pos (mem_indices k))

theorem takeMaskNotices_eq (mask : Byte) : takeMaskNotices mask s =
    (okay [mask &&& 0xFE], { s with classes := (indices 8).foldl (maskClass mask) s.classes }) := by
  have bits (k : Fin 8) :
      (((indices 8).foldl (maskClass mask) s.classes).get k).masked = (mask &&& 0xFE).getLsbD k.val := by
    rw [get_maskClasses, getLsbD_and_not_link]
  rw [takeMaskNotices, State.maskByte_eq bits]

/-! ### CLEAR CONDITIONS (R169) -/

theorem State.stickyBytes_eq (s : State) : s.stickyBytes = [yesNo s.divergeSticky, yesNo s.saturateSticky] := by
  rw [stickyBytes, flagByte_eq, flagByte_eq]
  rfl

variable {conditions : Byte}

theorem takeClearConditions_unnamed (diverge : conditions.getLsbD 0 = false) (saturate : conditions.getLsbD 1 = false)
    (scope : Byte) : takeClearConditions scope conditions s = (refuse .badArg, s) := by
  rw [takeClearConditions, diverge, saturate]
  rfl

section
variable (named : conditions.getLsbD 0 = true ∨ conditions.getLsbD 1 = true)

include named

/-- A request that names a condition is not refused for naming none. -/
theorem conditions_named : ¬(!conditions.getLsbD 0 && !conditions.getLsbD 1) = true := by
  rcases named with h | h <;> simp [h]

theorem takeClearConditions_call (c : CallIx) : takeClearConditions (BitVec.ofNat 8 c.val) conditions s =
    (okay [yesNo s.divergeSticky, yesNo s.saturateSticky],
      s.setCtx c ((s.ctx c).unstick (conditions.getLsbD 0) (conditions.getLsbD 1))) := by
  have notAll : BitVec.ofNat 8 c.val ≠ 0xFF := fun all => by
    have read := congrArg BitVec.toNat all
    rw [toNat_ofNat8 (by omega)] at read
    exact absurd read (Nat.ne_of_lt (Nat.lt_trans c.isLt (by decide)))
  simp only [takeClearConditions, if_neg (conditions_named named), if_neg notAll, asCall_byte, State.stickyBytes_eq,
    State.setCtx_divergeSticky, State.setCtx_saturateSticky]

theorem takeClearConditions_all : takeClearConditions 0xFF conditions s =
    (okay [yesNo (s.divergeSticky && !conditions.getLsbD 0), yesNo (s.saturateSticky && !conditions.getLsbD 1)],
      { s with
        contexts := s.contexts.map (Context.unstick (conditions.getLsbD 0) (conditions.getLsbD 1))
        divergeSticky := s.divergeSticky && !conditions.getLsbD 0
        saturateSticky := s.saturateSticky && !conditions.getLsbD 1 }) := by
  simp only [takeClearConditions, if_neg (conditions_named named), if_true, State.stickyBytes_eq]

end

/-! ### The statement -/

/-- Settles O27: the masks class by class; the stickies of one call, of ALL, or of none. -/
theorem masksAndConditionsCleared : Obligations.MasksAndConditionsCleared := by
  refine ⟨fun tag mask s idle => ⟨_, get_maskClasses mask s.classes, ?masks⟩, fun tag conditions s idle =>
    ⟨fun named => ⟨fun c => ?call, s.contexts.map (.unstick (conditions.getLsbD 0) (conditions.getLsbD 1)),
      Table.get_map _ s.contexts, ?all⟩, fun diverge saturate scope => ?unnamed⟩⟩
  case masks => exact answer_of_portFree idle tag (r := .maskNotices mask) (takeMaskNotices_eq (s := s.fresh) mask)
  case call =>
    exact answer_of_portFree idle tag (r := .clearConditions ..) (takeClearConditions_call (s := s.fresh) named c)
  case all =>
    exact answer_of_portFree idle tag (r := .clearConditions ..) (takeClearConditions_all (s := s.fresh) named)
  case unnamed =>
    exact refused_of_take idle tag (r := .clearConditions ..)
      (takeClearConditions_unnamed (s := s.fresh) diverge saturate scope)

end Sys2Proof.Machine
end

