-- ==== Sys2Proof/Proofs/Captures.lean ====
section
/-! CAPTURE by its mode with its refusals, CANCEL CAPTURE, and the captures that the clearing of a call ends (R172, R174,
R175; O28). -/

namespace Sys2Proof.Machine

open State

variable {s : State} {k : CapIx} {c : CallIx} {i : CallInfo} {m : CaptureMode} {ring : List Sample} {n : BitVec 32}

/-! ### The operands (R172 items 1 to 3) -/

theorem asCapture_eq_some {x : Byte} (h : x.toNat = k.val) : asCapture x = some k := (toIndex_eq_some_iff ..).mpr h.symm

theorem asCall_eq_some {x : Byte} (h : x.toNat = c.val) : asCall x = some c := (toIndex_eq_some_iff ..).mpr h.symm

theorem asMode_eq_none {x : Byte} (h : 3 < x.toNat) (n : BitVec 32) : asMode x n = none := by
  have apart (y : Byte) (small : y.toNat ≤ 3) : x ≠ y := by
    rintro rfl
    omega
  rw [asMode, if_neg (apart 0 (by decide)), if_neg (apart 1 (by decide)), if_neg (apart 2 (by decide)),
    if_neg (apart 3 (by decide))]

theorem exists_asMode {x : Byte} (h : x.toNat ≤ 3) (n : BitVec 32) : ∃ m, asMode x n = some m := by
  have : x = 0 ∨ x = 1 ∨ x = 2 ∨ x = 3 := by
    bv_omega
  rcases this with rfl | rfl | rfl | rfl <;> exact ⟨_, rfl⟩

theorem State.activeRing_active (call : (s.ctx c).call = some i) (active : i.stage = .active) :
    s.activeRing c = some (i.tag, (s.ctx c).ring) := by
  simp only [activeRing, call, active, if_true]

theorem State.activeRing_idle (idle : ∀ i, (s.ctx c).call = some i → i.stage ≠ .active) : s.activeRing c = none := by
  cases call : (s.ctx c).call with
  | none => simp only [activeRing, call]
  | some i => simp only [activeRing, call, if_neg (idle i call)]

/-! ### FROM a sample number, and the ring (R172) -/

/-- FROM needs a newest sample that is not older than the one asked for (R172 item 5). -/
theorem beyondRing_eq_true_iff :
    beyondRing n ring = true ↔ ring = [] ∨ ∃ x, ring.getLast? = some x ∧ x.number.toNat < n.toNat := by
  cases newest : ring.getLast? with
  | none => simp [beyondRing, List.getLast?_eq_none_iff.mp newest]
  | some x =>
    have some_ : ring ≠ [] := by
      rintro rfl
      cases newest
    simp [beyondRing, newest, some_]

theorem beyondRing_eq_false {x : Sample} (newest : ring.getLast? = some x) (within : n.toNat ≤ x.number.toNat) :
    beyondRing n ring = false := by
  simpa [beyondRing, newest] using within

/-- The first sample with the number, and what follows it. -/
theorem copyFrom_held {before after : List Sample} {x : Sample} (number : x.number = n)
    (first : ∀ y ∈ before, y.number ≠ n) (count : Nat) :
    copyFrom n count (before ++ x :: after) = (.ok, (x :: after).take count) := by
  have held : (before ++ x :: after).any (fun y => y.number == n) = true :=
    List.any_eq_true.mpr ⟨x, by simp, beq_iff_eq.mpr number⟩
  have dropped : (before ++ x :: after).dropWhile (fun y => y.number != n) = x :: after := by
    rw [List.dropWhile_append_of_pos fun y mem => bne_iff_ne.mpr (first y mem), List.dropWhile_cons_of_neg (by simp [number])]
  rw [copyFrom, if_pos held, dropped]

theorem copyFrom_older (gone : ∀ y ∈ ring, y.number ≠ n) (count : Nat) :
    copyFrom n count ring = (.truncated, ring.take count) := by
  refine if_neg fun held => ?_
  obtain ⟨y, mem, same⟩ := List.any_eq_true.mp held
  exact gone y mem (beq_iff_eq.mp same)

/-! ### CAPTURE item by item (R172) -/

theorem takeCapture_badArg {slot call mode : Byte} (h : 3 < slot.toNat ∨ 95 < call.toNat ∨ 3 < mode.toNat) (count : Byte)
    (n : BitVec 32) : takeCapture slot call count mode n s = (refuse .badArg, s) := by
  unfold takeCapture
  rcases h with h | h | h
  · rw [asCapture_eq_none h]
  · rw [asCall_eq_none h]
    cases asCapture slot <;> rfl
  · rw [asMode_eq_none h]
    cases asCapture slot <;> cases asCall call <;> rfl

section
variable {slot call count mode : Byte} (slot_ : asCapture slot = some k) (call_ : asCall call = some c)
  (mode_ : asMode mode n = some m)

include slot_ call_ mode_

theorem takeCapture_armed (armed : (s.slots.get k).armed = true) :
    takeCapture slot call count mode n s = (refuse .slotArmed, s) := by
  simp only [takeCapture, slot_, call_, mode_, armed, if_true]

variable (unarmed : (s.slots.get k).armed = false)

include unarmed

theorem takeCapture_noSuch (idle : ∀ i, (s.ctx c).call = some i → i.stage ≠ .active) :
    takeCapture slot call count mode n s = (refuse .noSuch, s) := by
  simp only [takeCapture, slot_, call_, mode_, unarmed, State.activeRing_idle idle, Bool.false_eq_true, if_false]

variable (inUse : (s.ctx c).call = some i) (active : i.stage = .active)

include inUse active

theorem takeCapture_badCount (bad : count.toNat = 0 ∨ 16 < count.toNat) :
    takeCapture slot call count mode n s = (refuse .badArg, s) := by
  have outside : count.toNat < 1 ∨ 16 < count.toNat := bad.imp_left (by omega)
  simp only [takeCapture, slot_, call_, mode_, unarmed, State.activeRing_active inUse active, Bool.false_eq_true, if_false,
    if_pos outside]

theorem takeCapture_beyond (beyond : m.beyond (s.ctx c).ring = true) :
    takeCapture slot call count mode n s = (refuse .badArg, s) := by
  simp only [takeCapture, slot_, call_, mode_, unarmed, State.activeRing_active inUse active, Bool.false_eq_true, if_false,
    beyond, if_true, ite_self]

theorem takeCapture_accepted (low : 1 ≤ count.toNat) (high : count.toNat ≤ 16) (within : m.beyond (s.ctx c).ring = false) :
    takeCapture slot call count mode n s =
      s.startCapture k { call := c, tag := i.tag, count := count.toNat, mode := m } (s.ctx c).ring := by
  have inside : ¬(count.toNat < 1 ∨ 16 < count.toNat) := by omega
  simp only [takeCapture, slot_, call_, mode_, unarmed, State.activeRing_active inUse active, Bool.false_eq_true, if_false,
    if_neg inside, within]

end

/-- A capture of 1 to 16 samples of an ACTIVE call, asked for by the bytes of its operands. -/
theorem takeCapture_starts {mode : Byte} (unarmed : (s.slots.get k).armed = false) (call : (s.ctx c).call = some i)
    (active : i.stage = .active) (count : Fin 16) (mode_ : asMode mode n = some m)
    (within : m.beyond (s.ctx c).ring = false) :
    takeCapture (BitVec.ofNat 8 k.val) (BitVec.ofNat 8 c.val) (BitVec.ofNat 8 (count.val + 1)) mode n s =
      s.startCapture k { call := c, tag := i.tag, count := count.val + 1, mode := m } (s.ctx c).ring := by
  have read : (BitVec.ofNat 8 (count.val + 1)).toNat = count.val + 1 := toNat_ofNat8 (by omega)
  rw [takeCapture_accepted (asCapture_byte k) (asCall_byte c) mode_ unarmed call active (by omega) (by omega) within, read]

theorem takeCancelCapture_eq (k : CapIx) :
    takeCancelCapture (BitVec.ofNat 8 k.val) s = (okay [], s.setSlot k .empty) := by
  simp only [takeCancelCapture, asCapture_byte]

/-! ### The captures of a call that leaves ACTIVE (R174) -/

theorem CaptureSlot.call_of_armedOn {x : CaptureSlot} {h : CaptureHeader} (armed : x.armedOn c = some h) : h.call = c := by
  unfold CaptureSlot.armedOn at armed
  split at armed
  · obtain ⟨same, ⟨⟩⟩ := Option.ite_none_right_eq_some.mp armed
    exact same
  · obtain ⟨same, ⟨⟩⟩ := Option.ite_none_right_eq_some.mp armed
    exact same
  · cases armed

/-- One slot is completed when it is armed on the call, whether it waits for a mark or for a sample. -/
theorem State.endCapture_eq (s : State) (c : CallIx) (k : CapIx) : endCapture c s k =
    ((s.slots.get k).armedOn c).elim s fun h => s.completeSlot k h .callEnded := by
  cases slot : s.slots.get k <;> simp only [endCapture, slot, CaptureSlot.armedOn, Option.elim_none]
  all_goals split <;> rfl

/-- A slot after its call has left ACTIVE, with the ring of the call and the own zone. -/
def CaptureSlot.afterCall (c : CallIx) (ring : List Sample) (z : ZoneIx) (x : CaptureSlot) : CaptureSlot :=
  match x.armedOn c with
  | some h => .complete h .callEnded (ring.drop (ring.length - h.count)) z
  | none => x

/-- The notice of a slot whose call has left ACTIVE. -/
def State.endedNotice (s : State) (c : CallIx) (k : CapIx) : Option NoticeBody :=
  ((s.slots.get k).armedOn c).map fun _ => .captureDone k c .callEnded

/-- What one slot of a call that leaves ACTIVE makes of the state. -/
theorem State.endCapture_effect (s : State) (c : CallIx) (k : CapIx) :
    (endCapture c s k).slots = s.slots.set k ((s.slots.get k).afterCall c (s.ctx c).ring s.settings.zone) ∧
      (endCapture c s k).classes.get 6 = (s.classes.get 6).fileAll s.tick (s.endedNotice c k).toList := by
  rw [State.endCapture_eq, CaptureSlot.afterCall, State.endedNotice]
  cases armed : (s.slots.get k).armedOn c with
  | none => exact ⟨(Table.set_get_self ..).symm, rfl⟩
  | some h =>
    cases CaptureSlot.call_of_armedOn armed
    exact ⟨rfl, State.post_class_self (s.setSlot k _) (.captureDone k h.call .callEnded)⟩

theorem State.endCapture_frame (s : State) (c : CallIx) (k : CapIx) :
    ∃ slots classes, endCapture c s k = { s with slots := slots, classes := classes } := by
  rw [State.endCapture_eq]
  cases (s.slots.get k).armedOn c <;> exact ⟨_, _, rfl⟩

/-- `t` has the captures of a call ended: its armed slots complete, and their notices filed in ascending slot order. -/
structure State.CapturesEnded (s t : State) (c : CallIx) (ks : List CapIx) : Prop where
  slots : ∀ k, t.slots.get k =
    if k ∈ ks then (s.slots.get k).afterCall c (s.ctx c).ring s.settings.zone else s.slots.get k
  done : t.classes.get 6 = (s.classes.get 6).fileAll s.tick (ks.filterMap (s.endedNotice c))

/-- The slots of a list without repetition, one after another. -/
theorem State.capturesEnded {ks : List CapIx} (nodup : ks.Nodup) (s : State) (c : CallIx) :
    s.CapturesEnded (ks.foldl (endCapture c) s) c ks := by
  induction ks generalizing s with
  | nil => exact ⟨fun _ => rfl, rfl⟩
  | cons k ks ih =>
    obtain ⟨new, nodup⟩ := List.nodup_cons.mp nodup
    obtain ⟨slots, done⟩ := ih nodup (endCapture c s k)
    obtain ⟨set, filed⟩ := s.endCapture_effect c k
    have kept : (endCapture c s k).ctx c = s.ctx c ∧ (endCapture c s k).settings = s.settings ∧
        (endCapture c s k).tick = s.tick := by
      obtain ⟨_, _, e⟩ := s.endCapture_frame c k
      rw [e]
      exact ⟨rfl, rfl, rfl⟩
    obtain ⟨ctx, settings, tick⟩ := kept
    have here : (endCapture c s k).slots.get k = (s.slots.get k).afterCall c (s.ctx c).ring s.settings.zone := by
      rw [set, Table.get_set_self]
    have apart {j : CapIx} (other : k ≠ j) : (endCapture c s k).slots.get j = s.slots.get j := by
      rw [set, Table.get_set_ne _ _ other]
    refine ⟨fun j => ?_, ?_⟩
    · rw [List.foldl_cons, slots, ctx, settings]
      by_cases same : k = j
      · subst same
        rw [if_neg new, if_pos List.mem_cons_self, here]
      · simp only [apart same, List.mem_cons, Ne.symm same, false_or]
    · have later : ks.filterMap ((endCapture c s k).endedNotice c) = ks.filterMap (s.endedNotice c) :=
        List.filterMap_congr fun j mem => by
          rw [State.endedNotice, apart fun same => new (same ▸ mem), State.endedNotice]
      rw [List.foldl_cons, done, filed, tick, later, ← List.singleton_append, List.filterMap_append]
      cases notice : s.endedNotice c k <;> simp [notice, NoticeClass.fileAll]

/-- What follows the captures in a clearing touches neither the slots nor the CAPTURE class. -/
theorem State.clearCall_captures (w : ClearCause) (call : (s.ctx c).call = some i) (active : i.stage = .active) :
    let told := (s.setCtx c ((s.ctx c).clearing i w)).endCaptures c
    (s.clearCall c w).slots = told.slots ∧ (s.clearCall c w).classes.get 6 = told.classes.get 6 := by
  rcases s.clearCall_cases c w with ⟨done, _⟩ | ⟨j, callj, _, e⟩
  · rcases done with free | ⟨j, k, callj, clearing⟩
    · simp [call] at free
    · cases call.symm.trans callj
      simp [active] at clearing
  cases call.symm.trans callj
  intro told
  dsimp only at e
  rw [if_pos active] at e
  rw [e]
  have released := State.foldl_class (k := 6) (f := fun t p => t.release p (some (told.ownerOf c)))
    (fun t p => congrArg (Table.get · 6) (t.release_gives p _).2.2.2.1) (told.heldBy (told.ownerOf c)) told
  refine ⟨(State.freeIfDone_slots ..).trans (State.releases_slots ..),
    (State.freeIfDone_class (by decide) (by decide) fun j v _ _ => ?_).trans released⟩
  unfold CallInfo.endNotice
  repeat' split
  all_goals simp [NoticeBody.cls]

/-- The clearing of an ACTIVE call, whatever its cause, ends the captures of the call (R83, R174). -/
theorem State.clearCall_capturesEnded (w : ClearCause) (call : (s.ctx c).call = some i) (active : i.stage = .active) :
    s.CapturesEnded (s.clearCall c w) c (indices 4) := by
  obtain ⟨slots, done⟩ := State.clearCall_captures w call active
  obtain ⟨slots', done'⟩ := State.capturesEnded nodup_indices (s.setCtx c ((s.ctx c).clearing i w)) c
  refine ⟨fun k => ?_, done.trans done'⟩
  rw [slots, State.endCaptures, slots', State.ctx_setCtx_self]
  rfl

/-! ### The statement -/

/-- Settles O28: the items of CAPTURE in their order, one lemma each, and the clearing of the call. -/
theorem captureByMode : Obligations.CaptureByMode := by
  refine ⟨fun tag s k c i count n idle => ⟨fun call active unarmed => ⟨?now, ?held, ?older, ?next, ?mark⟩, ?armed, ?cancel⟩,
    fun tag slot call count mode n s idle => ⟨fun bad => ?badArg, fun k c slot_ call_ mode_ => ?items⟩,
    fun s c i call active => ?clearing⟩
  case now =>
    exact answer_of_portFree idle tag (r := .capture ..)
      (takeCapture_starts (s := s.fresh) (n := n) unarmed call active count (mode := 0) rfl rfl)
  case held =>
    intro before x after ring number first newest
    have within : (CaptureMode.fromSample n).beyond (s.ctx c).ring = false := by
      obtain ⟨y, last⟩ := Option.ne_none_iff_exists'.mp
        (mt List.getLast?_eq_none_iff.mp (ring ▸ List.append_ne_nil_of_right_ne_nil before (List.cons_ne_nil x after)))
      exact beyondRing_eq_false last (newest y last)
    have started := takeCapture_starts (s := s.fresh) (n := n) unarmed call active count (mode := 1) rfl within
    have copied := copyFrom_held (after := after) number first (count.val + 1)
    rw [← ring] at copied
    dsimp only [State.startCapture] at started
    rw [State.ctx_fresh, copied] at started
    exact answer_of_portFree idle tag (r := .capture ..) started
  case older =>
    rintro gone ⟨y, newest, within⟩
    have started := takeCapture_starts (s := s.fresh) (n := n) unarmed call active count (mode := 1) rfl
      (beyondRing_eq_false newest within)
    dsimp only [State.startCapture] at started
    rw [State.ctx_fresh, copyFrom_older gone] at started
    exact answer_of_portFree idle tag (r := .capture ..) started
  case next =>
    exact answer_of_portFree idle tag (r := .capture ..)
      (takeCapture_starts (s := s.fresh) (n := n) unarmed call active count (mode := 2) rfl rfl)
  case mark =>
    exact answer_of_portFree idle tag (r := .capture ..)
      (takeCapture_starts (s := s.fresh) (n := n) unarmed call active count (mode := 3) rfl rfl)
  case armed =>
    intro armed mode small
    obtain ⟨m, mode_⟩ := exists_asMode small n
    exact refused_of_take idle tag (r := .capture ..)
      (takeCapture_armed (s := s.fresh) (asCapture_byte k) (asCall_byte c) mode_ armed)
  case cancel => exact answer_of_portFree idle tag (r := .cancelCapture _) (takeCancelCapture_eq (s := s.fresh) k)
  case badArg => exact refused_of_take idle tag (r := .capture ..) (takeCapture_badArg (s := s.fresh) bad count n)
  case items =>
    obtain ⟨m, mode_⟩ := exists_asMode mode_ n
    have slot_ := asCapture_eq_some slot_
    have call_ := asCall_eq_some call_
    refine ⟨fun armed => ?_, fun unarmed => ⟨fun notActive => ?_, fun i inUse active => ⟨fun bad => ?_, ?_⟩⟩⟩
    · exact refused_of_take idle tag (r := .capture ..) (takeCapture_armed (s := s.fresh) slot_ call_ mode_ armed)
    · exact refused_of_take idle tag (r := .capture ..) (takeCapture_noSuch (s := s.fresh) slot_ call_ mode_ unarmed notActive)
    · exact refused_of_take idle tag (r := .capture ..)
        (takeCapture_badCount (s := s.fresh) slot_ call_ mode_ unarmed inUse active bad)
    · rintro - - rfl beyond
      exact refused_of_take idle tag (r := .capture ..) (takeCapture_beyond (s := s.fresh) (m := .fromSample n) slot_ call_
        rfl unarmed inUse active (beyondRing_eq_true_iff.mpr beyond))
  case clearing =>
    have ended {t : State} (h : s.CapturesEnded t c (indices 4)) := And.intro
      (fun k => (h.slots k).trans (if_pos (mem_indices k))) h.done
    refine ⟨fun cause => ended (State.clearCall_capturesEnded cause call active), fun tag idle => ?_⟩
    obtain ⟨slots, done⟩ := State.clearCall_capturesEnded (s := s.fresh) .closed call active
    exact ⟨_, answer_of_portFree idle tag (r := .closeCall _) (takeCloseCall_used (s := s.fresh) call),
      ended ⟨slots, done⟩⟩

end Sys2Proof.Machine
end

