-- ==== Sys2Proof/Proofs/MarkLine.lean ====
section
/-! The mark line: driven by MARK, its edges, and the end of the drive (R173, R176, R177; O29). -/

namespace Sys2Proof.Machine

open State

variable {s : State}

/-! ### Edges and drives -/

theorem State.markEdge_running (running : s.runState ≠ .halted) :
    s.markEdge = { s with slots := s.slots.map CaptureSlot.edge } := if_neg running

theorem State.markEdge_halted (halted : s.runState = .halted) : s.markEdge = s := if_pos halted

/-- A line already driven is driven on for 2 ticks, with no edge. -/
theorem State.driveMark_driving {d : Nat} (driving : s.markDrive = some d) :
    s.driveMark = { s with markDrive := some 2 } := by
  simp only [driveMark, driving]

/-- A drive that begins takes a free value, and makes an edge only on a line that was high, and outside HALTED. -/
theorem State.driveMark_begins (idle : s.markDrive = none) : ∃ slots,
    (slots = s.slots ∨ s.runState ≠ .halted ∧ slots = s.slots.map CaptureSlot.edge) ∧
      s.driveMark = { s with markDrive := some 2, slots := slots, freeCount := s.freeCount + 1 } := by
  simp only [driveMark, idle]
  split
  · by_cases halted : s.runState = .halted
    · exact ⟨_, .inl rfl, State.markEdge_halted halted⟩
    · exact ⟨_, .inr ⟨halted, rfl⟩, State.markEdge_running halted⟩
  · exact ⟨_, .inl rfl, rfl⟩

/-! ### The end of the drive (R177) -/

theorem takeMarkDriveEnd_due (due : s.markDrive = some 0) : takeMarkDriveEnd s = { s with markDrive := none } := if_pos due

theorem takeMarkDriveEnd_notDue (notDue : s.markDrive ≠ some 0) : takeMarkDriveEnd s = s := if_neg notDue

/-! ### The statement -/

/-- Settles O29: MARK on a line driven and idle, MARK_EDGE by run state and pin, MARK_DRIVE_END due and not. -/
theorem markLineDrivesAndEdges : Obligations.MarkLineDrivesAndEdges := by
  refine ⟨fun tag s free => ⟨fun d driving => ?driving, fun idle => ?begins⟩, fun s released running => ?edge,
    fun s ignored => congrArg Host.Outcome.next ?ignored, fun s =>
      ⟨fun due => congrArg Host.Outcome.next (takeMarkDriveEnd_due (s := s.fresh) due),
        fun notDue => congrArg Host.Outcome.next (takeMarkDriveEnd_notDue (s := s.fresh) notDue)⟩⟩
  case driving =>
    exact answer_of_portFree free tag (r := .mark) (congrArg (Prod.mk _) (State.driveMark_driving (s := s.fresh) driving))
  case begins =>
    obtain ⟨slots, edged, driven⟩ := State.driveMark_begins (s := s.fresh) idle
    exact ⟨slots, edged, answer_of_portFree free tag (r := .mark) (congrArg (Prod.mk _) driven)⟩
  case edge =>
    refine ⟨s.slots.map CaptureSlot.edge, fun k => ?_, congrArg Host.Outcome.next ?_⟩
    · rw [Table.get_map]
      cases s.slots.get k <;> rfl
    · rw [released]
      exact State.markEdge_running (s := s.fresh) running
  case ignored =>
    rcases ignored with held | halted
    · exact if_pos held
    · rw [State.markEdge_halted (s := s.fresh) halted, ite_self]

end Sys2Proof.Machine
end
-- ==== Sys2Proof/Proofs/Transmitter.lean ====
section
/-! The port between a good frame and the line HTX: a request on an idle link (O15), the request buffer, the refusal queue
and REPLY_SENT (O31). -/

namespace Sys2Proof.Machine

open State

variable {s : State} {l : Link} {e : Executing}

/-! ### The next frame of the transmitter (R180) -/

theorem Link.startTx_sending (sending : l.sending ≠ .idle) : l.startTx = l := by
  unfold Link.startTx
  split
  · next idle => exact absurd idle sending
  · rfl
  · rfl

theorem Link.startTx_executing_some (idle : l.sending = .idle) (executing : l.executing = some e) :
    l.startTx = { l with sending := if l.refusals = [] then .reply else .busy } := by
  by_cases none : l.refusals = [] <;> simp [Link.startTx, idle, executing, none]

theorem Link.startTx_executing_none (idle : l.sending = .idle) (executing : l.executing = none) :
    l.startTx = { l with sending := if l.refusals = [] then .idle else .busy } := by
  obtain ⟨_, _, _, _, refusals, _, _, _⟩ := l
  obtain rfl : _ = Sending.idle := idle
  obtain rfl : _ = Option.none := executing
  by_cases none : refusals = [] <;> simp [Link.startTx, none]

/-! ### A good frame at a busy port (R180) -/

theorem Link.place_of_bothFull {b : Buffered} (buffer : 4 ≤ l.buffer.length) (refusals : 4 ≤ l.refusals.length) :
    l.place b = { l with errors := sat 65535 l.errors } := by
  rw [Link.place, if_neg (Nat.not_lt.mpr buffer), if_neg (Nat.not_lt.mpr refusals)]

theorem Link.place_sending (l : Link) (b : Buffered) : (l.place b).sending = l.sending := by
  rcases l.place_cases b with ⟨_, e⟩ | ⟨_, _, e⟩ | ⟨_, _, e⟩ <;> rw [e]

/-- While a request executes and a frame is on HTX, a good frame is placed and nothing is handed on or started. -/
theorem State.submit_busy (released : s.resetHeld = false) (running : s.link.resetting = false)
    (executing : s.link.executing ≠ none) (sending : s.link.sending ≠ .idle) (tag : Byte) (r : Request) :
    s.submit tag r = s.setLink (s.link.place { tag := tag, request := r }) := by
  obtain ⟨e, executing⟩ := Option.ne_none_iff_exists'.mp executing
  have kept : (s.setLink (s.link.place { tag := tag, request := r })).handOn =
      s.setLink (s.link.place { tag := tag, request := r }) :=
    State.handOn_of_executing ((Link.place_executing ..).trans executing)
  rw [State.submit, released, running, Bool.or_self, if_neg Bool.false_ne_true, State.advance, kept, setLink_link,
    Link.startTx_sending (by rwa [Link.place_sending]), setLink_setLink]

/-! ### The port moving on (R180, R181) -/

theorem State.advance_executing (executing : s.link.executing = some e) (idle : s.link.sending = .idle) :
    s.advance = s.setLink { s.link with sending := if s.link.refusals = [] then .reply else .busy } := by
  rw [State.advance, State.handOn_of_executing executing, Link.startTx_executing_some idle executing]

theorem State.advance_unbuffered (executing : s.link.executing = none) (buffer : s.link.buffer = [])
    (idle : s.link.sending = .idle) :
    s.advance = s.setLink { s.link with sending := if s.link.refusals = [] then .idle else .busy } := by
  rw [State.advance, State.handOn_of_empty buffer, Link.startTx_executing_none idle executing]

/-- A request whose owner leaves the link alone executes on the link as it was. -/
theorem State.execute_eq {b : Buffered} (owner : b.request ≠ .reset) (s : State) : s.execute b =
    (takeRequest b.request s).2.setLink { s.link with
      executing := some { code := b.request.code, tag := b.tag, reply := (takeRequest b.request s).1 } } := by
  rw [← (takeRequest_keepsLink b.request owner s).link]
  rfl

/-- With nothing executing the oldest buffered request is taken by its owner, and the transmitter goes on. -/
theorem State.advance_buffered (executing : s.link.executing = none) {b : Buffered} {rest : List Buffered}
    (buffer : s.link.buffer = b :: rest) (idle : s.link.sending = .idle) (owner : b.request ≠ .reset) {taken : Taken}
    (takes : takeRequest b.request (s.setLink { s.link with buffer := rest }) = taken) :
    s.advance = taken.2.setLink { s.link with
      buffer := rest, executing := some { code := b.request.code, tag := b.tag, reply := taken.1 }
      sending := if s.link.refusals = [] then .reply else .busy } := by
  have handed : s.handOn = (s.setLink { s.link with buffer := rest }).execute b := by
    simp only [State.handOn, executing, buffer]
  rw [State.advance, handed, State.execute_eq owner, takes, setLink_link, setLink_setLink, setLink_link,
    Link.startTx_executing_some (by exact idle) rfl]

/-! ### REPLY_SENT (R180, R181) -/

theorem takeReplySent_idle (sending : s.link.sending = .idle) : takeReplySent s = s := by
  simp only [takeReplySent, sending]

/-- A BUSY reply that ends leaves the refusal queue, and the port moves on. -/
theorem takeReplySent_busy (sending : s.link.sending = .busy) : takeReplySent s =
    (s.setLink { s.link with sending := .idle, refusals := s.link.refusals.tail }).advance := by
  simp only [takeReplySent, sending, setLink_link, setLink_setLink]

/-- A reply that ends outside a RESET ends its request, and the port moves on. -/
theorem takeReplySent_reply (sending : s.link.sending = .reply) (running : s.link.resetting = false) :
    takeReplySent s = (s.setLink { s.link with sending := .idle, executing := none }).advance := by
  simp only [takeReplySent, sending, running, Bool.false_eq_true, if_false, State.setExecuting, setLink_link,
    setLink_setLink]

/-! ### The statements -/

/-- Settles O15: on an idle link a request is answered at once, and no owner but the port's own RESET touches the link. -/
theorem ownerAnswersAtOnce : Obligations.OwnerAnswersAtOnce := fun r tag s known owner idle =>
  ⟨(exec_commandOf known tag s).trans (answer_of_portFree idle tag rfl owner), (takeRequest_keepsLink r owner s.fresh).link⟩

/-- Settles O31: where a good frame goes by the room in the two queues, and what REPLY_SENT does by what was on HTX. -/
theorem transmitterAndBuffers : Obligations.TransmitterAndBuffers := by
  refine ⟨fun r tag s known released running executing sending => ?placed,
    fun s sending => congrArg Host.Outcome.next (takeReplySent_idle (s := s.fresh) sending),
    fun s e q rest sending executing refusals => congrArg Host.Outcome.next ?busy,
    fun s sending running buffer => congrArg Host.Outcome.next ?unbuffered,
    fun s b rest sending running buffer owner => congrArg Host.Outcome.next ?buffered⟩
  case placed =>
    have placed {l : Link} (placing : s.link.place { tag := tag, request := r } = l) :
        exec (commandOf tag r) s = .next { s.fresh with link := l } := by
      rw [exec_commandOf known, State.submit_busy (s := s.fresh) released running executing sending, ← placing]
      rfl
    exact ⟨fun room => placed (Link.place_of_room room), fun full room => placed (Link.place_of_full full room),
      fun full both => placed (Link.place_of_bothFull full both)⟩
  case busy =>
    rw [takeReplySent_busy (s := s.fresh) sending, fresh_link, refusals]
    exact State.advance_executing (s := s.fresh.setLink _) executing rfl
  case unbuffered =>
    rw [takeReplySent_reply (s := s.fresh) sending running]
    exact State.advance_unbuffered (s := s.fresh.setLink _) rfl buffer rfl
  case buffered =>
    rw [takeReplySent_reply (s := s.fresh) sending running]
    exact State.advance_buffered (s := s.fresh.setLink { s.link with sending := .idle, executing := none }) rfl buffer rfl
      owner rfl

end Sys2Proof.Machine
end
-- ==== Sys2Proof/Proofs/RequestCoding.lean ====
section
/-! The parameter bytes of a request, parsed back (O33). -/

namespace Sys2Proof

/-! ### Numbers of two and four bytes, most significant first (R183) -/

theorem join16_split16 (x : BitVec 16) : join16 (x.extractLsb' 8 8) (x.extractLsb' 0 8) = x := by
  rw [join16, BitVec.extractLsb'_append_extractLsb'_eq_extractLsb' (show 8 = 0 + 8 from rfl),
    BitVec.extractLsb'_eq_self]

theorem join32_split32 (x : BitVec 32) :
    join32 (x.extractLsb' 24 8) (x.extractLsb' 16 8) (x.extractLsb' 8 8) (x.extractLsb' 0 8) = x := by
  rw [join32, BitVec.extractLsb'_append_extractLsb'_eq_extractLsb' (show 24 = 16 + 8 from rfl),
    BitVec.extractLsb'_append_extractLsb'_eq_extractLsb' (show 8 = 0 + 8 from rfl),
    BitVec.extractLsb'_append_extractLsb'_eq_extractLsb' (show 16 = 0 + (8 + 8) from rfl), BitVec.extractLsb'_eq_self]

/-! ### Lists of entries and of pairs -/

theorem parseEntries_entryBytes (entries : List (Byte × Byte)) :
    parseEntries entries.length (entryBytes entries) = some entries := by
  induction entries with
  | nil => rfl
  | cons e rest ih => rw [entryBytes, List.length_cons, parseEntries, ih, Option.map_some]

theorem parsePairs_pairBytes (pairs : List (Byte × BitVec 16)) :
    parsePairs pairs.length (pairBytes pairs) = some pairs := by
  induction pairs with
  | nil => rfl
  | cons p rest ih =>
    have bytes : pairBytes (p :: rest) = p.1 :: p.2.extractLsb' 8 8 :: p.2.extractLsb' 0 8 :: pairBytes rest := rfl
    rw [bytes, List.length_cons, parsePairs, ih, join16_split16, Option.map_some]

theorem length_entryBytes (entries : List (Byte × Byte)) : (entryBytes entries).length = 2 * entries.length :=
  Machine.length_of_parseEntries (parseEntries_entryBytes entries)

theorem length_pairBytes (pairs : List (Byte × BitVec 16)) : (pairBytes pairs).length = 3 * pairs.length :=
  Machine.length_of_parsePairs (parsePairs_pairBytes pairs)

end Sys2Proof

namespace Sys2Proof.Machine

variable {code : Byte} {params : List Byte} {r : Request}

/-! ### Requests in frames -/

/-- The code and parameters of a request that a frame can carry make a body of at most 250 bytes with the tag (R178). -/
theorem carried_length (h : carried r) : r.params.length + 2 ≤ 250 := by
  cases r with
  | unknown c => exact h.elim
  | badLength c => exact h.elim
  | setNeighbours b es => exact of_decide_eq_true h
  | setTimers ps => exact of_decide_eq_true h
  | setEvaluator ps => exact of_decide_eq_true h
  | _ => exact Nat.le_of_ble_eq_true rfl

theorem code_mem_catalogue (h : carried r) : r.code ∈ catalogue := by
  cases r with
  | unknown c => exact h.elim
  | badLength c => exact h.elim
  | _ => exact of_decide_eq_true rfl

/-- The count byte of a neighbour list that a frame can carry is its length. -/
theorem toNat_entryCount {b : Byte} {entries : List (Byte × Byte)} (h : carried (.setNeighbours b entries)) :
    (BitVec.ofNat 8 entries.length).toNat = entries.length := by
  have fits : (entryBytes entries).length + 1 + 1 + 2 ≤ 250 := carried_length h
  rw [length_entryBytes] at fits
  exact toNat_ofNat8 (by omega)

/-- The count byte of a list of setting pairs that a frame can carry is its length. -/
theorem toNat_pairCount {pairs : List (Byte × BitVec 16)} (fits : (pairBytes pairs).length + 1 + 2 ≤ 250) :
    (BitVec.ofNat 8 pairs.length).toNat = pairs.length := by
  rw [length_pairBytes] at fits
  exact toNat_ofNat8 (by omega)

/-- A request of fixed length is what the parser of fixed lengths makes of it: that one takes no list. -/
theorem parseRequest_of_parseFixed (mem : code ∈ catalogue) (h : parseFixed code params = some r) :
    parseRequest code params = r := by
  unfold parseRequest
  rw [if_pos mem]
  dsimp only
  split
  · next read =>
    rw [eq_of_toNat_eq_code read] at h
    exact nomatch h
  · next read =>
    rw [eq_of_toNat_eq_code read] at h
    exact nomatch h
  · next read =>
    rw [eq_of_toNat_eq_code read] at h
    exact nomatch h
  · rw [h, Option.getD_some]

theorem parseRequest_entries {n : Byte} {entries : List (Byte × Byte)} (b : Byte) (count : n.toNat = entries.length) :
    parseRequest 0x12 (b :: n :: entryBytes entries) = .setNeighbours b entries := by
  have parsed : parseRequest 0x12 (b :: n :: entryBytes entries) =
      ((parseEntries n.toNat (entryBytes entries)).map (Request.setNeighbours b)).getD (.badLength 0x12) := rfl
  rw [parsed, count, parseEntries_entryBytes, Option.map_some, Option.getD_some]

theorem parseRequest_pairs {n : Byte} {pairs : List (Byte × BitVec 16)} (count : n.toNat = pairs.length) :
    parseRequest 0x13 (n :: pairBytes pairs) = .setTimers pairs ∧
      parseRequest 0x14 (n :: pairBytes pairs) = .setEvaluator pairs := by
  have parsed (code : Byte) (f : List (Byte × BitVec 16) → Request) :
      ((parsePairs n.toNat (pairBytes pairs)).map f).getD (.badLength code) = f pairs := by
    rw [count, parsePairs_pairBytes, Option.map_some, Option.getD_some]
  exact ⟨parsed 0x13 Request.setTimers, parsed 0x14 Request.setEvaluator⟩

/-! ### The statement -/

/-- Settles O33: single bytes are read as they stand, words by `join32_split32`, and lists by their count byte. -/
theorem parameterCodingRoundTrip : Obligations.ParameterCodingRoundTrip := by
  intro r known
  have fixed (h : parseFixed r.code r.params = some r) : parseRequest r.code r.params = r :=
    parseRequest_of_parseFixed (code_mem_catalogue known) h
  cases r with
  | unknown c => exact known.elim
  | badLength c => exact known.elim
  | setNeighbours b es => exact parseRequest_entries b (toNat_entryCount known)
  | setTimers ps => exact (parseRequest_pairs (toNat_pairCount (carried_length known))).1
  | setEvaluator ps => exact (parseRequest_pairs (toNat_pairCount (carried_length known))).2
  | enrol t c k =>
    exact fixed (congrArg some (congrArg₂ (Request.enrol · · k) (join32_split32 t) (join32_split32 c)))
  | remove k v => exact fixed (congrArg (some <| Request.remove k ·) (join32_split32 v))
  | bar k v => exact fixed (congrArg (some <| Request.bar k ·) (join32_split32 v))
  | unbar k v => exact fixed (congrArg (some <| Request.unbar k ·) (join32_split32 v))
  | queryHandset k v => exact fixed (congrArg (some <| Request.queryHandset k ·) (join32_split32 v))
  | openCall t d => exact fixed (congrArg (some <| Request.openCall · d) (join32_split32 t))
  | admitCall t b z => exact fixed (congrArg (some <| Request.admitCall · b z) (join32_split32 t))
  | capture k c n m x => exact fixed (congrArg (some <| Request.capture k c n m ·) (join32_split32 x))
  | _ => exact fixed rfl

end Sys2Proof.Machine
end
-- ==== Sys2Proof/Proofs/Receiver.lean ====
section
/-! The receiver byte by byte, and the bytes of a whole frame from HUNT, good or damaged (O32, O34). -/

namespace Sys2Proof

theorem byteSum_append_singleton (bytes : List Byte) (x : Byte) : byteSum (bytes ++ [x]) = byteSum bytes + x :=
  List.foldl_append

/-- The CHECK byte of a frame makes the sum 0 (R178). -/
theorem byteSum_append_check (bytes : List Byte) : byteSum (bytes ++ [-byteSum bytes]) = 0 :=
  (byteSum_append_singleton ..).trans (BitVec.add_right_neg _)

end Sys2Proof

namespace Sys2Proof.Machine

open State

variable {s t : State} {length x : Byte} {bytes : List Byte}

/-! ### One byte (R179) -/

/-- The receiver moved, and the gap count loaded. -/
def State.await (s : State) (r : Receiver) : State := s.setLink (s.link.await r)

theorem State.await_await (s : State) (r q : Receiver) : (s.await r).await q = s.await q := rfl

theorem takeHrxByte_released (released : s.resetHeld = false) (x : Byte) (stop : Bool) :
    takeHrxByte x stop s = s.receive x stop := if_neg (by simp [released])

theorem State.receive_start (hunt : s.link.receiver = .hunt) : s.receive 0xA5 true = s.await .length := by
  simp [State.receive, hunt, State.await]

theorem State.receive_discarded {stop : Bool} (hunt : s.link.receiver = .hunt) (other : x ≠ 0xA5 ∨ stop = false) :
    s.receive x stop = s := by
  have out : (stop && x == 0xA5) = false := by
    rcases other with other | broken
    · rw [beq_false_of_ne other, Bool.and_false]
    · rw [broken, Bool.false_and]
  simp only [State.receive, hunt, out, Bool.false_eq_true, if_false]

/-- Outside HUNT a missing stop bit discards the partial frame. -/
theorem State.receive_broken (begun : s.link.receiver ≠ .hunt) : s.receive x false = s.setLink s.link.failed := by
  unfold State.receive
  split
  · next hunt => exact absurd hunt begun
  · rfl
  · rfl
  · rfl

theorem State.receive_length (waits : s.link.receiver = .length) (low : 2 ≤ x.toNat) (high : x.toNat ≤ 250) :
    s.receive x true = s.await (.body x []) := by
  simp [State.receive, waits, low, high, State.await]

theorem State.receive_badLength (waits : s.link.receiver = .length) (bad : x.toNat < 2 ∨ 250 < x.toNat) :
    s.receive x true = s.setLink s.link.hunting := by
  have out : ¬(2 ≤ x.toNat ∧ x.toNat ≤ 250) := by omega
  simp [State.receive, waits, out]

theorem State.receive_body (waits : s.link.receiver = .body length bytes) : s.receive x true = s.await
    (if bytes.length + 1 < length.toNat then .body length (bytes ++ [x]) else .check length (bytes ++ [x])) := by
  by_cases more : bytes.length + 1 < length.toNat <;> simp [State.receive, waits, more, State.await]

theorem State.receive_check (waits : s.link.receiver = .check length bytes) :
    s.receive x true = s.checkFrame length bytes x := by
  simp [State.receive, waits]

theorem takeGapCountExpiry_due (due : s.link.gap = some 0) : takeGapCountExpiry s = s.setLink s.link.hunting := if_pos due

theorem takeGapCountExpiry_notDue (notDue : s.link.gap ≠ some 0) : takeGapCountExpiry s = s := if_neg notDue

/-! ### A whole frame (R178, R179) -/

/-- The state after bytes with their stop bits, one after the other. -/
def State.receiveAll (s : State) (bytes : List Byte) : State :=
  bytes.foldl (fun t x => takeHrxByte x true t) s

theorem State.receiveAll_cons (released : s.resetHeld = false) (received : s.receive x true = t) (bytes : List Byte) :
    s.receiveAll (x :: bytes) = t.receiveAll bytes :=
  congrArg (State.receiveAll · bytes) ((takeHrxByte_released released x true).trans received)

/-- In BODY the rest of the body is held, and the byte after it is the check. -/
theorem State.receiveAll_body (released : s.resetHeld = false) {rest : List Byte} (nonempty : rest ≠ [])
    (whole : bytes.length + rest.length = length.toNat) :
    (s.await (.body length bytes)).receiveAll (rest ++ [x]) = s.checkFrame length (bytes ++ rest) x := by
  induction rest generalizing bytes with
  | nil => exact absurd rfl nonempty
  | cons y rest ih =>
    rw [List.length_cons] at whole
    refine (State.receiveAll_cons (s := s.await _) released (State.receive_body rfl) _).trans ?_
    rw [State.await_await]
    cases rest with
    | nil =>
      have last : ¬bytes.length + 1 < length.toNat := by rw [← whole, List.length_nil]; omega
      rw [if_neg last]
      exact State.receiveAll_cons (s := s.await _) released (State.receive_check rfl) []
    | cons z rest =>
      have more : bytes.length + 1 < length.toNat := by rw [← whole, List.length_cons]; omega
      have held : (bytes ++ [y]).length + (z :: rest).length = length.toNat := by
        rw [List.length_append, List.length_singleton, Nat.add_assoc, Nat.add_comm 1, whole]
      rw [if_pos more]
      exact (ih (List.cons_ne_nil z rest) held).trans (by rw [List.append_assoc, List.singleton_append])

/-- From HUNT a whole frame is judged by its sum: its body goes to the request buffer, or an error is counted. -/
theorem State.receiveAll_frame (released : s.resetHeld = false) (hunt : s.link.receiver = .hunt) (gap : s.link.gap = none)
    {body : List Byte} (low : 2 ≤ body.length) (high : body.length ≤ 250) (x : Byte) :
    s.receiveAll (0xA5 :: BitVec.ofNat 8 body.length :: body ++ [x]) =
      if byteSum (BitVec.ofNat 8 body.length :: body ++ [x]) = 0 then s.submitBody body
      else s.setLink { s.link with errors := sat 65535 s.link.errors } := by
  have count : (BitVec.ofNat 8 body.length).toNat = body.length := toNat_ofNat8 (by omega)
  have nonempty : body ≠ [] := List.ne_nil_of_length_pos (by omega)
  have idle : s.link.hunting = s.link := by rw [Link.hunting, ← hunt, ← gap]
  calc s.receiveAll (0xA5 :: BitVec.ofNat 8 body.length :: body ++ [x])
    _ = (s.await .length).receiveAll (BitVec.ofNat 8 body.length :: body ++ [x]) :=
      State.receiveAll_cons released (State.receive_start hunt) _
    _ = (s.await (.body (BitVec.ofNat 8 body.length) [])).receiveAll (body ++ [x]) :=
      State.receiveAll_cons (s := s.await .length) released
        (State.receive_length rfl (by rwa [count]) (by rwa [count])) _
    _ = s.checkFrame (BitVec.ofNat 8 body.length) body x :=
      State.receiveAll_body released nonempty (by rw [count, List.length_nil, Nat.zero_add])
    _ = _ := by rw [State.checkFrame, Link.failed, idle, setLink_self]

/-- From HUNT the frame of a request that a frame can carry does what the request does. -/
theorem State.receiveAll_request (released : s.resetHeld = false) (hunt : s.link.receiver = .hunt)
    (gap : s.link.gap = none) {r : Request} (known : carried r) (tag : Byte) :
    s.receiveAll (r.frame tag) = s.submit tag r := by
  have fits : r.params.length + 1 + 1 ≤ 250 := carried_length known
  refine (State.receiveAll_frame released hunt gap (body := r.code :: tag :: r.params) (Nat.le_add_left ..) fits _).trans ?_
  rw [if_pos (byteSum_append_check (BitVec.ofNat 8 (r.code :: tag :: r.params).length :: r.code :: tag :: r.params)),
    State.submitBody, parameterCodingRoundTrip r known]

/-! ### The statements -/

/-- Settles O32: the receiver keeps the body, its sum is 0, and its parameters parse to the request. -/
theorem frameBytesGiveTheRequest : Obligations.FrameBytesGiveTheRequest := fun r tag s known released hunt gap =>
  ⟨s.fresh.submit tag r,
    congrArg Host.Outcome.next (State.receiveAll_request (s := s.fresh) released hunt gap known tag),
    exec_commandOf known tag s⟩

/-- Settles O34: a frame whose sum is not 0, each receiver state's next byte, and the gap count due and not. -/
theorem receiverTakesBytesAndFrames : Obligations.ReceiverTakesBytesAndFrames := by
  refine ⟨fun s body x released hunt gap low high wrong => congrArg Host.Outcome.next ?damaged,
    fun s x stop released => ?byte, fun s =>
      ⟨fun due => congrArg Host.Outcome.next (takeGapCountExpiry_due (s := s.fresh) due),
        fun notDue => congrArg Host.Outcome.next (takeGapCountExpiry_notDue (s := s.fresh) notDue)⟩⟩
  case damaged =>
    rw [← byteSum_append_singleton] at wrong
    exact (State.receiveAll_frame (s := s.fresh) released hunt gap low high x).trans (if_neg wrong)
  case byte =>
    have byte {t : State} (received : s.fresh.receive x stop = t) : exec (.hrxByte x stop) s = .next t :=
      congrArg Host.Outcome.next ((takeHrxByte_released (s := s.fresh) released x stop).trans received)
    refine ⟨?start, fun hunt other => byte (State.receive_discarded (s := s.fresh) hunt other), ?broken, ?length,
      ?badLength, ?body⟩
    case start =>
      rintro hunt rfl rfl
      exact byte (State.receive_start (s := s.fresh) hunt)
    case broken =>
      rintro begun rfl
      exact byte (State.receive_broken (s := s.fresh) begun)
    case length =>
      rintro waits rfl low high
      exact byte (State.receive_length (s := s.fresh) waits low high)
    case badLength =>
      rintro waits rfl bad
      exact byte (State.receive_badLength (s := s.fresh) waits bad)
    case body =>
      rintro length bytes waits rfl
      exact byte (State.receive_body (s := s.fresh) waits)

end Sys2Proof.Machine
end

