-- ==== Sys2Proof/Proofs/OldestCommand.lean ====
section
/-! One step by the front of the queue: the oldest command runs on the queue's rest, and an empty queue idles (O1). -/

namespace Sys2Proof.Machine

variable {s : State}

theorem step_of_pending_cons {c : Instr} {rest : List Instr} (front : s.pending = c :: rest) :
    step s = exec c { s with pending := rest } := by
  simp only [step, front]

theorem step_of_pending_nil (empty : s.pending = []) : step s = .next s := by
  simp only [step, empty]

/-- Settles O1: the front command, taken off the queue that it was put on, leaves `s` itself; with none the block idles. -/
theorem stepRunsOldestCommand : Obligations.StepRunsOldestCommand :=
  ⟨fun c s => step_of_pending_cons (s := { s with pending := c :: s.pending }) rfl, fun _ => step_of_pending_nil⟩

end Sys2Proof.Machine
end
